-- ==== Sys2Proof/Word.lean ====
section
/-! DEFINITION. The word types of the machine (00_scope R11, R14): 32-bit words, 16-bit halfwords, 8-bit bytes,
and the number of a register in an instruction field. -/

namespace Sys2Proof

/-- A 32-bit register, address or data word. -/
abbrev Word := BitVec 32

/-- A 16-bit halfword: a Thumb instruction, a colour, an I/O register. -/
abbrev Half := BitVec 16

/-- One byte of memory. -/
abbrev Byte := BitVec 8

/-- A 4-bit register field: R0-R15 (30_encoding R303). -/
abbrev RegNum := BitVec 4

/-- A 3-bit register field of a Thumb instruction: R0-R7 (30_encoding R330). -/
abbrev LowReg := BitVec 3

end Sys2Proof
end

