-- ==== Sys2Proof/Machine/Bits.lean ====
section
/-! DEFINITION. The bit helpers every other file uses: alignment, byte lanes, byte order (20_memory R216, R217). -/

namespace Sys2Proof.Machine

/-- `a AND NOT 1`. -/
def alignHalf (a : Word) : Word := a &&& 0xFFFFFFFE#32

/-- `a AND NOT 3`. -/
def alignWord (a : Word) : Word := a &&& 0xFFFFFFFC#32

/-- Byte `k` of a word. -/
def byteOf (w : Word) (k : Nat) : Byte := w.extractLsb' (8 * k) 8

/-- A word from its bytes, the lowest first (20_memory R216). -/
def wordOfBytes (b0 b1 b2 b3 : Byte) : Word := b3 ++ b2 ++ b1 ++ b0

/-- Byte `k` of a 16-bit register. -/
def halfByte (h : Half) (k : Nat) : Byte := h.extractLsb' (8 * k) 8

/-- A 16-bit register with byte `k` (0 or 1) replaced. -/
def setHalfByte (h : Half) (k : Nat) (b : Byte) : Half :=
  if k = 0 then h.extractLsb' 8 8 ++ b else b ++ h.extractLsb' 0 8

/-- A 32-bit register with byte `k` (0 to 3) replaced. -/
def setWordByte (w : Word) (k : Nat) (b : Byte) : Word :=
  match k with
  | 0 => w.extractLsb' 8 24 ++ b
  | 1 => w.extractLsb' 16 16 ++ b ++ w.extractLsb' 0 8
  | 2 => w.extractLsb' 24 8 ++ b ++ w.extractLsb' 0 16
  | _ => b ++ w.extractLsb' 0 24

/-- 0xFFFFFFFF or 0 (40_alu R429). -/
def replicateBit (b : Bool) : Word := if b then 0xFFFFFFFF#32 else 0#32

/-- ROR of a 32-bit value by any number of bits (00_scope R14). -/
def ror32 (w : Word) (n : Nat) : Word := w.rotateRight (n % 32)

end Sys2Proof.Machine
end

