-- ==== Sys2Proof/Config.lean ====
section
/-! DEFINITION. The named parameters of 00_scope R12 as one record of plain data, with the spec's defaults, and the
free values (`draw`, R17) as constants with no body. A machine state carries its parameters (`State.params`); no
step changes them, so a statement about every state is a statement about every choice of parameters. -/

namespace Sys2Proof.Config

/-- What a read of an unmapped address returns: a draw (a model's value) or the simulator's default, the bytes of
the last fetched word (20_memory R230). -/
inductive OpenBus where
  | draw | lastFetch
  deriving DecidableEq, Repr

/-- 30_encoding R360. -/
inductive InvalidOpcodePolicy where
  | undefinedException | noOp
  deriving DecidableEq, Repr

/-- 43_arm_load_store R575. -/
inductive StmBaseInList where
  | original | newIfNotLowest
  deriving DecidableEq, Repr

/-- 43_arm_load_store R541: the value added to pc when R15 is stored. -/
inductive StorePcOffset where
  | twelve | four
  deriving DecidableEq, Repr

/-- 20_memory R222. -/
inductive NarrowVideoWrites where
  | quirk | plain
  deriving DecidableEq, Repr

/-- 46_bios_hle R752. -/
inductive ArmSwiNumberField where
  | bits23to16 | bits7to0
  deriving DecidableEq, Repr

/-- 62_ppu R1112. -/
inductive EqualPriorityWinner where
  | background | object
  deriving DecidableEq, Repr

/-- 62_ppu R1066. -/
inductive Mode5Format where
  | paletteIndex8 | direct15
  deriving DecidableEq, Repr

/-- 70_reset_and_hazards R1230. -/
inductive DeviceTime where
  | exact | abstractTime
  deriving DecidableEq, Repr

/-- 10_state R130, R131. -/
inductive BootMode where
  | skipBios | biosReset
  deriving DecidableEq, Repr

/-- 44_arm_branch_psr_system R620. -/
inductive SwiHandling where
  | hle | vector
  deriving DecidableEq, Repr

/-- The functions of the emulated BIOS layer (46_bios_hle R751). `HleSwiSet` is a list of these, so a number for
which 46_bios_hle.md has no rule cannot be put in it (93_implementation_defined part 1, "refuse"). -/
inductive HleFn where
  | softReset | div | divArm | sqrt | arcTan | arcTan2 | cpuSet | cpuFastSet | getBiosChecksum
  | bgAffineSet | objAffineSet | bitUnPack | midiKey2Freq
  deriving DecidableEq, Repr

/-- A function-valued parameter: the spec's default, or one supplied from outside, named by a number and left
uninterpreted (log 27). -/
inductive FnChoice where
  | standard | supplied (n : Nat)
  deriving DecidableEq, Repr

/-- The parameters of 00_scope R12. `BiosImage` and the bytes of `RomImage` are memory contents (`State.mem`); the
length of `RomImage` stands here. -/
structure Params where
  /-- Length L of RomImage, 0 ≤ L ≤ 0x2000000 (20_memory R212). -/
  romLength : Fin 0x2000001 := 0
  openBus : OpenBus := .draw
  invalidOpcode : InvalidOpcodePolicy := .undefinedException
  stmBaseInList : StmBaseInList := .original
  storePcOffset : StorePcOffset := .twelve
  misalignedLoadRotate : Bool := true
  narrowVideoWrites : NarrowVideoWrites := .quirk
  hleSwiSet : List HleFn :=
    [.softReset, .div, .divArm, .sqrt, .arcTan, .arcTan2, .cpuSet, .cpuFastSet, .getBiosChecksum,
     .bgAffineSet, .objAffineSet, .bitUnPack, .midiKey2Freq]
  armSwiNumberField : ArmSwiNumberField := .bits23to16
  /-- (R0, R1, R3) of Div(-2^31, -1) (46_bios_hle R757). -/
  divOverflowResult : Word × Word × Word := (0x80000000#32, 0#32, 0x80000000#32)
  arcTanFn : FnChoice := .standard
  arcTan2Fn : FnChoice := .standard
  sinCos : FnChoice := .standard
  midiFreqFn : FnChoice := .standard
  /-- 46_bios_hle R770. -/
  biosChecksum : Word := 0xBAAE187F#32
  /-- 20_memory R252: the maker byte of FlashId. -/
  flashMaker : Byte := 0xC2#8
  /-- 20_memory R252: the device byte of FlashId. -/
  flashDevice : Byte := 0x09#8
  keypadIrq : Bool := true
  equalPriorityWinner : EqualPriorityWinner := .background
  mode5Format : Mode5Format := .paletteIndex8
  colorExpand : FnChoice := .standard
  deviceTime : DeviceTime := .exact
  bootMode : BootMode := .skipBios
  swiHandling : SwiHandling := .hle
  deriving DecidableEq, Repr

/-- The n-th `draw` of a 32-bit value (00_scope R17); a narrower draw takes its low bits (log 2). -/
opaque freeWord : Nat → Word

/-- The n-th `draw` of a count, for `DeviceTime = Abstract` (70_reset_and_hazards R1230, log 29). -/
opaque freeCount : Nat → Nat

/-- The power-on contents of a memory location nothing has written (20_memory R206-R211, R215; log 3). -/
opaque initialByte : Nat → Byte

/-- Byte number `i` (0-3) of the power-on frame buffer's pixel (x, y) (62_ppu R1001; log 4). -/
opaque initialPixelByte : (y x i : Nat) → Byte

/-- The supplied `ArcTanFn` number n (46_bios_hle R760). -/
opaque suppliedArcTan : Nat → Word → Word

/-- The supplied `ArcTan2Fn` number n (46_bios_hle R761). -/
opaque suppliedArcTan2 : Nat → Int → Int → Int

/-- The supplied `SinCos` number n: (sine, cosine) of a 256th of a turn (46_bios_hle R765). -/
opaque suppliedSinCos : Nat → BitVec 8 → Int × Int

/-- The supplied `MidiFreqFn` number n (46_bios_hle R768). -/
opaque suppliedMidiFreq : Nat → Word → Nat → Nat → Word

/-- The supplied `ColorExpand` number n: the 4 output bytes of a 15-bit colour (62_ppu R1140). -/
opaque suppliedColorExpand : Nat → Half → Byte × Byte × Byte × Byte

end Sys2Proof.Config
end

