-- ==== Sys2Proof/Syntax.lean ====
section
/-! DEFINITION. The instructions as data: one constructor of `Instr` per row of spec/opcode_table.json, in the table's
order (64 ARM rows, 64 Thumb rows). Should-be-zero fields that the decoder ignores are kept, so that no bit of a
word is lost (log 26). -/

namespace Sys2Proof

/-- The condition field (30_encoding R306). -/
inductive Cond where
  | eq | ne | cs | cc | mi | pl | vs | vc | hi | ls | ge | lt | gt | le | al | nv
  deriving DecidableEq, Repr

/-- The shift type field (30_encoding R305). -/
inductive ShiftType where
  | lsl | lsr | asr | ror
  deriving DecidableEq, Repr

/-- The sixteen data-processing operations, in encoding order (30_encoding R304). -/
inductive DpOp where
  | and | eor | sub | rsb | add | adc | sbc | rsc | tst | teq | cmp | cmn | orr | mov | bic | mvn
  deriving DecidableEq, Repr

/-- The second operand of data processing: forms A3, A1 and A2 (30_encoding R303, R322, R323). -/
inductive Operand2 where
  /-- A3: `imm8` rotated right by twice `rotate`. -/
  | imm (rotate : BitVec 4) (imm8 : BitVec 8)
  /-- A1: Rm shifted by the immediate form of the shifter. -/
  | shiftImm (type : ShiftType) (amount : BitVec 5) (rm : RegNum)
  /-- A2: Rm shifted by the low byte of Rs. -/
  | shiftReg (type : ShiftType) (rs rm : RegNum)
  deriving DecidableEq, Repr

/-- The offset of a single data transfer, A13 (30_encoding R324). -/
inductive Offset where
  | imm (imm12 : BitVec 12)
  | reg (type : ShiftType) (amount : BitVec 5) (rm : RegNum)
  deriving DecidableEq, Repr

/-- One constructor per row of spec/opcode_table.json. A `body` is bits 27:0 of a reserved ARM word. -/
inductive Instr where
  /-- `BX`: A7, 44 R603. -/
  | armBx (cond : Cond) (rm : RegNum)
  /-- `MUL`: A4, 42 R502; `sbz` is the ignored field of bits 15:12 (R501). -/
  | armMul (cond : Cond) (s : Bool) (rd sbz rs rm : RegNum)
  /-- `MLA`: A4, 42 R503. -/
  | armMla (cond : Cond) (s : Bool) (rd rn rs rm : RegNum)
  /-- `UMULL`: A5, 42 R505. -/
  | armUmull (cond : Cond) (s : Bool) (rdHi rdLo rs rm : RegNum)
  /-- `UMLAL`: A5, 42 R506. -/
  | armUmlal (cond : Cond) (s : Bool) (rdHi rdLo rs rm : RegNum)
  /-- `SMULL`: A5, 42 R507. -/
  | armSmull (cond : Cond) (s : Bool) (rdHi rdLo rs rm : RegNum)
  /-- `SMLAL`: A5, 42 R508. -/
  | armSmlal (cond : Cond) (s : Bool) (rdHi rdLo rs rm : RegNum)
  /-- `UMAAL-path__no-op`: The UMAAL encoding, a no-op: 42 R510. -/
  | armUmaal (cond : Cond) (rdHi rdLo rs rm : RegNum)
  /-- `SWP`: A6, 43 R580. -/
  | armSwp (cond : Cond) (rn rd rm : RegNum)
  /-- `SWPB`: A6, 43 R581. -/
  | armSwpb (cond : Cond) (rn rd rm : RegNum)
  /-- `UNPREDICTABLE__swap__bits_11_8____0`: 30 R320 line 2d, R361. -/
  | armUnpredSwap (cond : Cond) (body : BitVec 28)
  /-- `UNDEFINED__other_multiply_space`: 30 R320 line 2e, R360. -/
  | armUndefMultiply (cond : Cond) (body : BitVec 28)
  /-- `UNPREDICTABLE__doubleword_space__L___0__bit_6___1`: 30 R320 line 3b, R361. -/
  | armUnpredDoubleword (cond : Cond) (body : BitVec 28)
  /-- `STRH__immediate_offset`: A9, 43 R550; `imm8` is immH :: immL. -/
  | armStrhImm (cond : Cond) (p u w : Bool) (rn rd : RegNum) (imm8 : BitVec 8)
  /-- `STRH__register_offset`: A8, 43 R550. -/
  | armStrhReg (cond : Cond) (p u w : Bool) (rn rd rm : RegNum)
  /-- `LDRH__immediate_offset`: A9, 43 R551; `imm8` is immH :: immL. -/
  | armLdrhImm (cond : Cond) (p u w : Bool) (rn rd : RegNum) (imm8 : BitVec 8)
  /-- `LDRH__register_offset`: A8, 43 R551. -/
  | armLdrhReg (cond : Cond) (p u w : Bool) (rn rd rm : RegNum)
  /-- `LDRSB__immediate_offset`: A9, 43 R552; `imm8` is immH :: immL. -/
  | armLdrsbImm (cond : Cond) (p u w : Bool) (rn rd : RegNum) (imm8 : BitVec 8)
  /-- `LDRSB__register_offset`: A8, 43 R552. -/
  | armLdrsbReg (cond : Cond) (p u w : Bool) (rn rd rm : RegNum)
  /-- `LDRSH__immediate_offset`: A9, 43 R553; `imm8` is immH :: immL. -/
  | armLdrshImm (cond : Cond) (p u w : Bool) (rn rd : RegNum) (imm8 : BitVec 8)
  /-- `LDRSH__register_offset`: A8, 43 R553. -/
  | armLdrshReg (cond : Cond) (p u w : Bool) (rn rd rm : RegNum)
  /-- `UNPREDICTABLE__halfword_register_form__bits_11_8____0`: 30 R320 line 3a, R361. -/
  | armUnpredHalfwordReg (cond : Cond) (body : BitVec 28)
  /-- `MRS`: A10, 44 R611. -/
  | armMrs (cond : Cond) (r : Bool) (rd : RegNum)
  /-- `MSR__register`: A11, 44 R612. -/
  | armMsrReg (cond : Cond) (r : Bool) (mask : BitVec 4) (rm : RegNum)
  /-- `UNPREDICTABLE__MRS_should-be_fields`: 30 R320 line 4a, R361. -/
  | armUnpredMrs (cond : Cond) (body : BitVec 28)
  /-- `UNPREDICTABLE__MSR_register_should-be_fields`: 30 R320 line 4b, R361. -/
  | armUnpredMsrReg (cond : Cond) (body : BitVec 28)
  /-- `UNDEFINED__TST_TEQ_CMP_CMN_register_space_with_S___0`: 30 R320 line 4c, R360. -/
  | armUndefCompareReg (cond : Cond) (body : BitVec 28)
  /-- `MSR__immediate`: A12, 44 R612. -/
  | armMsrImm (cond : Cond) (r : Bool) (mask rotate : BitVec 4) (imm8 : BitVec 8)
  /-- `UNPREDICTABLE__MSR_immediate__bits_15_12____1111`: 30 R320 line 5a, R361. -/
  | armUnpredMsrImm (cond : Cond) (body : BitVec 28)
  /-- `UNDEFINED__TST_CMP_immediate_space_with_S___0`: 30 R320 line 5b, R360. -/
  | armUndefCompareImm (cond : Cond) (body : BitVec 28)
  /-- `AND`: A1-A3, 41 R460. -/
  | armAnd (cond : Cond) (s : Bool) (rn rd : RegNum) (op2 : Operand2)
  /-- `EOR`: A1-A3, 41 R461. -/
  | armEor (cond : Cond) (s : Bool) (rn rd : RegNum) (op2 : Operand2)
  /-- `SUB`: A1-A3, 41 R462. -/
  | armSub (cond : Cond) (s : Bool) (rn rd : RegNum) (op2 : Operand2)
  /-- `RSB`: A1-A3, 41 R463. -/
  | armRsb (cond : Cond) (s : Bool) (rn rd : RegNum) (op2 : Operand2)
  /-- `ADD`: A1-A3, 41 R464. -/
  | armAdd (cond : Cond) (s : Bool) (rn rd : RegNum) (op2 : Operand2)
  /-- `ADC`: A1-A3, 41 R465. -/
  | armAdc (cond : Cond) (s : Bool) (rn rd : RegNum) (op2 : Operand2)
  /-- `SBC`: A1-A3, 41 R466. -/
  | armSbc (cond : Cond) (s : Bool) (rn rd : RegNum) (op2 : Operand2)
  /-- `RSC`: A1-A3, 41 R467. -/
  | armRsc (cond : Cond) (s : Bool) (rn rd : RegNum) (op2 : Operand2)
  /-- `TST`: A1-A3, 41 R468; `sbz` is the ignored Rd field (R457). -/
  | armTst (cond : Cond) (rn sbz : RegNum) (op2 : Operand2)
  /-- `TEQ`: A1-A3, 41 R469; `sbz` is the ignored Rd field (R457). -/
  | armTeq (cond : Cond) (rn sbz : RegNum) (op2 : Operand2)
  /-- `CMP`: A1-A3, 41 R470; `sbz` is the ignored Rd field (R457). -/
  | armCmp (cond : Cond) (rn sbz : RegNum) (op2 : Operand2)
  /-- `CMN`: A1-A3, 41 R471; `sbz` is the ignored Rd field (R457). -/
  | armCmn (cond : Cond) (rn sbz : RegNum) (op2 : Operand2)
  /-- `ORR`: A1-A3, 41 R472. -/
  | armOrr (cond : Cond) (s : Bool) (rn rd : RegNum) (op2 : Operand2)
  /-- `MOV`: A1-A3, 41 R473; `sbz` is the ignored Rn field (R450). -/
  | armMov (cond : Cond) (s : Bool) (sbz rd : RegNum) (op2 : Operand2)
  /-- `BIC`: A1-A3, 41 R474. -/
  | armBic (cond : Cond) (s : Bool) (rn rd : RegNum) (op2 : Operand2)
  /-- `MVN`: A1-A3, 41 R475; `sbz` is the ignored Rn field (R450). -/
  | armMvn (cond : Cond) (s : Bool) (sbz rd : RegNum) (op2 : Operand2)
  /-- `UNDEFINED__A14`: 30 R320 line 7, 44 R626. -/
  | armUndefA14 (cond : Cond) (body : BitVec 28)
  /-- `LDRT`: A13 with P = 0, W = 1, 43 R545. -/
  | armLdrt (cond : Cond) (u : Bool) (rn rd : RegNum) (off : Offset)
  /-- `STRT`: A13 with P = 0, W = 1, 43 R546. -/
  | armStrt (cond : Cond) (u : Bool) (rn rd : RegNum) (off : Offset)
  /-- `LDRBT`: A13 with P = 0, W = 1, 43 R547. -/
  | armLdrbt (cond : Cond) (u : Bool) (rn rd : RegNum) (off : Offset)
  /-- `STRBT`: A13 with P = 0, W = 1, 43 R547. -/
  | armStrbt (cond : Cond) (u : Bool) (rn rd : RegNum) (off : Offset)
  /-- `LDR`: A13, 43 R540; not P = 0 with W = 1, which is the T variant. -/
  | armLdr (cond : Cond) (p u w : Bool) (rn rd : RegNum) (off : Offset)
  /-- `STR`: A13, 43 R541; not P = 0 with W = 1, which is the T variant. -/
  | armStr (cond : Cond) (p u w : Bool) (rn rd : RegNum) (off : Offset)
  /-- `LDRB`: A13, 43 R543; not P = 0 with W = 1, which is the T variant. -/
  | armLdrb (cond : Cond) (p u w : Bool) (rn rd : RegNum) (off : Offset)
  /-- `STRB`: A13, 43 R544; not P = 0 with W = 1, which is the T variant. -/
  | armStrb (cond : Cond) (p u w : Bool) (rn rd : RegNum) (off : Offset)
  /-- `LDM`: A15, 43 R566 and R560-R575; `s` is the S bit ("^"). -/
  | armLdm (cond : Cond) (p u s w : Bool) (rn : RegNum) (list : BitVec 16)
  /-- `STM`: A15, 43 R567 and R560-R575; `s` is the S bit ("^"). -/
  | armStm (cond : Cond) (p u s w : Bool) (rn : RegNum) (list : BitVec 16)
  /-- `B`: A16, 44 R600. -/
  | armB (cond : Cond) (offset24 : BitVec 24)
  /-- `BL`: A16, 44 R601. -/
  | armBl (cond : Cond) (offset24 : BitVec 24)
  /-- `LDC_STC__Undefined`: A17, 44 R625. -/
  | armLdcStc (cond : Cond) (p u n w l : Bool) (rn crd cp : RegNum) (offset8 : BitVec 8)
  /-- `CDP__Undefined`: A18, 44 R625. -/
  | armCdp (cond : Cond) (op1 : BitVec 4) (crn crd cp : RegNum) (op2 : BitVec 3) (crm : RegNum)
  /-- `MCR__Undefined`: A19 with L = 0, 44 R625. -/
  | armMcr (cond : Cond) (op1 : BitVec 3) (crn rd cp : RegNum) (op2 : BitVec 3) (crm : RegNum)
  /-- `MRC__Undefined`: A19 with L = 1, 44 R625. -/
  | armMrc (cond : Cond) (op1 : BitVec 3) (crn rd cp : RegNum) (op2 : BitVec 3) (crm : RegNum)
  /-- `SWI`: A20, 44 R620. -/
  | armSwi (cond : Cond) (comment : BitVec 24)
  /-- `ADD__register`: T2, 45 R653. -/
  | thumbAddReg (rn rs rd : LowReg)
  /-- `SUB__register`: T2, 45 R654. -/
  | thumbSubReg (rn rs rd : LowReg)
  /-- `ADD__immediate_3`: T2, 45 R655. -/
  | thumbAddImm3 (imm3 : BitVec 3) (rs rd : LowReg)
  /-- `SUB__immediate_3`: T2, 45 R656. -/
  | thumbSubImm3 (imm3 : BitVec 3) (rs rd : LowReg)
  /-- `LSL__immediate`: T1, 45 R650. -/
  | thumbLslImm (imm5 : BitVec 5) (rs rd : LowReg)
  /-- `LSR__immediate`: T1, 45 R651. -/
  | thumbLsrImm (imm5 : BitVec 5) (rs rd : LowReg)
  /-- `ASR__immediate`: T1, 45 R652. -/
  | thumbAsrImm (imm5 : BitVec 5) (rs rd : LowReg)
  /-- `MOV__immediate_8`: T3, 45 R660. -/
  | thumbMovImm8 (rd : LowReg) (imm8 : BitVec 8)
  /-- `CMP__immediate_8`: T3, 45 R661. -/
  | thumbCmpImm8 (rd : LowReg) (imm8 : BitVec 8)
  /-- `ADD__immediate_8`: T3, 45 R662. -/
  | thumbAddImm8 (rd : LowReg) (imm8 : BitVec 8)
  /-- `SUB__immediate_8`: T3, 45 R663. -/
  | thumbSubImm8 (rd : LowReg) (imm8 : BitVec 8)
  /-- `AND__ALU`: T4, 45 R670. -/
  | thumbAnd (rs rd : LowReg)
  /-- `EOR__ALU`: T4, 45 R671. -/
  | thumbEor (rs rd : LowReg)
  /-- `LSL__ALU`: T4, 45 R672. -/
  | thumbLsl (rs rd : LowReg)
  /-- `LSR__ALU`: T4, 45 R673. -/
  | thumbLsr (rs rd : LowReg)
  /-- `ASR__ALU`: T4, 45 R674. -/
  | thumbAsr (rs rd : LowReg)
  /-- `ADC__ALU`: T4, 45 R675. -/
  | thumbAdc (rs rd : LowReg)
  /-- `SBC__ALU`: T4, 45 R676. -/
  | thumbSbc (rs rd : LowReg)
  /-- `ROR__ALU`: T4, 45 R677. -/
  | thumbRor (rs rd : LowReg)
  /-- `TST__ALU`: T4, 45 R678. -/
  | thumbTst (rs rd : LowReg)
  /-- `NEG__ALU`: T4, 45 R679. -/
  | thumbNeg (rs rd : LowReg)
  /-- `CMP__ALU`: T4, 45 R680. -/
  | thumbCmp (rs rd : LowReg)
  /-- `CMN__ALU`: T4, 45 R681. -/
  | thumbCmn (rs rd : LowReg)
  /-- `ORR__ALU`: T4, 45 R682. -/
  | thumbOrr (rs rd : LowReg)
  /-- `MUL__ALU`: T4, 45 R683. -/
  | thumbMul (rs rd : LowReg)
  /-- `BIC__ALU`: T4, 45 R684. -/
  | thumbBic (rs rd : LowReg)
  /-- `MVN__ALU`: T4, 45 R685. -/
  | thumbMvn (rs rd : LowReg)
  /-- `UNDEFINED__BLX_register`: 30 R340 line 5, R362. -/
  | thumbUndefBlxReg (low7 : BitVec 7)
  /-- `BX`: T5, 45 R713; `rm` is H2 :: Rs/Hs, `sbz` the ignored bits 2:0. -/
  | thumbBx (rm : RegNum) (sbz : BitVec 3)
  /-- `ADD__high_register`: T5, 45 R710; `rd` is H1 :: Rd/Hd, `rm` is H2 :: Rs/Hs. -/
  | thumbAddHi (rd rm : RegNum)
  /-- `CMP__high_register`: T5, 45 R711; `rd` is H1 :: Rd/Hd, `rm` is H2 :: Rs/Hs. -/
  | thumbCmpHi (rd rm : RegNum)
  /-- `MOV__high_register`: T5, 45 R712; `rd` is H1 :: Rd/Hd, `rm` is H2 :: Rs/Hs. -/
  | thumbMovHi (rd rm : RegNum)
  /-- `LDR__PC-relative`: T6, 45 R723. -/
  | thumbLdrPc (rd : LowReg) (word8 : BitVec 8)
  /-- `STR__register_offset`: T7, 45 R715. -/
  | thumbStrReg (ro rb rd : LowReg)
  /-- `STRB__register_offset`: T7, 45 R716. -/
  | thumbStrbReg (ro rb rd : LowReg)
  /-- `LDR__register_offset`: T7, 45 R717. -/
  | thumbLdrReg (ro rb rd : LowReg)
  /-- `LDRB__register_offset`: T7, 45 R718. -/
  | thumbLdrbReg (ro rb rd : LowReg)
  /-- `STRH__register_offset`: T8, 45 R719. -/
  | thumbStrhReg (ro rb rd : LowReg)
  /-- `LDRH__register_offset`: T8, 45 R720. -/
  | thumbLdrhReg (ro rb rd : LowReg)
  /-- `LDSB`: T8, 45 R721. -/
  | thumbLdsb (ro rb rd : LowReg)
  /-- `LDSH`: T8, 45 R722. -/
  | thumbLdsh (ro rb rd : LowReg)
  /-- `STR__immediate_offset`: T9, 45 R690. -/
  | thumbStrImm (imm5 : BitVec 5) (rb rd : LowReg)
  /-- `LDR__immediate_offset`: T9, 45 R691. -/
  | thumbLdrImm (imm5 : BitVec 5) (rb rd : LowReg)
  /-- `STRB__immediate_offset`: T9, 45 R692. -/
  | thumbStrbImm (imm5 : BitVec 5) (rb rd : LowReg)
  /-- `LDRB__immediate_offset`: T9, 45 R693. -/
  | thumbLdrbImm (imm5 : BitVec 5) (rb rd : LowReg)
  /-- `STRH__immediate_offset`: T10, 45 R694. -/
  | thumbStrhImm (imm5 : BitVec 5) (rb rd : LowReg)
  /-- `LDRH__immediate_offset`: T10, 45 R695. -/
  | thumbLdrhImm (imm5 : BitVec 5) (rb rd : LowReg)
  /-- `STR__SP-relative`: T11, 45 R725. -/
  | thumbStrSp (rd : LowReg) (word8 : BitVec 8)
  /-- `LDR__SP-relative`: T11, 45 R726. -/
  | thumbLdrSp (rd : LowReg) (word8 : BitVec 8)
  /-- `ADD_Rd__PC___imm`: T12, 45 R727. -/
  | thumbAddPc (rd : LowReg) (word8 : BitVec 8)
  /-- `ADD_Rd__SP___imm`: T12, 45 R728. -/
  | thumbAddSp (rd : LowReg) (word8 : BitVec 8)
  /-- `ADD_SP___+_-imm`: T13, 45 R729. -/
  | thumbAdjustSp (s : Bool) (sword7 : BitVec 7)
  /-- `PUSH`: T14, 45 R731. -/
  | thumbPush (r : Bool) (list : BitVec 8)
  /-- `POP`: T14, 45 R732. -/
  | thumbPop (r : Bool) (list : BitVec 8)
  /-- `UNDEFINED__other_1011_space`: 30 R340 line 15, R362. -/
  | thumbUndef1011 (low12 : BitVec 12)
  /-- `STMIA`: T15, 45 R734. -/
  | thumbStmia (rb : LowReg) (list : BitVec 8)
  /-- `LDMIA`: T15, 45 R735. -/
  | thumbLdmia (rb : LowReg) (list : BitVec 8)
  /-- `SWI`: T17, 45 R738. -/
  | thumbSwi (value8 : BitVec 8)
  /-- `UNDEFINED__cond_1110`: 30 R340 line 18, R362. -/
  | thumbUndefCond14 (low8 : BitVec 8)
  /-- `B<cond>`: T16, 45 R737. -/
  | thumbBCond (cond : Cond) (soffset8 : BitVec 8)
  /-- `B`: T18, 45 R740. -/
  | thumbB (offset11 : BitVec 11)
  /-- `UNDEFINED__BLX_suffix`: 30 R340 line 21, R362. -/
  | thumbUndefBlxSuffix (low11 : BitVec 11)
  /-- `BL__first_half`: T19 with H = 0, 45 R741. -/
  | thumbBlFirst (offset11 : BitVec 11)
  /-- `BL__second_half`: T19 with H = 1, 45 R742. -/
  | thumbBlSecond (offset11 : BitVec 11)
  deriving DecidableEq, Repr

end Sys2Proof
end

