-- ==== Sys2Proof/Machine/State.lean ====
section
/-! DEFINITION. The machine state as plain data, the reasons a step can stop, and the state after reset (10_state R100;
70_reset_and_hazards R1201). INVENTORY.md lists every field with its rule and its reset value. -/

namespace Sys2Proof.Machine

/-- Why a step ends in a `ModelFault` (00_scope R10, R17). Every one is safe: the machine stops, no state follows. -/
inductive Fault where
  /-- `ModelFault(Unpredictable)`: raised by the reserved ARM words of 30_encoding R361, by the operand combinations
  the instruction rules call UNPREDICTABLE, and by a DMA transfer with source control 3 (61_timers R942). Safe. -/
  | unpredictable
  /-- `ModelFault(NoSpsrInMode)`: raised by an SPSR access or restore in USR or SYS mode (10_state R106, R116; 44 R611,
  R612). Safe. -/
  | noSpsrInMode
  /-- `ModelFault(InvalidMode)`: raised by an MSR that would write a non-mode into CPSR.M (44 R614). Safe. -/
  | invalidMode
  /-- `ModelFault(InvalidModeRestore)`: raised by an SPSR restore of a non-mode (10_state R106). Safe. -/
  | invalidModeRestore
  /-- `ModelFault(BadArgument)`: raised by BitUnPack with an unlisted width (46_bios_hle R767). Safe. -/
  | badArgument
  /-- `ModelFault(PipelineHazard)`: raised by a CPU store into the next two instruction slots (70 R1220). Safe. -/
  | pipelineHazard
  deriving DecidableEq, Repr

/-- Why a step has no meaning. -/
inductive Refusal where
  /-- The instruction has no meaning in this model yet. Raised by an arm of `exec` only. Safe. -/
  | notModelled (mnemonic : String)
  /-- The fetched bits fit no row of the opcode table. Raised by `step`; the table covers every word, so no word is
  refused so. Safe. -/
  | undecodable
  deriving DecidableEq, Repr

/-- The processor modes (10_state R101). -/
inductive Mode where
  | usr | fiq | irq | svc | abt | und | sys
  deriving DecidableEq, Repr

/-- The physical general registers (10_state R103); a name without a suffix is the copy of USR and SYS. -/
inductive PReg where
  | r0 | r1 | r2 | r3 | r4 | r5 | r6 | r7
  | r8 | r9 | r10 | r11 | r12
  | r8Fiq | r9Fiq | r10Fiq | r11Fiq | r12Fiq
  | r13 | r13Fiq | r13Irq | r13Svc | r13Abt | r13Und
  | r14 | r14Fiq | r14Irq | r14Svc | r14Abt | r14Und
  deriving DecidableEq, Repr

/-- CPSR: its fields (10_state R110). Bits 27:8 read 0 and are not stored (R115); M always holds a mode (R102), so it is
the mode itself (log 28). -/
structure Cpsr where
  n : Bool
  z : Bool
  c : Bool
  v : Bool
  i : Bool
  f : Bool
  t : Bool
  mode : Mode
  deriving DecidableEq, Repr

/-- An SPSR: a PSR image whose M field may hold any value (10_state R102, R116). -/
structure Spsr where
  n : Bool
  z : Bool
  c : Bool
  v : Bool
  i : Bool
  f : Bool
  t : Bool
  m : BitVec 5
  deriving DecidableEq, Repr

/-- 20_memory R245. -/
inductive SaveKind where
  | sram | flash
  deriving DecidableEq, Repr

/-- 20_memory R250. -/
inductive FlashState where
  | ready | unlock1 | unlock2 | eraseReady | eraseUnlock1 | eraseUnlock2 | writeByte | bankSelect
  deriving DecidableEq, Repr

/-- The save memory's control state (20_memory R215, R245, R250); its two buffers are in `State.mem`. -/
structure Save where
  kind : SaveKind
  sawAA : Bool
  flashState : FlashState
  idMode : Bool
  bank : Bool
  saveRequired : Bool
  deriving DecidableEq, Repr

/-- The interrupt controller's registers (60_exceptions R830-R833); `iff` is IF. -/
structure Irq where
  ie : Half
  iff : Half
  ime : Bool
  postflg : Bool
  deriving DecidableEq, Repr

/-- One timer (61_timers R901, R903). -/
structure Timer where
  count : Half
  reload : Half
  prescale : BitVec 2
  cascade : Bool
  irq : Bool
  enable : Bool
  acc : Nat
  deriving DecidableEq, Repr

/-- One DMA channel: its I/O block (61_timers R930, R931) and its internal registers (R935). -/
structure DmaChannel where
  sad : Word
  dad : Word
  cntL : Half
  cntH : Half
  isrc : Word
  idst : Word
  icount : Nat
  pending : Bool
  deriving DecidableEq, Repr

/-- The keypad registers (61_timers R980, R981) and the host's button state, an input (log 14): bit i of `hostKeys` is 1
when button i is pressed. -/
structure Keys where
  keyinput : Half
  keycnt : Half
  hostKeys : BitVec 10
  deriving DecidableEq, Repr

/-- One background's control and scroll registers (62_ppu R1013, R1014). -/
structure Background where
  cnt : Half
  hofs : BitVec 9
  vofs : BitVec 9
  deriving DecidableEq, Repr

/-- The affine registers of BG2 or BG3 and its internal reference point (62_ppu R1015, R1016, R1025). -/
structure Affine where
  pa : Half
  pb : Half
  pc : Half
  pd : Half
  x : BitVec 28
  y : BitVec 28
  refX : BitVec 28
  refY : BitVec 28
  deriving DecidableEq, Repr

/-- The PPU's registers and counters (62_ppu R1000). -/
structure Ppu where
  dispcnt : Half
  vblankIrq : Bool
  hblankIrq : Bool
  vcountIrq : Bool
  vcountSetting : Byte
  vblank : Bool
  hblank : Bool
  vmatch : Bool
  bg : Vector Background 4
  aff2 : Affine
  aff3 : Affine
  win0h : Half
  win1h : Half
  win0v : Half
  win1v : Half
  winin : Half
  winout : Half
  mosaic : Half
  bldcnt : Half
  bldalpha : Half
  bldy : BitVec 5
  vcount : Nat
  hcycle : Nat
  deriving DecidableEq, Repr

/-- One output pixel, its four bytes in order (62_ppu R1001, R1140). -/
structure Pixel where
  r : Byte
  g : Byte
  b : Byte
  a : Byte
  deriving DecidableEq, Repr

/-- A frame: the rows written since power-on, by rising row number, each with its 240 pixels. A row that is not listed
holds its power-on contents (log 4). -/
abbrev Frame := List (Nat × List Pixel)

/-- The whole state (10_state R100). -/
structure State where
  /-- The physical general registers, at the index `PReg.index` gives (10_state R103). -/
  regs : Vector Word 30
  cpsr : Cpsr
  spsrFiq : Spsr
  spsrIrq : Spsr
  spsrSvc : Spsr
  spsrAbt : Spsr
  spsrUnd : Spsr
  /-- R15: the address of the current instruction (10_state R120). -/
  pc : Word
  lastFetchAddr : Word
  lastFetchWord : Word
  halt : Bool
  /-- All memory: (location, byte), canonical (`Memory.wf`). The locations are those of Machine/Memory.lean. -/
  mem : List Host.Cell
  save : Save
  /-- Storage-only and unused I/O bytes: (offset, byte), canonical, unlisted 0 (20_memory R236). -/
  ioStore : List Host.Cell
  irq : Irq
  waitcnt : Half
  timers : Vector Timer 4
  fifoA : Nat
  fifoB : Nat
  dma : Vector DmaChannel 4
  keys : Keys
  ppu : Ppu
  frame : Frame
  /-- The frame last delivered to the host (62_ppu R1005), an output (log 14). -/
  hostFrame : Option Frame
  /-- The named parameters (00_scope R12); no step changes them (log 1). -/
  params : Config.Params
  /-- The model's own: the pc at which the last step that ran charged a pipeline refill (70_reset R1235), none if its cost
  held no refill. Only the fetch cost reads it (20_memory R260; log 10). -/
  refill : Option Word
  /-- The model's own counter: the number of the next free value (log 2). -/
  draws : Nat
  deriving DecidableEq, Repr

/-- A PSR of value 0. -/
def Spsr.zero : Spsr := ⟨false, false, false, false, false, false, false, 0#5⟩

/-- A PSR image from a word (10_state R110). -/
def Spsr.ofImage (w : Word) : Spsr where
  n := w.getLsbD 31
  z := w.getLsbD 30
  c := w.getLsbD 29
  v := w.getLsbD 28
  i := w.getLsbD 7
  f := w.getLsbD 6
  t := w.getLsbD 5
  m := w.extractLsb' 0 5

/-- A channel at reset (61_timers R930, R935). -/
def DmaChannel.reset : DmaChannel := ⟨0, 0, 0, 0, 0, 0, 0, false⟩

/-- A timer at reset (61_timers R900-R903). -/
def Timer.reset : Timer := ⟨0, 0, 0, false, false, false, 0⟩

/-- The affine registers at reset; `scale` is 0x0100 under SkipBios, 0 under BiosReset (70_reset R1210). -/
def Affine.reset (scale : Half) : Affine := ⟨scale, 0, 0, scale, 0, 0, 0, 0⟩

/-- The PPU at reset (70_reset R1210; 62_ppu R1003). -/
def Ppu.reset (scale : Half) : Ppu where
  dispcnt := 0x0080#16
  vblankIrq := false
  hblankIrq := false
  vcountIrq := false
  vcountSetting := 0
  vblank := false
  hblank := false
  vmatch := false
  bg := Vector.replicate 4 ⟨0, 0, 0⟩
  aff2 := Affine.reset scale
  aff3 := Affine.reset scale
  win0h := 0
  win1h := 0
  win0v := 0
  win1v := 0
  winin := 0
  winout := 0
  mosaic := 0
  bldcnt := 0
  bldalpha := 0
  bldy := 0
  vcount := 0
  hcycle := 0

/-- The general registers of 10_state R130, in the order of `PReg`: all 0 but R13_usr, R13_irq and R13_svc. -/
def skipBiosRegs : Vector Word 30 :=
  #v[0, 0, 0, 0, 0, 0, 0, 0,
     0, 0, 0, 0, 0,
     0, 0, 0, 0, 0,
     0x03007F00#32, 0, 0x03007FA0#32, 0x03007FE0#32, 0, 0,
     0, 0, 0, 0, 0, 0]

/-- The state that both boot modes share (70_reset R1201, R1210). -/
def State.powerOnBase (p : Config.Params) : State where
  regs := skipBiosRegs
  cpsr := ⟨false, false, false, false, false, false, false, .sys⟩
  spsrFiq := Spsr.zero
  spsrIrq := Spsr.zero
  spsrSvc := Spsr.zero
  spsrAbt := Spsr.zero
  spsrUnd := Spsr.zero
  pc := 0x08000000#32
  lastFetchAddr := 0
  lastFetchWord := 0
  halt := false
  mem := []
  save := ⟨.sram, false, .ready, false, false, false⟩
  ioStore := []
  irq := ⟨0, 0, false, true⟩
  waitcnt := 0
  timers := Vector.replicate 4 Timer.reset
  fifoA := 0
  fifoB := 0
  dma := Vector.replicate 4 DmaChannel.reset
  keys := ⟨0x03FF#16, 0, 0⟩
  ppu := Ppu.reset 0x0100#16
  frame := []
  hostFrame := none
  params := p
  refill := none
  draws := 0

/-- The power-on state for any parameters. Under `BiosReset` CPSR is 0x000000D3, pc is 0, and every other register and
every SPSR is a draw (10_state R131); the draws are the free values 0 to 36 and the counter stands after them (log 24). -/
def State.powerOn (p : Config.Params) : State :=
  match p.bootMode with
  | .skipBios => State.powerOnBase p
  | .biosReset =>
    { State.powerOnBase p with
      regs := Vector.ofFn fun i => Config.freeWord i.val
      cpsr := ⟨false, false, false, false, true, true, false, .svc⟩
      spsrFiq := Spsr.ofImage (Config.freeWord 30)
      spsrIrq := Spsr.ofImage (Config.freeWord 31)
      spsrSvc := Spsr.ofImage (Config.freeWord 32)
      spsrAbt := Spsr.ofImage (Config.freeWord 33)
      spsrUnd := Spsr.ofImage (Config.freeWord 34)
      pc := 0
      lastFetchAddr := Config.freeWord 35
      lastFetchWord := Config.freeWord 36
      irq := ⟨0, 0, false, false⟩
      ppu := Ppu.reset 0
      draws := 37 }

/-- The machine right after reset: power-on with the default parameters, `BootMode = SkipBios` (10_state R130). -/
def State.reset : State := State.powerOn ({} : Config.Params)

end Sys2Proof.Machine
end

