-- ==== Sys2Proof/Machine/Memory.lean ====
section
/-! DEFINITION. Memory as one canonical list of (location, byte), the regions of the address space, and what a location
nothing has written holds (20_memory R200-R215; 70_reset R1206). A location is a region's base plus the offset the bus
computes; the two save buffers have locations above the 32-bit address space. -/

namespace Sys2Proof.Machine

/-! ### Canonical lists of cells -/

namespace Cells

/-- The byte listed at `k`. -/
def lookup : List Host.Cell → Nat → Option Byte
  | [], _ => none
  | (a, b) :: rest, k => if a = k then some b else lookup rest k

/-- The list without `k`. -/
def erase : List Host.Cell → Nat → List Host.Cell
  | [], _ => []
  | (a, b) :: rest, k => if a = k then rest else (a, b) :: erase rest k

/-- The rising list with `b` at `k`. -/
def insert : List Host.Cell → Nat → Byte → List Host.Cell
  | [], k, b => [(k, b)]
  | (a, c) :: rest, k, b =>
    if k < a then (k, b) :: (a, c) :: rest
    else if k = a then (k, b) :: rest
    else (a, c) :: insert rest k b

/-- Write `b` at `k`; `unlisted k` is what an unlisted `k` reads as, where that is one known byte. -/
def put (unlisted : Nat → Option Byte) (cells : List Host.Cell) (k : Nat) (b : Byte) : List Host.Cell :=
  if unlisted k = some b then erase cells k else insert cells k b

/-- `n` locations from `lo` filled with `b`. -/
def fill (cells : List Host.Cell) (lo n : Nat) (b : Byte) : List Host.Cell :=
  cells.filter (fun c => c.1 < lo) ++ (List.range n).map (fun i => (lo + i, b))
    ++ cells.filter (fun c => lo + n ≤ c.1)

/-- The canonical form: locations strictly rising, no entry equal to what its location reads as unlisted. -/
abbrev wf (unlisted : Nat → Option Byte) (cells : List Host.Cell) : Prop :=
  cells.Pairwise (fun c d => c.1 < d.1) ∧ ∀ c ∈ cells, unlisted c.1 ≠ some c.2

end Cells

/-! ### Locations -/

/-- Base locations. Those below 2^32 are the first address of the region. -/
def ewramBase : Nat := 0x02000000
def iwramBase : Nat := 0x03000000
def paletteBase : Nat := 0x05000000
def vramBase : Nat := 0x06000000
def oamBase : Nat := 0x07000000
def romBase : Nat := 0x08000000
def sramBase : Nat := 0x100000000
def flashBase : Nat := 0x100010000

/-- The words of the default BIOS image; every other word is 0 (70_reset R1206). -/
def biosStubWords : List (Nat × Word) :=
  [(0x000, 0xE3A0F302#32), (0x004, 0xE1B0F00E#32), (0x008, 0xE1B0F00E#32), (0x00C, 0xE25EF004#32),
   (0x010, 0xE25EF008#32), (0x014, 0xEAFFFFFE#32), (0x018, 0xEA000042#32), (0x01C, 0xE25EF004#32)]
  ++ [(0x128, 0xE92D500F#32), (0x12C, 0xE3A00301#32), (0x130, 0xE28FE000#32), (0x134, 0xE510F004#32),
      (0x138, 0xE8BD500F#32), (0x13C, 0xE25EF004#32)]

/-- Byte `o` of the default BIOS image. -/
def biosStubByte (o : Nat) : Byte :=
  match biosStubWords.find? (fun e => e.1 == o / 4 * 4) with
  | some e => byteOf e.2 (o % 4)
  | none => 0#8

/-- What an unlisted location reads as, where that is one known byte: the default BIOS image, and 0 for cartridge ROM
(an image is listed by its non-zero bytes). Elsewhere it is the free value `Config.initialByte` (log 3). -/
def Memory.unlisted (k : Nat) : Option Byte :=
  if k < 0x4000 then some (biosStubByte k)
  else if romBase ≤ k ∧ k < romBase + 0x2000000 then some 0#8
  else none

/-- The byte at a location. -/
def Memory.get (mem : List Host.Cell) (k : Nat) : Byte :=
  match Cells.lookup mem k with
  | some b => b
  | none =>
    match Memory.unlisted k with
    | some b => b
    | none => Config.initialByte k

/-- Write a location. -/
def Memory.put (mem : List Host.Cell) (k : Nat) (b : Byte) : List Host.Cell := Cells.put Memory.unlisted mem k b

/-- Write several locations in order. -/
def Memory.putAll (mem : List Host.Cell) (cells : List Host.Cell) : List Host.Cell :=
  cells.foldl (fun m c => Memory.put m c.1 c.2) mem

/-- The canonical form of memory. -/
abbrev Memory.wf (mem : List Host.Cell) : Prop := Cells.wf Memory.unlisted mem

/-- The canonical form of the storage-only I/O bytes: unlisted bytes are 0 (70_reset R1210). -/
abbrev IoStore.wf (cells : List Host.Cell) : Prop := Cells.wf (fun _ => some 0#8) cells

/-! ### Regions -/

/-- The regions of 20_memory R201. -/
inductive Region where
  | bios | ewram | iwram | io | palette | vram | oam
  /-- Cartridge ROM through wait-state group 0, 1 or 2. -/
  | rom (group : Fin 3)
  | save | unmapped
  deriving DecidableEq, Repr

/-- Region decode (20_memory R201, R202, R208, R213). -/
def regionOf (addr : Word) : Region :=
  match (addr >>> 24).toNat with
  | 0x00 => if addr.toNat < 0x4000 then .bios else .unmapped
  | 0x02 => .ewram
  | 0x03 => .iwram
  | 0x04 => if addr.toNat < 0x04000400 then .io else .unmapped
  | 0x05 => .palette
  | 0x06 => .vram
  | 0x07 => .oam
  | 0x08 => .rom 0
  | 0x09 => .rom 0
  | 0x0A => .rom 1
  | 0x0B => .rom 1
  | 0x0C => .rom 2
  | 0x0D => .rom 2
  | 0x0E => .save
  | 0x0F => .save
  | _ => .unmapped

/-- The VRAM offset of an address (20_memory R210). -/
def vramOffset (addr : Word) : Nat :=
  let o := (addr &&& 0x1FFFF#32).toNat
  if 0x18000 ≤ o then o - 0x8000 else o

/-- The location of the save-memory byte at offset `o` in the current kind and bank (20_memory R245, R250). -/
def saveLocation (save : Save) (o : Nat) : Nat :=
  match save.kind with
  | .sram => sramBase + o
  | .flash => flashBase + (if save.bank then 0x10000 else 0) + o

/-- The save-memory offset of an address (20_memory R213). -/
def saveOffset (addr : Word) : Nat := (addr &&& 0xFFFF#32).toNat

/-- The I/O offset of an address in the I/O block. -/
def ioOffset (addr : Word) : Nat := (addr &&& 0x3FF#32).toNat

/-- The location of the byte at an address, where the address names a byte of memory (20_memory R205-R213). -/
def locationOf (s : State) (addr : Word) : Option Nat :=
  match regionOf addr with
  | .bios => some addr.toNat
  | .ewram => some (ewramBase + (addr &&& 0x3FFFF#32).toNat)
  | .iwram => some (iwramBase + (addr &&& 0x7FFF#32).toNat)
  | .palette => some (paletteBase + (addr &&& 0x3FF#32).toNat)
  | .vram => some (vramBase + vramOffset addr)
  | .oam => some (oamBase + (addr &&& 0x3FF#32).toNat)
  | .rom _ =>
    let o := (addr &&& 0x1FFFFFF#32).toNat
    if o < s.params.romLength.val then some (romBase + o) else none
  | .save => some (saveLocation s.save (saveOffset addr))
  | .io => none
  | .unmapped => none

/-- The location a write to the address stores to: none for read-only and unmapped addresses (20_memory R205, R212,
R230). -/
def writableLocation (s : State) (addr : Word) : Option Nat :=
  match regionOf addr with
  | .bios => none
  | .rom _ => none
  | .unmapped => none
  | .io => none
  | _ => locationOf s addr

end Sys2Proof.Machine
end

