-- ==== Sys2Proof/Machine/Regs.lean ====
section
/-! DEFINITION. The register views, the status registers, and the state's setters (10_state R101-R124). Every read and
write of a register goes through here. -/

namespace Sys2Proof.Machine

/-! ### Modes and status registers -/

/-- M[4:0] of a mode (10_state R101). -/
def Mode.toBits : Mode → BitVec 5
  | .usr => 0b10000#5
  | .fiq => 0b10001#5
  | .irq => 0b10010#5
  | .svc => 0b10011#5
  | .abt => 0b10111#5
  | .und => 0b11011#5
  | .sys => 0b11111#5

/-- The mode of an M value; none where the value is not a mode (10_state R101, R102). -/
def Mode.ofBits (m : BitVec 5) : Option Mode :=
  match m.toNat with
  | 0x10 => some .usr
  | 0x11 => some .fiq
  | 0x12 => some .irq
  | 0x13 => some .svc
  | 0x17 => some .abt
  | 0x1B => some .und
  | 0x1F => some .sys
  | _ => none

/-- 44_arm_branch_psr_system R610. -/
def Mode.privileged (m : Mode) : Bool := m != .usr

/-- 10_state R101, R109. -/
def Mode.hasSpsr (m : Mode) : Bool := m != .usr && m != .sys

/-- A PSR word from its fields; bits 27:8 are 0 (10_state R110, R115). -/
def psrWord (n z c v i f t : Bool) (m : BitVec 5) : Word :=
  BitVec.ofBool n ++ BitVec.ofBool z ++ BitVec.ofBool c ++ BitVec.ofBool v ++ 0#20
    ++ BitVec.ofBool i ++ BitVec.ofBool f ++ BitVec.ofBool t ++ m

/-- The value of CPSR (10_state R110). -/
def Cpsr.toWord (p : Cpsr) : Word := psrWord p.n p.z p.c p.v p.i p.f p.t p.mode.toBits

/-- The value of an SPSR (10_state R116). -/
def Spsr.toWord (p : Spsr) : Word := psrWord p.n p.z p.c p.v p.i p.f p.t p.m

/-- The SPSR image of a CPSR (60_exceptions R812). -/
def Cpsr.saved (p : Cpsr) : Spsr := ⟨p.n, p.z, p.c, p.v, p.i, p.f, p.t, p.mode.toBits⟩

/-- The CPSR an SPSR restores; none where its M is not a mode (10_state R106). -/
def Spsr.restored (p : Spsr) : Option Cpsr :=
  (Mode.ofBits p.m).map fun m => ⟨p.n, p.z, p.c, p.v, p.i, p.f, p.t, m⟩

/-- CPSR with new condition flags. -/
def Cpsr.withFlags (p : Cpsr) (n z c v : Bool) : Cpsr := { p with n := n, z := z, c := c, v := v }

/-! ### The register file -/

/-- The place of a physical register in `State.regs`. -/
def PReg.index : PReg → Fin 30
  | .r0 => 0 | .r1 => 1 | .r2 => 2 | .r3 => 3 | .r4 => 4 | .r5 => 5 | .r6 => 6 | .r7 => 7
  | .r8 => 8 | .r9 => 9 | .r10 => 10 | .r11 => 11 | .r12 => 12
  | .r8Fiq => 13 | .r9Fiq => 14 | .r10Fiq => 15 | .r11Fiq => 16 | .r12Fiq => 17
  | .r13 => 18 | .r13Fiq => 19 | .r13Irq => 20 | .r13Svc => 21 | .r13Abt => 22 | .r13Und => 23
  | .r14 => 24 | .r14Fiq => 25 | .r14Irq => 26 | .r14Svc => 27 | .r14Abt => 28 | .r14Und => 29

/-- R13 of a mode's bank (10_state R103). -/
def Mode.sp : Mode → PReg
  | .usr => .r13 | .sys => .r13
  | .fiq => .r13Fiq | .irq => .r13Irq | .svc => .r13Svc | .abt => .r13Abt | .und => .r13Und

/-- R14 of a mode's bank (10_state R103). -/
def Mode.lr : Mode → PReg
  | .usr => .r14 | .sys => .r14
  | .fiq => .r14Fiq | .irq => .r14Irq | .svc => .r14Svc | .abt => .r14Abt | .und => .r14Und

/-- The physical register a mode's view maps R0-R14 to; R15 is no general register (10_state R104). -/
def Mode.view (m : Mode) (i : RegNum) : Option PReg :=
  match i.toNat with
  | 0 => some .r0 | 1 => some .r1 | 2 => some .r2 | 3 => some .r3
  | 4 => some .r4 | 5 => some .r5 | 6 => some .r6 | 7 => some .r7
  | 8 => some (if m = .fiq then .r8Fiq else .r8)
  | 9 => some (if m = .fiq then .r9Fiq else .r9)
  | 10 => some (if m = .fiq then .r10Fiq else .r10)
  | 11 => some (if m = .fiq then .r11Fiq else .r11)
  | 12 => some (if m = .fiq then .r12Fiq else .r12)
  | 13 => some m.sp
  | 14 => some m.lr
  | _ => none

namespace State

/-- A physical register. -/
def reg (s : State) (r : PReg) : Word := s.regs[r.index]

/-- Write a physical register. -/
def setReg (s : State) (r : PReg) (v : Word) : State := { s with regs := s.regs.set r.index v }

/-- Write pc. -/
def setPc (s : State) (v : Word) : State := { s with pc := v }

/-- Write CPSR. -/
def setCpsr (s : State) (p : Cpsr) : State := { s with cpsr := p }

/-- Write memory. -/
def setMem (s : State) (m : List Host.Cell) : State := { s with mem := m }

/-- Advance to the next free value (log 2). -/
def bump (s : State) : State := { s with draws := s.draws + 1 }

/-- Record whether the pipeline stands refilled, and at which pc. -/
def withRefill (s : State) (r : Option Word) : State := { s with refill := r }

/-- The next free value. -/
def drawn (s : State) : Word := Config.freeWord s.draws

/-- ISize (00_scope R15). -/
def isize (s : State) : Word := if s.cpsr.t then 2#32 else 4#32

/-- `x[15]`: the operand value of R15 (00_scope R15; 10_state R123). -/
def pcOperand (s : State) : Word := s.pc + s.isize + s.isize

/-- `x[i]` in the view of mode `m` (10_state R104, R123). -/
def xIn (s : State) (m : Mode) (i : RegNum) : Word :=
  match m.view i with
  | some r => s.reg r
  | none => s.pcOperand

/-- `x[i] <- v` in the view of mode `m`; R15 is not written so (00_scope R15). -/
def setXIn (s : State) (m : Mode) (i : RegNum) (v : Word) : State :=
  match m.view i with
  | some r => s.setReg r v
  | none => s

/-- `x[i]` (00_scope R15). -/
def x (s : State) (i : RegNum) : Word := s.xIn s.cpsr.mode i

/-- `x[i] <- v` (00_scope R15). -/
def setX (s : State) (i : RegNum) (v : Word) : State := s.setXIn s.cpsr.mode i v

/-- The SPSR of a mode; USR and SYS have none (10_state R109). -/
def spsrOf (s : State) (m : Mode) : Option Spsr :=
  match m with
  | .fiq => some s.spsrFiq
  | .irq => some s.spsrIrq
  | .svc => some s.spsrSvc
  | .abt => some s.spsrAbt
  | .und => some s.spsrUnd
  | .usr => none
  | .sys => none

/-- Write the SPSR of a mode. -/
def setSpsrOf (s : State) (m : Mode) (p : Spsr) : State :=
  match m with
  | .fiq => { s with spsrFiq := p }
  | .irq => { s with spsrIrq := p }
  | .svc => { s with spsrSvc := p }
  | .abt => { s with spsrAbt := p }
  | .und => { s with spsrUnd := p }
  | .usr => s
  | .sys => s

/-- `pc <- pc + ISize` (10_state R121, R122). -/
def advance (s : State) : State := s.setPc (s.pc + s.isize)

end State

/-- The 4-bit number of a low register (10_state R108). -/
def lowReg (r : LowReg) : RegNum := r.setWidth 4

/-- Switch to another mode's view (10_state R105). -/
def State.setMode (s : State) (m : Mode) : State := s.setCpsr { s.cpsr with mode := m }

end Sys2Proof.Machine
end

