-- ==== Sys2Proof/Machine/Io.lean ====
section
/-! DEFINITION. The I/O register block: which register owns each offset, what reading a byte gives and what writing a
byte does (20_memory R219, R235, R236). Reads have no side effect (R225). -/

namespace Sys2Proof.Machine

/-- The registers of 20_memory R235. -/
inductive IoReg where
  | dispcnt | dispstat | vcount
  | bgcnt (k : Fin 4) | bghofs (k : Fin 4) | bgvofs (k : Fin 4)
  /-- BGxPA-PD of BG2 (`bg3 = false`) or BG3; `w` is 0 to 3 for PA to PD. -/
  | affParam (bg3 : Bool) (w : Fin 4)
  | affX (bg3 : Bool) | affY (bg3 : Bool)
  | win0h | win1h | win0v | win1v | winin | winout | mosaic | bldcnt | bldalpha | bldy
  | fifoA | fifoB
  | dmaSad (k : Fin 4) | dmaDad (k : Fin 4) | dmaCntL (k : Fin 4) | dmaCntH (k : Fin 4)
  | timerCount (k : Fin 4) | timerControl (k : Fin 4)
  | keyinput | keycnt | ie | iff | waitcnt | ime | postflg | haltcnt
  /-- Storage-only and unused bytes (20_memory R236); SOUNDCNT_H's high byte is one of them (61_timers R960). -/
  | storage
  deriving DecidableEq, Repr

/-- The register inside a 12-byte DMA block (61_timers R930). -/
def dmaRegAt (k : Fin 4) (o : Nat) : IoReg × Nat :=
  if o < 4 then (.dmaSad k, o)
  else if o < 8 then (.dmaDad k, o - 4)
  else if o < 10 then (.dmaCntL k, o - 8)
  else (.dmaCntH k, o - 10)

/-- The affine register at offset `o` of a 16-byte block (62_ppu R1015, R1016). -/
def affRegAt (bg3 : Bool) (o : Nat) : IoReg × Nat :=
  if o < 8 then (.affParam bg3 (Fin.ofNat 4 (o / 2)), o % 2)
  else if o < 12 then (.affX bg3, o - 8)
  else (.affY bg3, o - 12)

/-- The register at an I/O offset, and which of its bytes the offset is (20_memory R235). -/
def ioRegAt (off : Nat) : IoReg × Nat :=
  if off < 0x02 then (.dispcnt, off)
  else if off < 0x04 then (.storage, off)
  else if off < 0x06 then (.dispstat, off - 0x04)
  else if off < 0x08 then (.vcount, off - 0x06)
  else if off < 0x10 then (.bgcnt (Fin.ofNat 4 ((off - 0x08) / 2)), off % 2)
  else if off < 0x20 then
    if off % 4 < 2 then (.bghofs (Fin.ofNat 4 ((off - 0x10) / 4)), off % 2)
    else (.bgvofs (Fin.ofNat 4 ((off - 0x10) / 4)), off % 2)
  else if off < 0x30 then affRegAt false (off - 0x20)
  else if off < 0x40 then affRegAt true (off - 0x30)
  else if off < 0x42 then (.win0h, off % 2)
  else if off < 0x44 then (.win1h, off % 2)
  else if off < 0x46 then (.win0v, off % 2)
  else if off < 0x48 then (.win1v, off % 2)
  else if off < 0x4A then (.winin, off % 2)
  else if off < 0x4C then (.winout, off % 2)
  else if off < 0x4E then (.mosaic, off % 2)
  else if off < 0x50 then (.storage, off)
  else if off < 0x52 then (.bldcnt, off % 2)
  else if off < 0x54 then (.bldalpha, off % 2)
  else if off < 0x56 then (.bldy, off % 2)
  else if off < 0xA0 then (.storage, off)
  else if off < 0xA4 then (.fifoA, off - 0xA0)
  else if off < 0xA8 then (.fifoB, off - 0xA4)
  else if off < 0xB0 then (.storage, off)
  else if off < 0xE0 then dmaRegAt (Fin.ofNat 4 ((off - 0xB0) / 12)) ((off - 0xB0) % 12)
  else if off < 0x100 then (.storage, off)
  else if off < 0x110 then
    if off % 4 < 2 then (.timerCount (Fin.ofNat 4 ((off - 0x100) / 4)), off % 2)
    else (.timerControl (Fin.ofNat 4 ((off - 0x100) / 4)), off % 2)
  else if off < 0x130 then (.storage, off)
  else if off < 0x132 then (.keyinput, off % 2)
  else if off < 0x134 then (.keycnt, off % 2)
  else if off < 0x200 then (.storage, off)
  else if off < 0x202 then (.ie, off % 2)
  else if off < 0x204 then (.iff, off % 2)
  else if off < 0x206 then (.waitcnt, off % 2)
  else if off < 0x208 then (.storage, off)
  else if off < 0x20A then (.ime, off % 2)
  else if off = 0x300 then (.postflg, 0)
  else if off = 0x301 then (.haltcnt, 0)
  else (.storage, off)

/-! ### Reading -/

/-- DISPSTAT's value (62_ppu R1011). -/
def Ppu.dispstat (p : Ppu) : Half :=
  p.vcountSetting ++ 0#2 ++ BitVec.ofBool p.vcountIrq ++ BitVec.ofBool p.hblankIrq ++ BitVec.ofBool p.vblankIrq
    ++ BitVec.ofBool p.vmatch ++ BitVec.ofBool p.hblank ++ BitVec.ofBool p.vblank

/-- TMxCNT_H's value (61_timers R901). -/
def Timer.control (t : Timer) : Half :=
  0#8 ++ BitVec.ofBool t.enable ++ BitVec.ofBool t.irq ++ 0#3 ++ BitVec.ofBool t.cascade ++ t.prescale

/-- The value of a readable register; none for a write-only, storage or unused one (20_memory R235, R236). -/
def ioValue (s : State) : IoReg → Option Half
  | .dispcnt => some s.ppu.dispcnt
  | .dispstat => some s.ppu.dispstat
  | .vcount => some (BitVec.ofNat 16 s.ppu.vcount)
  | .bgcnt k => some s.ppu.bg[k].cnt
  | .winin => some s.ppu.winin
  | .winout => some s.ppu.winout
  | .bldcnt => some s.ppu.bldcnt
  | .bldalpha => some s.ppu.bldalpha
  | .dmaCntH k => some s.dma[k].cntH
  | .timerCount k => some s.timers[k].count
  | .timerControl k => some s.timers[k].control
  | .keyinput => some s.keys.keyinput
  | .keycnt => some s.keys.keycnt
  | .ie => some s.irq.ie
  | .iff => some s.irq.iff
  | .waitcnt => some s.waitcnt
  | .ime => some (0#15 ++ BitVec.ofBool s.irq.ime)
  | .postflg => some (0#15 ++ BitVec.ofBool s.irq.postflg)
  | .bghofs _ | .bgvofs _ | .affParam _ _ | .affX _ | .affY _ | .win0h | .win1h | .win0v | .win1v | .mosaic | .bldy
  | .fifoA | .fifoB | .dmaSad _ | .dmaDad _ | .dmaCntL _ | .haltcnt | .storage => none

/-- The byte at an I/O offset; none where the spec leaves it a draw. -/
def ioReadByte (s : State) (off : Nat) : Option Byte :=
  let r := ioRegAt off
  (ioValue s r.1).map (halfByte · r.2)

/-! ### Writing -/

/-- The keypad interrupt's condition (61_timers R982). -/
def keypadCondition (k : Keys) : Bool :=
  let pressed := ~~~(k.keyinput.extractLsb' 0 10)
  let sel := k.keycnt.extractLsb' 0 10
  k.keycnt.getLsbD 14 &&
    (if k.keycnt.getLsbD 15 then sel != 0#10 && (pressed &&& sel) == sel else (pressed &&& sel) != 0#10)

/-- Request interrupt `n` (60_exceptions R831, R836). -/
def State.requestIrq (s : State) (n : Nat) : State :=
  { s with irq := { s.irq with iff := s.irq.iff ||| (1#16 <<< n) } }

/-- The keypad check after KEYINPUT is updated or KEYCNT is written (61_timers R982). -/
def keypadCheck (s : State) : State :=
  if s.params.keypadIrq && keypadCondition s.keys then s.requestIrq 12 else s

/-- `enable` of a channel (61_timers R931). -/
def DmaChannel.enabled (c : DmaChannel) : Bool := c.cntH.getLsbD 15

/-- `timing` of a channel: 0 immediate, 1 VBlank, 2 HBlank, 3 special (61_timers R931). -/
def DmaChannel.timing (c : DmaChannel) : Nat := (c.cntH.extractLsb' 12 2).toNat

/-- The resolved unit count (61_timers R933). -/
def DmaChannel.resolvedCount (c : DmaChannel) (k : Fin 4) : Nat :=
  if c.cntL = 0#16 then (if k = 3 then 0x10000 else 0x4000) else c.cntL.toNat

/-- Write byte `b` of DMAkCNT_H (61_timers R931, R932). -/
def DmaChannel.writeControl (c : DmaChannel) (k : Fin 4) (i : Nat) (b : Byte) : DmaChannel :=
  let mask : Half := if k = 3 then 0xFFE0#16 else 0xF7E0#16
  let c1 : DmaChannel := { c with cntH := setHalfByte c.cntH i b &&& mask }
  if !c.enabled && c1.enabled then
    { c1 with isrc := c1.sad, idst := c1.dad, icount := c1.resolvedCount k, pending := c1.timing == 0 }
  else if c1.enabled then c1
  else { c1 with pending := false }

/-- Write byte `i` of TMxCNT_H (61_timers R901, R902). -/
def Timer.writeControl (t : Timer) (i : Nat) (b : Byte) : Timer :=
  if i = 0 then
    let t1 : Timer :=
      { t with prescale := b.extractLsb' 0 2, cascade := b.getLsbD 2, irq := b.getLsbD 6, enable := b.getLsbD 7 }
    if !t.enable && t1.enable then { t1 with count := t.reload, acc := 0 } else t1
  else t

/-- Replace a background's registers. -/
def State.setBg (s : State) (k : Fin 4) (b : Background) : State :=
  { s with ppu := { s.ppu with bg := s.ppu.bg.set k b } }

/-- Replace the affine registers of BG2 or BG3. -/
def State.setAffine (s : State) (bg3 : Bool) (a : Affine) : State :=
  if bg3 then { s with ppu := { s.ppu with aff3 := a } } else { s with ppu := { s.ppu with aff2 := a } }

/-- The affine registers of BG2 or BG3. -/
def State.affine (s : State) (bg3 : Bool) : Affine := if bg3 then s.ppu.aff3 else s.ppu.aff2

/-- Replace a DMA channel. -/
def State.setDma (s : State) (k : Fin 4) (c : DmaChannel) : State := { s with dma := s.dma.set k c }

/-- Replace a timer. -/
def State.setTimer (s : State) (k : Fin 4) (t : Timer) : State := { s with timers := s.timers.set k t }

/-- Replace the PPU's registers. -/
def State.setPpu (s : State) (p : Ppu) : State := { s with ppu := p }

/-- Write byte `i` of BGxPA-PD (62_ppu R1015). -/
def Affine.writeParam (a : Affine) (w : Fin 4) (i : Nat) (b : Byte) : Affine :=
  match w with
  | 0 => { a with pa := setHalfByte a.pa i b }
  | 1 => { a with pb := setHalfByte a.pb i b }
  | 2 => { a with pc := setHalfByte a.pc i b }
  | 3 => { a with pd := setHalfByte a.pd i b }

/-- Byte `i` of a 28-bit reference register replaced (62_ppu R1016). -/
def setRefByte (r : BitVec 28) (i : Nat) (b : Byte) : BitVec 28 :=
  (setWordByte (r.setWidth 32) i b).setWidth 28

/-- The 9 scroll bits kept of a 16-bit write (62_ppu R1014). -/
def setScrollByte (r : BitVec 9) (i : Nat) (b : Byte) : BitVec 9 :=
  (setHalfByte (r.setWidth 16) i b).setWidth 9

/-- The high byte of SOUNDCNT_H resets the FIFOs (61_timers R960). -/
def soundControlWrite (s : State) (b : Byte) : State :=
  { s with
    fifoA := if b.getLsbD 3 then 0 else s.fifoA
    fifoB := if b.getLsbD 7 then 0 else s.fifoB }

/-- Write byte `b` at an I/O offset (20_memory R219, R235). -/
def ioWriteByte (s : State) (off : Nat) (b : Byte) : State :=
  let r := ioRegAt off
  let i := r.2
  match r.1 with
  | .dispcnt => s.setPpu { s.ppu with dispcnt := setHalfByte s.ppu.dispcnt i b &&& 0xFFF7#16 }
  | .dispstat =>
    if i = 0 then
      s.setPpu { s.ppu with vblankIrq := b.getLsbD 3, hblankIrq := b.getLsbD 4, vcountIrq := b.getLsbD 5 }
    else s.setPpu { s.ppu with vcountSetting := b }
  | .vcount => s
  | .bgcnt k => s.setBg k { s.ppu.bg[k] with cnt := setHalfByte s.ppu.bg[k].cnt i b }
  | .bghofs k => s.setBg k { s.ppu.bg[k] with hofs := setScrollByte s.ppu.bg[k].hofs i b }
  | .bgvofs k => s.setBg k { s.ppu.bg[k] with vofs := setScrollByte s.ppu.bg[k].vofs i b }
  | .affParam g w => s.setAffine g ((s.affine g).writeParam w i b)
  | .affX g =>
    let v := setRefByte (s.affine g).x i b
    s.setAffine g { s.affine g with x := v, refX := v }
  | .affY g =>
    let v := setRefByte (s.affine g).y i b
    s.setAffine g { s.affine g with y := v, refY := v }
  | .win0h => s.setPpu { s.ppu with win0h := setHalfByte s.ppu.win0h i b }
  | .win1h => s.setPpu { s.ppu with win1h := setHalfByte s.ppu.win1h i b }
  | .win0v => s.setPpu { s.ppu with win0v := setHalfByte s.ppu.win0v i b }
  | .win1v => s.setPpu { s.ppu with win1v := setHalfByte s.ppu.win1v i b }
  | .winin => s.setPpu { s.ppu with winin := setHalfByte s.ppu.winin i b &&& 0x3F3F#16 }
  | .winout => s.setPpu { s.ppu with winout := setHalfByte s.ppu.winout i b &&& 0x3F3F#16 }
  | .mosaic => s.setPpu { s.ppu with mosaic := setHalfByte s.ppu.mosaic i b }
  | .bldcnt => s.setPpu { s.ppu with bldcnt := setHalfByte s.ppu.bldcnt i b &&& 0x3FFF#16 }
  | .bldalpha => s.setPpu { s.ppu with bldalpha := setHalfByte s.ppu.bldalpha i b &&& 0x1F1F#16 }
  | .bldy => if i = 0 then s.setPpu { s.ppu with bldy := b.setWidth 5 } else s
  | .fifoA => { s with fifoA := min 32 (s.fifoA + 1) }
  | .fifoB => { s with fifoB := min 32 (s.fifoB + 1) }
  | .dmaSad k =>
    let mask : Word := if k = 0 then 0x07FFFFFF#32 else 0x0FFFFFFF#32
    s.setDma k { s.dma[k] with sad := setWordByte s.dma[k].sad i b &&& mask }
  | .dmaDad k =>
    let mask : Word := if k = 3 then 0x0FFFFFFF#32 else 0x07FFFFFF#32
    s.setDma k { s.dma[k] with dad := setWordByte s.dma[k].dad i b &&& mask }
  | .dmaCntL k =>
    let mask : Half := if k = 3 then 0xFFFF#16 else 0x3FFF#16
    s.setDma k { s.dma[k] with cntL := setHalfByte s.dma[k].cntL i b &&& mask }
  | .dmaCntH k => s.setDma k (s.dma[k].writeControl k i b)
  | .timerCount k => s.setTimer k { s.timers[k] with reload := setHalfByte s.timers[k].reload i b }
  | .timerControl k => s.setTimer k (s.timers[k].writeControl i b)
  | .keyinput => s
  | .keycnt => keypadCheck { s with keys := { s.keys with keycnt := setHalfByte s.keys.keycnt i b &&& 0xC3FF#16 } }
  | .ie => { s with irq := { s.irq with ie := setHalfByte s.irq.ie i b &&& 0x3FFF#16 } }
  | .iff => { s with irq := { s.irq with iff := s.irq.iff &&& ~~~(setHalfByte 0#16 i b) } }
  | .waitcnt => { s with waitcnt := setHalfByte s.waitcnt i b &&& 0x5FFF#16 }
  | .ime => if i = 0 then { s with irq := { s.irq with ime := b.getLsbD 0 } } else s
  | .postflg => { s with irq := { s.irq with postflg := b.getLsbD 0 } }
  | .haltcnt => { s with halt := true }
  | .storage =>
    let s1 : State := { s with ioStore := Cells.put (fun _ => some 0#8) s.ioStore off b }
    if off = 0x83 then soundControlWrite s1 b else s1

end Sys2Proof.Machine
end

