-- ==== Sys2Proof/Machine/Save.lean ====
section
/-! DEFINITION. The save memory: SRAM, Flash and its command state machine (20_memory R213, R215, R245-R253). -/

namespace Sys2Proof.Machine

/-- The byte a save-memory read at offset `o` returns (20_memory R245, R250). -/
def saveRead (s : State) (o : Nat) : Byte :=
  match s.save.kind with
  | .sram => Memory.get s.mem (saveLocation s.save o)
  | .flash =>
    if s.save.idMode && o == 0 then s.params.flashMaker
    else if s.save.idMode && o == 1 then s.params.flashDevice
    else Memory.get s.mem (saveLocation s.save o)

/-- Store one byte in the current buffer; the save-required flag is set (20_memory R215; log 5). -/
def saveStore (s : State) (o : Nat) (b : Byte) : State :=
  { s with
    mem := Memory.put s.mem (saveLocation s.save o) b
    save := { s.save with saveRequired := true } }

/-- Erase `n` Flash bytes from Flash offset `lo`: they become 0xFF (20_memory R251). -/
def flashErase (s : State) (lo n : Nat) : State :=
  { s with
    mem := Cells.fill s.mem (flashBase + lo) n 0xFF#8
    save := { s.save with saveRequired := true } }

/-- Set the Flash command state. -/
def State.setFlashState (s : State) (f : FlashState) : State := { s with save := { s.save with flashState := f } }

/-- A write while `saveKind = SRAM`, with the detector of the unlock sequence (20_memory R245). -/
def sramWrite (s : State) (o : Nat) (b : Byte) : State :=
  let s1 := saveStore s o b
  if s.save.sawAA && o == 0x2AAA && b == 0x55#8 then
    { s1 with save := { s1.save with kind := .flash, flashState := .unlock2, sawAA := false } }
  else
    { s1 with save := { s1.save with sawAA := o == 0x5555 && b == 0xAA#8 } }

/-- The third byte of a Flash command (20_memory R251, state Unlock2). -/
def flashCommand (s : State) (o : Nat) (b : Byte) : State :=
  let r := s.setFlashState .ready
  if o == 0x5555 then
    match b.toNat with
    | 0x90 => { r with save := { r.save with idMode := true } }
    | 0xF0 => { r with save := { r.save with idMode := false } }
    | 0x80 => s.setFlashState .eraseReady
    | 0xA0 => s.setFlashState .writeByte
    | 0xB0 => s.setFlashState .bankSelect
    | _ => r
  else r

/-- A write while `saveKind = Flash` (20_memory R251). -/
def flashWrite (s : State) (o : Nat) (b : Byte) : State :=
  match s.save.flashState with
  | .ready => if o == 0x5555 && b == 0xAA#8 then s.setFlashState .unlock1 else s.setFlashState .ready
  | .unlock1 => if o == 0x2AAA && b == 0x55#8 then s.setFlashState .unlock2 else s.setFlashState .ready
  | .unlock2 => flashCommand s o b
  | .eraseReady => if o == 0x5555 && b == 0xAA#8 then s.setFlashState .eraseUnlock1 else s.setFlashState .ready
  | .eraseUnlock1 => if o == 0x2AAA && b == 0x55#8 then s.setFlashState .eraseUnlock2 else s.setFlashState .ready
  | .eraseUnlock2 =>
    let r := s.setFlashState .ready
    if o == 0x5555 && b == 0x10#8 then flashErase r 0 0x20000
    else if b == 0x30#8 then flashErase r ((if s.save.bank then 0x10000 else 0) + o / 0x1000 * 0x1000) 0x1000
    else r
  | .writeByte => saveStore (s.setFlashState .ready) o b
  | .bankSelect =>
    let r := s.setFlashState .ready
    if o == 0 then { r with save := { r.save with bank := b.getLsbD 0 } } else r

/-- A save-memory write of one byte (20_memory R245, R251). -/
def saveWrite (s : State) (o : Nat) (b : Byte) : State :=
  match s.save.kind with
  | .sram => sramWrite s o b
  | .flash => flashWrite s o b

end Sys2Proof.Machine
end

