-- ==== Sys2Proof/Machine/Bus.lean ====
section
/-! DEFINITION. The bus router: reads and writes of 8, 16 and 32 bits (20_memory R200-R236). It never faults (R231). -/

namespace Sys2Proof.Machine

/-- An access width. -/
inductive Width where
  | byte | half | word
  deriving DecidableEq, Repr

/-- How many bytes. -/
def Width.bytes : Width → Nat
  | .byte => 1
  | .half => 2
  | .word => 4

/-- The bus's alignment, for every region but save memory (20_memory R217). -/
def Width.align (w : Width) (a : Word) : Word :=
  match w with
  | .byte => a
  | .half => alignHalf a
  | .word => alignWord a

/-- Keep the bytes of a width. -/
def Width.truncate (w : Width) (v : Word) : Word :=
  match w with
  | .byte => v &&& 0xFF#32
  | .half => v &&& 0xFFFF#32
  | .word => v

/-! ### Reads -/

/-- The open-bus byte at an address: a draw, or its lane of `lastFetchWord` (20_memory R230). -/
def openBusByte (s : State) (addr : Word) : Option Byte :=
  match s.params.openBus with
  | .draw => none
  | .lastFetch => some (byteOf s.lastFetchWord (addr &&& 3#32).toNat)

/-- The byte an 8-bit read of the address returns, where the spec fixes it; none where it is a draw. This is the
model's read of one byte. -/
def peek (s : State) (addr : Word) : Option Byte :=
  match regionOf addr with
  | .io => ioReadByte s (ioOffset addr)
  | .save => some (saveRead s (saveOffset addr))
  | .unmapped => openBusByte s addr
  | _ =>
    match locationOf s addr with
    | some k => some (Memory.get s.mem k)
    | none => openBusByte s addr

/-- Byte `k` of an access at aligned address `a`: a byte the spec leaves open is byte `k` of the next free value. -/
def laneOf (s : State) (a : Word) (k : Nat) : Byte :=
  match peek s (a + BitVec.ofNat 32 k) with
  | some b => b
  | none => byteOf s.drawn k

/-- The value of a read of `w` at `addr`, zero-extended (20_memory R216-R219, R223, R230). -/
def busRead (s : State) (w : Width) (addr : Word) : Word :=
  match regionOf addr with
  | .save =>
    let b := saveRead s (saveOffset addr)
    w.truncate (wordOfBytes b b b b)
  | _ =>
    let a := w.align addr
    match w with
    | .byte => wordOfBytes (laneOf s a 0) 0 0 0
    | .half => wordOfBytes (laneOf s a 0) (laneOf s a 1) 0 0
    | .word => wordOfBytes (laneOf s a 0) (laneOf s a 1) (laneOf s a 2) (laneOf s a 3)

/-! ### Writes -/

/-- The cells of a write of `w` at location `k` (20_memory R216, R218). -/
def cellsOf (w : Width) (k : Nat) (v : Word) : List Host.Cell :=
  match w with
  | .byte => [(k, byteOf v 0)]
  | .half => [(k, byteOf v 0), (k + 1, byteOf v 1)]
  | .word => [(k, byteOf v 0), (k + 1, byteOf v 1), (k + 2, byteOf v 2), (k + 3, byteOf v 3)]

/-- Store a write's bytes at a memory location. -/
def State.store (s : State) (w : Width) (k : Nat) (v : Word) : State :=
  s.setMem (Memory.putAll s.mem (cellsOf w k v))

/-- The lowest VRAM offset of the object-tile area for 8-bit writes; modes 6 and 7 as modes 0-2 (20_memory R222;
log 9). -/
def narrowLimit (s : State) : Nat :=
  let mode := (s.ppu.dispcnt.extractLsb' 0 3).toNat
  if 3 ≤ mode ∧ mode ≤ 5 then 0x14000 else 0x10000

/-- An 8-bit write to palette RAM, VRAM or OAM under the quirk: does it write the whole halfword (20_memory R222)? -/
def narrowDoubles (s : State) (addr : Word) : Bool :=
  match regionOf addr with
  | .palette => true
  | .vram => decide (vramOffset addr < narrowLimit s)
  | _ => false

/-- A write to palette RAM, VRAM or OAM (20_memory R209-R211, R222). -/
def videoWrite (s : State) (w : Width) (addr v : Word) : State :=
  match locationOf s (w.align addr) with
  | none => s
  | some k =>
    if w = .byte && s.params.narrowVideoWrites == .quirk then
      if narrowDoubles s addr then
        let b := byteOf v 0
        s.store .half (k / 2 * 2) (wordOfBytes b b 0 0)
      else s
    else s.store w k v

/-- The I/O byte writes of a wide write, in ascending order (20_memory R219). -/
def ioWrite (s : State) (w : Width) (off : Nat) (v : Word) : State :=
  match w with
  | .byte => ioWriteByte s off (byteOf v 0)
  | .half => ioWriteByte (ioWriteByte s off (byteOf v 0)) (off + 1) (byteOf v 1)
  | .word =>
    ioWriteByte (ioWriteByte (ioWriteByte (ioWriteByte s off (byteOf v 0)) (off + 1) (byteOf v 1)) (off + 2)
      (byteOf v 2)) (off + 3) (byteOf v 3)

/-- The byte of the value that a save-memory write stores (20_memory R223). -/
def saveLane (w : Width) (addr v : Word) : Byte :=
  match w with
  | .byte => byteOf v 0
  | .half => byteOf v (addr &&& 1#32).toNat
  | .word => byteOf v (addr &&& 3#32).toNat

/-- A write of `w` (20_memory R205-R236). -/
def busWrite (s : State) (w : Width) (addr v : Word) : State :=
  match regionOf addr with
  | .bios => s
  | .rom _ => s
  | .unmapped => s
  | .ewram | .iwram =>
    match locationOf s (w.align addr) with
    | some k => s.store w k v
    | none => s
  | .palette | .vram | .oam => videoWrite s w addr v
  | .io => ioWrite s w (ioOffset (w.align addr)) v
  | .save => saveWrite s (saveOffset addr) (saveLane w addr v)

/-! ### Which bytes a store covers, and the pipeline hazard -/

/-- The addresses of the bytes a store covers: its aligned bytes; in save memory the one byte at the address
(20_memory R217, R222, R223), also where it is a Flash command that changes other bytes (20_memory R284; log 35). -/
def storedAddrs (s : State) (w : Width) (addr : Word) : List Word :=
  match regionOf addr with
  | .save => [addr]
  | _ =>
    let a := w.align addr
    match w with
    | .byte =>
      if s.params.narrowVideoWrites == .quirk && narrowDoubles s addr then
        [alignHalf addr, alignHalf addr + 1#32]
      else [a]
    | .half => [a, a + 1#32]
    | .word => [a, a + 1#32, a + 2#32, a + 3#32]

/-- The byte addresses of the next two instruction slots: `[pc + ISize, pc + 3*ISize)` (70_reset R1220). -/
def slotAddrs (s : State) : List Word :=
  if s.cpsr.t then [s.pc + 2#32, s.pc + 3#32, s.pc + 4#32, s.pc + 5#32]
  else [s.pc + 4#32, s.pc + 5#32, s.pc + 6#32, s.pc + 7#32, s.pc + 8#32, s.pc + 9#32, s.pc + 10#32, s.pc + 11#32]

/-- Two addresses of one byte: equal, or a stored-to address and another name of the same location (log 8). -/
def sameByte (s : State) (p q : Word) : Bool :=
  p == q || ((writableLocation s p).isSome && writableLocation s p == writableLocation s q)

/-- Does a store fall on the next two instruction slots (70_reset R1220)? -/
def storeHazard (s : State) (w : Width) (addr : Word) : Bool :=
  (storedAddrs s w addr).any fun p => (slotAddrs s).any fun q => sameByte s p q

end Sys2Proof.Machine
end

