-- ==== Sys2Proof/Machine/Flags.lean ====
section
/-! DEFINITION. The condition evaluator, add with carry, and the flag computations (40_alu R400-R436). -/

namespace Sys2Proof.Machine

/-- `ConditionPassed` (40_alu R401). -/
def conditionPassed (p : Cpsr) : Cond → Bool
  | .eq => p.z
  | .ne => !p.z
  | .cs => p.c
  | .cc => !p.c
  | .mi => p.n
  | .pl => !p.n
  | .vs => p.v
  | .vc => !p.v
  | .hi => p.c && !p.z
  | .ls => !p.c || p.z
  | .ge => p.n == p.v
  | .lt => p.n != p.v
  | .gt => !p.z && p.n == p.v
  | .le => p.z || p.n != p.v
  | .al => true
  | .nv => false

/-- A result with its carry and overflow. -/
structure Sum where
  value : Word
  carry : Bool
  overflow : Bool
  deriving DecidableEq, Repr

/-- `AddWithCarry(a, b, cin)`: exact sums, then narrowed (40_alu R430). -/
def addWithCarry (a b : Word) (cin : Bool) : Sum :=
  let usum := a.toNat + b.toNat + cin.toNat
  let ssum := a.toInt + b.toInt + (cin.toNat : Int)
  { value := BitVec.ofNat 32 usum
    carry := decide (2 ^ 32 ≤ usum)
    overflow := decide (ssum < -(2 ^ 31) ∨ 2 ^ 31 - 1 < ssum) }

/-- N of a 32-bit result (40_alu R432). -/
def negative (r : Word) : Bool := r.getLsbD 31

/-- Z of a 32-bit result (40_alu R432). -/
def isZero (r : Word) : Bool := r == 0#32

/-- N and Z from the result; C and V unchanged (45_thumb R701, logical). -/
def flagsNZ (p : Cpsr) (r : Word) : Cpsr := p.withFlags (negative r) (isZero r) p.c p.v

/-- N and Z from the result, C from the shifter; V unchanged (40_alu R433; 45_thumb R701, shifts). -/
def flagsNZC (p : Cpsr) (r : Word) (c : Bool) : Cpsr := p.withFlags (negative r) (isZero r) c p.v

/-- N, Z, C and V of AddWithCarry (40_alu R434). -/
def flagsNZCV (p : Cpsr) (u : Sum) : Cpsr := p.withFlags (negative u.value) (isZero u.value) u.carry u.overflow

/-- The flags of a 64-bit multiply result: N, Z; C and V are draws (40_alu R432; 42_arm_multiply R504). -/
def flagsLong (p : Cpsr) (r : BitVec 64) (c v : Bool) : Cpsr := p.withFlags (r.getLsbD 63) (r == 0#64) c v

end Sys2Proof.Machine
end

