-- ==== Sys2Proof/Machine/Operands.lean ====
section
/-! DEFINITION. The barrel shifter and every operand form (30_encoding R322-R326, R342; 40_alu R410-R429; 41 R450-R453;
43 R530). -/

namespace Sys2Proof.Machine

/-- A shifter result and its carry-out. -/
structure Shifted where
  value : Word
  carry : Bool
  deriving DecidableEq, Repr

/-- The shifts by 1 to 31 (40_alu R412). -/
def shiftPlain (t : ShiftType) (v : Word) (n : Nat) : Shifted :=
  match t with
  | .lsl => ⟨v <<< n, v.getLsbD (32 - n)⟩
  | .lsr => ⟨v >>> n, v.getLsbD (n - 1)⟩
  | .asr => ⟨v.sshiftRight n, v.getLsbD (n - 1)⟩
  | .ror => ⟨ror32 v n, v.getLsbD (n - 1)⟩

/-- The immediate form, amount 0 to 31 (40_alu R420-R423, R429). -/
def shiftImm (t : ShiftType) (v : Word) (n : Nat) (cin : Bool) : Shifted :=
  if n = 0 then
    match t with
    | .lsl => ⟨v, cin⟩
    | .lsr => ⟨0#32, v.getLsbD 31⟩
    | .asr => ⟨replicateBit (v.getLsbD 31), v.getLsbD 31⟩
    | .ror => ⟨BitVec.ofBool cin ++ v.extractLsb' 1 31, v.getLsbD 0⟩
  else shiftPlain t v n

/-- The register form, amount 0 to 255 (40_alu R424-R427, R429). -/
def shiftReg (t : ShiftType) (v : Word) (n : Nat) (cin : Bool) : Shifted :=
  if n = 0 then ⟨v, cin⟩
  else if n < 32 then shiftPlain t v n
  else
    match t with
    | .lsl => ⟨0#32, n == 32 && v.getLsbD 0⟩
    | .lsr => ⟨0#32, n == 32 && v.getLsbD 31⟩
    | .asr => ⟨replicateBit (v.getLsbD 31), v.getLsbD 31⟩
    | .ror => if n % 32 = 0 then ⟨v, v.getLsbD 31⟩ else shiftPlain .ror v (n % 32)

/-- The rotated immediate (30_encoding R322; 40_alu R428). -/
def rotatedImm (rotate : BitVec 4) (imm8 : BitVec 8) : Word := ror32 (imm8.setWidth 32) (2 * rotate.toNat)

/-- The rotated immediate with its carry-out (40_alu R428). -/
def rotatedImmCarry (rotate : BitVec 4) (imm8 : BitVec 8) (cin : Bool) : Shifted :=
  let r := rotatedImm rotate imm8
  ⟨r, if rotate = 0#4 then cin else r.getLsbD 31⟩

/-- A register operand of data processing: R15 reads pc + 12 in the register-shift form (41 R450, R452). -/
def dpRegister (s : State) (regShift : Bool) (i : RegNum) : Word :=
  if regShift && i == 15#4 then s.pc + 12#32 else s.x i

/-- Is this the register-shift form A2? -/
def isRegShift : Operand2 → Bool
  | .imm _ _ => false
  | .shiftImm _ _ _ => false
  | .shiftReg _ _ _ => true

/-- Does the form name R15 as the shift amount (41 R453)? -/
def badShiftAmount : Operand2 → Bool
  | .imm _ _ => false
  | .shiftImm _ _ _ => false
  | .shiftReg _ rs _ => rs == 15#4

/-- The second operand and the shifter's carry (41 R451). -/
def operand2Value (s : State) (o : Operand2) : Shifted :=
  match o with
  | .imm rotate imm8 => rotatedImmCarry rotate imm8 s.cpsr.c
  | .shiftImm t amount rm => shiftImm t (s.x rm) amount.toNat s.cpsr.c
  | .shiftReg t rs rm => shiftReg t (dpRegister s true rm) ((s.x rs).extractLsb' 0 8).toNat s.cpsr.c

/-- The offset of a single data transfer; the carry-out is discarded (30_encoding R324). -/
def offsetValue (s : State) (o : Offset) : Word :=
  match o with
  | .imm imm12 => imm12.setWidth 32
  | .reg t amount rm => (shiftImm t (s.x rm) amount.toNat s.cpsr.c).value

/-- Does the offset name R15 (43 R534)? -/
def badOffset : Offset → Bool
  | .imm _ => false
  | .reg _ _ rm => rm == 15#4

/-- `U ? base + offset : base - offset` (43 R530). -/
def offsetAddr (u : Bool) (base offset : Word) : Word := if u then base + offset else base - offset

/-- The access address: `P ? offset_addr : base` (43 R530). -/
def accessAddr (p u : Bool) (base offset : Word) : Word := if p then offsetAddr u base offset else base

/-- The byte offset of an ARM branch (30_encoding R325). -/
def branchOffset (offset24 : BitVec 24) : Word := (offset24 ++ 0#2).signExtend 32

/-- An 8-bit field in words (30_encoding R342). -/
def word8Offset (word8 : BitVec 8) : Word := (word8 ++ 0#2).setWidth 32

/-- The halfword offset of a Thumb conditional branch (30_encoding R342). -/
def soffset8Offset (soffset8 : BitVec 8) : Word := (soffset8 ++ 0#1).signExtend 32

/-- The halfword offset of a Thumb branch (30_encoding R342). -/
def offset11Offset (offset11 : BitVec 11) : Word := (offset11 ++ 0#1).signExtend 32

/-- The registers of a list, lowest first (30_encoding R326). -/
def listRegs (list : BitVec 16) : List RegNum :=
  (List.range 16).filterMap fun i => if list.getLsbD i then some (BitVec.ofNat 4 i) else none

/-- The registers of a Thumb list, R0 to R7, lowest first (45_thumb R730). -/
def lowListRegs (list : BitVec 8) : List RegNum := listRegs (list.setWidth 16)

/-- The first address of a block transfer of `n` words (43 R560). -/
def blockStart (p u : Bool) (b : Word) (n : Nat) : Word :=
  let span := BitVec.ofNat 32 (4 * n)
  match p, u with
  | false, true => b
  | true, true => b + 4#32
  | false, false => b - span + 4#32
  | true, false => b - span

/-- The written-back base of a block transfer (43 R560). -/
def blockWriteBack (u : Bool) (b : Word) (n : Nat) : Word :=
  let span := BitVec.ofNat 32 (4 * n)
  if u then b + span else b - span

/-- Does a single transfer write its base back (43 R531)? -/
def writesBack (p w : Bool) : Bool := !p || w

/-- The access address of a single transfer (43 R530). -/
def transferAddr (s : State) (p u : Bool) (rn : RegNum) (offset : Word) : Word := accessAddr p u (s.x rn) offset

/-- The word address of a PC-relative Thumb form (45_thumb R723, R727). -/
def pcRelative (s : State) (word8 : BitVec 8) : Word := alignWord (s.pc + 4#32) + word8Offset word8

/-- The number of registers of an ARM list. -/
def listCount (list : BitVec 16) : Nat := (listRegs list).length

/-- The registers of PUSH and POP: the low list, then LR or PC (45_thumb R730). -/
def pushRegs (list : BitVec 8) (r : Bool) (extra : RegNum) : List RegNum :=
  lowListRegs list ++ (if r then [extra] else [])

/-- A 5-bit offset in units (30_encoding R342). -/
def imm5Offset (imm5 : BitVec 5) (unit : Nat) : Word := BitVec.ofNat 32 (imm5.toNat * unit)

end Sys2Proof.Machine
end

