-- ==== Sys2Proof/Machine/Ops.lean ====
section
/-! DEFINITION. The shared operations of the meanings: ending a step, the condition, taking an exception and returning
from one, loads and stores as instructions make them (00_scope R16, R17; 10_state R106; 43 R538, R549; 60 R812). -/

namespace Sys2Proof.Machine

/-- What one instruction, or one step, ends in. -/
abbrev Result := Host.Outcome State Fault Refusal

/-- Go on after a next state; stop at a fault or a refusal. -/
def andThen (r : Result) (f : State → Result) : Result :=
  match r with
  | .next s => f s
  | .fault e => .fault e
  | .refused e => .refused e

/-- Stop with `ModelFault(Unpredictable)` if the operands are UNPREDICTABLE, else go on (30_encoding R361). -/
def unlessUnpredictable (bad : Bool) (r : Result) : Result := if bad then .fault .unpredictable else r

/-- An instruction that only advances. -/
def nextInstr (s : State) : Result := .next s.advance

/-- An ARM instruction: if the condition fails the step is the advance alone (30_encoding R321; 40_alu R402). -/
def conditional (cond : Cond) (s : State) (body : State → Result) : Result :=
  if conditionPassed s.cpsr cond then body s else nextInstr s

/-! ### Exceptions -/

/-- Exception entry into a mode that has an SPSR (60_exceptions R812). -/
def enterException (m : Mode) (vector link : Word) (setF : Bool) (s : State) : State :=
  let saved := s.cpsr.saved
  let s1 := (s.setMode m).setSpsrOf m saved
  let s2 := s1.setReg m.lr link
  (s2.setCpsr { s2.cpsr with t := false, i := true, f := s2.cpsr.f || setF }).setPc vector

/-- `raise Undefined()` (60_exceptions R820). -/
def undefinedEntry (s : State) : State := enterException .und 0x00000004#32 (s.pc + s.isize) false s

/-- The software-interrupt exception (60_exceptions R813). -/
def swiEntry (s : State) : State := enterException .svc 0x00000008#32 (s.pc + s.isize) false s

/-- Taking an IRQ (60_exceptions R840). -/
def irqEntry (s : State) : State := enterException .irq 0x00000018#32 (s.pc + 4#32) false s

/-- An undefined encoding (30_encoding R360). -/
def undefinedInstr (s : State) : Result :=
  match s.params.invalidOpcode with
  | .undefinedException => .next (undefinedEntry s)
  | .noOp => nextInstr s

/-- `restoreFromSPSR()` (10_state R106). -/
def restoreFromSpsr (s : State) : Result :=
  match s.spsrOf s.cpsr.mode with
  | none => .fault .noSpsrInMode
  | some p =>
    match p.restored with
    | none => .fault .invalidModeRestore
    | some c => .next (s.setCpsr c)

/-- Write pc with the alignment of the current state (41 R456; 43 R572). -/
def State.setPcAligned (s : State) (target : Word) : State :=
  s.setPc (if s.cpsr.t then alignHalf target else alignWord target)

/-- The return from an exception: restore, then write pc (60_exceptions R814). -/
def exceptionReturn (target : Word) (s : State) : Result :=
  andThen (restoreFromSpsr s) fun s1 => .next (s1.setPcAligned target)

/-- BX's write of pc and T (44 R603; 45_thumb R713). -/
def branchExchange (target : Word) (s : State) : State :=
  (s.setCpsr { s.cpsr with t := target.getLsbD 0 }).setPc
    (if target.getLsbD 0 then alignHalf target else alignWord target)

/-! ### Loads and stores -/

/-- The data of a word load: the aligned word, rotated when misaligned (43 R538). -/
def loadWord (s : State) (addr : Word) : Word :=
  let w := busRead s .word (alignWord addr)
  if s.params.misalignedLoadRotate then ror32 w (8 * (addr &&& 3#32).toNat) else w

/-- The data of an LDRH (43 R549, R551). -/
def loadHalf (s : State) (addr : Word) : Word :=
  if addr.getLsbD 0 then
    let h := busRead s .half (alignHalf addr)
    if s.params.misalignedLoadRotate then ror32 h 8 else h
  else busRead s .half addr

/-- The data of an LDRB (43 R543). -/
def loadByte (s : State) (addr : Word) : Word := busRead s .byte addr

/-- The data of an LDRSB (43 R552). -/
def loadSignedByte (s : State) (addr : Word) : Word := ((busRead s .byte addr).setWidth 8).signExtend 32

/-- The data of an LDRSH (43 R549, R553). -/
def loadSignedHalf (s : State) (addr : Word) : Word :=
  if addr.getLsbD 0 && s.params.misalignedLoadRotate then loadSignedByte s addr
  else ((busRead s .half (alignHalf addr)).setWidth 16).signExtend 32

/-- A CPU store: the hazard check, then the bus write (70_reset R1220). -/
def cpuStore (w : Width) (addr v : Word) (s : State) : Result :=
  if storeHazard s w addr then .fault .pipelineHazard else .next (busWrite s w addr v)

/-- The address a word store is given to the bus at (43 R541). -/
def storeWordAddr (addr : Word) : Word := alignWord addr

/-- The address a halfword store is given to the bus at (43 R549, R550). -/
def storeHalfAddr (addr : Word) : Word := alignHalf addr

/-- The value a store of R15 stores, else the register (43 R541, R567). -/
def storedRegister (s : State) (i : RegNum) : Word :=
  if i == 15#4 then
    match s.params.storePcOffset with
    | .twelve => s.pc + 12#32
    | .four => s.pc + 4#32
  else s.x i

end Sys2Proof.Machine
end

