-- ==== Sys2Proof/Machine/Block.lean ====
section
/-! DEFINITION. ARM block transfers (43_arm_load_store, section 4). -/

namespace Sys2Proof.Machine

/-- The registers of a block transfer with their addresses, lowest first (43 R564). -/
def blockPairs (regs : List RegNum) (start : Word) : List (RegNum × Word) :=
  regs.zipIdx.map fun e => (e.1, alignWord start + BitVec.ofNat 32 (4 * e.2))

/-- The access order: ascending for U = 1, descending for U = 0 (43 R565). -/
def accessOrder (u : Bool) (l : List (RegNum × Word)) : List (RegNum × Word) := if u then l else l.reverse

/-- Load registers in the view of mode `m`; the word loaded for R15 is carried beside the state (43 R566, R571). -/
def loadRegs (m : Mode) : List (RegNum × Word) → State × Word → State × Word
  | [], p => p
  | (r, a) :: rest, p =>
    let v := busRead p.1 .word a
    if r = 15#4 then loadRegs m rest (p.1.bump, v) else loadRegs m rest ((p.1.bump).setXIn m r v, p.2)

/-- Store words in order (43 R567). -/
def storeWords : List (Word × Word) → State → Result
  | [], s0 => .next s0
  | (a, v) :: rest, s0 => andThen (cpuStore .word a v s0) (storeWords rest)

/-- The value stored for a register; the written-back base replaces Rn where the parameter says so (43 R567, R573,
R575). -/
def blockStored (s0 : State) (m : Mode) (rn : RegNum) (writeBack : Bool) (newBase : Word) (lowest i : RegNum) : Word :=
  if i = 15#4 then storedRegister s0 15#4
  else if writeBack && i == rn && s0.params.stmBaseInList == .newIfNotLowest && lowest != rn then newBase
  else s0.xIn m i

/-- The words of a block store, in access order. -/
def blockWords (s0 : State) (m : Mode) (u : Bool) (regs : List RegNum) (start : Word) (rn : RegNum) (writeBack : Bool)
    (newBase : Word) : List (Word × Word) :=
  (accessOrder u (blockPairs regs start)).map fun e =>
    (e.2, blockStored s0 m rn writeBack newBase (regs.headD 15#4) e.1)

/-- The restrictions of LDM (43 R561, R563, R569, R571). -/
def badLdm (s w : Bool) (rn : RegNum) (list : BitVec 16) (m : Mode) : Bool :=
  list == 0#16 || rn == 15#4 || (w && list.getLsbD rn.toNat) || (s && !list.getLsbD 15 && (w || !m.hasSpsr))

/-- The restrictions of STM (43 R561, R563, R573). -/
def badStm (s w : Bool) (rn : RegNum) (list : BitVec 16) (m : Mode) : Bool :=
  list == 0#16 || rn == 15#4 || (s && (w || !m.hasSpsr))

/-- LDM (43 R566-R572). -/
def loadMultiple (p u s w : Bool) (rn : RegNum) (list : BitVec 16) (s0 : State) : Result :=
  unlessUnpredictable (badLdm s w rn list s0.cpsr.mode) <|
    let regs := listRegs list
    let hasPc := list.getLsbD 15
    let m := if s && !hasPc then .usr else s0.cpsr.mode
    let r := loadRegs m (accessOrder u (blockPairs regs (blockStart p u (s0.x rn) regs.length))) (s0, 0#32)
    let s1 := if w then r.1.setX rn (blockWriteBack u (s0.x rn) regs.length) else r.1
    if hasPc then
      if s then exceptionReturn r.2 s1 else .next (s1.setPc (alignWord r.2))
    else .next s1.advance

/-- STM (43 R567, R573, R575). -/
def storeMultiple (p u s w : Bool) (rn : RegNum) (list : BitVec 16) (s0 : State) : Result :=
  unlessUnpredictable (badStm s w rn list s0.cpsr.mode) <|
    let regs := listRegs list
    let m := if s then .usr else s0.cpsr.mode
    let wb := blockWriteBack u (s0.x rn) regs.length
    andThen (storeWords (blockWords s0 m u regs (blockStart p u (s0.x rn) regs.length) rn w wb) s0) fun s1 =>
      .next (if w then s1.setX rn wb else s1).advance

/-- `LDM` (A15, 43 R566 and R560-R575). -/
def execArmLdm (cond : Cond) (p u s w : Bool) (rn : RegNum) (list : BitVec 16) (s0 : State) : Result :=
  conditional cond s0 (loadMultiple p u s w rn list)

/-- `STM` (A15, 43 R567 and R560-R575). -/
def execArmStm (cond : Cond) (p u s w : Bool) (rn : RegNum) (list : BitVec 16) (s0 : State) : Result :=
  conditional cond s0 (storeMultiple p u s w rn list)

end Sys2Proof.Machine
end

