-- ==== Sys2Proof/Machine/Bios.lean ====
section
/-! DEFINITION. The emulated BIOS layer: the functions an SWI runs under `SwiHandling = Hle` (46_bios_hle R750-R770). -/

namespace Sys2Proof.Machine

open Config (HleFn FnChoice)

/-- The function of an SWI number (46_bios_hle R751). -/
def hleFunction (n : Byte) : Option HleFn :=
  match n.toNat with
  | 0x00 => some .softReset
  | 0x06 => some .div
  | 0x07 => some .divArm
  | 0x08 => some .sqrt
  | 0x09 => some .arcTan
  | 0x0A => some .arcTan2
  | 0x0B => some .cpuSet
  | 0x0C => some .cpuFastSet
  | 0x0D => some .getBiosChecksum
  | 0x0E => some .bgAffineSet
  | 0x0F => some .objAffineSet
  | 0x10 => some .bitUnPack
  | 0x1F => some .midiKey2Freq
  | _ => none

/-- The function an SWI number runs: it must be in `HleSwiSet` (46_bios_hle R751). -/
def hleSelect (s : State) (n : Byte) : Option HleFn :=
  match hleFunction n with
  | some f => if f ∈ s.params.hleSwiSet then some f else none
  | none => none

/-- The function number of an ARM SWI (46_bios_hle R752). -/
def armSwiNumber (s : State) (comment : BitVec 24) : Byte :=
  match s.params.armSwiNumberField with
  | .bits23to16 => comment.extractLsb' 16 8
  | .bits7to0 => comment.extractLsb' 0 8

/-! ### Registers and memory as the functions use them -/

/-- A scratch register takes a free value (46_bios_hle R753; log 23). -/
def drawX (i : RegNum) (s : State) : State := (s.setX i s.drawn).bump

/-- Scratch registers, in order. -/
def drawXs (l : List RegNum) (s : State) : State := l.foldl (fun t i => drawX i t) s

/-- Reads in order; each has its own free value. -/
def hleReads : List (Width × Word) → State → List Word × State
  | [], s => ([], s)
  | (w, a) :: rest, s =>
    let r := hleReads rest s.bump
    (busRead s w a :: r.1, r.2)

/-- Writes in order, each with the hazard check (70_reset R1220). -/
def hleWrites : List (Width × Word × Word) → State → Result
  | [], s => .next s
  | (w, a, v) :: rest, s => andThen (cpuStore w a v s) (hleWrites rest)

/-! ### SoftReset (46_bios_hle R754) -/

/-- The registers SoftReset writes, in the order it names them. -/
def softResetRegs : List (PReg × Word) :=
  [(.r13Svc, 0x03007FE0#32), (.r13Irq, 0x03007FA0#32), (.r13, 0x03007F00#32), (.r14Svc, 0#32), (.r14Irq, 0#32),
   (.r14, 0#32)]
  ++ [(.r0, 0#32), (.r1, 0#32), (.r2, 0#32), (.r3, 0#32), (.r4, 0#32), (.r5, 0#32), (.r6, 0#32), (.r7, 0#32),
      (.r8, 0#32), (.r9, 0#32), (.r10, 0#32), (.r11, 0#32), (.r12, 0#32)]

/-- SoftReset; it sets pc itself (46_bios_hle R754; log 22). -/
def hleSoftReset (s : State) : State :=
  let flag := (busRead s .byte 0x03007FFA#32).setWidth 8
  let s1 := s.bump.setMem (Cells.fill s.mem (iwramBase + 0x7E00) 512 0#8)
  let s2 := softResetRegs.foldl (fun t e => t.setReg e.1 e.2) s1
  let s3 := (s2.setSpsrOf .svc Spsr.zero).setSpsrOf .irq Spsr.zero
  (s3.setCpsr ⟨false, false, false, false, false, false, false, .sys⟩).setPc
    (if flag = 0#8 then 0x08000000#32 else 0x02000000#32)

/-! ### Arithmetic functions -/

/-- Quotient, remainder and absolute quotient (46_bios_hle R755-R757). -/
def divResult (p : Config.Params) (num den : Word) : Word × Word × Word :=
  if den = 0#32 then (if num.toInt < 0 then 0xFFFFFFFF#32 else 1#32, num, 1#32)
  else if num = 0x80000000#32 ∧ den = 0xFFFFFFFF#32 then p.divOverflowResult
  else
    let q := Int.tdiv num.toInt den.toInt
    (BitVec.ofInt 32 q, BitVec.ofInt 32 (num.toInt - q * den.toInt), BitVec.ofNat 32 q.natAbs)

/-- Div and DivArm: the results, then the scratch registers (46_bios_hle R755, R758). -/
def hleDiv (num den : Word) (s : State) : State :=
  let r := divResult s.params num den
  drawXs [2#4, 12#4] (((s.setX 0#4 r.1).setX 1#4 r.2.1).setX 3#4 r.2.2)

/-- The integer square root, bit by bit from `2^(n-1)` down, starting from `r` (46_bios_hle R759). -/
def sqrtBits (v : Nat) : Nat → Nat → Nat
  | 0, r => r
  | n + 1, r => sqrtBits v n (if (r + 2 ^ n) * (r + 2 ^ n) ≤ v then r + 2 ^ n else r)

/-- `floor(sqrt(v))` of a 32-bit value (46_bios_hle R759). -/
def sqrtWord (v : Word) : Word := BitVec.ofNat 32 (sqrtBits v.toNat 16 0)

/-- One step of the arctangent polynomial, on 32-bit signed values (46_bios_hle R760; log 20). -/
def arcTanTerm (a b c : Word) : Word := (b * a).sshiftRight 14 + c

/-- The default `ArcTanFn` (46_bios_hle R760). -/
def arcTanDefault (i : Word) : Word :=
  let a := 0#32 - (i * i).sshiftRight 14
  let b := (0xA9#32 * a).sshiftRight 14 + 0x390#32
  let b := arcTanTerm a b 0x91C#32
  let b := arcTanTerm a b 0xFB6#32
  let b := arcTanTerm a b 0x16AA#32
  let b := arcTanTerm a b 0x2081#32
  let b := arcTanTerm a b 0x3651#32
  let b := arcTanTerm a b 0xA2F9#32
  (((i * b).sshiftRight 16).setWidth 16).setWidth 32

/-- `ArcTanFn` (46_bios_hle R760). -/
def arcTan (p : Config.Params) (i : Word) : Word :=
  match p.arcTanFn with
  | .standard => arcTanDefault i
  | .supplied n => Config.suppliedArcTan n i

/-- `T(v)` of R761: the arctangent as a signed 16-bit value. -/
def arcTanSigned (p : Config.Params) (v : Int) : Int := ((arcTan p (BitVec.ofInt 32 v)).setWidth 16).toInt

/-- The default `ArcTan2Fn` (46_bios_hle R761). -/
def arcTan2Default (p : Config.Params) (x y : Int) : Int :=
  if y = 0 then (if 0 ≤ x then 0 else 0x8000)
  else if x = 0 then (if 0 ≤ y then 0x4000 else 0xC000)
  else if 0 ≤ y then
    if 0 ≤ x ∧ y ≤ x then arcTanSigned p (Int.tdiv (y * 0x4000) x)
    else if x < 0 ∧ y ≤ -x then arcTanSigned p (Int.tdiv (y * 0x4000) x) + 0x8000
    else 0x4000 - arcTanSigned p (Int.tdiv (x * 0x4000) y)
  else
    if x ≤ 0 ∧ -y < -x then arcTanSigned p (Int.tdiv (y * 0x4000) x) + 0x8000
    else if 0 < x ∧ -y ≤ x then arcTanSigned p (Int.tdiv (y * 0x4000) x) + 0x10000
    else 0xC000 - arcTanSigned p (Int.tdiv (x * 0x4000) y)

/-- `ArcTan2Fn`, narrowed to an angle 0x0000-0xFFFF (46_bios_hle R761). -/
def arcTan2 (p : Config.Params) (r0 r1 : Word) : Word :=
  let x := (r0.setWidth 16).toInt
  let y := (r1.setWidth 16).toInt
  let v :=
    match p.arcTan2Fn with
    | .standard => arcTan2Default p x y
    | .supplied n => Config.suppliedArcTan2 n x y
  (BitVec.ofInt 16 v).setWidth 32

/-! ### Copy and fill (46_bios_hle R762, R763) -/

/-- Copy `n` units upward. -/
def copyUnits (w : Width) : Nat → Word → Word → State → Result
  | 0, _, _, s => .next s
  | n + 1, src, dst, s =>
    andThen (cpuStore w dst (busRead s w src) s.bump)
      (copyUnits w n (src + BitVec.ofNat 32 w.bytes) (dst + BitVec.ofNat 32 w.bytes))

/-- Fill `n` units upward with one value. -/
def fillUnits (w : Width) (v : Word) : Nat → Word → State → Result
  | 0, _, s => .next s
  | n + 1, dst, s => andThen (cpuStore w dst v s) (fillUnits w v n (dst + BitVec.ofNat 32 w.bytes))

/-- The shared body of CpuSet and CpuFastSet. -/
def hleCopy (w : Width) (count : Nat) (fill : Bool) (s : State) : Result :=
  let src := w.align (s.x 0#4)
  let dst := w.align (s.x 1#4)
  andThen (if fill then fillUnits w (busRead s w src) count dst s.bump else copyUnits w count src dst s) fun t =>
    .next (drawXs [0#4, 1#4, 3#4, 12#4] t)

/-- CpuSet (46_bios_hle R762). -/
def hleCpuSet (s : State) : Result :=
  let r2 := s.x 2#4
  hleCopy (if r2.getLsbD 26 then .word else .half) (r2.extractLsb' 0 21).toNat (r2.getLsbD 24) s

/-- CpuFastSet (46_bios_hle R763). -/
def hleCpuFastSet (s : State) : Result :=
  let r2 := s.x 2#4
  hleCopy .word (((r2.extractLsb' 0 21).toNat + 7) / 8 * 8) (r2.getLsbD 24) s

/-! ### Affine set-up (46_bios_hle R765, R766) -/

/-- round(16384 * sin(2 pi k / 256)) for k = 0 to 64. -/
def sineQuarter : List Nat :=
  [0, 402, 804, 1205, 1606, 2006, 2404, 2801, 3196, 3590, 3981, 4370, 4756]
  ++ [5139, 5520, 5897, 6270, 6639, 7005, 7366, 7723, 8076, 8423, 8765, 9102, 9434]
  ++ [9760, 10080, 10394, 10702, 11003, 11297, 11585, 11866, 12140, 12406, 12665, 12916, 13160]
  ++ [13395, 13623, 13842, 14053, 14256, 14449, 14635, 14811, 14978, 15137, 15286, 15426, 15557]
  ++ [15679, 15791, 15893, 15986, 16069, 16143, 16207, 16261, 16305, 16340, 16364, 16379, 16384]

/-- round(16384 * sin(2 pi k / 256)) (46_bios_hle R765). -/
def sineStep (k : Nat) : Int :=
  let i := k % 256
  if i ≤ 64 then (sineQuarter.getD i 0 : Nat)
  else if i ≤ 128 then (sineQuarter.getD (128 - i) 0 : Nat)
  else if i ≤ 192 then -((sineQuarter.getD (i - 128) 0 : Nat) : Int)
  else -((sineQuarter.getD (256 - i) 0 : Nat) : Int)

/-- `SinCos(k)`: sine and cosine in signed 1.14 (46_bios_hle R765). -/
def sinCos (p : Config.Params) (k : BitVec 8) : Int × Int :=
  match p.sinCos with
  | .standard => (sineStep k.toNat, sineStep (k.toNat + 64))
  | .supplied n => Config.suppliedSinCos n k

/-- A signed 16-bit field of a read. -/
def s16 (w : Word) : Int := (w.setWidth 16).toInt

/-- The matrix of a scale and an angle: (pa, pb, pc, pd), exact integers (46_bios_hle R765; log 21). -/
def affineMatrix (p : Config.Params) (sx sy : Int) (theta : Word) : Int × Int × Int × Int :=
  let t := sinCos p (theta.extractLsb' 8 8)
  ((sx * t.2) >>> 14, -((sx * t.1) >>> 14), (sy * t.1) >>> 14, (sy * t.2) >>> 14)

/-- One entry of BgAffineSet. -/
def bgAffineEntry (src dst : Word) (s : State) : Result :=
  let r := hleReads
    [(.word, src), (.word, src + 4#32), (.half, src + 8#32), (.half, src + 10#32), (.half, src + 12#32),
     (.half, src + 14#32), (.half, src + 16#32)] s
  let v := fun i => r.1.getD i 0#32
  let m := affineMatrix s.params (s16 (v 4)) (s16 (v 5)) (v 6)
  let cx := s16 (v 2)
  let cy := s16 (v 3)
  let px := (v 0).toInt - (m.1 * cx + m.2.1 * cy)
  let py := (v 1).toInt - (m.2.2.1 * cx + m.2.2.2 * cy)
  hleWrites
    [(.half, dst, BitVec.ofInt 32 m.1), (.half, dst + 2#32, BitVec.ofInt 32 m.2.1),
     (.half, dst + 4#32, BitVec.ofInt 32 m.2.2.1), (.half, dst + 6#32, BitVec.ofInt 32 m.2.2.2),
     (.word, dst + 8#32, BitVec.ofInt 32 px), (.word, dst + 12#32, BitVec.ofInt 32 py)] r.2

/-- `n` entries of BgAffineSet. -/
def bgAffineEntries : Nat → Word → Word → State → Result
  | 0, _, _, s => .next s
  | n + 1, src, dst, s => andThen (bgAffineEntry src dst s) (bgAffineEntries n (src + 20#32) (dst + 16#32))

/-- One entry of ObjAffineSet. -/
def objAffineEntry (src dst stride : Word) (s : State) : Result :=
  let r := hleReads [(.half, src), (.half, src + 2#32), (.half, src + 4#32)] s
  let v := fun i => r.1.getD i 0#32
  let m := affineMatrix s.params (s16 (v 0)) (s16 (v 1)) (v 2)
  hleWrites
    [(.half, dst, BitVec.ofInt 32 m.1), (.half, dst + stride, BitVec.ofInt 32 m.2.1),
     (.half, dst + stride + stride, BitVec.ofInt 32 m.2.2.1),
     (.half, dst + stride + stride + stride, BitVec.ofInt 32 m.2.2.2)] r.2

/-- `n` entries of ObjAffineSet. -/
def objAffineEntries (stride : Word) : Nat → Word → Word → State → Result
  | 0, _, _, s => .next s
  | n + 1, src, dst, s =>
    andThen (objAffineEntry src dst stride s) (objAffineEntries stride n (src + 8#32) (dst + stride * 4#32))

/-- The scratch registers of the functions that leave R0-R3 and R12 open. -/
def drawAllScratch (s : State) : Result := .next (drawXs [0#4, 1#4, 2#4, 3#4, 12#4] s)

/-- BgAffineSet (46_bios_hle R765). -/
def hleBgAffineSet (s : State) : Result :=
  andThen (bgAffineEntries (s.x 2#4).toNat (s.x 0#4) (s.x 1#4) s) drawAllScratch

/-- ObjAffineSet (46_bios_hle R766). -/
def hleObjAffineSet (s : State) : Result :=
  andThen (objAffineEntries (s.x 3#4) (s.x 2#4).toNat (s.x 0#4) (s.x 1#4) s) drawAllScratch

/-! ### BitUnPack (46_bios_hle R767) -/

/-- The working values of BitUnPack. -/
structure Unpack where
  acc : Word
  bits : Nat
  dst : Word
  deriving DecidableEq, Repr

/-- One source unit, then `k`. -/
def unpackUnit (sw dw : Nat) (bias : Word) (b : Byte) (j : Nat) (u : Unpack) (s : State)
    (k : Unpack → State → Result) : Result :=
  let unit : Word := BitVec.ofNat 32 (b.toNat / 2 ^ j % 2 ^ sw)
  let biased := if unit != 0#32 || bias.getLsbD 31 then unit + (bias &&& 0x7FFFFFFF#32) else unit
  let acc := u.acc ||| (BitVec.ofNat 32 (biased.toNat % 2 ^ dw) <<< u.bits)
  let bits := u.bits + dw
  if bits = 32 then andThen (cpuStore .word u.dst acc s) (k ⟨0#32, 0, u.dst + 4#32⟩)
  else k ⟨acc, bits, u.dst⟩ s

/-- The units of one source byte, `n` left, from bit `j` up; then `k`. -/
def unpackByte (sw dw : Nat) (bias : Word) (b : Byte) : Nat → Nat → Unpack → State → (Unpack → State → Result) → Result
  | 0, _, u, s, k => k u s
  | n + 1, j, u, s, k => unpackUnit sw dw bias b j u s fun u1 s1 => unpackByte sw dw bias b n (j + sw) u1 s1 k

/-- `n` source bytes from `src`. -/
def unpackBytes (sw dw : Nat) (bias : Word) : Nat → Word → Unpack → State → Result
  | 0, _, _, s => .next s
  | n + 1, src, u, s =>
    unpackByte sw dw bias ((busRead s .byte src).setWidth 8) (8 / sw) 0 u s.bump
      (unpackBytes sw dw bias n (src + 1#32))

/-- BitUnPack (46_bios_hle R767). -/
def hleBitUnPack (s : State) : Result :=
  let a := s.x 2#4
  let r := hleReads [(.half, a), (.byte, a + 2#32), (.byte, a + 3#32), (.word, a + 4#32)] s
  let v := fun i => r.1.getD i 0#32
  let sw := (v 1).toNat
  let dw := (v 2).toNat
  if [1, 2, 4, 8].contains sw && [1, 2, 4, 8, 16, 32].contains dw then
    andThen (unpackBytes sw dw (v 3) (v 0).toNat (s.x 0#4) ⟨0#32, 0, s.x 1#4⟩ r.2) drawAllScratch
  else .fault .badArgument

/-! ### MidiKey2Freq (46_bios_hle R768) -/

/-- The largest m with `m^3072 * 2^down ≤ f^3072 * 2^up`, bit by bit from `2^(n-1)` down, starting from `r`. -/
def midiBits (f up down : Nat) : Nat → Nat → Nat
  | 0, r => r
  | n + 1, r =>
    midiBits f up down n (if (r + 2 ^ n) ^ 3072 * 2 ^ down ≤ f ^ 3072 * 2 ^ up then r + 2 ^ n else r)

/-- The default `MidiFreqFn`: `floor(f / 2^((180 - mk - fp/256) / 12))`, exactly; none from 2^32 up (log 19). With
`d = 256 mk + fp - 46080` the value is `floor(f * 2^(d / 3072))`. -/
def midiFreqDefault (f : Word) (mk fp : Nat) : Option Word :=
  let n := 256 * mk + fp
  if f = 0#32 then some 0#32
  else if 46080 + 32 * 3072 ≤ n then none
  else
    let r := midiBits f.toNat (n - 46080) (46080 - n) 33 0
    if 2 ^ 32 ≤ r then none else some (BitVec.ofNat 32 r)

/-- `MidiFreqFn`; a value the spec does not state is the next free value. -/
def midiFreq (s : State) (f : Word) (mk fp : Nat) : Word :=
  match s.params.midiFreqFn with
  | .standard => (midiFreqDefault f mk fp).getD s.drawn
  | .supplied n => Config.suppliedMidiFreq n f mk fp

/-- MidiKey2Freq (46_bios_hle R768). -/
def hleMidiKey2Freq (s : State) : State :=
  let f := busRead s .word (s.x 0#4 + 4#32)
  let s1 := s.bump
  drawXs [1#4, 3#4, 12#4] ((s1.setX 0#4 (midiFreq s1 f (s.x 1#4).toNat (s.x 2#4).toNat)).bump)

/-! ### The call -/

/-- Run a function to its end state, pc still at the SWI except for SoftReset. -/
def hleRun (f : HleFn) (s : State) : Result :=
  match f with
  | .softReset => .next (hleSoftReset s)
  | .div => .next (hleDiv (s.x 0#4) (s.x 1#4) s)
  | .divArm => .next (hleDiv (s.x 1#4) (s.x 0#4) s)
  | .sqrt => .next (drawXs [1#4, 2#4, 3#4, 12#4] (s.setX 0#4 (sqrtWord (s.x 0#4))))
  | .arcTan => .next (drawXs [1#4, 2#4, 3#4, 12#4] (s.setX 0#4 (arcTan s.params (s.x 0#4))))
  | .arcTan2 => .next (drawXs [1#4, 2#4, 3#4, 12#4] (s.setX 0#4 (arcTan2 s.params (s.x 0#4) (s.x 1#4))))
  | .cpuSet => hleCpuSet s
  | .cpuFastSet => hleCpuFastSet s
  | .getBiosChecksum => .next (drawXs [1#4, 2#4, 3#4, 12#4] (s.setX 0#4 s.params.biosChecksum))
  | .bgAffineSet => hleBgAffineSet s
  | .objAffineSet => hleObjAffineSet s
  | .bitUnPack => hleBitUnPack s
  | .midiKey2Freq => .next (hleMidiKey2Freq s)

/-- An HLE call: the function, then the advance, but for SoftReset, which sets pc (46_bios_hle R750, R754). -/
def hleCall (f : HleFn) (s : State) : Result :=
  andThen (hleRun f s) fun t => .next (if f = .softReset then t else t.advance)

/-- An SWI with function number `n` (44 R620; 45_thumb R738). -/
def softwareInterrupt (n : Byte) (s : State) : Result :=
  match s.params.swiHandling with
  | .vector => .next (swiEntry s)
  | .hle =>
    match hleSelect s n with
    | some f => hleCall f s
    | none => undefinedInstr s

end Sys2Proof.Machine
end

