-- ==== Sys2Proof/Machine/Branch.lean ====
section
/-! DEFINITION. ARM branches, SWI, and the undefined and unpredictable words (44_arm_branch_psr_system; 30_encoding R360, R361). -/

namespace Sys2Proof.Machine

/-- A reserved ARM word that is UNPREDICTABLE (30_encoding R361). -/
def unpredictableWord (_ : State) : Result := .fault .unpredictable

/-- `BX` (A7, 44 R603). -/
def execArmBx (cond : Cond) (rm : RegNum) (s0 : State) : Result :=
  conditional cond s0 fun s1 => .next (branchExchange (s1.x rm) s1)

/-- `B` (A16, 44 R600). -/
def execArmB (cond : Cond) (offset24 : BitVec 24) (s0 : State) : Result :=
  conditional cond s0 fun s1 => .next (s1.setPc (s1.pc + 8#32 + branchOffset offset24))

/-- `BL` (A16, 44 R601). -/
def execArmBl (cond : Cond) (offset24 : BitVec 24) (s0 : State) : Result :=
  conditional cond s0 fun s1 =>
    .next ((s1.setX 14#4 (s1.pc + 4#32)).setPc (s1.pc + 8#32 + branchOffset offset24))

/-- `SWI` (A20, 44 R620). -/
def execArmSwi (cond : Cond) (comment : BitVec 24) (s0 : State) : Result :=
  conditional cond s0 fun s1 => softwareInterrupt (armSwiNumber s1 comment) s1

/-- `UNPREDICTABLE__swap__bits_11_8____0` (30 R320 line 2d, R361). -/
def execArmUnpredSwap (cond : Cond) (_body : BitVec 28) (s0 : State) : Result :=
  conditional cond s0 unpredictableWord

/-- `UNPREDICTABLE__doubleword_space__L___0__bit_6___1` (30 R320 line 3b, R361). -/
def execArmUnpredDoubleword (cond : Cond) (_body : BitVec 28) (s0 : State) : Result :=
  conditional cond s0 unpredictableWord

/-- `UNPREDICTABLE__halfword_register_form__bits_11_8____0` (30 R320 line 3a, R361). -/
def execArmUnpredHalfwordReg (cond : Cond) (_body : BitVec 28) (s0 : State) : Result :=
  conditional cond s0 unpredictableWord

/-- `UNPREDICTABLE__MRS_should-be_fields` (30 R320 line 4a, R361). -/
def execArmUnpredMrs (cond : Cond) (_body : BitVec 28) (s0 : State) : Result :=
  conditional cond s0 unpredictableWord

/-- `UNPREDICTABLE__MSR_register_should-be_fields` (30 R320 line 4b, R361). -/
def execArmUnpredMsrReg (cond : Cond) (_body : BitVec 28) (s0 : State) : Result :=
  conditional cond s0 unpredictableWord

/-- `UNPREDICTABLE__MSR_immediate__bits_15_12____1111` (30 R320 line 5a, R361). -/
def execArmUnpredMsrImm (cond : Cond) (_body : BitVec 28) (s0 : State) : Result :=
  conditional cond s0 unpredictableWord

/-- `UNDEFINED__other_multiply_space` (30 R320 line 2e, R360). -/
def execArmUndefMultiply (cond : Cond) (_body : BitVec 28) (s0 : State) : Result :=
  conditional cond s0 undefinedInstr

/-- `UNDEFINED__TST_TEQ_CMP_CMN_register_space_with_S___0` (30 R320 line 4c, R360). -/
def execArmUndefCompareReg (cond : Cond) (_body : BitVec 28) (s0 : State) : Result :=
  conditional cond s0 undefinedInstr

/-- `UNDEFINED__TST_CMP_immediate_space_with_S___0` (30 R320 line 5b, R360). -/
def execArmUndefCompareImm (cond : Cond) (_body : BitVec 28) (s0 : State) : Result :=
  conditional cond s0 undefinedInstr

/-- `UNDEFINED__A14` (30 R320 line 7, 44 R626). -/
def execArmUndefA14 (cond : Cond) (_body : BitVec 28) (s0 : State) : Result :=
  conditional cond s0 undefinedInstr

/-- `LDC_STC__Undefined` (A17, 44 R625). -/
def execArmLdcStc (cond : Cond) (_p _u _n _w _l : Bool) (_rn _crd _cp : RegNum) (_offset8 : BitVec 8) (s0 : State) : Result :=
  conditional cond s0 undefinedInstr

/-- `CDP__Undefined` (A18, 44 R625). -/
def execArmCdp (cond : Cond) (_op1 : BitVec 4) (_crn _crd _cp : RegNum) (_op2 : BitVec 3) (_crm : RegNum) (s0 : State) : Result :=
  conditional cond s0 undefinedInstr

/-- `MCR__Undefined` (A19 with L = 0, 44 R625). -/
def execArmMcr (cond : Cond) (_op1 : BitVec 3) (_crn _rd _cp : RegNum) (_op2 : BitVec 3) (_crm : RegNum) (s0 : State) : Result :=
  conditional cond s0 undefinedInstr

/-- `MRC__Undefined` (A19 with L = 1, 44 R625). -/
def execArmMrc (cond : Cond) (_op1 : BitVec 3) (_crn _rd _cp : RegNum) (_op2 : BitVec 3) (_crm : RegNum) (s0 : State) : Result :=
  conditional cond s0 undefinedInstr

end Sys2Proof.Machine
end

