-- ==== Sys2Proof/Machine/DataProcessing.lean ====
section
/-! DEFINITION. ARM data processing (41_arm_data_processing). -/

namespace Sys2Proof.Machine

/-- The ALU (40_alu R435): result, C and V. A logical operation takes C from the shifter and keeps V. -/
def alu (op : DpOp) (a b : Word) (c sc v : Bool) : Sum :=
  match op with
  | .and | .tst => ⟨a &&& b, sc, v⟩
  | .eor | .teq => ⟨a ^^^ b, sc, v⟩
  | .sub | .cmp => addWithCarry a (~~~b) true
  | .rsb => addWithCarry b (~~~a) true
  | .add | .cmn => addWithCarry a b false
  | .adc => addWithCarry a b c
  | .sbc => addWithCarry a (~~~b) c
  | .rsc => addWithCarry b (~~~a) c
  | .orr => ⟨a ||| b, sc, v⟩
  | .mov => ⟨b, sc, v⟩
  | .bic => ⟨a &&& ~~~b, sc, v⟩
  | .mvn => ⟨~~~b, sc, v⟩

/-- The ALU's result for an instruction's operands, read from the state (41 R450-R454). -/
def dpResult (op : DpOp) (rn : RegNum) (op2 : Operand2) (s0 : State) : Sum :=
  let o := operand2Value s0 op2
  alu op (dpRegister s0 (isRegShift op2) rn) o.value s0.cpsr.c o.carry s0.cpsr.v

/-- The operations that write Rd (41 R454-R459). -/
def dataProcessing (op : DpOp) (s : Bool) (rn rd : RegNum) (op2 : Operand2) (s0 : State) : Result :=
  unlessUnpredictable (badShiftAmount op2) <|
    let r := dpResult op rn op2 s0
    if rd = 15#4 then
      if s then exceptionReturn r.value s0 else .next (s0.setPc (alignWord r.value))
    else
      let s1 := s0.setX rd r.value
      .next (if s then s1.setCpsr (flagsNZCV s0.cpsr r) else s1).advance

/-- The comparisons: flags only (41 R457-R459). -/
def comparison (op : DpOp) (rn : RegNum) (op2 : Operand2) (s0 : State) : Result :=
  unlessUnpredictable (badShiftAmount op2) <|
    .next (s0.setCpsr (flagsNZCV s0.cpsr (dpResult op rn op2 s0))).advance

/-- `AND` (A1-A3, 41 R460). -/
def execArmAnd (cond : Cond) (s : Bool) (rn rd : RegNum) (op2 : Operand2) (s0 : State) : Result :=
  conditional cond s0 (dataProcessing .and s rn rd op2)

/-- `EOR` (A1-A3, 41 R461). -/
def execArmEor (cond : Cond) (s : Bool) (rn rd : RegNum) (op2 : Operand2) (s0 : State) : Result :=
  conditional cond s0 (dataProcessing .eor s rn rd op2)

/-- `SUB` (A1-A3, 41 R462). -/
def execArmSub (cond : Cond) (s : Bool) (rn rd : RegNum) (op2 : Operand2) (s0 : State) : Result :=
  conditional cond s0 (dataProcessing .sub s rn rd op2)

/-- `RSB` (A1-A3, 41 R463). -/
def execArmRsb (cond : Cond) (s : Bool) (rn rd : RegNum) (op2 : Operand2) (s0 : State) : Result :=
  conditional cond s0 (dataProcessing .rsb s rn rd op2)

/-- `ADD` (A1-A3, 41 R464). -/
def execArmAdd (cond : Cond) (s : Bool) (rn rd : RegNum) (op2 : Operand2) (s0 : State) : Result :=
  conditional cond s0 (dataProcessing .add s rn rd op2)

/-- `ADC` (A1-A3, 41 R465). -/
def execArmAdc (cond : Cond) (s : Bool) (rn rd : RegNum) (op2 : Operand2) (s0 : State) : Result :=
  conditional cond s0 (dataProcessing .adc s rn rd op2)

/-- `SBC` (A1-A3, 41 R466). -/
def execArmSbc (cond : Cond) (s : Bool) (rn rd : RegNum) (op2 : Operand2) (s0 : State) : Result :=
  conditional cond s0 (dataProcessing .sbc s rn rd op2)

/-- `RSC` (A1-A3, 41 R467). -/
def execArmRsc (cond : Cond) (s : Bool) (rn rd : RegNum) (op2 : Operand2) (s0 : State) : Result :=
  conditional cond s0 (dataProcessing .rsc s rn rd op2)

/-- `TST` (A1-A3, 41 R468). -/
def execArmTst (cond : Cond) (rn _sbz : RegNum) (op2 : Operand2) (s0 : State) : Result :=
  conditional cond s0 (comparison .tst rn op2)

/-- `TEQ` (A1-A3, 41 R469). -/
def execArmTeq (cond : Cond) (rn _sbz : RegNum) (op2 : Operand2) (s0 : State) : Result :=
  conditional cond s0 (comparison .teq rn op2)

/-- `CMP` (A1-A3, 41 R470). -/
def execArmCmp (cond : Cond) (rn _sbz : RegNum) (op2 : Operand2) (s0 : State) : Result :=
  conditional cond s0 (comparison .cmp rn op2)

/-- `CMN` (A1-A3, 41 R471). -/
def execArmCmn (cond : Cond) (rn _sbz : RegNum) (op2 : Operand2) (s0 : State) : Result :=
  conditional cond s0 (comparison .cmn rn op2)

/-- `ORR` (A1-A3, 41 R472). -/
def execArmOrr (cond : Cond) (s : Bool) (rn rd : RegNum) (op2 : Operand2) (s0 : State) : Result :=
  conditional cond s0 (dataProcessing .orr s rn rd op2)

/-- `MOV` (A1-A3, 41 R473). -/
def execArmMov (cond : Cond) (s : Bool) (sbz rd : RegNum) (op2 : Operand2) (s0 : State) : Result :=
  conditional cond s0 (dataProcessing .mov s sbz rd op2)

/-- `BIC` (A1-A3, 41 R474). -/
def execArmBic (cond : Cond) (s : Bool) (rn rd : RegNum) (op2 : Operand2) (s0 : State) : Result :=
  conditional cond s0 (dataProcessing .bic s rn rd op2)

/-- `MVN` (A1-A3, 41 R475). -/
def execArmMvn (cond : Cond) (s : Bool) (sbz rd : RegNum) (op2 : Operand2) (s0 : State) : Result :=
  conditional cond s0 (dataProcessing .mvn s sbz rd op2)

end Sys2Proof.Machine
end

