-- ==== Sys2Proof/Machine/Multiply.lean ====
section
/-! DEFINITION. ARM multiplies (42_arm_multiply). -/

namespace Sys2Proof.Machine

/-- The operand restrictions of MUL and MLA; `rn` is Rm again for MUL (42 R500, R501). -/
def badMul (rd rn rs rm : RegNum) : Bool :=
  rd == 15#4 || rm == 15#4 || rs == 15#4 || rn == 15#4 || rd == rm

/-- The operand restrictions of the long multiplies (42 R500, R501). -/
def badMulLong (rdHi rdLo rs rm : RegNum) : Bool :=
  rdHi == 15#4 || rdLo == 15#4 || rm == 15#4 || rs == 15#4 || rdHi == rdLo || rdHi == rm || rdLo == rm

/-- Write a 32-bit product: with S, N and Z from it, C a draw, V unchanged (42 R502, R503). -/
def writeMul (s : Bool) (rd : RegNum) (r : Word) (s0 : State) : State :=
  let s1 := s0.setX rd r
  (if s then (s1.setCpsr (flagsNZC s0.cpsr r (s0.drawn.getLsbD 0))).bump else s1).advance

/-- Write a 64-bit product: with S, N and Z from it, C and V draws (42 R504, R509). -/
def writeMulLong (s : Bool) (rdHi rdLo : RegNum) (r : BitVec 64) (s0 : State) : State :=
  let s1 := (s0.setX rdLo (r.extractLsb' 0 32)).setX rdHi (r.extractLsb' 32 32)
  (if s then (s1.setCpsr (flagsLong s0.cpsr r (s0.drawn.getLsbD 0) (s0.drawn.getLsbD 1))).bump else s1).advance

/-- The unsigned product (42 R505, R506). -/
def unsignedProduct (a b : Word) : BitVec 64 := BitVec.ofNat 64 (a.toNat * b.toNat)

/-- The signed product (42 R507, R508). -/
def signedProduct (a b : Word) : BitVec 64 := BitVec.ofInt 64 (a.toInt * b.toInt)

/-- The accumulator `x[RdHi] :: x[RdLo]` (42 R506, R508). -/
def accumulator (rdHi rdLo : RegNum) (s0 : State) : BitVec 64 := s0.x rdHi ++ s0.x rdLo

/-- The four long multiplies (42 R509). -/
def mulLong (s : Bool) (rdHi rdLo rs rm : RegNum) (r : BitVec 64) (s0 : State) : Result :=
  unlessUnpredictable (badMulLong rdHi rdLo rs rm) (.next (writeMulLong s rdHi rdLo r s0))

/-- `MUL` (A4, 42 R502). -/
def execArmMul (cond : Cond) (s : Bool) (rd _sbz rs rm : RegNum) (s0 : State) : Result :=
  conditional cond s0 fun s1 =>
    unlessUnpredictable (badMul rd rm rs rm) (.next (writeMul s rd (s1.x rm * s1.x rs) s1))

/-- `MLA` (A4, 42 R503). -/
def execArmMla (cond : Cond) (s : Bool) (rd rn rs rm : RegNum) (s0 : State) : Result :=
  conditional cond s0 fun s1 =>
    unlessUnpredictable (badMul rd rn rs rm) (.next (writeMul s rd (s1.x rm * s1.x rs + s1.x rn) s1))

/-- `UMULL` (A5, 42 R505). -/
def execArmUmull (cond : Cond) (s : Bool) (rdHi rdLo rs rm : RegNum) (s0 : State) : Result :=
  conditional cond s0 fun s1 =>
    mulLong s rdHi rdLo rs rm (unsignedProduct (s1.x rm) (s1.x rs)) s1

/-- `UMLAL` (A5, 42 R506). -/
def execArmUmlal (cond : Cond) (s : Bool) (rdHi rdLo rs rm : RegNum) (s0 : State) : Result :=
  conditional cond s0 fun s1 =>
    mulLong s rdHi rdLo rs rm (unsignedProduct (s1.x rm) (s1.x rs) + accumulator rdHi rdLo s1) s1

/-- `SMULL` (A5, 42 R507). -/
def execArmSmull (cond : Cond) (s : Bool) (rdHi rdLo rs rm : RegNum) (s0 : State) : Result :=
  conditional cond s0 fun s1 =>
    mulLong s rdHi rdLo rs rm (signedProduct (s1.x rm) (s1.x rs)) s1

/-- `SMLAL` (A5, 42 R508). -/
def execArmSmlal (cond : Cond) (s : Bool) (rdHi rdLo rs rm : RegNum) (s0 : State) : Result :=
  conditional cond s0 fun s1 =>
    mulLong s rdHi rdLo rs rm (signedProduct (s1.x rm) (s1.x rs) + accumulator rdHi rdLo s1) s1

/-- `UMAAL-path__no-op` (The UMAAL encoding, a no-op: 42 R510). -/
def execArmUmaal (cond : Cond) (_rdHi _rdLo _rs _rm : RegNum) (s0 : State) : Result :=
  conditional cond s0 nextInstr

end Sys2Proof.Machine
end

