-- ==== Sys2Proof/Machine/Psr.lean ====
section
/-! DEFINITION. PSR transfer (44_arm_branch_psr_system, section 2). -/

namespace Sys2Proof.Machine

/-- CPSR with the bytes an MSR's mask selects written; `v` has a legal mode where the control field is written
(44 R612-R614). -/
def msrCpsr (mask : BitVec 4) (v : Word) (m : Mode) (p : Cpsr) : Cpsr :=
  let q := if mask.getLsbD 3 then p.withFlags (v.getLsbD 31) (v.getLsbD 30) (v.getLsbD 29) (v.getLsbD 28) else p
  if mask.getLsbD 0 then { q with i := v.getLsbD 7, f := v.getLsbD 6, mode := m } else q

/-- The SPSR with the bytes an MSR's mask selects written (44 R615). -/
def msrSpsr (mask : BitVec 4) (v : Word) (p : Spsr) : Spsr :=
  let q : Spsr := if mask.getLsbD 3 then
      { p with n := v.getLsbD 31, z := v.getLsbD 30, c := v.getLsbD 29, v := v.getLsbD 28 } else p
  if mask.getLsbD 0 then
    { q with i := v.getLsbD 7, f := v.getLsbD 6, t := v.getLsbD 5, m := v.extractLsb' 0 5 } else q

/-- In USR mode only the flags field is written (44 R612). -/
def msrMask (m : Mode) (mask : BitVec 4) : BitVec 4 := if m.privileged then mask else mask &&& 0b1000#4

/-- MSR to CPSR (44 R612-R614). -/
def msrToCpsr (mask : BitVec 4) (v : Word) (s0 : State) : Result :=
  let mask := msrMask s0.cpsr.mode mask
  if mask.getLsbD 0 then
    match Mode.ofBits (v.extractLsb' 0 5) with
    | none => .fault .invalidMode
    | some m =>
      unlessUnpredictable (v.getLsbD 5 != s0.cpsr.t) (.next (s0.setCpsr (msrCpsr mask v m s0.cpsr)).advance)
  else .next (s0.setCpsr (msrCpsr mask v s0.cpsr.mode s0.cpsr)).advance

/-- MSR to the SPSR of the current mode (44 R612, R615). -/
def msrToSpsr (mask : BitVec 4) (v : Word) (s0 : State) : Result :=
  match s0.spsrOf s0.cpsr.mode with
  | none => .fault .noSpsrInMode
  | some p => .next (s0.setSpsrOf s0.cpsr.mode (msrSpsr mask v p)).advance

/-- MSR, both forms (44 R612). -/
def msr (r : Bool) (mask : BitVec 4) (v : Word) (s0 : State) : Result :=
  if r then msrToSpsr mask v s0 else msrToCpsr mask v s0

/-- The value MRS reads; none for the SPSR of a mode without one (44 R611). -/
def mrsValue (r : Bool) (s0 : State) : Option Word :=
  if r then (s0.spsrOf s0.cpsr.mode).map Spsr.toWord else some s0.cpsr.toWord

/-- MRS (44 R611). -/
def mrs (r : Bool) (rd : RegNum) (s0 : State) : Result :=
  unlessUnpredictable (rd == 15#4) <|
    match mrsValue r s0 with
    | none => .fault .noSpsrInMode
    | some v => .next (s0.setX rd v).advance

/-- `MRS` (A10, 44 R611). -/
def execArmMrs (cond : Cond) (r : Bool) (rd : RegNum) (s0 : State) : Result :=
  conditional cond s0 (mrs r rd)

/-- `MSR__register` (A11, 44 R612). -/
def execArmMsrReg (cond : Cond) (r : Bool) (mask : BitVec 4) (rm : RegNum) (s0 : State) : Result :=
  conditional cond s0 fun s1 =>
    unlessUnpredictable (rm == 15#4) (msr r mask (s1.x rm) s1)

/-- `MSR__immediate` (A12, 44 R612). -/
def execArmMsrImm (cond : Cond) (r : Bool) (mask rotate : BitVec 4) (imm8 : BitVec 8) (s0 : State) : Result :=
  conditional cond s0 (msr r mask (rotatedImm rotate imm8))

end Sys2Proof.Machine
end

