-- ==== Sys2Proof/Machine/ThumbBranch.lean ====
section
/-! DEFINITION. Thumb branches, SWI and the undefined halfwords (45_thumb, sections 7 and 11; 30_encoding R362). -/

namespace Sys2Proof.Machine

/-- `BX` (T5, 45 R713). -/
def execThumbBx (rm : RegNum) (_sbz : BitVec 3) (s0 : State) : Result :=
  .next (branchExchange (s0.x rm) s0)

/-- `SWI` (T17, 45 R738). -/
def execThumbSwi (value8 : BitVec 8) (s0 : State) : Result :=
  softwareInterrupt value8 s0

/-- `B<cond>` (T16, 45 R737). -/
def execThumbBCond (cond : Cond) (soffset8 : BitVec 8) (s0 : State) : Result :=
  if conditionPassed s0.cpsr cond then .next (s0.setPc (s0.pc + 4#32 + soffset8Offset soffset8)) else nextInstr s0

/-- `B` (T18, 45 R740). -/
def execThumbB (offset11 : BitVec 11) (s0 : State) : Result :=
  .next (s0.setPc (s0.pc + 4#32 + offset11Offset offset11))

/-- `BL__first_half` (T19 with H = 0, 45 R741). -/
def execThumbBlFirst (offset11 : BitVec 11) (s0 : State) : Result :=
  .next (s0.setX 14#4 (s0.pc + 4#32 + (offset11.signExtend 32 <<< 12))).advance

/-- `BL__second_half` (T19 with H = 1, 45 R742). -/
def execThumbBlSecond (offset11 : BitVec 11) (s0 : State) : Result :=
  let target := alignHalf (s0.x 14#4 + (offset11.setWidth 32 <<< 1))
  .next ((s0.setX 14#4 ((s0.pc + 2#32) ||| 1#32)).setPc target)

/-- `UNDEFINED__BLX_register` (30 R340 line 5, R362). -/
def execThumbUndefBlxReg (_low7 : BitVec 7) (s0 : State) : Result :=
  undefinedInstr s0

/-- `UNDEFINED__other_1011_space` (30 R340 line 15, R362). -/
def execThumbUndef1011 (_low12 : BitVec 12) (s0 : State) : Result :=
  undefinedInstr s0

/-- `UNDEFINED__cond_1110` (30 R340 line 18, R362). -/
def execThumbUndefCond14 (_low8 : BitVec 8) (s0 : State) : Result :=
  undefinedInstr s0

/-- `UNDEFINED__BLX_suffix` (30 R340 line 21, R362). -/
def execThumbUndefBlxSuffix (_low11 : BitVec 11) (s0 : State) : Result :=
  undefinedInstr s0

end Sys2Proof.Machine
end

