-- ==== Sys2Proof/Machine/ThumbData.lean ====
section
/-! DEFINITION. Thumb data operations: T1-T5 and T12, T13 (45_thumb, sections 2-5, 7 and 9). -/

namespace Sys2Proof.Machine

/-- Write an arithmetic result and N, Z, C, V (45_thumb section 3). -/
def thumbArith (rd : LowReg) (r : Sum) (s0 : State) : Result :=
  .next ((s0.setX (lowReg rd) r.value).setCpsr (flagsNZCV s0.cpsr r)).advance

/-- N, Z, C, V of a comparison. -/
def thumbCompare (r : Sum) (s0 : State) : Result := .next (s0.setCpsr (flagsNZCV s0.cpsr r)).advance

/-- Write a logical result, N and Z (45_thumb R701). -/
def thumbLogical (rd : LowReg) (r : Word) (s0 : State) : Result :=
  .next ((s0.setX (lowReg rd) r).setCpsr (flagsNZ s0.cpsr r)).advance

/-- Write a shift's result, N, Z and C (45_thumb R701). -/
def thumbShift (rd : LowReg) (r : Shifted) (s0 : State) : Result :=
  .next ((s0.setX (lowReg rd) r.value).setCpsr (flagsNZC s0.cpsr r.value r.carry)).advance

/-- A T4 shift by the low byte of Rs (45_thumb R672-R674, R677). -/
def thumbShiftReg (t : ShiftType) (rs rd : LowReg) (s0 : State) : Result :=
  thumbShift rd (shiftReg t (s0.x (lowReg rd)) ((s0.x (lowReg rs)).extractLsb' 0 8).toNat s0.cpsr.c) s0

/-- A T1 shift (45_thumb section 2). -/
def thumbShiftImm (t : ShiftType) (imm5 : BitVec 5) (rs rd : LowReg) (s0 : State) : Result :=
  thumbShift rd (shiftImm t (s0.x (lowReg rs)) imm5.toNat s0.cpsr.c) s0

/-- `ADD__register` (T2, 45 R653). -/
def execThumbAddReg (rn rs rd : LowReg) (s0 : State) : Result :=
  thumbArith rd (addWithCarry (s0.x (lowReg rs)) (s0.x (lowReg rn)) false) s0

/-- `SUB__register` (T2, 45 R654). -/
def execThumbSubReg (rn rs rd : LowReg) (s0 : State) : Result :=
  thumbArith rd (addWithCarry (s0.x (lowReg rs)) (~~~(s0.x (lowReg rn))) true) s0

/-- `ADD__immediate_3` (T2, 45 R655). -/
def execThumbAddImm3 (imm3 : BitVec 3) (rs rd : LowReg) (s0 : State) : Result :=
  thumbArith rd (addWithCarry (s0.x (lowReg rs)) (imm3.setWidth 32) false) s0

/-- `SUB__immediate_3` (T2, 45 R656). -/
def execThumbSubImm3 (imm3 : BitVec 3) (rs rd : LowReg) (s0 : State) : Result :=
  thumbArith rd (addWithCarry (s0.x (lowReg rs)) (~~~(imm3.setWidth 32)) true) s0

/-- `LSL__immediate` (T1, 45 R650). -/
def execThumbLslImm (imm5 : BitVec 5) (rs rd : LowReg) (s0 : State) : Result :=
  thumbShiftImm .lsl imm5 rs rd s0

/-- `LSR__immediate` (T1, 45 R651). -/
def execThumbLsrImm (imm5 : BitVec 5) (rs rd : LowReg) (s0 : State) : Result :=
  thumbShiftImm .lsr imm5 rs rd s0

/-- `ASR__immediate` (T1, 45 R652). -/
def execThumbAsrImm (imm5 : BitVec 5) (rs rd : LowReg) (s0 : State) : Result :=
  thumbShiftImm .asr imm5 rs rd s0

/-- `MOV__immediate_8` (T3, 45 R660). -/
def execThumbMovImm8 (rd : LowReg) (imm8 : BitVec 8) (s0 : State) : Result :=
  thumbLogical rd (imm8.setWidth 32) s0

/-- `CMP__immediate_8` (T3, 45 R661). -/
def execThumbCmpImm8 (rd : LowReg) (imm8 : BitVec 8) (s0 : State) : Result :=
  thumbCompare (addWithCarry (s0.x (lowReg rd)) (~~~(imm8.setWidth 32)) true) s0

/-- `ADD__immediate_8` (T3, 45 R662). -/
def execThumbAddImm8 (rd : LowReg) (imm8 : BitVec 8) (s0 : State) : Result :=
  thumbArith rd (addWithCarry (s0.x (lowReg rd)) (imm8.setWidth 32) false) s0

/-- `SUB__immediate_8` (T3, 45 R663). -/
def execThumbSubImm8 (rd : LowReg) (imm8 : BitVec 8) (s0 : State) : Result :=
  thumbArith rd (addWithCarry (s0.x (lowReg rd)) (~~~(imm8.setWidth 32)) true) s0

/-- `AND__ALU` (T4, 45 R670). -/
def execThumbAnd (rs rd : LowReg) (s0 : State) : Result :=
  thumbLogical rd (s0.x (lowReg rd) &&& s0.x (lowReg rs)) s0

/-- `EOR__ALU` (T4, 45 R671). -/
def execThumbEor (rs rd : LowReg) (s0 : State) : Result :=
  thumbLogical rd (s0.x (lowReg rd) ^^^ s0.x (lowReg rs)) s0

/-- `LSL__ALU` (T4, 45 R672). -/
def execThumbLsl (rs rd : LowReg) (s0 : State) : Result :=
  thumbShiftReg .lsl rs rd s0

/-- `LSR__ALU` (T4, 45 R673). -/
def execThumbLsr (rs rd : LowReg) (s0 : State) : Result :=
  thumbShiftReg .lsr rs rd s0

/-- `ASR__ALU` (T4, 45 R674). -/
def execThumbAsr (rs rd : LowReg) (s0 : State) : Result :=
  thumbShiftReg .asr rs rd s0

/-- `ADC__ALU` (T4, 45 R675). -/
def execThumbAdc (rs rd : LowReg) (s0 : State) : Result :=
  thumbArith rd (addWithCarry (s0.x (lowReg rd)) (s0.x (lowReg rs)) s0.cpsr.c) s0

/-- `SBC__ALU` (T4, 45 R676). -/
def execThumbSbc (rs rd : LowReg) (s0 : State) : Result :=
  thumbArith rd (addWithCarry (s0.x (lowReg rd)) (~~~(s0.x (lowReg rs))) s0.cpsr.c) s0

/-- `ROR__ALU` (T4, 45 R677). -/
def execThumbRor (rs rd : LowReg) (s0 : State) : Result :=
  thumbShiftReg .ror rs rd s0

/-- `TST__ALU` (T4, 45 R678). -/
def execThumbTst (rs rd : LowReg) (s0 : State) : Result :=
  .next (s0.setCpsr (flagsNZ s0.cpsr (s0.x (lowReg rd) &&& s0.x (lowReg rs)))).advance

/-- `NEG__ALU` (T4, 45 R679). -/
def execThumbNeg (rs rd : LowReg) (s0 : State) : Result :=
  thumbArith rd (addWithCarry 0#32 (~~~(s0.x (lowReg rs))) true) s0

/-- `CMP__ALU` (T4, 45 R680). -/
def execThumbCmp (rs rd : LowReg) (s0 : State) : Result :=
  thumbCompare (addWithCarry (s0.x (lowReg rd)) (~~~(s0.x (lowReg rs))) true) s0

/-- `CMN__ALU` (T4, 45 R681). -/
def execThumbCmn (rs rd : LowReg) (s0 : State) : Result :=
  thumbCompare (addWithCarry (s0.x (lowReg rd)) (s0.x (lowReg rs)) false) s0

/-- `ORR__ALU` (T4, 45 R682). -/
def execThumbOrr (rs rd : LowReg) (s0 : State) : Result :=
  thumbLogical rd (s0.x (lowReg rd) ||| s0.x (lowReg rs)) s0

/-- `MUL__ALU` (T4, 45 R683). -/
def execThumbMul (rs rd : LowReg) (s0 : State) : Result :=
  unlessUnpredictable (rd == rs) <|
    let r := s0.x (lowReg rs) * s0.x (lowReg rd)
    .next ((s0.setX (lowReg rd) r).setCpsr (flagsNZC s0.cpsr r (s0.drawn.getLsbD 0))).bump.advance

/-- `BIC__ALU` (T4, 45 R684). -/
def execThumbBic (rs rd : LowReg) (s0 : State) : Result :=
  thumbLogical rd (s0.x (lowReg rd) &&& ~~~(s0.x (lowReg rs))) s0

/-- `MVN__ALU` (T4, 45 R685). -/
def execThumbMvn (rs rd : LowReg) (s0 : State) : Result :=
  thumbLogical rd (~~~(s0.x (lowReg rs))) s0

/-- `ADD__high_register` (T5, 45 R710). -/
def execThumbAddHi (rd rm : RegNum) (s0 : State) : Result :=
  let r := s0.x rd + s0.x rm
  .next (if rd = 15#4 then s0.setPc (alignHalf r) else (s0.setX rd r).advance)

/-- `CMP__high_register` (T5, 45 R711). -/
def execThumbCmpHi (rd rm : RegNum) (s0 : State) : Result :=
  thumbCompare (addWithCarry (s0.x rd) (~~~(s0.x rm)) true) s0

/-- `MOV__high_register` (T5, 45 R712). -/
def execThumbMovHi (rd rm : RegNum) (s0 : State) : Result :=
  let r := s0.x rm
  .next (if rd = 15#4 then s0.setPc (alignHalf r) else (s0.setX rd r).advance)

/-- `ADD_Rd__PC___imm` (T12, 45 R727). -/
def execThumbAddPc (rd : LowReg) (word8 : BitVec 8) (s0 : State) : Result :=
  .next (s0.setX (lowReg rd) (pcRelative s0 word8)).advance

/-- `ADD_Rd__SP___imm` (T12, 45 R728). -/
def execThumbAddSp (rd : LowReg) (word8 : BitVec 8) (s0 : State) : Result :=
  .next (s0.setX (lowReg rd) (s0.x 13#4 + word8Offset word8)).advance

/-- `ADD_SP___+_-imm` (T13, 45 R729). -/
def execThumbAdjustSp (s : Bool) (sword7 : BitVec 7) (s0 : State) : Result :=
  let imm : Word := (sword7 ++ 0#2).setWidth 32
  .next (s0.setX 13#4 (if s then s0.x 13#4 - imm else s0.x 13#4 + imm)).advance

end Sys2Proof.Machine
end

