-- ==== Sys2Proof/Machine/ThumbMemory.lean ====
section
/-! DEFINITION. Thumb loads and stores: T6-T11, T14, T15 (45_thumb, sections 6, 8-10). -/

namespace Sys2Proof.Machine

/-- A Thumb load into a low register (45_thumb R703). -/
def thumbLoad (load : State → Word → Word) (rd : LowReg) (addr : Word) (s0 : State) : Result :=
  .next ((s0.bump).setX (lowReg rd) (load s0 addr)).advance

/-- A Thumb store of a low register (45_thumb R703). -/
def thumbStore (width : Width) (rd : LowReg) (addr : Word) (s0 : State) : Result :=
  andThen (cpuStore width addr (s0.x (lowReg rd)) s0) nextInstr

/-- The address of a register-offset form (45_thumb section 8). -/
def regOffsetAddr (ro rb : LowReg) (s0 : State) : Word := s0.x (lowReg rb) + s0.x (lowReg ro)

/-- The address of an immediate-offset form (45_thumb section 6). -/
def immOffsetAddr (imm5 : BitVec 5) (unit : Nat) (rb : LowReg) (s0 : State) : Word :=
  s0.x (lowReg rb) + imm5Offset imm5 unit

/-- The address of an SP-relative form (45_thumb R725, R726). -/
def spOffsetAddr (word8 : BitVec 8) (s0 : State) : Word := s0.x 13#4 + word8Offset word8

/-- `LDR__PC-relative` (T6, 45 R723). -/
def execThumbLdrPc (rd : LowReg) (word8 : BitVec 8) (s0 : State) : Result :=
  thumbLoad (fun s1 a => busRead s1 .word a) rd (pcRelative s0 word8) s0

/-- `STR__register_offset` (T7, 45 R715). -/
def execThumbStrReg (ro rb rd : LowReg) (s0 : State) : Result :=
  thumbStore .word rd (storeWordAddr (regOffsetAddr ro rb s0)) s0

/-- `STRB__register_offset` (T7, 45 R716). -/
def execThumbStrbReg (ro rb rd : LowReg) (s0 : State) : Result :=
  thumbStore .byte rd (regOffsetAddr ro rb s0) s0

/-- `LDR__register_offset` (T7, 45 R717). -/
def execThumbLdrReg (ro rb rd : LowReg) (s0 : State) : Result :=
  thumbLoad loadWord rd (regOffsetAddr ro rb s0) s0

/-- `LDRB__register_offset` (T7, 45 R718). -/
def execThumbLdrbReg (ro rb rd : LowReg) (s0 : State) : Result :=
  thumbLoad loadByte rd (regOffsetAddr ro rb s0) s0

/-- `STRH__register_offset` (T8, 45 R719). -/
def execThumbStrhReg (ro rb rd : LowReg) (s0 : State) : Result :=
  thumbStore .half rd (storeHalfAddr (regOffsetAddr ro rb s0)) s0

/-- `LDRH__register_offset` (T8, 45 R720). -/
def execThumbLdrhReg (ro rb rd : LowReg) (s0 : State) : Result :=
  thumbLoad loadHalf rd (regOffsetAddr ro rb s0) s0

/-- `LDSB` (T8, 45 R721). -/
def execThumbLdsb (ro rb rd : LowReg) (s0 : State) : Result :=
  thumbLoad loadSignedByte rd (regOffsetAddr ro rb s0) s0

/-- `LDSH` (T8, 45 R722). -/
def execThumbLdsh (ro rb rd : LowReg) (s0 : State) : Result :=
  thumbLoad loadSignedHalf rd (regOffsetAddr ro rb s0) s0

/-- `STR__immediate_offset` (T9, 45 R690). -/
def execThumbStrImm (imm5 : BitVec 5) (rb rd : LowReg) (s0 : State) : Result :=
  thumbStore .word rd (storeWordAddr (immOffsetAddr imm5 4 rb s0)) s0

/-- `LDR__immediate_offset` (T9, 45 R691). -/
def execThumbLdrImm (imm5 : BitVec 5) (rb rd : LowReg) (s0 : State) : Result :=
  thumbLoad loadWord rd (immOffsetAddr imm5 4 rb s0) s0

/-- `STRB__immediate_offset` (T9, 45 R692). -/
def execThumbStrbImm (imm5 : BitVec 5) (rb rd : LowReg) (s0 : State) : Result :=
  thumbStore .byte rd (immOffsetAddr imm5 1 rb s0) s0

/-- `LDRB__immediate_offset` (T9, 45 R693). -/
def execThumbLdrbImm (imm5 : BitVec 5) (rb rd : LowReg) (s0 : State) : Result :=
  thumbLoad loadByte rd (immOffsetAddr imm5 1 rb s0) s0

/-- `STRH__immediate_offset` (T10, 45 R694). -/
def execThumbStrhImm (imm5 : BitVec 5) (rb rd : LowReg) (s0 : State) : Result :=
  thumbStore .half rd (storeHalfAddr (immOffsetAddr imm5 2 rb s0)) s0

/-- `LDRH__immediate_offset` (T10, 45 R695). -/
def execThumbLdrhImm (imm5 : BitVec 5) (rb rd : LowReg) (s0 : State) : Result :=
  thumbLoad loadHalf rd (immOffsetAddr imm5 2 rb s0) s0

/-- `STR__SP-relative` (T11, 45 R725). -/
def execThumbStrSp (rd : LowReg) (word8 : BitVec 8) (s0 : State) : Result :=
  thumbStore .word rd (storeWordAddr (spOffsetAddr word8 s0)) s0

/-- `LDR__SP-relative` (T11, 45 R726). -/
def execThumbLdrSp (rd : LowReg) (word8 : BitVec 8) (s0 : State) : Result :=
  thumbLoad loadWord rd (spOffsetAddr word8 s0) s0

/-- `PUSH` (T14, 45 R731). -/
def execThumbPush (r : Bool) (list : BitVec 8) (s0 : State) : Result :=
  let regs := pushRegs list r 14#4
  unlessUnpredictable regs.isEmpty <|
    let start := s0.x 13#4 - BitVec.ofNat 32 (4 * regs.length)
    andThen (storeWords ((blockPairs regs start).map fun e => (e.2, s0.x e.1)) s0) fun s1 =>
      .next (s1.setX 13#4 start).advance

/-- `POP` (T14, 45 R732). -/
def execThumbPop (r : Bool) (list : BitVec 8) (s0 : State) : Result :=
  let regs := pushRegs list r 15#4
  unlessUnpredictable regs.isEmpty <|
    let q := loadRegs s0.cpsr.mode (blockPairs regs (s0.x 13#4)) (s0, 0#32)
    let s1 := q.1.setX 13#4 (s0.x 13#4 + BitVec.ofNat 32 (4 * regs.length))
    .next (if r then s1.setPc (alignHalf q.2) else s1.advance)

/-- `STMIA` (T15, 45 R734). -/
def execThumbStmia (rb : LowReg) (list : BitVec 8) (s0 : State) : Result :=
  let regs := lowListRegs list
  unlessUnpredictable regs.isEmpty <|
    let base := s0.x (lowReg rb)
    let wb := base + BitVec.ofNat 32 (4 * regs.length)
    andThen (storeWords (blockWords s0 s0.cpsr.mode true regs base (lowReg rb) true wb) s0) fun s1 =>
      .next (s1.setX (lowReg rb) wb).advance

/-- `LDMIA` (T15, 45 R735). -/
def execThumbLdmia (rb : LowReg) (list : BitVec 8) (s0 : State) : Result :=
  let regs := lowListRegs list
  unlessUnpredictable regs.isEmpty <|
    let base := s0.x (lowReg rb)
    let q := loadRegs s0.cpsr.mode (blockPairs regs base) (s0, 0#32)
    .next (if list.getLsbD rb.toNat then q.1
      else q.1.setX (lowReg rb) (base + BitVec.ofNat 32 (4 * regs.length))).advance

end Sys2Proof.Machine
end

