-- ==== Sys2Proof/Machine/Transfer.lean ====
section
/-! DEFINITION. ARM single, halfword and signed transfers, and the swaps (43_arm_load_store, sections 1-3 and 5). -/

namespace Sys2Proof.Machine

/-- Write the base back where the form does; `addr` is `offset_addr` (43 R531). -/
def writeBase (p w : Bool) (rn : RegNum) (addr : Word) (s0 : State) : State :=
  if writesBack p w then s0.setX rn addr else s0

/-- The restrictions every single transfer shares (43 R532, R533, R548). -/
def badTransfer (p w : Bool) (rn rd : RegNum) : Bool := writesBack p w && (rn == 15#4 || rd == rn)

/-- The restrictions of A13 (43 R532-R534, R537). -/
def badSingle (byte p w : Bool) (rn rd : RegNum) (off : Offset) : Bool :=
  badTransfer p w rn rd || badOffset off || (byte && rd == 15#4)

/-- The restrictions of A8 and A9; `rm` is R0 for the immediate form (43 R548). -/
def badHalf (p w : Bool) (rn rd rm : RegNum) : Bool :=
  badTransfer p w rn rd || (!p && w) || rd == 15#4 || rm == 15#4

/-- A load: read, write the base back, write Rd; R15 is loaded word-aligned and the state stays ARM (43 R535, R540,
R542). -/
def loadTransfer (load : State → Word → Word) (p u w : Bool) (rn rd : RegNum) (offset : Word) (s0 : State) : Result :=
  let data := load s0 (transferAddr s0 p u rn offset)
  let s1 := writeBase p w rn (offsetAddr u (s0.x rn) offset) s0.bump
  .next (if rd = 15#4 then s1.setPc (alignWord data) else (s1.setX rd data).advance)

/-- A store: write memory, write the base back (43 R535, R541). -/
def storeTransfer (width : Width) (align : Word → Word) (value : Word) (p u w : Bool) (rn : RegNum) (offset : Word)
    (s0 : State) : Result :=
  andThen (cpuStore width (align (transferAddr s0 p u rn offset)) value s0) fun s1 =>
    .next (writeBase p w rn (offsetAddr u (s0.x rn) offset) s1).advance

/-- LDR and LDRT (43 R540, R545). -/
def loadWordForm (p u w : Bool) (rn rd : RegNum) (off : Offset) (s0 : State) : Result :=
  unlessUnpredictable (badSingle false p w rn rd off) (loadTransfer loadWord p u w rn rd (offsetValue s0 off) s0)

/-- LDRB and LDRBT (43 R543, R547). -/
def loadByteForm (p u w : Bool) (rn rd : RegNum) (off : Offset) (s0 : State) : Result :=
  unlessUnpredictable (badSingle true p w rn rd off) (loadTransfer loadByte p u w rn rd (offsetValue s0 off) s0)

/-- STR and STRT (43 R541, R546). -/
def storeWordForm (p u w : Bool) (rn rd : RegNum) (off : Offset) (s0 : State) : Result :=
  unlessUnpredictable (badSingle false p w rn rd off)
    (storeTransfer .word storeWordAddr (storedRegister s0 rd) p u w rn (offsetValue s0 off) s0)

/-- STRB and STRBT (43 R544, R547). -/
def storeByteForm (p u w : Bool) (rn rd : RegNum) (off : Offset) (s0 : State) : Result :=
  unlessUnpredictable (badSingle true p w rn rd off)
    (storeTransfer .byte id (s0.x rd) p u w rn (offsetValue s0 off) s0)

/-- A halfword or signed load (43 R548, R551-R553). -/
def loadHalfForm (load : State → Word → Word) (p u w : Bool) (rn rd rm : RegNum) (offset : Word) (s0 : State) : Result :=
  unlessUnpredictable (badHalf p w rn rd rm) (loadTransfer load p u w rn rd offset s0)

/-- STRH (43 R548, R550). -/
def storeHalfForm (p u w : Bool) (rn rd rm : RegNum) (offset : Word) (s0 : State) : Result :=
  unlessUnpredictable (badHalf p w rn rd rm) (storeTransfer .half storeHalfAddr (s0.x rd) p u w rn offset s0)

/-- The restrictions of SWP and SWPB (43 R582). -/
def badSwap (rn rd rm : RegNum) : Bool := rn == 15#4 || rd == 15#4 || rm == 15#4 || rn == rd || rn == rm

/-- SWP and SWPB: the read, the write, then Rd, in one step (43 R580, R581). -/
def swapForm (width : Width) (load : State → Word → Word) (align : Word → Word) (rn rd rm : RegNum) (s0 : State) : Result :=
  unlessUnpredictable (badSwap rn rd rm) <|
    let t := load s0 (s0.x rn)
    andThen (cpuStore width (align (s0.x rn)) (s0.x rm) s0.bump) fun s1 => .next (s1.setX rd t).advance

/-- `STRH__immediate_offset` (A9, 43 R550). -/
def execArmStrhImm (cond : Cond) (p u w : Bool) (rn rd : RegNum) (imm8 : BitVec 8) (s0 : State) : Result :=
  conditional cond s0 fun s1 =>
    storeHalfForm p u w rn rd 0#4 (imm8.setWidth 32) s1

/-- `STRH__register_offset` (A8, 43 R550). -/
def execArmStrhReg (cond : Cond) (p u w : Bool) (rn rd rm : RegNum) (s0 : State) : Result :=
  conditional cond s0 fun s1 => storeHalfForm p u w rn rd rm (s1.x rm) s1

/-- `LDRH__immediate_offset` (A9, 43 R551). -/
def execArmLdrhImm (cond : Cond) (p u w : Bool) (rn rd : RegNum) (imm8 : BitVec 8) (s0 : State) : Result :=
  conditional cond s0 fun s1 =>
    loadHalfForm loadHalf p u w rn rd 0#4 (imm8.setWidth 32) s1

/-- `LDRH__register_offset` (A8, 43 R551). -/
def execArmLdrhReg (cond : Cond) (p u w : Bool) (rn rd rm : RegNum) (s0 : State) : Result :=
  conditional cond s0 fun s1 => loadHalfForm loadHalf p u w rn rd rm (s1.x rm) s1

/-- `LDRSB__immediate_offset` (A9, 43 R552). -/
def execArmLdrsbImm (cond : Cond) (p u w : Bool) (rn rd : RegNum) (imm8 : BitVec 8) (s0 : State) : Result :=
  conditional cond s0 fun s1 =>
    loadHalfForm loadSignedByte p u w rn rd 0#4 (imm8.setWidth 32) s1

/-- `LDRSB__register_offset` (A8, 43 R552). -/
def execArmLdrsbReg (cond : Cond) (p u w : Bool) (rn rd rm : RegNum) (s0 : State) : Result :=
  conditional cond s0 fun s1 => loadHalfForm loadSignedByte p u w rn rd rm (s1.x rm) s1

/-- `LDRSH__immediate_offset` (A9, 43 R553). -/
def execArmLdrshImm (cond : Cond) (p u w : Bool) (rn rd : RegNum) (imm8 : BitVec 8) (s0 : State) : Result :=
  conditional cond s0 fun s1 =>
    loadHalfForm loadSignedHalf p u w rn rd 0#4 (imm8.setWidth 32) s1

/-- `LDRSH__register_offset` (A8, 43 R553). -/
def execArmLdrshReg (cond : Cond) (p u w : Bool) (rn rd rm : RegNum) (s0 : State) : Result :=
  conditional cond s0 fun s1 => loadHalfForm loadSignedHalf p u w rn rd rm (s1.x rm) s1

/-- `LDRT` (A13 with P = 0, W = 1, 43 R545). -/
def execArmLdrt (cond : Cond) (u : Bool) (rn rd : RegNum) (off : Offset) (s0 : State) : Result :=
  conditional cond s0 (loadWordForm false u true rn rd off)

/-- `STRT` (A13 with P = 0, W = 1, 43 R546). -/
def execArmStrt (cond : Cond) (u : Bool) (rn rd : RegNum) (off : Offset) (s0 : State) : Result :=
  conditional cond s0 (storeWordForm false u true rn rd off)

/-- `LDRBT` (A13 with P = 0, W = 1, 43 R547). -/
def execArmLdrbt (cond : Cond) (u : Bool) (rn rd : RegNum) (off : Offset) (s0 : State) : Result :=
  conditional cond s0 (loadByteForm false u true rn rd off)

/-- `STRBT` (A13 with P = 0, W = 1, 43 R547). -/
def execArmStrbt (cond : Cond) (u : Bool) (rn rd : RegNum) (off : Offset) (s0 : State) : Result :=
  conditional cond s0 (storeByteForm false u true rn rd off)

/-- `LDR` (A13, 43 R540; not P = 0 with W = 1, which is the T variant). -/
def execArmLdr (cond : Cond) (p u w : Bool) (rn rd : RegNum) (off : Offset) (s0 : State) : Result :=
  conditional cond s0 (loadWordForm p u w rn rd off)

/-- `STR` (A13, 43 R541; not P = 0 with W = 1, which is the T variant). -/
def execArmStr (cond : Cond) (p u w : Bool) (rn rd : RegNum) (off : Offset) (s0 : State) : Result :=
  conditional cond s0 (storeWordForm p u w rn rd off)

/-- `LDRB` (A13, 43 R543; not P = 0 with W = 1, which is the T variant). -/
def execArmLdrb (cond : Cond) (p u w : Bool) (rn rd : RegNum) (off : Offset) (s0 : State) : Result :=
  conditional cond s0 (loadByteForm p u w rn rd off)

/-- `STRB` (A13, 43 R544; not P = 0 with W = 1, which is the T variant). -/
def execArmStrb (cond : Cond) (p u w : Bool) (rn rd : RegNum) (off : Offset) (s0 : State) : Result :=
  conditional cond s0 (storeByteForm p u w rn rd off)

/-- `SWP` (A6, 43 R580). -/
def execArmSwp (cond : Cond) (rn rd rm : RegNum) (s0 : State) : Result :=
  conditional cond s0 (swapForm .word loadWord storeWordAddr rn rd rm)

/-- `SWPB` (A6, 43 R581). -/
def execArmSwpb (cond : Cond) (rn rd rm : RegNum) (s0 : State) : Result :=
  conditional cond s0 (swapForm .byte loadByte id rn rd rm)

end Sys2Proof.Machine
end

