-- ==== Sys2Proof/Machine/Dispatch.lean ====
section
/-! DEFINITION. One arm per instruction: each calls its own meaning. -/

namespace Sys2Proof.Machine

/-- The meaning of every instruction (00_scope R8). -/
def exec (i : Instr) (s : State) : Host.Outcome State Fault Refusal :=
  match i with
  | .armBx cond rm => Sys2Proof.Machine.execArmBx cond rm s
  | .armMul cond sf rd sbz rs rm => Sys2Proof.Machine.execArmMul cond sf rd sbz rs rm s
  | .armMla cond sf rd rn rs rm => Sys2Proof.Machine.execArmMla cond sf rd rn rs rm s
  | .armUmull cond sf rdHi rdLo rs rm => Sys2Proof.Machine.execArmUmull cond sf rdHi rdLo rs rm s
  | .armUmlal cond sf rdHi rdLo rs rm => Sys2Proof.Machine.execArmUmlal cond sf rdHi rdLo rs rm s
  | .armSmull cond sf rdHi rdLo rs rm => Sys2Proof.Machine.execArmSmull cond sf rdHi rdLo rs rm s
  | .armSmlal cond sf rdHi rdLo rs rm => Sys2Proof.Machine.execArmSmlal cond sf rdHi rdLo rs rm s
  | .armUmaal cond rdHi rdLo rs rm => Sys2Proof.Machine.execArmUmaal cond rdHi rdLo rs rm s
  | .armSwp cond rn rd rm => Sys2Proof.Machine.execArmSwp cond rn rd rm s
  | .armSwpb cond rn rd rm => Sys2Proof.Machine.execArmSwpb cond rn rd rm s
  | .armUnpredSwap cond body => Sys2Proof.Machine.execArmUnpredSwap cond body s
  | .armUndefMultiply cond body => Sys2Proof.Machine.execArmUndefMultiply cond body s
  | .armUnpredDoubleword cond body => Sys2Proof.Machine.execArmUnpredDoubleword cond body s
  | .armStrhImm cond p u w rn rd imm8 => Sys2Proof.Machine.execArmStrhImm cond p u w rn rd imm8 s
  | .armStrhReg cond p u w rn rd rm => Sys2Proof.Machine.execArmStrhReg cond p u w rn rd rm s
  | .armLdrhImm cond p u w rn rd imm8 => Sys2Proof.Machine.execArmLdrhImm cond p u w rn rd imm8 s
  | .armLdrhReg cond p u w rn rd rm => Sys2Proof.Machine.execArmLdrhReg cond p u w rn rd rm s
  | .armLdrsbImm cond p u w rn rd imm8 => Sys2Proof.Machine.execArmLdrsbImm cond p u w rn rd imm8 s
  | .armLdrsbReg cond p u w rn rd rm => Sys2Proof.Machine.execArmLdrsbReg cond p u w rn rd rm s
  | .armLdrshImm cond p u w rn rd imm8 => Sys2Proof.Machine.execArmLdrshImm cond p u w rn rd imm8 s
  | .armLdrshReg cond p u w rn rd rm => Sys2Proof.Machine.execArmLdrshReg cond p u w rn rd rm s
  | .armUnpredHalfwordReg cond body => Sys2Proof.Machine.execArmUnpredHalfwordReg cond body s
  | .armMrs cond r rd => Sys2Proof.Machine.execArmMrs cond r rd s
  | .armMsrReg cond r mask rm => Sys2Proof.Machine.execArmMsrReg cond r mask rm s
  | .armUnpredMrs cond body => Sys2Proof.Machine.execArmUnpredMrs cond body s
  | .armUnpredMsrReg cond body => Sys2Proof.Machine.execArmUnpredMsrReg cond body s
  | .armUndefCompareReg cond body => Sys2Proof.Machine.execArmUndefCompareReg cond body s
  | .armMsrImm cond r mask rotate imm8 => Sys2Proof.Machine.execArmMsrImm cond r mask rotate imm8 s
  | .armUnpredMsrImm cond body => Sys2Proof.Machine.execArmUnpredMsrImm cond body s
  | .armUndefCompareImm cond body => Sys2Proof.Machine.execArmUndefCompareImm cond body s
  | .armAnd cond sf rn rd op2 => Sys2Proof.Machine.execArmAnd cond sf rn rd op2 s
  | .armEor cond sf rn rd op2 => Sys2Proof.Machine.execArmEor cond sf rn rd op2 s
  | .armSub cond sf rn rd op2 => Sys2Proof.Machine.execArmSub cond sf rn rd op2 s
  | .armRsb cond sf rn rd op2 => Sys2Proof.Machine.execArmRsb cond sf rn rd op2 s
  | .armAdd cond sf rn rd op2 => Sys2Proof.Machine.execArmAdd cond sf rn rd op2 s
  | .armAdc cond sf rn rd op2 => Sys2Proof.Machine.execArmAdc cond sf rn rd op2 s
  | .armSbc cond sf rn rd op2 => Sys2Proof.Machine.execArmSbc cond sf rn rd op2 s
  | .armRsc cond sf rn rd op2 => Sys2Proof.Machine.execArmRsc cond sf rn rd op2 s
  | .armTst cond rn sbz op2 => Sys2Proof.Machine.execArmTst cond rn sbz op2 s
  | .armTeq cond rn sbz op2 => Sys2Proof.Machine.execArmTeq cond rn sbz op2 s
  | .armCmp cond rn sbz op2 => Sys2Proof.Machine.execArmCmp cond rn sbz op2 s
  | .armCmn cond rn sbz op2 => Sys2Proof.Machine.execArmCmn cond rn sbz op2 s
  | .armOrr cond sf rn rd op2 => Sys2Proof.Machine.execArmOrr cond sf rn rd op2 s
  | .armMov cond sf sbz rd op2 => Sys2Proof.Machine.execArmMov cond sf sbz rd op2 s
  | .armBic cond sf rn rd op2 => Sys2Proof.Machine.execArmBic cond sf rn rd op2 s
  | .armMvn cond sf sbz rd op2 => Sys2Proof.Machine.execArmMvn cond sf sbz rd op2 s
  | .armUndefA14 cond body => Sys2Proof.Machine.execArmUndefA14 cond body s
  | .armLdrt cond u rn rd off => Sys2Proof.Machine.execArmLdrt cond u rn rd off s
  | .armStrt cond u rn rd off => Sys2Proof.Machine.execArmStrt cond u rn rd off s
  | .armLdrbt cond u rn rd off => Sys2Proof.Machine.execArmLdrbt cond u rn rd off s
  | .armStrbt cond u rn rd off => Sys2Proof.Machine.execArmStrbt cond u rn rd off s
  | .armLdr cond p u w rn rd off => Sys2Proof.Machine.execArmLdr cond p u w rn rd off s
  | .armStr cond p u w rn rd off => Sys2Proof.Machine.execArmStr cond p u w rn rd off s
  | .armLdrb cond p u w rn rd off => Sys2Proof.Machine.execArmLdrb cond p u w rn rd off s
  | .armStrb cond p u w rn rd off => Sys2Proof.Machine.execArmStrb cond p u w rn rd off s
  | .armLdm cond p u sf w rn list => Sys2Proof.Machine.execArmLdm cond p u sf w rn list s
  | .armStm cond p u sf w rn list => Sys2Proof.Machine.execArmStm cond p u sf w rn list s
  | .armB cond offset24 => Sys2Proof.Machine.execArmB cond offset24 s
  | .armBl cond offset24 => Sys2Proof.Machine.execArmBl cond offset24 s
  | .armLdcStc cond p u n w l rn crd cp offset8 => Sys2Proof.Machine.execArmLdcStc cond p u n w l rn crd cp offset8 s
  | .armCdp cond op1 crn crd cp op2 crm => Sys2Proof.Machine.execArmCdp cond op1 crn crd cp op2 crm s
  | .armMcr cond op1 crn rd cp op2 crm => Sys2Proof.Machine.execArmMcr cond op1 crn rd cp op2 crm s
  | .armMrc cond op1 crn rd cp op2 crm => Sys2Proof.Machine.execArmMrc cond op1 crn rd cp op2 crm s
  | .armSwi cond comment => Sys2Proof.Machine.execArmSwi cond comment s
  | .thumbAddReg rn rs rd => Sys2Proof.Machine.execThumbAddReg rn rs rd s
  | .thumbSubReg rn rs rd => Sys2Proof.Machine.execThumbSubReg rn rs rd s
  | .thumbAddImm3 imm3 rs rd => Sys2Proof.Machine.execThumbAddImm3 imm3 rs rd s
  | .thumbSubImm3 imm3 rs rd => Sys2Proof.Machine.execThumbSubImm3 imm3 rs rd s
  | .thumbLslImm imm5 rs rd => Sys2Proof.Machine.execThumbLslImm imm5 rs rd s
  | .thumbLsrImm imm5 rs rd => Sys2Proof.Machine.execThumbLsrImm imm5 rs rd s
  | .thumbAsrImm imm5 rs rd => Sys2Proof.Machine.execThumbAsrImm imm5 rs rd s
  | .thumbMovImm8 rd imm8 => Sys2Proof.Machine.execThumbMovImm8 rd imm8 s
  | .thumbCmpImm8 rd imm8 => Sys2Proof.Machine.execThumbCmpImm8 rd imm8 s
  | .thumbAddImm8 rd imm8 => Sys2Proof.Machine.execThumbAddImm8 rd imm8 s
  | .thumbSubImm8 rd imm8 => Sys2Proof.Machine.execThumbSubImm8 rd imm8 s
  | .thumbAnd rs rd => Sys2Proof.Machine.execThumbAnd rs rd s
  | .thumbEor rs rd => Sys2Proof.Machine.execThumbEor rs rd s
  | .thumbLsl rs rd => Sys2Proof.Machine.execThumbLsl rs rd s
  | .thumbLsr rs rd => Sys2Proof.Machine.execThumbLsr rs rd s
  | .thumbAsr rs rd => Sys2Proof.Machine.execThumbAsr rs rd s
  | .thumbAdc rs rd => Sys2Proof.Machine.execThumbAdc rs rd s
  | .thumbSbc rs rd => Sys2Proof.Machine.execThumbSbc rs rd s
  | .thumbRor rs rd => Sys2Proof.Machine.execThumbRor rs rd s
  | .thumbTst rs rd => Sys2Proof.Machine.execThumbTst rs rd s
  | .thumbNeg rs rd => Sys2Proof.Machine.execThumbNeg rs rd s
  | .thumbCmp rs rd => Sys2Proof.Machine.execThumbCmp rs rd s
  | .thumbCmn rs rd => Sys2Proof.Machine.execThumbCmn rs rd s
  | .thumbOrr rs rd => Sys2Proof.Machine.execThumbOrr rs rd s
  | .thumbMul rs rd => Sys2Proof.Machine.execThumbMul rs rd s
  | .thumbBic rs rd => Sys2Proof.Machine.execThumbBic rs rd s
  | .thumbMvn rs rd => Sys2Proof.Machine.execThumbMvn rs rd s
  | .thumbUndefBlxReg low7 => Sys2Proof.Machine.execThumbUndefBlxReg low7 s
  | .thumbBx rm sbz => Sys2Proof.Machine.execThumbBx rm sbz s
  | .thumbAddHi rd rm => Sys2Proof.Machine.execThumbAddHi rd rm s
  | .thumbCmpHi rd rm => Sys2Proof.Machine.execThumbCmpHi rd rm s
  | .thumbMovHi rd rm => Sys2Proof.Machine.execThumbMovHi rd rm s
  | .thumbLdrPc rd word8 => Sys2Proof.Machine.execThumbLdrPc rd word8 s
  | .thumbStrReg ro rb rd => Sys2Proof.Machine.execThumbStrReg ro rb rd s
  | .thumbStrbReg ro rb rd => Sys2Proof.Machine.execThumbStrbReg ro rb rd s
  | .thumbLdrReg ro rb rd => Sys2Proof.Machine.execThumbLdrReg ro rb rd s
  | .thumbLdrbReg ro rb rd => Sys2Proof.Machine.execThumbLdrbReg ro rb rd s
  | .thumbStrhReg ro rb rd => Sys2Proof.Machine.execThumbStrhReg ro rb rd s
  | .thumbLdrhReg ro rb rd => Sys2Proof.Machine.execThumbLdrhReg ro rb rd s
  | .thumbLdsb ro rb rd => Sys2Proof.Machine.execThumbLdsb ro rb rd s
  | .thumbLdsh ro rb rd => Sys2Proof.Machine.execThumbLdsh ro rb rd s
  | .thumbStrImm imm5 rb rd => Sys2Proof.Machine.execThumbStrImm imm5 rb rd s
  | .thumbLdrImm imm5 rb rd => Sys2Proof.Machine.execThumbLdrImm imm5 rb rd s
  | .thumbStrbImm imm5 rb rd => Sys2Proof.Machine.execThumbStrbImm imm5 rb rd s
  | .thumbLdrbImm imm5 rb rd => Sys2Proof.Machine.execThumbLdrbImm imm5 rb rd s
  | .thumbStrhImm imm5 rb rd => Sys2Proof.Machine.execThumbStrhImm imm5 rb rd s
  | .thumbLdrhImm imm5 rb rd => Sys2Proof.Machine.execThumbLdrhImm imm5 rb rd s
  | .thumbStrSp rd word8 => Sys2Proof.Machine.execThumbStrSp rd word8 s
  | .thumbLdrSp rd word8 => Sys2Proof.Machine.execThumbLdrSp rd word8 s
  | .thumbAddPc rd word8 => Sys2Proof.Machine.execThumbAddPc rd word8 s
  | .thumbAddSp rd word8 => Sys2Proof.Machine.execThumbAddSp rd word8 s
  | .thumbAdjustSp sf sword7 => Sys2Proof.Machine.execThumbAdjustSp sf sword7 s
  | .thumbPush r list => Sys2Proof.Machine.execThumbPush r list s
  | .thumbPop r list => Sys2Proof.Machine.execThumbPop r list s
  | .thumbUndef1011 low12 => Sys2Proof.Machine.execThumbUndef1011 low12 s
  | .thumbStmia rb list => Sys2Proof.Machine.execThumbStmia rb list s
  | .thumbLdmia rb list => Sys2Proof.Machine.execThumbLdmia rb list s
  | .thumbSwi value8 => Sys2Proof.Machine.execThumbSwi value8 s
  | .thumbUndefCond14 low8 => Sys2Proof.Machine.execThumbUndefCond14 low8 s
  | .thumbBCond cond soffset8 => Sys2Proof.Machine.execThumbBCond cond soffset8 s
  | .thumbB offset11 => Sys2Proof.Machine.execThumbB offset11 s
  | .thumbUndefBlxSuffix low11 => Sys2Proof.Machine.execThumbUndefBlxSuffix low11 s
  | .thumbBlFirst offset11 => Sys2Proof.Machine.execThumbBlFirst offset11 s
  | .thumbBlSecond offset11 => Sys2Proof.Machine.execThumbBlSecond offset11 s

end Sys2Proof.Machine
end

