-- ==== Sys2Proof/WellFormed.lean ====
section
/-! DEFINITION. Well-formedness: which terms of `Instr` stand for an instruction word. Written from the prose of the
decode chains (30_encoding R320, R340), not from the decoder's table. A raw reserved word must lie in its line of the
chain; every other field of every constructor is admitted at every value. -/

namespace Sys2Proof

namespace Body

/-- Bits `lo + n - 1 : lo` of an ARM word's bits 27:0. -/
def field (b : BitVec 28) (lo n : Nat) : BitVec n := b.extractLsb' lo n

/-- 30_encoding R320, the guard of line 2: w[27:25] = 000, w[7] = w[4] = 1, w[6:5] = 00. -/
def multiplySpace (b : BitVec 28) : Bool := field b 25 3 == 0#3 && field b 4 4 == 0b1001#4

/-- 30_encoding R320, the guard of line 3: w[27:25] = 000, w[7] = w[4] = 1, w[6:5] ≠ 00. -/
def halfwordSpace (b : BitVec 28) : Bool :=
  field b 25 3 == 0#3 && field b 7 1 == 1#1 && field b 4 1 == 1#1 && field b 5 2 != 0#2

/-- 30_encoding R320 line 2d's guard. -/
def swapSpace (b : BitVec 28) : Bool := field b 23 5 == 0b00010#5 && field b 20 2 == 0#2

/-- 30_encoding R320 line 2d, `otherwise`. -/
def isUnpredSwap (b : BitVec 28) : Bool := multiplySpace b && swapSpace b && field b 8 4 != 0#4

/-- 30_encoding R320 line 2e. -/
def isUndefMultiply (b : BitVec 28) : Bool :=
  multiplySpace b && !(field b 22 6 == 0#6) && !(field b 23 5 == 0b00001#5) && !(field b 20 8 == 0b00000100#8)
    && !swapSpace b

/-- 30_encoding R320 line 3b; the words of 3a that also meet 3b are here, as in the opcode table (log 7). -/
def isUnpredDoubleword (b : BitVec 28) : Bool := halfwordSpace b && field b 20 1 == 0#1 && field b 6 1 == 1#1

/-- 30_encoding R320 line 3a, without the words the opcode table gives to the doubleword row (log 7). -/
def isUnpredHalfwordReg (b : BitVec 28) : Bool :=
  halfwordSpace b && field b 22 1 == 0#1 && field b 8 4 != 0#4 && !isUnpredDoubleword b

/-- 30_encoding R320 line 4's guard, after line 1 (BX) and lines 2 and 3. -/
def compareRegSpace (b : BitVec 28) : Bool :=
  field b 23 5 == 0b00010#5 && field b 20 1 == 0#1 && !(field b 7 1 == 1#1 && field b 4 1 == 1#1)
    && !(field b 4 24 == 0x12FFF1#24)

/-- 30_encoding R320 line 4a, `otherwise`. -/
def isUnpredMrs (b : BitVec 28) : Bool :=
  compareRegSpace b && field b 21 1 == 0#1 && field b 4 4 == 0#4 && !(field b 16 4 == 0xF#4 && field b 0 12 == 0#12)

/-- 30_encoding R320 line 4b, `otherwise`. -/
def isUnpredMsrReg (b : BitVec 28) : Bool :=
  compareRegSpace b && field b 21 1 == 1#1 && field b 4 4 == 0#4 && !(field b 12 4 == 0xF#4 && field b 8 4 == 0#4)

/-- 30_encoding R320 line 4c. -/
def isUndefCompareReg (b : BitVec 28) : Bool := compareRegSpace b && field b 4 4 != 0#4

/-- 30_encoding R320 line 5's guard. -/
def compareImmSpace (b : BitVec 28) : Bool := field b 23 5 == 0b00110#5 && field b 20 1 == 0#1

/-- 30_encoding R320 line 5a, `otherwise`. -/
def isUnpredMsrImm (b : BitVec 28) : Bool := compareImmSpace b && field b 21 1 == 1#1 && field b 12 4 != 0xF#4

/-- 30_encoding R320 line 5b. -/
def isUndefCompareImm (b : BitVec 28) : Bool := compareImmSpace b && field b 21 1 == 0#1

/-- 30_encoding R320 line 7. -/
def isUndefA14 (b : BitVec 28) : Bool := field b 25 3 == 0b011#3 && field b 4 1 == 1#1

end Body

/-- 30_encoding R340 line 15: the 1011 space outside lines 13 (T13) and 14 (T14). -/
def Thumb.isUndef1011 (low12 : BitVec 12) : Bool :=
  !(low12.extractLsb' 8 4 == 0#4) && !(low12.extractLsb' 9 2 == 0b10#2)

/-- The terms that stand for an instruction word. `LDR`/`STR` forms with P = 0 and W = 1 are the T variants and have
constructors of their own (30_encoding R320 line 8); the Thumb conditional branch has no AL and no NV (R340 lines 17
and 18). -/
def Instr.wf : Instr → Bool
  | .armBx _ _ => true
  | .armMul _ _ _ _ _ _ => true
  | .armMla _ _ _ _ _ _ => true
  | .armUmull _ _ _ _ _ _ => true
  | .armUmlal _ _ _ _ _ _ => true
  | .armSmull _ _ _ _ _ _ => true
  | .armSmlal _ _ _ _ _ _ => true
  | .armUmaal _ _ _ _ _ => true
  | .armSwp _ _ _ _ => true
  | .armSwpb _ _ _ _ => true
  | .armUnpredSwap _ body => Body.isUnpredSwap body
  | .armUndefMultiply _ body => Body.isUndefMultiply body
  | .armUnpredDoubleword _ body => Body.isUnpredDoubleword body
  | .armStrhImm _ _ _ _ _ _ _ => true
  | .armStrhReg _ _ _ _ _ _ _ => true
  | .armLdrhImm _ _ _ _ _ _ _ => true
  | .armLdrhReg _ _ _ _ _ _ _ => true
  | .armLdrsbImm _ _ _ _ _ _ _ => true
  | .armLdrsbReg _ _ _ _ _ _ _ => true
  | .armLdrshImm _ _ _ _ _ _ _ => true
  | .armLdrshReg _ _ _ _ _ _ _ => true
  | .armUnpredHalfwordReg _ body => Body.isUnpredHalfwordReg body
  | .armMrs _ _ _ => true
  | .armMsrReg _ _ _ _ => true
  | .armUnpredMrs _ body => Body.isUnpredMrs body
  | .armUnpredMsrReg _ body => Body.isUnpredMsrReg body
  | .armUndefCompareReg _ body => Body.isUndefCompareReg body
  | .armMsrImm _ _ _ _ _ => true
  | .armUnpredMsrImm _ body => Body.isUnpredMsrImm body
  | .armUndefCompareImm _ body => Body.isUndefCompareImm body
  | .armAnd _ _ _ _ _ => true
  | .armEor _ _ _ _ _ => true
  | .armSub _ _ _ _ _ => true
  | .armRsb _ _ _ _ _ => true
  | .armAdd _ _ _ _ _ => true
  | .armAdc _ _ _ _ _ => true
  | .armSbc _ _ _ _ _ => true
  | .armRsc _ _ _ _ _ => true
  | .armTst _ _ _ _ => true
  | .armTeq _ _ _ _ => true
  | .armCmp _ _ _ _ => true
  | .armCmn _ _ _ _ => true
  | .armOrr _ _ _ _ _ => true
  | .armMov _ _ _ _ _ => true
  | .armBic _ _ _ _ _ => true
  | .armMvn _ _ _ _ _ => true
  | .armUndefA14 _ body => Body.isUndefA14 body
  | .armLdrt _ _ _ _ _ => true
  | .armStrt _ _ _ _ _ => true
  | .armLdrbt _ _ _ _ _ => true
  | .armStrbt _ _ _ _ _ => true
  | .armLdr _ p _ w _ _ _ => p || !w
  | .armStr _ p _ w _ _ _ => p || !w
  | .armLdrb _ p _ w _ _ _ => p || !w
  | .armStrb _ p _ w _ _ _ => p || !w
  | .armLdm _ _ _ _ _ _ _ => true
  | .armStm _ _ _ _ _ _ _ => true
  | .armB _ _ => true
  | .armBl _ _ => true
  | .armLdcStc _ _ _ _ _ _ _ _ _ _ => true
  | .armCdp _ _ _ _ _ _ _ => true
  | .armMcr _ _ _ _ _ _ _ => true
  | .armMrc _ _ _ _ _ _ _ => true
  | .armSwi _ _ => true
  | .thumbAddReg _ _ _ => true
  | .thumbSubReg _ _ _ => true
  | .thumbAddImm3 _ _ _ => true
  | .thumbSubImm3 _ _ _ => true
  | .thumbLslImm _ _ _ => true
  | .thumbLsrImm _ _ _ => true
  | .thumbAsrImm _ _ _ => true
  | .thumbMovImm8 _ _ => true
  | .thumbCmpImm8 _ _ => true
  | .thumbAddImm8 _ _ => true
  | .thumbSubImm8 _ _ => true
  | .thumbAnd _ _ => true
  | .thumbEor _ _ => true
  | .thumbLsl _ _ => true
  | .thumbLsr _ _ => true
  | .thumbAsr _ _ => true
  | .thumbAdc _ _ => true
  | .thumbSbc _ _ => true
  | .thumbRor _ _ => true
  | .thumbTst _ _ => true
  | .thumbNeg _ _ => true
  | .thumbCmp _ _ => true
  | .thumbCmn _ _ => true
  | .thumbOrr _ _ => true
  | .thumbMul _ _ => true
  | .thumbBic _ _ => true
  | .thumbMvn _ _ => true
  | .thumbUndefBlxReg _ => true
  | .thumbBx _ _ => true
  | .thumbAddHi _ _ => true
  | .thumbCmpHi _ _ => true
  | .thumbMovHi _ _ => true
  | .thumbLdrPc _ _ => true
  | .thumbStrReg _ _ _ => true
  | .thumbStrbReg _ _ _ => true
  | .thumbLdrReg _ _ _ => true
  | .thumbLdrbReg _ _ _ => true
  | .thumbStrhReg _ _ _ => true
  | .thumbLdrhReg _ _ _ => true
  | .thumbLdsb _ _ _ => true
  | .thumbLdsh _ _ _ => true
  | .thumbStrImm _ _ _ => true
  | .thumbLdrImm _ _ _ => true
  | .thumbStrbImm _ _ _ => true
  | .thumbLdrbImm _ _ _ => true
  | .thumbStrhImm _ _ _ => true
  | .thumbLdrhImm _ _ _ => true
  | .thumbStrSp _ _ => true
  | .thumbLdrSp _ _ => true
  | .thumbAddPc _ _ => true
  | .thumbAddSp _ _ => true
  | .thumbAdjustSp _ _ => true
  | .thumbPush _ _ => true
  | .thumbPop _ _ => true
  | .thumbUndef1011 low12 => Thumb.isUndef1011 low12
  | .thumbStmia _ _ => true
  | .thumbLdmia _ _ => true
  | .thumbSwi _ => true
  | .thumbUndefCond14 _ => true
  | .thumbBCond cond _ => cond != .al && cond != .nv
  | .thumbB _ => true
  | .thumbUndefBlxSuffix _ => true
  | .thumbBlFirst _ => true
  | .thumbBlSecond _ => true

end Sys2Proof
end

