-- ==== Sys2Proof/Decode.lean ====
section
/-! DEFINITION. The decoder, total on words and on bytes, and the encoder. The decode order is the opcode table's, row by
row with its masks and matches (spec/opcode_table.json; 30_encoding R320, R340); fields are pulled out here, once
(R303, R330, R342). -/

namespace Sys2Proof

/-! ### The small codes -/

/-- 30_encoding R306. -/
def Cond.ofBits (b : BitVec 4) : Cond :=
  match b.toNat with
  | 0 => .eq | 1 => .ne | 2 => .cs | 3 => .cc | 4 => .mi | 5 => .pl | 6 => .vs | 7 => .vc
  | 8 => .hi | 9 => .ls | 10 => .ge | 11 => .lt | 12 => .gt | 13 => .le | 14 => .al | _ => .nv

/-- 30_encoding R306. -/
def Cond.toBits : Cond → BitVec 4
  | .eq => 0#4 | .ne => 1#4 | .cs => 2#4 | .cc => 3#4 | .mi => 4#4 | .pl => 5#4 | .vs => 6#4 | .vc => 7#4
  | .hi => 8#4 | .ls => 9#4 | .ge => 10#4 | .lt => 11#4 | .gt => 12#4 | .le => 13#4 | .al => 14#4 | .nv => 15#4

/-- 30_encoding R305. -/
def ShiftType.ofBits (b : BitVec 2) : ShiftType :=
  match b.toNat with
  | 0 => .lsl | 1 => .lsr | 2 => .asr | _ => .ror

/-- 30_encoding R305. -/
def ShiftType.toBits : ShiftType → BitVec 2
  | .lsl => 0#2 | .lsr => 1#2 | .asr => 2#2 | .ror => 3#2

/-- 30_encoding R304. -/
def DpOp.toBits : DpOp → BitVec 4
  | .and => 0#4 | .eor => 1#4 | .sub => 2#4 | .rsb => 3#4 | .add => 4#4 | .adc => 5#4 | .sbc => 6#4 | .rsc => 7#4
  | .tst => 8#4 | .teq => 9#4 | .cmp => 10#4 | .cmn => 11#4 | .orr => 12#4 | .mov => 13#4 | .bic => 14#4 | .mvn => 15#4

/-! ### Words cut into fields -/

/-- An ARM word cut where the formats of 30_encoding R303 cut it: `cond` 31:28, `op` 27:20, `a` 19:16, `b` 15:12,
`c` 11:8, `lo` 7:4, `d` 3:0. -/
structure ArmParts where
  cond : BitVec 4
  op : BitVec 8
  a : BitVec 4
  b : BitVec 4
  c : BitVec 4
  lo : BitVec 4
  d : BitVec 4
  deriving DecidableEq, Repr

/-- Cut a word. -/
def ArmParts.ofWord (w : Word) : ArmParts where
  cond := w.extractLsb' 28 4
  op := w.extractLsb' 20 8
  a := w.extractLsb' 16 4
  b := w.extractLsb' 12 4
  c := w.extractLsb' 8 4
  lo := w.extractLsb' 4 4
  d := w.extractLsb' 0 4

/-- Join the fields. -/
def ArmParts.toWord (p : ArmParts) : Word := p.cond ++ p.op ++ p.a ++ p.b ++ p.c ++ p.lo ++ p.d

/-- A Thumb halfword cut where the formats of 30_encoding R330 cut it: `hi` 15:8, `k` 7:6, `m` 5:3, `l` 2:0. -/
structure ThumbParts where
  hi : BitVec 8
  k : BitVec 2
  m : BitVec 3
  l : BitVec 3
  deriving DecidableEq, Repr

/-- Cut a halfword. -/
def ThumbParts.ofHalf (h : Half) : ThumbParts where
  hi := h.extractLsb' 8 8
  k := h.extractLsb' 6 2
  m := h.extractLsb' 3 3
  l := h.extractLsb' 0 3

/-- Join the fields. -/
def ThumbParts.toHalf (p : ThumbParts) : Half := p.hi ++ p.k ++ p.m ++ p.l

/-! ### The opcode table -/

/-- The ARM rows of the opcode table. -/
inductive ArmRow where
  | bx | mul | mla | umull | umlal | smull | smlal | umaal | swp | swpb | unpredSwap | undefMultiply
  | unpredDoubleword | strhImm | strhReg | ldrhImm | ldrhReg | ldrsbImm | ldrsbReg | ldrshImm | ldrshReg
  | unpredHalfwordReg | mrs | msrReg | unpredMrs | unpredMsrReg | undefCompareReg | msrImm | unpredMsrImm
  | undefCompareImm | and | eor | sub | rsb | add | adc | sbc | rsc | tst | teq | cmp | cmn | orr | mov | bic | mvn
  | undefA14 | ldrt | strt | ldrbt | strbt | ldr | str | ldrb | strb | ldm | stm | b | bl | ldcStc | cdp | mcr | mrc
  | swi
  deriving DecidableEq, Repr

/-- The Thumb rows of the opcode table. -/
inductive ThumbRow where
  | addReg | subReg | addImm3 | subImm3 | lslImm | lsrImm | asrImm | movImm8 | cmpImm8 | addImm8 | subImm8 | and
  | eor | lsl | lsr | asr | adc | sbc | ror | tst | neg | cmp | cmn | orr | mul | bic | mvn | undefBlxReg | bx
  | addHi | cmpHi | movHi | ldrPc | strReg | strbReg | ldrReg | ldrbReg | strhReg | ldrhReg | ldsb | ldsh | strImm
  | ldrImm | strbImm | ldrbImm | strhImm | ldrhImm | strSp | ldrSp | addPc | addSp | adjustSp | push | pop
  | undef1011 | stmia | ldmia | swi | undefCond14 | bCond | b | undefBlxSuffix | blFirst | blSecond
  deriving DecidableEq, Repr

/-- One ARM row: its mask and its match. -/
structure ArmPattern where
  row : ArmRow
  mask : ArmParts
  value : ArmParts
  deriving DecidableEq, Repr

/-- One Thumb row. -/
structure ThumbPattern where
  row : ThumbRow
  mask : ThumbParts
  value : ThumbParts
  deriving DecidableEq, Repr

/-- A row from the table's own literals. -/
def armPattern (row : ArmRow) (mask value : Word) : ArmPattern := ⟨row, .ofWord mask, .ofWord value⟩

/-- A row from the table's own literals. -/
def thumbPattern (row : ThumbRow) (mask value : Half) : ThumbPattern := ⟨row, .ofHalf mask, .ofHalf value⟩

/-- Does a word fit a row: `w AND mask = match`, field by field. -/
def ArmPattern.fits (t : ArmPattern) (p : ArmParts) : Bool :=
  p.op &&& t.mask.op == t.value.op && p.lo &&& t.mask.lo == t.value.lo && p.a &&& t.mask.a == t.value.a
    && p.b &&& t.mask.b == t.value.b && p.c &&& t.mask.c == t.value.c && p.d &&& t.mask.d == t.value.d
    && p.cond &&& t.mask.cond == t.value.cond

/-- Does a halfword fit a row. -/
def ThumbPattern.fits (t : ThumbPattern) (p : ThumbParts) : Bool :=
  p.hi &&& t.mask.hi == t.value.hi && p.k &&& t.mask.k == t.value.k && p.m &&& t.mask.m == t.value.m
    && p.l &&& t.mask.l == t.value.l

/-- The opcode table, part 1. -/
def armTable1 : List ArmPattern := [
  armPattern .bx 0x0FFFFFF0#32 0x012FFF10#32,
  armPattern .mul 0x0FE000F0#32 0x00000090#32,
  armPattern .mla 0x0FE000F0#32 0x00200090#32,
  armPattern .umull 0x0FE000F0#32 0x00800090#32,
  armPattern .umlal 0x0FE000F0#32 0x00A00090#32,
  armPattern .smull 0x0FE000F0#32 0x00C00090#32,
  armPattern .smlal 0x0FE000F0#32 0x00E00090#32,
  armPattern .umaal 0x0FF000F0#32 0x00400090#32]

/-- The opcode table, part 2. -/
def armTable2 : List ArmPattern := [
  armPattern .swp 0x0FF00FF0#32 0x01000090#32,
  armPattern .swpb 0x0FF00FF0#32 0x01400090#32,
  armPattern .unpredSwap 0x0FB000F0#32 0x01000090#32,
  armPattern .undefMultiply 0x0E0000F0#32 0x00000090#32,
  armPattern .unpredDoubleword 0x0E1000D0#32 0x000000D0#32,
  armPattern .strhImm 0x0E5000F0#32 0x004000B0#32,
  armPattern .strhReg 0x0E500FF0#32 0x000000B0#32,
  armPattern .ldrhImm 0x0E5000F0#32 0x005000B0#32]

/-- The opcode table, part 3. -/
def armTable3 : List ArmPattern := [
  armPattern .ldrhReg 0x0E500FF0#32 0x001000B0#32,
  armPattern .ldrsbImm 0x0E5000F0#32 0x005000D0#32,
  armPattern .ldrsbReg 0x0E500FF0#32 0x001000D0#32,
  armPattern .ldrshImm 0x0E5000F0#32 0x005000F0#32,
  armPattern .ldrshReg 0x0E500FF0#32 0x001000F0#32,
  armPattern .unpredHalfwordReg 0x0E400090#32 0x00000090#32,
  armPattern .mrs 0x0FBF0FFF#32 0x010F0000#32,
  armPattern .msrReg 0x0FB0FFF0#32 0x0120F000#32]

/-- The opcode table, part 4. -/
def armTable4 : List ArmPattern := [
  armPattern .unpredMrs 0x0FB000F0#32 0x01000000#32,
  armPattern .unpredMsrReg 0x0FB000F0#32 0x01200000#32,
  armPattern .undefCompareReg 0x0F900000#32 0x01000000#32,
  armPattern .msrImm 0x0FB0F000#32 0x0320F000#32,
  armPattern .unpredMsrImm 0x0FB00000#32 0x03200000#32,
  armPattern .undefCompareImm 0x0FB00000#32 0x03000000#32,
  armPattern .and 0x0DE00000#32 0x00000000#32,
  armPattern .eor 0x0DE00000#32 0x00200000#32]

/-- The opcode table, part 5. -/
def armTable5 : List ArmPattern := [
  armPattern .sub 0x0DE00000#32 0x00400000#32,
  armPattern .rsb 0x0DE00000#32 0x00600000#32,
  armPattern .add 0x0DE00000#32 0x00800000#32,
  armPattern .adc 0x0DE00000#32 0x00A00000#32,
  armPattern .sbc 0x0DE00000#32 0x00C00000#32,
  armPattern .rsc 0x0DE00000#32 0x00E00000#32,
  armPattern .tst 0x0DF00000#32 0x01100000#32,
  armPattern .teq 0x0DF00000#32 0x01300000#32]

/-- The opcode table, part 6. -/
def armTable6 : List ArmPattern := [
  armPattern .cmp 0x0DF00000#32 0x01500000#32,
  armPattern .cmn 0x0DF00000#32 0x01700000#32,
  armPattern .orr 0x0DE00000#32 0x01800000#32,
  armPattern .mov 0x0DE00000#32 0x01A00000#32,
  armPattern .bic 0x0DE00000#32 0x01C00000#32,
  armPattern .mvn 0x0DE00000#32 0x01E00000#32,
  armPattern .undefA14 0x0E000010#32 0x06000010#32,
  armPattern .ldrt 0x0D700000#32 0x04300000#32]

/-- The opcode table, part 7. -/
def armTable7 : List ArmPattern := [
  armPattern .strt 0x0D700000#32 0x04200000#32,
  armPattern .ldrbt 0x0D700000#32 0x04700000#32,
  armPattern .strbt 0x0D700000#32 0x04600000#32,
  armPattern .ldr 0x0C500000#32 0x04100000#32,
  armPattern .str 0x0C500000#32 0x04000000#32,
  armPattern .ldrb 0x0C500000#32 0x04500000#32,
  armPattern .strb 0x0C500000#32 0x04400000#32,
  armPattern .ldm 0x0E100000#32 0x08100000#32]

/-- The opcode table, part 8. -/
def armTable8 : List ArmPattern := [
  armPattern .stm 0x0E100000#32 0x08000000#32,
  armPattern .b 0x0F000000#32 0x0A000000#32,
  armPattern .bl 0x0F000000#32 0x0B000000#32,
  armPattern .ldcStc 0x0E000000#32 0x0C000000#32,
  armPattern .cdp 0x0F000010#32 0x0E000000#32,
  armPattern .mcr 0x0F100010#32 0x0E000010#32,
  armPattern .mrc 0x0F100010#32 0x0E100010#32,
  armPattern .swi 0x0F000000#32 0x0F000000#32]

/-- The rows in decode order. -/
def armTable : List ArmPattern :=
  armTable1 ++ armTable2 ++ armTable3 ++ armTable4 ++ armTable5 ++ armTable6 ++ armTable7 ++ armTable8

/-- The opcode table, part 1. -/
def thumbTable1 : List ThumbPattern := [
  thumbPattern .addReg 0xFE00#16 0x1800#16,
  thumbPattern .subReg 0xFE00#16 0x1A00#16,
  thumbPattern .addImm3 0xFE00#16 0x1C00#16,
  thumbPattern .subImm3 0xFE00#16 0x1E00#16,
  thumbPattern .lslImm 0xF800#16 0x0000#16,
  thumbPattern .lsrImm 0xF800#16 0x0800#16,
  thumbPattern .asrImm 0xF800#16 0x1000#16,
  thumbPattern .movImm8 0xF800#16 0x2000#16]

/-- The opcode table, part 2. -/
def thumbTable2 : List ThumbPattern := [
  thumbPattern .cmpImm8 0xF800#16 0x2800#16,
  thumbPattern .addImm8 0xF800#16 0x3000#16,
  thumbPattern .subImm8 0xF800#16 0x3800#16,
  thumbPattern .and 0xFFC0#16 0x4000#16,
  thumbPattern .eor 0xFFC0#16 0x4040#16,
  thumbPattern .lsl 0xFFC0#16 0x4080#16,
  thumbPattern .lsr 0xFFC0#16 0x40C0#16,
  thumbPattern .asr 0xFFC0#16 0x4100#16]

/-- The opcode table, part 3. -/
def thumbTable3 : List ThumbPattern := [
  thumbPattern .adc 0xFFC0#16 0x4140#16,
  thumbPattern .sbc 0xFFC0#16 0x4180#16,
  thumbPattern .ror 0xFFC0#16 0x41C0#16,
  thumbPattern .tst 0xFFC0#16 0x4200#16,
  thumbPattern .neg 0xFFC0#16 0x4240#16,
  thumbPattern .cmp 0xFFC0#16 0x4280#16,
  thumbPattern .cmn 0xFFC0#16 0x42C0#16,
  thumbPattern .orr 0xFFC0#16 0x4300#16]

/-- The opcode table, part 4. -/
def thumbTable4 : List ThumbPattern := [
  thumbPattern .mul 0xFFC0#16 0x4340#16,
  thumbPattern .bic 0xFFC0#16 0x4380#16,
  thumbPattern .mvn 0xFFC0#16 0x43C0#16,
  thumbPattern .undefBlxReg 0xFF80#16 0x4780#16,
  thumbPattern .bx 0xFF80#16 0x4700#16,
  thumbPattern .addHi 0xFF00#16 0x4400#16,
  thumbPattern .cmpHi 0xFF00#16 0x4500#16,
  thumbPattern .movHi 0xFF00#16 0x4600#16]

/-- The opcode table, part 5. -/
def thumbTable5 : List ThumbPattern := [
  thumbPattern .ldrPc 0xF800#16 0x4800#16,
  thumbPattern .strReg 0xFE00#16 0x5000#16,
  thumbPattern .strbReg 0xFE00#16 0x5400#16,
  thumbPattern .ldrReg 0xFE00#16 0x5800#16,
  thumbPattern .ldrbReg 0xFE00#16 0x5C00#16,
  thumbPattern .strhReg 0xFE00#16 0x5200#16,
  thumbPattern .ldrhReg 0xFE00#16 0x5A00#16,
  thumbPattern .ldsb 0xFE00#16 0x5600#16]

/-- The opcode table, part 6. -/
def thumbTable6 : List ThumbPattern := [
  thumbPattern .ldsh 0xFE00#16 0x5E00#16,
  thumbPattern .strImm 0xF800#16 0x6000#16,
  thumbPattern .ldrImm 0xF800#16 0x6800#16,
  thumbPattern .strbImm 0xF800#16 0x7000#16,
  thumbPattern .ldrbImm 0xF800#16 0x7800#16,
  thumbPattern .strhImm 0xF800#16 0x8000#16,
  thumbPattern .ldrhImm 0xF800#16 0x8800#16,
  thumbPattern .strSp 0xF800#16 0x9000#16]

/-- The opcode table, part 7. -/
def thumbTable7 : List ThumbPattern := [
  thumbPattern .ldrSp 0xF800#16 0x9800#16,
  thumbPattern .addPc 0xF800#16 0xA000#16,
  thumbPattern .addSp 0xF800#16 0xA800#16,
  thumbPattern .adjustSp 0xFF00#16 0xB000#16,
  thumbPattern .push 0xFE00#16 0xB400#16,
  thumbPattern .pop 0xFE00#16 0xBC00#16,
  thumbPattern .undef1011 0xF000#16 0xB000#16,
  thumbPattern .stmia 0xF800#16 0xC000#16]

/-- The opcode table, part 8. -/
def thumbTable8 : List ThumbPattern := [
  thumbPattern .ldmia 0xF800#16 0xC800#16,
  thumbPattern .swi 0xFF00#16 0xDF00#16,
  thumbPattern .undefCond14 0xFF00#16 0xDE00#16,
  thumbPattern .bCond 0xF000#16 0xD000#16,
  thumbPattern .b 0xF800#16 0xE000#16,
  thumbPattern .undefBlxSuffix 0xF800#16 0xE800#16,
  thumbPattern .blFirst 0xF800#16 0xF000#16,
  thumbPattern .blSecond 0xF800#16 0xF800#16]

/-- The rows in decode order. -/
def thumbTable : List ThumbPattern :=
  thumbTable1 ++ thumbTable2 ++ thumbTable3 ++ thumbTable4 ++ thumbTable5 ++ thumbTable6 ++ thumbTable7 ++ thumbTable8

/-- The first row a word fits. -/
def armRow (p : ArmParts) : Option ArmRow := (armTable.find? (·.fits p)).map (·.row)

/-- The first row a halfword fits. -/
def thumbRow (p : ThumbParts) : Option ThumbRow := (thumbTable.find? (·.fits p)).map (·.row)

/-! ### From a row and its fields to the instruction -/

namespace ArmParts

/-- Bit `n` of bits 27:20 of the word. -/
def opBit (p : ArmParts) (n : Nat) : Bool := p.op.getLsbD n

/-- Bits 27:0 of the word. -/
def body (p : ArmParts) : BitVec 28 := p.op ++ p.a ++ p.b ++ p.c ++ p.lo ++ p.d

/-- Bits 11:7 of the word: `shift_imm`. -/
def shiftAmount (p : ArmParts) : BitVec 5 := p.c ++ p.lo.extractLsb' 3 1

/-- Bits 6:5 of the word: `shift`. -/
def shiftType (p : ArmParts) : ShiftType := .ofBits (p.lo.extractLsb' 1 2)

/-- The operand form of data processing (30_encoding R320, the note on line 6; R322, R323). -/
def operand2 (p : ArmParts) : Operand2 :=
  if p.opBit 5 then .imm p.c (p.lo ++ p.d)
  else if p.lo.getLsbD 0 then .shiftReg p.shiftType p.c p.d
  else .shiftImm p.shiftType p.shiftAmount p.d

/-- The offset of a single data transfer (30_encoding R324). -/
def offset (p : ArmParts) : Offset :=
  if p.opBit 5 then .reg p.shiftType p.shiftAmount p.d else .imm (p.c ++ p.lo ++ p.d)

/-- Bits 23:0 of the word. -/
def low24 (p : ArmParts) : BitVec 24 := p.op.extractLsb' 0 4 ++ p.a ++ p.b ++ p.c ++ p.lo ++ p.d

end ArmParts

/-- Build the instruction of a row from the word's fields (30_encoding R303). -/
def ArmParts.build (p : ArmParts) (row : ArmRow) : Instr :=
  let cond := Cond.ofBits p.cond
  let s := p.opBit 0
  let pp := p.opBit 4
  let u := p.opBit 3
  let w := p.opBit 1
  match row with
  | .bx => .armBx cond p.d
  | .mul => .armMul cond s p.a p.b p.c p.d
  | .mla => .armMla cond s p.a p.b p.c p.d
  | .umull => .armUmull cond s p.a p.b p.c p.d
  | .umlal => .armUmlal cond s p.a p.b p.c p.d
  | .smull => .armSmull cond s p.a p.b p.c p.d
  | .smlal => .armSmlal cond s p.a p.b p.c p.d
  | .umaal => .armUmaal cond p.a p.b p.c p.d
  | .swp => .armSwp cond p.a p.b p.d
  | .swpb => .armSwpb cond p.a p.b p.d
  | .unpredSwap => .armUnpredSwap cond p.body
  | .undefMultiply => .armUndefMultiply cond p.body
  | .unpredDoubleword => .armUnpredDoubleword cond p.body
  | .strhImm => .armStrhImm cond pp u w p.a p.b (p.c ++ p.d)
  | .strhReg => .armStrhReg cond pp u w p.a p.b p.d
  | .ldrhImm => .armLdrhImm cond pp u w p.a p.b (p.c ++ p.d)
  | .ldrhReg => .armLdrhReg cond pp u w p.a p.b p.d
  | .ldrsbImm => .armLdrsbImm cond pp u w p.a p.b (p.c ++ p.d)
  | .ldrsbReg => .armLdrsbReg cond pp u w p.a p.b p.d
  | .ldrshImm => .armLdrshImm cond pp u w p.a p.b (p.c ++ p.d)
  | .ldrshReg => .armLdrshReg cond pp u w p.a p.b p.d
  | .unpredHalfwordReg => .armUnpredHalfwordReg cond p.body
  | .mrs => .armMrs cond (p.opBit 2) p.b
  | .msrReg => .armMsrReg cond (p.opBit 2) p.a p.d
  | .unpredMrs => .armUnpredMrs cond p.body
  | .unpredMsrReg => .armUnpredMsrReg cond p.body
  | .undefCompareReg => .armUndefCompareReg cond p.body
  | .msrImm => .armMsrImm cond (p.opBit 2) p.a p.c (p.lo ++ p.d)
  | .unpredMsrImm => .armUnpredMsrImm cond p.body
  | .undefCompareImm => .armUndefCompareImm cond p.body
  | .and => .armAnd cond s p.a p.b p.operand2
  | .eor => .armEor cond s p.a p.b p.operand2
  | .sub => .armSub cond s p.a p.b p.operand2
  | .rsb => .armRsb cond s p.a p.b p.operand2
  | .add => .armAdd cond s p.a p.b p.operand2
  | .adc => .armAdc cond s p.a p.b p.operand2
  | .sbc => .armSbc cond s p.a p.b p.operand2
  | .rsc => .armRsc cond s p.a p.b p.operand2
  | .tst => .armTst cond p.a p.b p.operand2
  | .teq => .armTeq cond p.a p.b p.operand2
  | .cmp => .armCmp cond p.a p.b p.operand2
  | .cmn => .armCmn cond p.a p.b p.operand2
  | .orr => .armOrr cond s p.a p.b p.operand2
  | .mov => .armMov cond s p.a p.b p.operand2
  | .bic => .armBic cond s p.a p.b p.operand2
  | .mvn => .armMvn cond s p.a p.b p.operand2
  | .undefA14 => .armUndefA14 cond p.body
  | .ldrt => .armLdrt cond u p.a p.b p.offset
  | .strt => .armStrt cond u p.a p.b p.offset
  | .ldrbt => .armLdrbt cond u p.a p.b p.offset
  | .strbt => .armStrbt cond u p.a p.b p.offset
  | .ldr => .armLdr cond pp u w p.a p.b p.offset
  | .str => .armStr cond pp u w p.a p.b p.offset
  | .ldrb => .armLdrb cond pp u w p.a p.b p.offset
  | .strb => .armStrb cond pp u w p.a p.b p.offset
  | .ldm => .armLdm cond pp u (p.opBit 2) w p.a (p.b ++ p.c ++ p.lo ++ p.d)
  | .stm => .armStm cond pp u (p.opBit 2) w p.a (p.b ++ p.c ++ p.lo ++ p.d)
  | .b => .armB cond p.low24
  | .bl => .armBl cond p.low24
  | .ldcStc => .armLdcStc cond pp u (p.opBit 2) w s p.a p.b p.c (p.lo ++ p.d)
  | .cdp => .armCdp cond (p.op.extractLsb' 0 4) p.a p.b p.c (p.lo.extractLsb' 1 3) p.d
  | .mcr => .armMcr cond (p.op.extractLsb' 1 3) p.a p.b p.c (p.lo.extractLsb' 1 3) p.d
  | .mrc => .armMrc cond (p.op.extractLsb' 1 3) p.a p.b p.c (p.lo.extractLsb' 1 3) p.d
  | .swi => .armSwi cond p.low24

namespace ThumbParts

/-- Bits 7:0 of the halfword. -/
def low8 (p : ThumbParts) : BitVec 8 := p.k ++ p.m ++ p.l

/-- Bits 10:8 of the halfword. -/
def reg (p : ThumbParts) : LowReg := p.hi.extractLsb' 0 3

/-- Bits 10:6 of the halfword. -/
def imm5 (p : ThumbParts) : BitVec 5 := p.hi.extractLsb' 0 3 ++ p.k

/-- Bits 8:6 of the halfword. -/
def high3 (p : ThumbParts) : BitVec 3 := p.hi.extractLsb' 0 1 ++ p.k

/-- Bits 10:0 of the halfword. -/
def low11 (p : ThumbParts) : BitVec 11 := p.hi.extractLsb' 0 3 ++ p.k ++ p.m ++ p.l

/-- H1 :: Rd/Hd of T5. -/
def hiRd (p : ThumbParts) : RegNum := p.k.extractLsb' 1 1 ++ p.l

/-- H2 :: Rs/Hs of T5. -/
def hiRs (p : ThumbParts) : RegNum := p.k.extractLsb' 0 1 ++ p.m

end ThumbParts

/-- Build the instruction of a row from the halfword's fields (30_encoding R330). -/
def ThumbParts.build (p : ThumbParts) (row : ThumbRow) : Instr :=
  match row with
  | .addReg => .thumbAddReg p.high3 p.m p.l
  | .subReg => .thumbSubReg p.high3 p.m p.l
  | .addImm3 => .thumbAddImm3 p.high3 p.m p.l
  | .subImm3 => .thumbSubImm3 p.high3 p.m p.l
  | .lslImm => .thumbLslImm p.imm5 p.m p.l
  | .lsrImm => .thumbLsrImm p.imm5 p.m p.l
  | .asrImm => .thumbAsrImm p.imm5 p.m p.l
  | .movImm8 => .thumbMovImm8 p.reg p.low8
  | .cmpImm8 => .thumbCmpImm8 p.reg p.low8
  | .addImm8 => .thumbAddImm8 p.reg p.low8
  | .subImm8 => .thumbSubImm8 p.reg p.low8
  | .and => .thumbAnd p.m p.l
  | .eor => .thumbEor p.m p.l
  | .lsl => .thumbLsl p.m p.l
  | .lsr => .thumbLsr p.m p.l
  | .asr => .thumbAsr p.m p.l
  | .adc => .thumbAdc p.m p.l
  | .sbc => .thumbSbc p.m p.l
  | .ror => .thumbRor p.m p.l
  | .tst => .thumbTst p.m p.l
  | .neg => .thumbNeg p.m p.l
  | .cmp => .thumbCmp p.m p.l
  | .cmn => .thumbCmn p.m p.l
  | .orr => .thumbOrr p.m p.l
  | .mul => .thumbMul p.m p.l
  | .bic => .thumbBic p.m p.l
  | .mvn => .thumbMvn p.m p.l
  | .undefBlxReg => .thumbUndefBlxReg (p.k.extractLsb' 0 1 ++ p.m ++ p.l)
  | .bx => .thumbBx p.hiRs p.l
  | .addHi => .thumbAddHi p.hiRd p.hiRs
  | .cmpHi => .thumbCmpHi p.hiRd p.hiRs
  | .movHi => .thumbMovHi p.hiRd p.hiRs
  | .ldrPc => .thumbLdrPc p.reg p.low8
  | .strReg => .thumbStrReg p.high3 p.m p.l
  | .strbReg => .thumbStrbReg p.high3 p.m p.l
  | .ldrReg => .thumbLdrReg p.high3 p.m p.l
  | .ldrbReg => .thumbLdrbReg p.high3 p.m p.l
  | .strhReg => .thumbStrhReg p.high3 p.m p.l
  | .ldrhReg => .thumbLdrhReg p.high3 p.m p.l
  | .ldsb => .thumbLdsb p.high3 p.m p.l
  | .ldsh => .thumbLdsh p.high3 p.m p.l
  | .strImm => .thumbStrImm p.imm5 p.m p.l
  | .ldrImm => .thumbLdrImm p.imm5 p.m p.l
  | .strbImm => .thumbStrbImm p.imm5 p.m p.l
  | .ldrbImm => .thumbLdrbImm p.imm5 p.m p.l
  | .strhImm => .thumbStrhImm p.imm5 p.m p.l
  | .ldrhImm => .thumbLdrhImm p.imm5 p.m p.l
  | .strSp => .thumbStrSp p.reg p.low8
  | .ldrSp => .thumbLdrSp p.reg p.low8
  | .addPc => .thumbAddPc p.reg p.low8
  | .addSp => .thumbAddSp p.reg p.low8
  | .adjustSp => .thumbAdjustSp (p.k.getLsbD 1) (p.k.extractLsb' 0 1 ++ p.m ++ p.l)
  | .push => .thumbPush (p.hi.getLsbD 0) p.low8
  | .pop => .thumbPop (p.hi.getLsbD 0) p.low8
  | .undef1011 => .thumbUndef1011 (p.hi.extractLsb' 0 4 ++ p.k ++ p.m ++ p.l)
  | .stmia => .thumbStmia p.reg p.low8
  | .ldmia => .thumbLdmia p.reg p.low8
  | .swi => .thumbSwi p.low8
  | .undefCond14 => .thumbUndefCond14 p.low8
  | .bCond => .thumbBCond (Cond.ofBits (p.hi.extractLsb' 0 4)) p.low8
  | .b => .thumbB p.low11
  | .undefBlxSuffix => .thumbUndefBlxSuffix p.low11
  | .blFirst => .thumbBlFirst p.low11
  | .blSecond => .thumbBlSecond p.low11

/-! ### Decoding -/

/-- Why bytes are no instruction. Safe: a step refuses them by this name (`Refusal.undecodable`). -/
inductive DecodeError where
  /-- Not 4 bytes in ARM state, not 2 bytes in Thumb state (30_encoding R300). -/
  | wrongLength (n : Nat)
  /-- No row of the opcode table fits. The table covers every word, so no word is answered so. -/
  | noRow
  deriving DecidableEq, Repr

/-- The instruction of an ARM word (30_encoding R320). -/
def decodeArm (w : Word) : Except DecodeError Instr :=
  let p := ArmParts.ofWord w
  match armRow p with
  | some row => .ok (p.build row)
  | none => .error .noRow

/-- The instruction of a Thumb halfword (30_encoding R340). -/
def decodeThumb (h : Half) : Except DecodeError Instr :=
  let p := ThumbParts.ofHalf h
  match thumbRow p with
  | some row => .ok (p.build row)
  | none => .error .noRow

/-- Decode the bytes of one instruction, the lowest address first; `thumb` is CPSR.T (30_encoding R300, R301;
little-endian: 20_memory R216). -/
def decodeBytes (thumb : Bool) (bytes : List Byte) : Except DecodeError Instr :=
  match thumb, bytes with
  | true, [b0, b1] => decodeThumb (b1 ++ b0)
  | false, [b0, b1, b2, b3] => decodeArm (b3 ++ b2 ++ b1 ++ b0)
  | _, bs => .error (.wrongLength bs.length)

/-- The bytes of an instruction of `nbits` bits as the hardware stores it. -/
def tableBytes (nbits w : Nat) : List Byte :=
  if nbits = 16 then [BitVec.ofNat 8 w, BitVec.ofNat 8 (w / 0x100)]
  else [BitVec.ofNat 8 w, BitVec.ofNat 8 (w / 0x100), BitVec.ofNat 8 (w / 0x10000), BitVec.ofNat 8 (w / 0x1000000)]

/-- The host's question: the instruction the decoder reads from an opcode-table word (32 bits: ARM; 16 bits: Thumb). -/
def decodeTableWord (nbits w : Nat) : Option Instr :=
  match decodeBytes (nbits == 16) (tableBytes nbits w) with
  | .ok i => some i
  | .error _ => none

/-! ### Encoding -/

/-- The words of an instruction. -/
inductive Encoded where
  | arm (w : Word)
  | thumb (h : Half)
  deriving DecidableEq, Repr

/-- Decode what `encode` answers. -/
def decodeEncoded : Encoded → Except DecodeError Instr
  | .arm w => decodeArm w
  | .thumb h => decodeThumb h

/-- One bit of a field. -/
def bit (b : Bool) : BitVec 1 := BitVec.ofBool b

/-- An ARM word from its fields (30_encoding R303). -/
def encArm (cond : Cond) (op : BitVec 8) (a b c lo d : BitVec 4) : Encoded :=
  .arm (ArmParts.toWord ⟨cond.toBits, op, a, b, c, lo, d⟩)

/-- A reserved ARM word from its bits 27:0. -/
def encBody (cond : Cond) (body : BitVec 28) : Encoded := .arm (cond.toBits ++ body)

/-- Data processing, formats A1 to A3 (30_encoding R303). -/
def encDp (cond : Cond) (o : DpOp) (s : Bool) (rn rd : RegNum) : Operand2 → Encoded
  | .imm rotate imm8 => encArm cond (0b001#3 ++ o.toBits ++ bit s) rn rd rotate (imm8.extractLsb' 4 4) (imm8.extractLsb' 0 4)
  | .shiftImm ty amount rm =>
    encArm cond (0b000#3 ++ o.toBits ++ bit s) rn rd (amount.extractLsb' 1 4)
      (amount.extractLsb' 0 1 ++ ty.toBits ++ 0#1) rm
  | .shiftReg ty rs rm => encArm cond (0b000#3 ++ o.toBits ++ bit s) rn rd rs (0#1 ++ ty.toBits ++ 1#1) rm

/-- Single data transfer, format A13. -/
def encSdt (cond : Cond) (p u b w l : Bool) (rn rd : RegNum) : Offset → Encoded
  | .imm imm12 =>
    encArm cond (0b010#3 ++ bit p ++ bit u ++ bit b ++ bit w ++ bit l) rn rd (imm12.extractLsb' 8 4)
      (imm12.extractLsb' 4 4) (imm12.extractLsb' 0 4)
  | .reg ty amount rm =>
    encArm cond (0b011#3 ++ bit p ++ bit u ++ bit b ++ bit w ++ bit l) rn rd (amount.extractLsb' 1 4)
      (amount.extractLsb' 0 1 ++ ty.toBits ++ 0#1) rm

/-- Halfword transfer with an immediate offset, format A9; `sh` is Sh :: H. -/
def encHalfImm (cond : Cond) (p u w l : Bool) (sh : BitVec 2) (rn rd : RegNum) (imm8 : BitVec 8) : Encoded :=
  encArm cond (0b000#3 ++ bit p ++ bit u ++ 1#1 ++ bit w ++ bit l) rn rd (imm8.extractLsb' 4 4) (1#1 ++ sh ++ 1#1)
    (imm8.extractLsb' 0 4)

/-- Halfword transfer with a register offset, format A8. -/
def encHalfReg (cond : Cond) (p u w l : Bool) (sh : BitVec 2) (rn rd rm : RegNum) : Encoded :=
  encArm cond (0b000#3 ++ bit p ++ bit u ++ 0#1 ++ bit w ++ bit l) rn rd 0#4 (1#1 ++ sh ++ 1#1) rm

/-- A word whose bits 23:0 are one field: formats A16 and A20. -/
def encLow24 (cond : Cond) (top : BitVec 4) (x : BitVec 24) : Encoded := .arm (cond.toBits ++ top ++ x)

/-- A Thumb halfword from its fields. -/
def encThumb (hi : BitVec 8) (k : BitVec 2) (m l : BitVec 3) : Encoded := .thumb (ThumbParts.toHalf ⟨hi, k, m, l⟩)

/-- Bits 15:11, a 5-bit offset, two registers (T1, T9, T10). -/
def encImm5 (top : BitVec 5) (imm5 : BitVec 5) (m l : LowReg) : Encoded :=
  encThumb (top ++ imm5.extractLsb' 2 3) (imm5.extractLsb' 0 2) m l

/-- Bits 15:9 and three 3-bit fields (T2, T7, T8). -/
def encThree (top : BitVec 7) (x : BitVec 3) (m l : LowReg) : Encoded :=
  encThumb (top ++ x.extractLsb' 2 1) (x.extractLsb' 0 2) m l

/-- Bits 15:8 and an 8-bit field. -/
def encLow8 (hi : BitVec 8) (x : BitVec 8) : Encoded :=
  encThumb hi (x.extractLsb' 6 2) (x.extractLsb' 3 3) (x.extractLsb' 0 3)

/-- Bits 15:11 and an 11-bit field (T18, T19). -/
def encLow11 (top : BitVec 5) (x : BitVec 11) : Encoded :=
  encThumb (top ++ x.extractLsb' 8 3) (x.extractLsb' 6 2) (x.extractLsb' 3 3) (x.extractLsb' 0 3)

/-- T5: operation, H1 :: Hd and H2 :: Hs. -/
def encHi (op : BitVec 2) (rd rm : RegNum) : Encoded :=
  encThumb (0b010001#6 ++ op) (rd.extractLsb' 3 1 ++ rm.extractLsb' 3 1) (rm.extractLsb' 0 3) (rd.extractLsb' 0 3)

/-- The word of an instruction, from the formats of 30_encoding R303 and R330. -/
def encode : Instr → Encoded
  | .armBx cond rm => encArm cond 0b00010010#8 0xF#4 0xF#4 0xF#4 0b0001#4 rm
  | .armMul cond s rd sbz rs rm => encArm cond (0b0000000#7 ++ bit s) rd sbz rs 0b1001#4 rm
  | .armMla cond s rd rn rs rm => encArm cond (0b0000001#7 ++ bit s) rd rn rs 0b1001#4 rm
  | .armUmull cond s hi lo rs rm => encArm cond (0b0000100#7 ++ bit s) hi lo rs 0b1001#4 rm
  | .armUmlal cond s hi lo rs rm => encArm cond (0b0000101#7 ++ bit s) hi lo rs 0b1001#4 rm
  | .armSmull cond s hi lo rs rm => encArm cond (0b0000110#7 ++ bit s) hi lo rs 0b1001#4 rm
  | .armSmlal cond s hi lo rs rm => encArm cond (0b0000111#7 ++ bit s) hi lo rs 0b1001#4 rm
  | .armUmaal cond hi lo rs rm => encArm cond 0b00000100#8 hi lo rs 0b1001#4 rm
  | .armSwp cond rn rd rm => encArm cond 0b00010000#8 rn rd 0#4 0b1001#4 rm
  | .armSwpb cond rn rd rm => encArm cond 0b00010100#8 rn rd 0#4 0b1001#4 rm
  | .armUnpredSwap cond body => encBody cond body
  | .armUndefMultiply cond body => encBody cond body
  | .armUnpredDoubleword cond body => encBody cond body
  | .armStrhImm cond p u w rn rd imm8 => encHalfImm cond p u w false 0b01#2 rn rd imm8
  | .armStrhReg cond p u w rn rd rm => encHalfReg cond p u w false 0b01#2 rn rd rm
  | .armLdrhImm cond p u w rn rd imm8 => encHalfImm cond p u w true 0b01#2 rn rd imm8
  | .armLdrhReg cond p u w rn rd rm => encHalfReg cond p u w true 0b01#2 rn rd rm
  | .armLdrsbImm cond p u w rn rd imm8 => encHalfImm cond p u w true 0b10#2 rn rd imm8
  | .armLdrsbReg cond p u w rn rd rm => encHalfReg cond p u w true 0b10#2 rn rd rm
  | .armLdrshImm cond p u w rn rd imm8 => encHalfImm cond p u w true 0b11#2 rn rd imm8
  | .armLdrshReg cond p u w rn rd rm => encHalfReg cond p u w true 0b11#2 rn rd rm
  | .armUnpredHalfwordReg cond body => encBody cond body
  | .armMrs cond r rd => encArm cond (0b00010#5 ++ bit r ++ 0b00#2) 0xF#4 rd 0#4 0#4 0#4
  | .armMsrReg cond r mask rm => encArm cond (0b00010#5 ++ bit r ++ 0b10#2) mask 0xF#4 0#4 0#4 rm
  | .armUnpredMrs cond body => encBody cond body
  | .armUnpredMsrReg cond body => encBody cond body
  | .armUndefCompareReg cond body => encBody cond body
  | .armMsrImm cond r mask rotate imm8 =>
    encArm cond (0b00110#5 ++ bit r ++ 0b10#2) mask 0xF#4 rotate (imm8.extractLsb' 4 4) (imm8.extractLsb' 0 4)
  | .armUnpredMsrImm cond body => encBody cond body
  | .armUndefCompareImm cond body => encBody cond body
  | .armAnd cond s rn rd op2 => encDp cond .and s rn rd op2
  | .armEor cond s rn rd op2 => encDp cond .eor s rn rd op2
  | .armSub cond s rn rd op2 => encDp cond .sub s rn rd op2
  | .armRsb cond s rn rd op2 => encDp cond .rsb s rn rd op2
  | .armAdd cond s rn rd op2 => encDp cond .add s rn rd op2
  | .armAdc cond s rn rd op2 => encDp cond .adc s rn rd op2
  | .armSbc cond s rn rd op2 => encDp cond .sbc s rn rd op2
  | .armRsc cond s rn rd op2 => encDp cond .rsc s rn rd op2
  | .armTst cond rn sbz op2 => encDp cond .tst true rn sbz op2
  | .armTeq cond rn sbz op2 => encDp cond .teq true rn sbz op2
  | .armCmp cond rn sbz op2 => encDp cond .cmp true rn sbz op2
  | .armCmn cond rn sbz op2 => encDp cond .cmn true rn sbz op2
  | .armOrr cond s rn rd op2 => encDp cond .orr s rn rd op2
  | .armMov cond s sbz rd op2 => encDp cond .mov s sbz rd op2
  | .armBic cond s rn rd op2 => encDp cond .bic s rn rd op2
  | .armMvn cond s sbz rd op2 => encDp cond .mvn s sbz rd op2
  | .armUndefA14 cond body => encBody cond body
  | .armLdrt cond u rn rd off => encSdt cond false u false true true rn rd off
  | .armStrt cond u rn rd off => encSdt cond false u false true false rn rd off
  | .armLdrbt cond u rn rd off => encSdt cond false u true true true rn rd off
  | .armStrbt cond u rn rd off => encSdt cond false u true true false rn rd off
  | .armLdr cond p u w rn rd off => encSdt cond p u false w true rn rd off
  | .armStr cond p u w rn rd off => encSdt cond p u false w false rn rd off
  | .armLdrb cond p u w rn rd off => encSdt cond p u true w true rn rd off
  | .armStrb cond p u w rn rd off => encSdt cond p u true w false rn rd off
  | .armLdm cond p u s w rn list =>
    encArm cond (0b100#3 ++ bit p ++ bit u ++ bit s ++ bit w ++ bit true) rn
      (list.extractLsb' 12 4) (list.extractLsb' 8 4) (list.extractLsb' 4 4) (list.extractLsb' 0 4)
  | .armStm cond p u s w rn list =>
    encArm cond (0b100#3 ++ bit p ++ bit u ++ bit s ++ bit w ++ bit false) rn
      (list.extractLsb' 12 4) (list.extractLsb' 8 4) (list.extractLsb' 4 4) (list.extractLsb' 0 4)
  | .armB cond offset24 => encLow24 cond 0b1010#4 offset24
  | .armBl cond offset24 => encLow24 cond 0b1011#4 offset24
  | .armLdcStc cond p u n w l rn crd cp offset8 =>
    encArm cond (0b110#3 ++ bit p ++ bit u ++ bit n ++ bit w ++ bit l) rn crd cp
      (offset8.extractLsb' 4 4) (offset8.extractLsb' 0 4)
  | .armCdp cond op1 crn crd cp op2 crm => encArm cond (0b1110#4 ++ op1) crn crd cp (op2 ++ 0#1) crm
  | .armMcr cond op1 crn rd cp op2 crm => encArm cond (0b1110#4 ++ op1 ++ 0#1) crn rd cp (op2 ++ 1#1) crm
  | .armMrc cond op1 crn rd cp op2 crm => encArm cond (0b1110#4 ++ op1 ++ 1#1) crn rd cp (op2 ++ 1#1) crm
  | .armSwi cond comment => encLow24 cond 0b1111#4 comment
  | .thumbAddReg rn rs rd => encThree 0b0001100#7 rn rs rd
  | .thumbSubReg rn rs rd => encThree 0b0001101#7 rn rs rd
  | .thumbAddImm3 imm3 rs rd => encThree 0b0001110#7 imm3 rs rd
  | .thumbSubImm3 imm3 rs rd => encThree 0b0001111#7 imm3 rs rd
  | .thumbLslImm imm5 rs rd => encImm5 0b00000#5 imm5 rs rd
  | .thumbLsrImm imm5 rs rd => encImm5 0b00001#5 imm5 rs rd
  | .thumbAsrImm imm5 rs rd => encImm5 0b00010#5 imm5 rs rd
  | .thumbMovImm8 rd imm8 => encLow8 (0b00100#5 ++ rd) imm8
  | .thumbCmpImm8 rd imm8 => encLow8 (0b00101#5 ++ rd) imm8
  | .thumbAddImm8 rd imm8 => encLow8 (0b00110#5 ++ rd) imm8
  | .thumbSubImm8 rd imm8 => encLow8 (0b00111#5 ++ rd) imm8
  | .thumbAnd rs rd => encThumb 0b01000000#8 0b00#2 rs rd
  | .thumbEor rs rd => encThumb 0b01000000#8 0b01#2 rs rd
  | .thumbLsl rs rd => encThumb 0b01000000#8 0b10#2 rs rd
  | .thumbLsr rs rd => encThumb 0b01000000#8 0b11#2 rs rd
  | .thumbAsr rs rd => encThumb 0b01000001#8 0b00#2 rs rd
  | .thumbAdc rs rd => encThumb 0b01000001#8 0b01#2 rs rd
  | .thumbSbc rs rd => encThumb 0b01000001#8 0b10#2 rs rd
  | .thumbRor rs rd => encThumb 0b01000001#8 0b11#2 rs rd
  | .thumbTst rs rd => encThumb 0b01000010#8 0b00#2 rs rd
  | .thumbNeg rs rd => encThumb 0b01000010#8 0b01#2 rs rd
  | .thumbCmp rs rd => encThumb 0b01000010#8 0b10#2 rs rd
  | .thumbCmn rs rd => encThumb 0b01000010#8 0b11#2 rs rd
  | .thumbOrr rs rd => encThumb 0b01000011#8 0b00#2 rs rd
  | .thumbMul rs rd => encThumb 0b01000011#8 0b01#2 rs rd
  | .thumbBic rs rd => encThumb 0b01000011#8 0b10#2 rs rd
  | .thumbMvn rs rd => encThumb 0b01000011#8 0b11#2 rs rd
  | .thumbUndefBlxReg low7 => encLow8 0b01000111#8 (1#1 ++ low7)
  | .thumbBx rm sbz => encThumb 0b01000111#8 (0#1 ++ rm.extractLsb' 3 1) (rm.extractLsb' 0 3) sbz
  | .thumbAddHi rd rm => encHi 0b00#2 rd rm
  | .thumbCmpHi rd rm => encHi 0b01#2 rd rm
  | .thumbMovHi rd rm => encHi 0b10#2 rd rm
  | .thumbLdrPc rd word8 => encLow8 (0b01001#5 ++ rd) word8
  | .thumbStrReg ro rb rd => encThree 0b0101000#7 ro rb rd
  | .thumbStrbReg ro rb rd => encThree 0b0101010#7 ro rb rd
  | .thumbLdrReg ro rb rd => encThree 0b0101100#7 ro rb rd
  | .thumbLdrbReg ro rb rd => encThree 0b0101110#7 ro rb rd
  | .thumbStrhReg ro rb rd => encThree 0b0101001#7 ro rb rd
  | .thumbLdrhReg ro rb rd => encThree 0b0101101#7 ro rb rd
  | .thumbLdsb ro rb rd => encThree 0b0101011#7 ro rb rd
  | .thumbLdsh ro rb rd => encThree 0b0101111#7 ro rb rd
  | .thumbStrImm imm5 rb rd => encImm5 0b01100#5 imm5 rb rd
  | .thumbLdrImm imm5 rb rd => encImm5 0b01101#5 imm5 rb rd
  | .thumbStrbImm imm5 rb rd => encImm5 0b01110#5 imm5 rb rd
  | .thumbLdrbImm imm5 rb rd => encImm5 0b01111#5 imm5 rb rd
  | .thumbStrhImm imm5 rb rd => encImm5 0b10000#5 imm5 rb rd
  | .thumbLdrhImm imm5 rb rd => encImm5 0b10001#5 imm5 rb rd
  | .thumbStrSp rd word8 => encLow8 (0b10010#5 ++ rd) word8
  | .thumbLdrSp rd word8 => encLow8 (0b10011#5 ++ rd) word8
  | .thumbAddPc rd word8 => encLow8 (0b10100#5 ++ rd) word8
  | .thumbAddSp rd word8 => encLow8 (0b10101#5 ++ rd) word8
  | .thumbAdjustSp s sword7 => encLow8 0b10110000#8 (bit s ++ sword7)
  | .thumbPush r list => encLow8 (0b1011010#7 ++ bit r) list
  | .thumbPop r list => encLow8 (0b1011110#7 ++ bit r) list
  | .thumbUndef1011 low12 => encLow8 (0b1011#4 ++ low12.extractLsb' 8 4) (low12.extractLsb' 0 8)
  | .thumbStmia rb list => encLow8 (0b11000#5 ++ rb) list
  | .thumbLdmia rb list => encLow8 (0b11001#5 ++ rb) list
  | .thumbSwi value8 => encLow8 0b11011111#8 value8
  | .thumbUndefCond14 low8 => encLow8 0b11011110#8 low8
  | .thumbBCond cond soffset8 => encLow8 (0b1101#4 ++ cond.toBits) soffset8
  | .thumbB offset11 => encLow11 0b11100#5 offset11
  | .thumbUndefBlxSuffix low11 => encLow11 0b11101#5 low11
  | .thumbBlFirst offset11 => encLow11 0b11110#5 offset11
  | .thumbBlSecond offset11 => encLow11 0b11111#5 offset11

end Sys2Proof
end

