-- ==== Sys2Proof/Machine/Dma.lean ====
section
/-! DEFINITION. The DMA controller: triggers, one whole transfer, completion (61_timers R930-R945). -/

namespace Sys2Proof.Machine

/-- `unit`: true for 32 bits (61_timers R931). -/
def DmaChannel.wide (c : DmaChannel) : Bool := c.cntH.getLsbD 10

/-- `source control` (61_timers R931). -/
def DmaChannel.srcControl (c : DmaChannel) : Nat := (c.cntH.extractLsb' 7 2).toNat

/-- `dest control` (61_timers R931). -/
def DmaChannel.dstControl (c : DmaChannel) : Nat := (c.cntH.extractLsb' 5 2).toNat

/-- `repeat` (61_timers R931). -/
def DmaChannel.repeats (c : DmaChannel) : Bool := c.cntH.getLsbD 9

/-- `irq` (61_timers R931). -/
def DmaChannel.irqEnabled (c : DmaChannel) : Bool := c.cntH.getLsbD 14

/-- FIFO mode: special timing on channels 1 and 2 (61_timers R941, R960). -/
def DmaChannel.fifoMode (c : DmaChannel) (k : Fin 4) : Bool := c.timing == 3 && (k == 1 || k == 2)

/-- `step(control, u)` (61_timers R941). R941 gives control 3 for the destination only; a source steps so where its control
became 3 while the transfer runs (log 34). -/
def dmaStep (control : Nat) (u : Word) : Word :=
  match control with
  | 0 => u
  | 1 => 0#32 - u
  | 2 => 0#32
  | _ => u

/-- An armed channel with the trigger's timing becomes pending (61_timers R936, R937). -/
def DmaChannel.trigger (c : DmaChannel) (timing : Nat) : DmaChannel :=
  if c.enabled && c.timing == timing then { c with pending := true } else c

/-- A VBlank (1) or HBlank (2) trigger reaches every channel (61_timers R936). -/
def triggerDma (timing : Nat) (s : State) : State := { s with dma := s.dma.map (·.trigger timing) }

/-- Does the FIFO's request reach this channel (61_timers R960)? -/
def DmaChannel.fifoTrigger (c : DmaChannel) (k : Fin 4) (fifo : Word) : DmaChannel :=
  if c.enabled && c.fifoMode k && c.dad == fifo then { c with pending := true } else c

/-- A sound FIFO requests data (61_timers R960). -/
def triggerFifo (fifo : Word) (s : State) : State :=
  { s with dma := (s.dma.set 1 (s.dma[1].fifoTrigger 1 fifo)).set 2 (s.dma[2].fifoTrigger 2 fifo) }

/-- The width of a transfer's units (61_timers R940, R941). -/
def dmaWidth (c : DmaChannel) (k : Fin 4) : Width := if c.fifoMode k || c.wide then .word else .half

/-- The number of a transfer's units (61_timers R941). -/
def dmaCount (c : DmaChannel) (k : Fin 4) : Nat := if c.fifoMode k then 4 else c.icount

/-- One unit: read, write, then step both addresses of the channel as it then stands (61_timers R940, R941; log 13).
A source control that the unit's own write made 3 steps the source by `+u`, without a stop (log 34). -/
def dmaUnit (k : Fin 4) (w : Width) (s : State) : State :=
  let v := busRead s w (w.align s.dma[k].isrc)
  let s1 := busWrite s.bump w (w.align s.dma[k].idst) v
  let c := s1.dma[k]
  let u := BitVec.ofNat 32 w.bytes
  s1.setDma k
    { c with
      isrc := c.isrc + dmaStep c.srcControl u
      idst := c.idst + (if c.fifoMode k then 0#32 else dmaStep c.dstControl u) }

/-- `n` units. -/
def dmaUnits (k : Fin 4) (w : Width) : Nat → State → State
  | 0, s => s
  | n + 1, s => dmaUnits k w n (dmaUnit k w s)

/-- `Complete(k)` (61_timers R945). -/
def dmaComplete (k : Fin 4) (s : State) : State :=
  let c := s.dma[k]
  let s1 := if c.irqEnabled then s.requestIrq (8 + k.val) else s
  if !c.repeats || c.timing == 0 then s1.setDma k { c with cntH := c.cntH &&& 0x7FFF#16 }
  else
    s1.setDma k
      { c with
        icount := c.resolvedCount k
        idst := if c.dstControl = 3 then c.dad else c.idst }

/-- `DmaTransfer(k)`: one whole transfer; source control 3 is UNPREDICTABLE (61_timers R941, R942). -/
def dmaTransfer (k : Fin 4) (s : State) : Result :=
  let c := s.dma[k]
  if c.srcControl = 3 then .fault .unpredictable
  else
    let s1 := s.setDma k { c with pending := false }
    .next (dmaComplete k (dmaUnits k (dmaWidth c k) (dmaCount c k) s1))

/-- The lowest-numbered pending channel (61_timers R941; 60 R850). -/
def pendingChannel (s : State) : Option (Fin 4) :=
  if s.dma[0].pending then some 0
  else if s.dma[1].pending then some 1
  else if s.dma[2].pending then some 2
  else if s.dma[3].pending then some 3
  else none

end Sys2Proof.Machine
end

