-- ==== Sys2Proof/Machine/Timers.lean ====
section
/-! DEFINITION. The timers' tick and the sound FIFO clock (61_timers R900-R907, R960). -/

namespace Sys2Proof.Machine

/-- The prescaler's shift: 0, 6, 8 or 10 (61_timers R901). -/
def Timer.shift (t : Timer) : Nat :=
  match t.prescale.toNat with
  | 0 => 0
  | 1 => 6
  | 2 => 8
  | _ => 10

/-- SOUNDCNT_H's high byte, a storage byte (61_timers R960). -/
def soundControlHigh (s : State) : Byte := (Cells.lookup s.ioStore 0x83).getD 0#8

/-- FIFO A is clocked: one byte less, and a request at or below 16 (61_timers R960). -/
def clockFifoA (s : State) : State :=
  let s1 : State := { s with fifoA := s.fifoA - 1 }
  if s1.fifoA ≤ 16 then triggerFifo 0x040000A0#32 s1 else s1

/-- FIFO B is clocked (61_timers R960). -/
def clockFifoB (s : State) : State :=
  let s1 : State := { s with fifoB := s.fifoB - 1 }
  if s1.fifoB ≤ 16 then triggerFifo 0x040000A4#32 s1 else s1

/-- Timer 0 or 1 clocks the FIFOs that select it (61_timers R906, R960). -/
def clockFifos (x : Fin 4) (s : State) : State :=
  let h := soundControlHigh s
  let s1 := if x.val = (h.getLsbD 2).toNat then clockFifoA s else s
  if x.val = (h.getLsbD 6).toNat then clockFifoB s1 else s1

/-- `Overflow(x)` (61_timers R906). -/
def timerOverflow (x : Fin 4) (s : State) : State :=
  let s1 := if s.timers[x].irq then s.requestIrq (3 + x.val) else s
  if x.val < 2 then clockFifos x s1 else s1

/-- One increment of timer `x`; the number of overflows goes up with it (61_timers R905). -/
def timerIncrement (x : Fin 4) (p : State × Nat) : State × Nat :=
  let t := p.1.timers[x]
  if t.count = 0xFFFF#16 then (timerOverflow x (p.1.setTimer x { t with count := t.reload }), p.2 + 1)
  else (p.1.setTimer x { t with count := t.count + 1#16 }, p.2)

/-- `n` increments. -/
def timerIncrements (x : Fin 4) : Nat → State × Nat → State × Nat
  | 0, p => p
  | n + 1, p => timerIncrements x n (timerIncrement x p)

/-- One timer's part of `TimerTick(n)`, given how often the previous timer overflowed (61_timers R904, R905). -/
def timerStep (n : Nat) (x : Fin 4) (p : State × Nat) : State × Nat :=
  let t := p.1.timers[x]
  if t.enable then
    if x ≠ 0 && t.cascade then timerIncrements x p.2 (p.1, 0)
    else
      let total := t.acc + n
      timerIncrements x (total / 2 ^ t.shift) (p.1.setTimer x { t with acc := total % 2 ^ t.shift }, 0)
  else (p.1, 0)

/-- `TimerTick(n)` (61_timers R905). -/
def timerTick (n : Nat) (s : State) : State :=
  (timerStep n 3 (timerStep n 2 (timerStep n 1 (timerStep n 0 (s, 0))))).1

end Sys2Proof.Machine
end

