-- ==== Sys2Proof/Machine/Timing.lean ====
section
/-! DEFINITION. Costs in CPU cycles: one access (20_memory R260-R262), one step (70_reset R1235-R1237), a multiply (42
R511), a DMA transfer (61 R944). They decide device time only (20_memory R263). -/

namespace Sys2Proof.Machine

/-! ### One access -/

/-- A WAITCNT first-access field in cycles (20_memory R262). -/
def firstWait (field : BitVec 2) : Nat :=
  match field.toNat with
  | 0 => 4
  | 1 => 3
  | 2 => 2
  | _ => 8

/-- N cycles of a 16-bit cartridge access (20_memory R262). -/
def romN (waitcnt : Half) (group : Fin 3) : Nat :=
  match group with
  | 0 => 1 + firstWait (waitcnt.extractLsb' 2 2)
  | 1 => 1 + firstWait (waitcnt.extractLsb' 5 2)
  | 2 => 1 + firstWait (waitcnt.extractLsb' 8 2)

/-- S cycles of a 16-bit cartridge access (20_memory R262). -/
def romS (waitcnt : Half) (group : Fin 3) : Nat :=
  match group with
  | 0 => if waitcnt.getLsbD 4 then 2 else 3
  | 1 => if waitcnt.getLsbD 7 then 2 else 5
  | 2 => if waitcnt.getLsbD 10 then 2 else 9

/-- The cost of one access; `seq` for a sequential one (20_memory R261, R262). -/
def accessCost (s : State) (w : Width) (addr : Word) (seq : Bool) : Nat :=
  match regionOf addr with
  | .bios | .iwram | .io | .oam | .unmapped => 1
  | .palette | .vram => if w = .word then 2 else 1
  | .ewram => if w = .word then 6 else 3
  | .rom g =>
    let first := if seq then romS s.waitcnt g else romN s.waitcnt g
    if w = .word then first + romS s.waitcnt g else first
  | .save => 1 + firstWait (s.waitcnt.extractLsb' 0 2)

/-- The width of a fetch. -/
def fetchWidth (s : State) : Width := if s.cpsr.t then .half else .word

/-- The fetch at pc is sequential: the previous fetch address was exactly 4 (Thumb: 2) less (20_memory R260; 10_state
R125); or the step before refilled the pipeline at pc, and its cost holds the non-sequential fetch there (70_reset R1235;
log 10). -/
def fetchSequential (s : State) : Bool := s.lastFetchAddr + s.isize == s.pc || s.refill == some s.pc

/-- `Fs`, where the fetch is sequential (70_reset R1235; 20_memory R260). -/
def costFs (s : State) : Nat := accessCost s (fetchWidth s) s.pc (fetchSequential s)

/-- `Fn` (70_reset R1235). -/
def costFn (s : State) : Nat := accessCost s (fetchWidth s) s.pc false

/-- `Tn + Ts` at the pc and in the state that the step ends in; WAITCNT as the step began (70_reset R1235; log 11). -/
def costRefill (s s' : State) : Nat :=
  accessCost s (fetchWidth s') s'.pc false + accessCost s (fetchWidth s') s'.pc true

/-- `Dn` (70_reset R1235). -/
def costDn (s : State) (w : Width) (addr : Word) : Nat := accessCost s w addr false

/-- `Dn + (n-1) Ds` for `n` words from `start` up, each at its own address. The first access of the transfer is the
non-sequential one: the lowest word for an up-mode, the highest for a down-mode (43 R565, R576; 70_reset R1236). -/
def costBlock (s : State) (up : Bool) (n : Nat) (start : Word) : Nat :=
  let first := if up then 0 else n - 1
  ((List.range n).map fun k => accessCost s .word (start + BitVec.ofNat 32 (4 * k)) (k != first)).sum

/-! ### Step kinds (70_reset R1236)

`s` is the state before the instruction's fetch, `s'` the state after its meaning. -/

/-- The cost of a step in cycles, and whether it holds a pipeline refill, `Tn + Ts` (70_reset R1235). -/
structure StepCost where
  cycles : Nat
  refill : Bool
  deriving DecidableEq, Repr

/-- Cycles, and a refill if the step has one. -/
def costWith (s s' : State) (refill : Bool) (n : Nat) : StepCost := ⟨if refill then n + costRefill s s' else n, refill⟩

/-- One fetch alone. -/
def costFetch (s : State) : StepCost := ⟨costFs s, false⟩

/-- Data processing. -/
def costDp (s s' : State) (regShift writesPc : Bool) : StepCost :=
  costWith s s' writesPc (costFs s + if regShift then 1 else 0)

/-- A multiply: `m + base` internal cycles (42_arm_multiply R511). -/
def costMul (s : State) (multiplier : Word) (base : Nat) : StepCost :=
  let m :=
    if multiplier.toNat < 2 ^ 8 then 1
    else if multiplier.toNat < 2 ^ 16 then 2
    else if multiplier.toNat < 2 ^ 24 then 3
    else 4
  ⟨costFs s + m + base, false⟩

/-- A load of one datum. -/
def costLoad (s s' : State) (w : Width) (addr : Word) (toPc : Bool) : StepCost :=
  costWith s s' toPc (costFs s + costDn s w addr + 1)

/-- A store of one datum. -/
def costStore (s : State) (w : Width) (addr : Word) : StepCost := ⟨costFn s + costDn s w addr, false⟩

/-- LDM, POP, LDMIA. -/
def costLoadBlock (s s' : State) (up : Bool) (n : Nat) (start : Word) (toPc : Bool) : StepCost :=
  costWith s s' toPc (costFs s + costBlock s up n start + 1)

/-- STM, PUSH, STMIA. PUSH takes the order of its ARM equivalent STMDB for the cost, the highest word first, although it
stores upward (45 R731, R745; 70_reset R1236; log 33). -/
def costStoreBlock (s : State) (up : Bool) (n : Nat) (start : Word) : StepCost := ⟨costFn s + costBlock s up n start, false⟩

/-- SWP and SWPB. -/
def costSwap (s : State) (w : Width) (addr : Word) : StepCost :=
  ⟨costFs s + costDn s w addr + costDn s w addr + 1, false⟩

/-- A taken branch, an exception entry. -/
def costBranch (s s' : State) : StepCost := costWith s s' true (costFs s)

/-- An undefined encoding: the entry, or under the NoOp policy one fetch (log 11). -/
def costUndefined (s s' : State) : StepCost :=
  match s.params.invalidOpcode with
  | .undefinedException => costBranch s s'
  | .noOp => costFetch s

/-- An SWI; no emulated function's cost holds a refill, SoftReset's included (70_reset R1236; 46_bios_hle R771). -/
def costSwi (s s' : State) (n : Byte) : StepCost :=
  match s.params.swiHandling with
  | .vector => costBranch s s'
  | .hle => if (hleSelect s n).isSome then ⟨costFs s + 2, false⟩ else costUndefined s s'

/-- A DMA transfer's cost: `2N + 2(n-1)S + 2I` with the regions of the first source and destination
addresses (61_timers R944; log 12). -/
def dmaCost (s : State) (k : Fin 4) : Nat :=
  let c := s.dma[k]
  let w := dmaWidth c k
  let n := dmaCount c k
  accessCost s w c.isrc false + accessCost s w c.idst false
    + (n - 1) * (accessCost s w c.isrc true + accessCost s w c.idst true) + 2

/-- The condition field of an ARM instruction; Thumb instructions always execute (30_encoding R302, R341). -/
def instrCondition : Instr → Cond
  | .armBx cond _ => cond
  | .armMul cond _ _ _ _ _ => cond
  | .armMla cond _ _ _ _ _ => cond
  | .armUmull cond _ _ _ _ _ => cond
  | .armUmlal cond _ _ _ _ _ => cond
  | .armSmull cond _ _ _ _ _ => cond
  | .armSmlal cond _ _ _ _ _ => cond
  | .armUmaal cond _ _ _ _ => cond
  | .armSwp cond _ _ _ => cond
  | .armSwpb cond _ _ _ => cond
  | .armUnpredSwap cond _ => cond
  | .armUndefMultiply cond _ => cond
  | .armUnpredDoubleword cond _ => cond
  | .armStrhImm cond _ _ _ _ _ _ => cond
  | .armStrhReg cond _ _ _ _ _ _ => cond
  | .armLdrhImm cond _ _ _ _ _ _ => cond
  | .armLdrhReg cond _ _ _ _ _ _ => cond
  | .armLdrsbImm cond _ _ _ _ _ _ => cond
  | .armLdrsbReg cond _ _ _ _ _ _ => cond
  | .armLdrshImm cond _ _ _ _ _ _ => cond
  | .armLdrshReg cond _ _ _ _ _ _ => cond
  | .armUnpredHalfwordReg cond _ => cond
  | .armMrs cond _ _ => cond
  | .armMsrReg cond _ _ _ => cond
  | .armUnpredMrs cond _ => cond
  | .armUnpredMsrReg cond _ => cond
  | .armUndefCompareReg cond _ => cond
  | .armMsrImm cond _ _ _ _ => cond
  | .armUnpredMsrImm cond _ => cond
  | .armUndefCompareImm cond _ => cond
  | .armAnd cond _ _ _ _ => cond
  | .armEor cond _ _ _ _ => cond
  | .armSub cond _ _ _ _ => cond
  | .armRsb cond _ _ _ _ => cond
  | .armAdd cond _ _ _ _ => cond
  | .armAdc cond _ _ _ _ => cond
  | .armSbc cond _ _ _ _ => cond
  | .armRsc cond _ _ _ _ => cond
  | .armTst cond _ _ _ => cond
  | .armTeq cond _ _ _ => cond
  | .armCmp cond _ _ _ => cond
  | .armCmn cond _ _ _ => cond
  | .armOrr cond _ _ _ _ => cond
  | .armMov cond _ _ _ _ => cond
  | .armBic cond _ _ _ _ => cond
  | .armMvn cond _ _ _ _ => cond
  | .armUndefA14 cond _ => cond
  | .armLdrt cond _ _ _ _ => cond
  | .armStrt cond _ _ _ _ => cond
  | .armLdrbt cond _ _ _ _ => cond
  | .armStrbt cond _ _ _ _ => cond
  | .armLdr cond _ _ _ _ _ _ => cond
  | .armStr cond _ _ _ _ _ _ => cond
  | .armLdrb cond _ _ _ _ _ _ => cond
  | .armStrb cond _ _ _ _ _ _ => cond
  | .armLdm cond _ _ _ _ _ _ => cond
  | .armStm cond _ _ _ _ _ _ => cond
  | .armB cond _ => cond
  | .armBl cond _ => cond
  | .armLdcStc cond _ _ _ _ _ _ _ _ _ => cond
  | .armCdp cond _ _ _ _ _ _ => cond
  | .armMcr cond _ _ _ _ _ _ => cond
  | .armMrc cond _ _ _ _ _ _ => cond
  | .armSwi cond _ => cond
  | .thumbAddReg _ _ _ => .al
  | .thumbSubReg _ _ _ => .al
  | .thumbAddImm3 _ _ _ => .al
  | .thumbSubImm3 _ _ _ => .al
  | .thumbLslImm _ _ _ => .al
  | .thumbLsrImm _ _ _ => .al
  | .thumbAsrImm _ _ _ => .al
  | .thumbMovImm8 _ _ => .al
  | .thumbCmpImm8 _ _ => .al
  | .thumbAddImm8 _ _ => .al
  | .thumbSubImm8 _ _ => .al
  | .thumbAnd _ _ => .al
  | .thumbEor _ _ => .al
  | .thumbLsl _ _ => .al
  | .thumbLsr _ _ => .al
  | .thumbAsr _ _ => .al
  | .thumbAdc _ _ => .al
  | .thumbSbc _ _ => .al
  | .thumbRor _ _ => .al
  | .thumbTst _ _ => .al
  | .thumbNeg _ _ => .al
  | .thumbCmp _ _ => .al
  | .thumbCmn _ _ => .al
  | .thumbOrr _ _ => .al
  | .thumbMul _ _ => .al
  | .thumbBic _ _ => .al
  | .thumbMvn _ _ => .al
  | .thumbUndefBlxReg _ => .al
  | .thumbBx _ _ => .al
  | .thumbAddHi _ _ => .al
  | .thumbCmpHi _ _ => .al
  | .thumbMovHi _ _ => .al
  | .thumbLdrPc _ _ => .al
  | .thumbStrReg _ _ _ => .al
  | .thumbStrbReg _ _ _ => .al
  | .thumbLdrReg _ _ _ => .al
  | .thumbLdrbReg _ _ _ => .al
  | .thumbStrhReg _ _ _ => .al
  | .thumbLdrhReg _ _ _ => .al
  | .thumbLdsb _ _ _ => .al
  | .thumbLdsh _ _ _ => .al
  | .thumbStrImm _ _ _ => .al
  | .thumbLdrImm _ _ _ => .al
  | .thumbStrbImm _ _ _ => .al
  | .thumbLdrbImm _ _ _ => .al
  | .thumbStrhImm _ _ _ => .al
  | .thumbLdrhImm _ _ _ => .al
  | .thumbStrSp _ _ => .al
  | .thumbLdrSp _ _ => .al
  | .thumbAddPc _ _ => .al
  | .thumbAddSp _ _ => .al
  | .thumbAdjustSp _ _ => .al
  | .thumbPush _ _ => .al
  | .thumbPop _ _ => .al
  | .thumbUndef1011 _ => .al
  | .thumbStmia _ _ => .al
  | .thumbLdmia _ _ => .al
  | .thumbSwi _ => .al
  | .thumbUndefCond14 _ => .al
  | .thumbBCond _ _ => .al
  | .thumbB _ => .al
  | .thumbUndefBlxSuffix _ => .al
  | .thumbBlFirst _ => .al
  | .thumbBlSecond _ => .al

/-- The cost of an instruction whose condition passed, from the state before its fetch and the state it ended in
(70_reset R1236; of a PUSH, log 33). -/
def passedCost (i : Instr) (s s' : State) : StepCost :=
  match i with
  | .armBx _ _ => costBranch s s'
  | .armMul _ _ _ _ rs _ => costMul s (s.x rs) 0
  | .armMla _ _ _ _ rs _ => costMul s (s.x rs) 1
  | .armUmull _ _ _ _ rs _ => costMul s (s.x rs) 1
  | .armUmlal _ _ _ _ rs _ => costMul s (s.x rs) 2
  | .armSmull _ _ _ _ rs _ => costMul s (s.x rs) 1
  | .armSmlal _ _ _ _ rs _ => costMul s (s.x rs) 2
  | .armUmaal _ _ _ _ _ => costFetch s
  | .armSwp _ rn _ _ => costSwap s .word (s.x rn)
  | .armSwpb _ rn _ _ => costSwap s .byte (s.x rn)
  | .armUnpredSwap _ _ => costFetch s
  | .armUndefMultiply _ _ => costUndefined s s'
  | .armUnpredDoubleword _ _ => costFetch s
  | .armStrhImm _ p u _ rn _ imm8 => costStore s .half (transferAddr s p u rn (imm8.setWidth 32))
  | .armStrhReg _ p u _ rn _ rm => costStore s .half (transferAddr s p u rn (s.x rm))
  | .armLdrhImm _ p u _ rn _ imm8 => costLoad s s' .half (transferAddr s p u rn (imm8.setWidth 32)) false
  | .armLdrhReg _ p u _ rn _ rm => costLoad s s' .half (transferAddr s p u rn (s.x rm)) false
  | .armLdrsbImm _ p u _ rn _ imm8 => costLoad s s' .byte (transferAddr s p u rn (imm8.setWidth 32)) false
  | .armLdrsbReg _ p u _ rn _ rm => costLoad s s' .byte (transferAddr s p u rn (s.x rm)) false
  | .armLdrshImm _ p u _ rn _ imm8 => costLoad s s' .half (transferAddr s p u rn (imm8.setWidth 32)) false
  | .armLdrshReg _ p u _ rn _ rm => costLoad s s' .half (transferAddr s p u rn (s.x rm)) false
  | .armUnpredHalfwordReg _ _ => costFetch s
  | .armMrs _ _ _ => costFetch s
  | .armMsrReg _ _ _ _ => costFetch s
  | .armUnpredMrs _ _ => costFetch s
  | .armUnpredMsrReg _ _ => costFetch s
  | .armUndefCompareReg _ _ => costUndefined s s'
  | .armMsrImm _ _ _ _ _ => costFetch s
  | .armUnpredMsrImm _ _ => costFetch s
  | .armUndefCompareImm _ _ => costUndefined s s'
  | .armAnd _ _ _ rd op2 => costDp s s' (isRegShift op2) (rd == 15#4)
  | .armEor _ _ _ rd op2 => costDp s s' (isRegShift op2) (rd == 15#4)
  | .armSub _ _ _ rd op2 => costDp s s' (isRegShift op2) (rd == 15#4)
  | .armRsb _ _ _ rd op2 => costDp s s' (isRegShift op2) (rd == 15#4)
  | .armAdd _ _ _ rd op2 => costDp s s' (isRegShift op2) (rd == 15#4)
  | .armAdc _ _ _ rd op2 => costDp s s' (isRegShift op2) (rd == 15#4)
  | .armSbc _ _ _ rd op2 => costDp s s' (isRegShift op2) (rd == 15#4)
  | .armRsc _ _ _ rd op2 => costDp s s' (isRegShift op2) (rd == 15#4)
  | .armTst _ _ _ op2 => costDp s s' (isRegShift op2) false
  | .armTeq _ _ _ op2 => costDp s s' (isRegShift op2) false
  | .armCmp _ _ _ op2 => costDp s s' (isRegShift op2) false
  | .armCmn _ _ _ op2 => costDp s s' (isRegShift op2) false
  | .armOrr _ _ _ rd op2 => costDp s s' (isRegShift op2) (rd == 15#4)
  | .armMov _ _ _ rd op2 => costDp s s' (isRegShift op2) (rd == 15#4)
  | .armBic _ _ _ rd op2 => costDp s s' (isRegShift op2) (rd == 15#4)
  | .armMvn _ _ _ rd op2 => costDp s s' (isRegShift op2) (rd == 15#4)
  | .armUndefA14 _ _ => costUndefined s s'
  | .armLdrt _ u rn rd off => costLoad s s' .word (transferAddr s false u rn (offsetValue s off)) (rd == 15#4)
  | .armStrt _ u rn _ off => costStore s .word (transferAddr s false u rn (offsetValue s off))
  | .armLdrbt _ u rn _ off => costLoad s s' .byte (transferAddr s false u rn (offsetValue s off)) false
  | .armStrbt _ u rn _ off => costStore s .byte (transferAddr s false u rn (offsetValue s off))
  | .armLdr _ p u _ rn rd off => costLoad s s' .word (transferAddr s p u rn (offsetValue s off)) (rd == 15#4)
  | .armStr _ p u _ rn _ off => costStore s .word (transferAddr s p u rn (offsetValue s off))
  | .armLdrb _ p u _ rn _ off => costLoad s s' .byte (transferAddr s p u rn (offsetValue s off)) false
  | .armStrb _ p u _ rn _ off => costStore s .byte (transferAddr s p u rn (offsetValue s off))
  | .armLdm _ p u _ _ rn list =>
    costLoadBlock s s' u (listCount list) (blockStart p u (s.x rn) (listCount list)) (list.getLsbD 15)
  | .armStm _ p u _ _ rn list => costStoreBlock s u (listCount list) (blockStart p u (s.x rn) (listCount list))
  | .armB _ _ => costBranch s s'
  | .armBl _ _ => costBranch s s'
  | .armLdcStc _ _ _ _ _ _ _ _ _ _ => costUndefined s s'
  | .armCdp _ _ _ _ _ _ _ => costUndefined s s'
  | .armMcr _ _ _ _ _ _ _ => costUndefined s s'
  | .armMrc _ _ _ _ _ _ _ => costUndefined s s'
  | .armSwi _ comment => costSwi s s' (armSwiNumber s comment)
  | .thumbAddReg _ _ _ => costDp s s' false false
  | .thumbSubReg _ _ _ => costDp s s' false false
  | .thumbAddImm3 _ _ _ => costDp s s' false false
  | .thumbSubImm3 _ _ _ => costDp s s' false false
  | .thumbLslImm _ _ _ => costDp s s' false false
  | .thumbLsrImm _ _ _ => costDp s s' false false
  | .thumbAsrImm _ _ _ => costDp s s' false false
  | .thumbMovImm8 _ _ => costDp s s' false false
  | .thumbCmpImm8 _ _ => costDp s s' false false
  | .thumbAddImm8 _ _ => costDp s s' false false
  | .thumbSubImm8 _ _ => costDp s s' false false
  | .thumbAnd _ _ => costDp s s' false false
  | .thumbEor _ _ => costDp s s' false false
  | .thumbLsl _ _ => costDp s s' true false
  | .thumbLsr _ _ => costDp s s' true false
  | .thumbAsr _ _ => costDp s s' true false
  | .thumbAdc _ _ => costDp s s' false false
  | .thumbSbc _ _ => costDp s s' false false
  | .thumbRor _ _ => costDp s s' true false
  | .thumbTst _ _ => costDp s s' false false
  | .thumbNeg _ _ => costDp s s' false false
  | .thumbCmp _ _ => costDp s s' false false
  | .thumbCmn _ _ => costDp s s' false false
  | .thumbOrr _ _ => costDp s s' false false
  | .thumbMul _ rd => costMul s (s.x (lowReg rd)) 0
  | .thumbBic _ _ => costDp s s' false false
  | .thumbMvn _ _ => costDp s s' false false
  | .thumbUndefBlxReg _ => costUndefined s s'
  | .thumbBx _ _ => costBranch s s'
  | .thumbAddHi rd _ => costDp s s' false (rd == 15#4)
  | .thumbCmpHi _ _ => costDp s s' false false
  | .thumbMovHi rd _ => costDp s s' false (rd == 15#4)
  | .thumbLdrPc _ word8 => costLoad s s' .word (pcRelative s word8) false
  | .thumbStrReg ro rb _ => costStore s .word (s.x (lowReg rb) + s.x (lowReg ro))
  | .thumbStrbReg ro rb _ => costStore s .byte (s.x (lowReg rb) + s.x (lowReg ro))
  | .thumbLdrReg ro rb _ => costLoad s s' .word (s.x (lowReg rb) + s.x (lowReg ro)) false
  | .thumbLdrbReg ro rb _ => costLoad s s' .byte (s.x (lowReg rb) + s.x (lowReg ro)) false
  | .thumbStrhReg ro rb _ => costStore s .half (s.x (lowReg rb) + s.x (lowReg ro))
  | .thumbLdrhReg ro rb _ => costLoad s s' .half (s.x (lowReg rb) + s.x (lowReg ro)) false
  | .thumbLdsb ro rb _ => costLoad s s' .byte (s.x (lowReg rb) + s.x (lowReg ro)) false
  | .thumbLdsh ro rb _ => costLoad s s' .half (s.x (lowReg rb) + s.x (lowReg ro)) false
  | .thumbStrImm imm5 rb _ => costStore s .word (s.x (lowReg rb) + imm5Offset imm5 4)
  | .thumbLdrImm imm5 rb _ => costLoad s s' .word (s.x (lowReg rb) + imm5Offset imm5 4) false
  | .thumbStrbImm imm5 rb _ => costStore s .byte (s.x (lowReg rb) + imm5Offset imm5 1)
  | .thumbLdrbImm imm5 rb _ => costLoad s s' .byte (s.x (lowReg rb) + imm5Offset imm5 1) false
  | .thumbStrhImm imm5 rb _ => costStore s .half (s.x (lowReg rb) + imm5Offset imm5 2)
  | .thumbLdrhImm imm5 rb _ => costLoad s s' .half (s.x (lowReg rb) + imm5Offset imm5 2) false
  | .thumbStrSp _ word8 => costStore s .word (s.x 13#4 + word8Offset word8)
  | .thumbLdrSp _ word8 => costLoad s s' .word (s.x 13#4 + word8Offset word8) false
  | .thumbAddPc _ _ => costDp s s' false false
  | .thumbAddSp _ _ => costDp s s' false false
  | .thumbAdjustSp _ _ => costDp s s' false false
  | .thumbPush r list =>
    let n := (pushRegs list r 14#4).length
    costStoreBlock s false n (s.x 13#4 - BitVec.ofNat 32 (4 * n))
  | .thumbPop r list => costLoadBlock s s' true (pushRegs list r 15#4).length (s.x 13#4) r
  | .thumbUndef1011 _ => costUndefined s s'
  | .thumbStmia rb list => costStoreBlock s true (lowListRegs list).length (s.x (lowReg rb))
  | .thumbLdmia rb list => costLoadBlock s s' true (lowListRegs list).length (s.x (lowReg rb)) false
  | .thumbSwi value8 => costSwi s s' value8
  | .thumbUndefCond14 _ => costUndefined s s'
  | .thumbBCond cond _ => if conditionPassed s.cpsr cond then costBranch s s' else costFetch s
  | .thumbB _ => costBranch s s'
  | .thumbUndefBlxSuffix _ => costUndefined s s'
  | .thumbBlFirst _ => costFetch s
  | .thumbBlSecond _ => costBranch s s'

/-- The cost of an instruction (70_reset R1236). -/
def instrCost (i : Instr) (s s' : State) : StepCost :=
  if conditionPassed s.cpsr (instrCondition i) then passedCost i s s' else costFetch s

/-- The cost of an IRQ entry step (70_reset R1237). -/
def irqCost (s s' : State) : StepCost := costBranch s s'

end Sys2Proof.Machine
end

