-- ==== Sys2Proof/Machine/Render.lean ====
section
/-! DEFINITION. The scanline compositor: backgrounds, objects, windows, precedence, the colour effect, and the output
format (62_ppu R1040-R1140). `renderLine` is a function of the state; it changes nothing (R1141). -/

namespace Sys2Proof.Machine

/-! ### Video memory as the PPU reads it -/

/-- A byte of VRAM (62_ppu R1045). -/
def vram8 (s : State) (o : Nat) : Byte := Memory.get s.mem (vramBase + o)

/-- A background fetch of a byte: 0 at or above 0x10000 (62_ppu R1046). -/
def bgFetch8 (s : State) (o : Nat) : Byte := if 0x10000 ≤ o then 0#8 else vram8 s o

/-- A background fetch of a map entry (62_ppu R1046). -/
def bgFetch16 (s : State) (o : Nat) : Half :=
  if 0x10000 ≤ o then 0#16 else vram8 s (o + 1) ++ vram8 s o

/-- A palette entry at a palette RAM offset; bit 15 is ignored (62_ppu R1040). -/
def paletteEntry (s : State) (base i : Nat) : Half :=
  (Memory.get s.mem (paletteBase + base + 2 * i + 1) ++ Memory.get s.mem (paletteBase + base + 2 * i)) &&& 0x7FFF#16

/-- `BGPAL[i]` (62_ppu R1041). -/
def bgColour (s : State) (i : Nat) : Half := paletteEntry s 0 i

/-- `OBJPAL[i]` (62_ppu R1083). -/
def objColour (s : State) (i : Nat) : Half := paletteEntry s 0x200 i

/-- A halfword of OAM (62_ppu R1080). -/
def oam16 (s : State) (o : Nat) : Half := Memory.get s.mem (oamBase + o + 1) ++ Memory.get s.mem (oamBase + o)

/-- A field of a halfword as a number. -/
def fieldNat (h : Half) (lo n : Nat) : Nat := (h.extractLsb' lo n).toNat

/-- Nibble of a 4-bpp byte: the high one for an odd column (62_ppu R1057). -/
def nibble (b : Byte) (column : Nat) : Nat := if column % 2 = 1 then (b.extractLsb' 4 4).toNat else (b.extractLsb' 0 4).toNat

/-- A palette index to a colour; 0 is transparent (62_ppu R1041). -/
def indexed (colourOf : Nat → Half) (bank c : Nat) : Option Half := if c = 0 then none else some (colourOf (16 * bank + c))

/-! ### Backgrounds -/

/-- The kinds of 62_ppu R1050. -/
inductive BgKind where
  | text | affine | bitmap3 | bitmap4 | bitmap5
  deriving DecidableEq, Repr

/-- The background mode (62_ppu R1010). -/
def bgMode (s : State) : Nat := fieldNat s.ppu.dispcnt 0 3

/-- The mode table; modes 6 and 7 display no background (62_ppu R1050, R1051). -/
def bgKind (mode : Nat) (k : Fin 4) : Option BgKind :=
  match mode, k with
  | 0, _ => some .text
  | 1, 0 => some .text
  | 1, 1 => some .text
  | 1, 2 => some .affine
  | 2, 2 => some .affine
  | 2, 3 => some .affine
  | 3, 2 => some .bitmap3
  | 4, 2 => some .bitmap4
  | 5, 2 => some .bitmap5
  | _, _ => none

/-- Truncate a coordinate to a mosaic grid (62_ppu R1058). -/
def mosaicTruncate (v size : Nat) : Nat := v - v % (size + 1)

/-- The horizontal mosaic of a background (62_ppu R1058). -/
def mosaicX (s : State) (k : Fin 4) (x : Nat) : Nat :=
  if s.ppu.bg[k].cnt.getLsbD 6 then mosaicTruncate x (fieldNat s.ppu.mosaic 0 4) else x

/-- The vertical mosaic of a text background (62_ppu R1058). -/
def mosaicY (s : State) (k : Fin 4) (y : Nat) : Nat :=
  if s.ppu.bg[k].cnt.getLsbD 6 then mosaicTruncate y (fieldNat s.ppu.mosaic 4 4) else y

/-- The screen block of the 256x256 screen (sx, sy) (62_ppu R1056). -/
def screenBlock (size sx sy : Nat) : Nat :=
  match size with
  | 0 => 0
  | 1 => sx
  | 2 => sy
  | _ => sx + 2 * sy

/-- A text background's pixel (62_ppu R1057). -/
def textPixel (s : State) (k : Fin 4) (x y : Nat) : Option Half :=
  let b := s.ppu.bg[k]
  let size := fieldNat b.cnt 14 2
  let width := if size % 2 = 1 then 512 else 256
  let height := if 2 ≤ size then 512 else 256
  let px := (mosaicX s k x + b.hofs.toNat) % width
  let py := (mosaicY s k y + b.vofs.toNat) % height
  let blk := fieldNat b.cnt 8 5 + screenBlock size (px / 256) (py / 256)
  let e := bgFetch16 s (blk * 0x800 + 2 * ((py % 256) / 8 * 32 + (px % 256) / 8))
  let fx := if e.getLsbD 10 then 7 - px % 8 else px % 8
  let fy := if e.getLsbD 11 then 7 - py % 8 else py % 8
  let base := fieldNat b.cnt 2 2 * 0x4000
  let tile := fieldNat e 0 10
  if b.cnt.getLsbD 7 then
    indexed (bgColour s) 0 (bgFetch8 s (base + 64 * tile + 8 * fy + fx)).toNat
  else
    indexed (bgColour s) (fieldNat e 12 4) (nibble (bgFetch8 s (base + 32 * tile + 4 * fy + fx / 2)) fx)

/-- The affine registers of background `k`: BG3's for 3, else BG2's. -/
def affineOf (s : State) (k : Fin 4) : Affine := if k = 3 then s.ppu.aff3 else s.ppu.aff2

/-- `AffineCoord` with the mosaic applied to x first; exact integers (62_ppu R1061). -/
def affineCoord (s : State) (k : Fin 4) (x : Nat) : Int × Int :=
  let a := affineOf s k
  let mx : Int := (mosaicX s k x : Nat)
  ((a.refX.toInt + a.pa.toInt * mx) >>> 8, (a.refY.toInt + a.pc.toInt * mx) >>> 8)

/-- A coordinate inside `[0, limit)`. -/
def inRange (v : Int) (limit : Nat) : Bool := decide (0 ≤ v) && decide (v < limit)

/-- An affine background's pixel (62_ppu R1060, R1061). -/
def affinePixel (s : State) (k : Fin 4) (x : Nat) : Option Half :=
  let cnt := s.ppu.bg[k].cnt
  let side := 128 * 2 ^ fieldNat cnt 14 2
  let p := affineCoord s k x
  if inRange p.1 side && inRange p.2 side || cnt.getLsbD 13 then
    let tx := (p.1 % (side : Int)).toNat
    let ty := (p.2 % (side : Int)).toNat
    let t := bgFetch8 s (fieldNat cnt 8 5 * 0x800 + ty / 8 * (side / 8) + tx / 8)
    indexed (bgColour s) 0 (bgFetch8 s (fieldNat cnt 2 2 * 0x4000 + 64 * t.toNat + 8 * (ty % 8) + tx % 8)).toNat
  else none

/-- The frame base of modes 4 and 5 (62_ppu R1064). -/
def frameBase (s : State) : Nat := if s.ppu.dispcnt.getLsbD 4 then 0xA000 else 0

/-- A bitmap of `w` x `h` pixels: the pixel number under screen column x, none outside (62_ppu R1063-R1066). -/
def bitmapIndex (s : State) (x w h : Nat) : Option Nat :=
  let p := affineCoord s 2 x
  if inRange p.1 w && inRange p.2 h then some (p.2.toNat * w + p.1.toNat) else none

/-- A 15-bit colour in VRAM. -/
def directColour (s : State) (o : Nat) : Half := (vram8 s (o + 1) ++ vram8 s o) &&& 0x7FFF#16

/-- A mode-3 pixel (62_ppu R1063). -/
def bitmap3Pixel (s : State) (x : Nat) : Option Half :=
  (bitmapIndex s x 240 160).map fun i => directColour s (2 * i)

/-- A mode-4 pixel (62_ppu R1064). -/
def bitmap4Pixel (s : State) (x : Nat) : Option Half :=
  (bitmapIndex s x 240 160).bind fun i => indexed (bgColour s) 0 (vram8 s (frameBase s + i)).toNat

/-- A mode-5 pixel (62_ppu R1066). -/
def bitmap5Pixel (s : State) (x : Nat) : Option Half :=
  (bitmapIndex s x 160 128).bind fun i =>
    match s.params.mode5Format with
    | .paletteIndex8 => indexed (bgColour s) 0 (vram8 s (frameBase s + i)).toNat
    | .direct15 => some (directColour s (frameBase s + 2 * i))

/-- A background's pixel, if the layer is displayed (62_ppu R1050). -/
def bgPixel (s : State) (k : Fin 4) (x y : Nat) : Option Half :=
  if s.ppu.dispcnt.getLsbD (8 + k.val) then
    match bgKind (bgMode s) k with
    | none => none
    | some .text => textPixel s k x y
    | some .affine => affinePixel s k x
    | some .bitmap3 => bitmap3Pixel s x
    | some .bitmap4 => bitmap4Pixel s x
    | some .bitmap5 => bitmap5Pixel s x
  else none

/-! ### Objects -/

/-- An OAM entry's attributes (62_ppu R1080). -/
structure ObjEntry where
  a0 : Half
  a1 : Half
  a2 : Half
  deriving DecidableEq, Repr

/-- OAM entry `n`. -/
def objEntry (s : State) (n : Nat) : ObjEntry := ⟨oam16 s (8 * n), oam16 s (8 * n + 2), oam16 s (8 * n + 4)⟩

namespace ObjEntry

def affine (o : ObjEntry) : Bool := o.a0.getLsbD 8
def mode (o : ObjEntry) : Nat := fieldNat o.a0 10 2
def shape (o : ObjEntry) : Nat := fieldNat o.a0 14 2
def size (o : ObjEntry) : Nat := fieldNat o.a1 14 2
def priority (o : ObjEntry) : Nat := fieldNat o.a2 10 2
def colours256 (o : ObjEntry) : Bool := o.a0.getLsbD 13

/-- Width (62_ppu R1081). -/
def width (o : ObjEntry) : Nat :=
  match o.shape, o.size with
  | 0, n => 8 * 2 ^ n
  | 1, 0 => 16 | 1, 1 => 32 | 1, 2 => 32 | 1, _ => 64
  | _, 0 => 8 | _, 1 => 8 | _, 2 => 16 | _, _ => 32

/-- Height (62_ppu R1081). -/
def height (o : ObjEntry) : Nat :=
  match o.shape, o.size with
  | 0, n => 8 * 2 ^ n
  | 1, 0 => 8 | 1, 1 => 8 | 1, 2 => 16 | 1, _ => 32
  | _, 0 => 16 | _, 1 => 32 | _, 2 => 32 | _, _ => 64

/-- Displayed at all: shape 3, mode 3 and disabled objects are not (62_ppu R1081, R1082). -/
def displayed (o : ObjEntry) : Bool := o.shape != 3 && o.mode != 3 && (o.affine || !o.a0.getLsbD 9)

/-- Is the box doubled (62_ppu R1082)? -/
def doubled (o : ObjEntry) : Bool := o.affine && o.a0.getLsbD 9

/-- The box width (62_ppu R1082). -/
def boxW (o : ObjEntry) : Nat := if o.doubled then 2 * o.width else o.width

/-- The box height (62_ppu R1082). -/
def boxH (o : ObjEntry) : Nat := if o.doubled then 2 * o.height else o.height

/-- The column inside the box, modulo 512 (62_ppu R1082). -/
def boxX (o : ObjEntry) (x : Nat) : Nat := (x + 512 - fieldNat o.a1 0 9) % 512

/-- The line inside the box, modulo 256 (62_ppu R1082). -/
def boxY (o : ObjEntry) (y : Nat) : Nat := (y + 256 - fieldNat o.a0 0 8) % 256

/-- Does the box cover the screen pixel (62_ppu R1082)? -/
def covers (o : ObjEntry) (x y : Nat) : Bool := decide (o.boxX x < o.boxW) && decide (o.boxY y < o.boxH)

end ObjEntry

/-- `ObjTexel` (62_ppu R1083). -/
def objTexel (s : State) (o : ObjEntry) (ox oy : Nat) : Option Half :=
  let k := if o.colours256 then 2 else 1
  let tile := fieldNat o.a2 0 10
  let unit :=
    if s.ppu.dispcnt.getLsbD 6 then tile + (oy / 8 * (o.width / 8) + ox / 8) * k
    else tile + oy / 8 * 32 + ox / 8 * k
  let off :=
    0x10000 + (if o.colours256 then 32 * unit + 8 * (oy % 8) + ox % 8 else 32 * unit + 4 * (oy % 8) + ox % 8 / 2) % 0x8000
  let mode := bgMode s
  if 3 ≤ mode ∧ mode ≤ 5 ∧ off < 0x14000 then none
  else if o.colours256 then indexed (objColour s) 0 (vram8 s off).toNat
  else indexed (objColour s) (fieldNat o.a2 12 4) (nibble (vram8 s off) ox)

/-- The affine object's texture coordinate (62_ppu R1085). -/
def objAffineCoord (s : State) (o : ObjEntry) (bx bY : Nat) : Int × Int :=
  let g := fieldNat o.a1 9 5
  let pa := (oam16 s (32 * g + 6)).toInt
  let pb := (oam16 s (32 * g + 14)).toInt
  let pc := (oam16 s (32 * g + 22)).toInt
  let pd := (oam16 s (32 * g + 30)).toInt
  let dx : Int := (bx : Int) - ((o.boxW / 2 : Nat) : Int)
  let dy : Int := (bY : Int) - ((o.boxH / 2 : Nat) : Int)
  (((pa * dx + pb * dy) >>> 8) + ((o.width / 2 : Nat) : Int), ((pc * dx + pd * dy) >>> 8) + ((o.height / 2 : Nat) : Int))

/-- An object's pixel at a covered screen position (62_ppu R1084-R1086). -/
def objPixel (s : State) (o : ObjEntry) (x y : Nat) : Option Half :=
  let mosaic := o.a0.getLsbD 12
  let bx := if mosaic then mosaicTruncate (o.boxX x) (fieldNat s.ppu.mosaic 8 4) else o.boxX x
  let bY := if mosaic then mosaicTruncate (o.boxY y) (fieldNat s.ppu.mosaic 12 4) else o.boxY y
  if o.affine then
    let p := objAffineCoord s o bx bY
    if inRange p.1 o.width && inRange p.2 o.height then objTexel s o p.1.toNat p.2.toNat else none
  else
    objTexel s o (if o.a1.getLsbD 12 then o.width - 1 - bx else bx) (if o.a1.getLsbD 13 then o.height - 1 - bY else bY)

/-- The displayed objects that cover line y, lowest number first (62_ppu R1082, R1090). -/
def lineObjects (s : State) (y : Nat) : List ObjEntry :=
  ((List.range 128).map (objEntry s)).filter fun o => o.displayed && decide (o.boxY y < o.boxH)

/-- `ObjSubLayer(p, x, y)`: colour and semi-transparent flag of the lowest-numbered opaque object (62_ppu R1087). -/
def objSubLayer (s : State) (objs : List ObjEntry) (p x y : Nat) : Option (Half × Bool) :=
  objs.findSome? fun o =>
    if o.priority == p && decide (o.mode ≤ 1) && o.covers x y then (objPixel s o x y).map (·, o.mode == 1) else none

/-- The object-window mask at a pixel (62_ppu R1088). -/
def objWindowMask (s : State) (objs : List ObjEntry) (x y : Nat) : Bool :=
  s.ppu.dispcnt.getLsbD 12 && s.ppu.dispcnt.getLsbD 15 &&
    objs.any fun o => o.mode == 2 && o.covers x y && (objPixel s o x y).isSome

/-! ### Windows -/

/-- The span test: `low` inclusive, `high` exclusive, wrapping when low > high (62_ppu R1093). -/
def inSpan (low high v : Nat) : Bool :=
  if low ≤ high then decide (low ≤ v) && decide (v < high) else decide (low ≤ v) || decide (v < high)

/-- The inside test of a window (62_ppu R1093). -/
def insideWindow (h v : Half) (x y : Nat) : Bool :=
  inSpan (fieldNat h 8 8) (fieldNat h 0 8) x && inSpan (fieldNat v 8 8) (fieldNat v 0 8) y

/-- The control set of a pixel (62_ppu R1092, R1094). -/
def controlSet (s : State) (objs : List ObjEntry) (x y : Nat) : BitVec 6 :=
  let d := s.ppu.dispcnt
  let win0 := d.getLsbD 13
  let win1 := d.getLsbD 14
  let objWin := d.getLsbD 15 && d.getLsbD 12
  if !(win0 || win1 || objWin) then 0b111111#6
  else if win0 && insideWindow s.ppu.win0h s.ppu.win0v x y then s.ppu.winin.extractLsb' 0 6
  else if win1 && insideWindow s.ppu.win1h s.ppu.win1v x y then s.ppu.winin.extractLsb' 8 6
  else if objWin && objWindowMask s objs x y then s.ppu.winout.extractLsb' 8 6
  else s.ppu.winout.extractLsb' 0 6

/-! ### Compositing -/

/-- A candidate's kind (62_ppu R1105). -/
inductive LayerKind where
  | background | object | backdrop
  deriving DecidableEq, Repr

/-- A candidate pixel (62_ppu R1105). -/
structure Candidate where
  colour : Half
  priority : Nat
  kind : LayerKind
  index : Nat
  semi : Bool
  deriving DecidableEq, Repr

/-- The kind that wins at equal priority (62_ppu R1112). -/
def winningKind : Config.EqualPriorityWinner → LayerKind
  | .background => .background
  | .object => .object

/-- Precedence (62_ppu R1110). -/
def precedes (winner : LayerKind) (a b : Candidate) : Bool :=
  decide (a.priority < b.priority) ||
    (a.priority == b.priority &&
      ((a.kind == winner && b.kind != winner) || (a.kind == b.kind && decide (a.index < b.index))))

/-- Insert a candidate before the first it precedes. -/
def insertCandidate (winner : LayerKind) (c : Candidate) : List Candidate → List Candidate
  | [] => [c]
  | d :: rest => if precedes winner c d then c :: d :: rest else d :: insertCandidate winner c rest

/-- Sort by precedence (62_ppu R1105, R1110). -/
def sortCandidates (winner : LayerKind) (l : List Candidate) : List Candidate := l.foldl (fun acc c => insertCandidate winner c acc) []

/-- The backdrop (62_ppu R1041, R1105). -/
def backdrop (s : State) : Candidate := ⟨bgColour s 0, 4, .backdrop, 0, false⟩

/-- The opaque candidates of a pixel (62_ppu R1105). -/
def candidates (s : State) (objs : List ObjEntry) (ctl : BitVec 6) (x y : Nat) : List Candidate :=
  let bgs := ([0, 1, 2, 3] : List (Fin 4)).filterMap fun k =>
    if ctl.getLsbD k.val then
      (bgPixel s k x y).map fun c => (⟨c, fieldNat s.ppu.bg[k].cnt 0 2, .background, k.val, false⟩ : Candidate)
    else none
  let objects :=
    if s.ppu.dispcnt.getLsbD 12 && ctl.getLsbD 4 then
      [0, 1, 2, 3].filterMap fun p =>
        (objSubLayer s objs p x y).map fun q => (⟨q.1, p, .object, p, q.2⟩ : Candidate)
    else []
  bgs ++ objects

/-- The target bit of a candidate's layer (62_ppu R1020). -/
def Candidate.layerBit (c : Candidate) : Nat :=
  match c.kind with
  | .background => c.index
  | .object => 4
  | .backdrop => 5

/-- A colour channel: 0 red, 1 green, 2 blue (62_ppu R1040). -/
def channel (c : Half) (i : Nat) : Nat := fieldNat c (5 * i) 5

/-- A colour from a function of each channel. -/
def colourOf (f : Nat → Nat) : Half := 0#1 ++ BitVec.ofNat 5 (f 2) ++ BitVec.ofNat 5 (f 1) ++ BitVec.ofNat 5 (f 0)

/-- A coefficient, clamped to 16 (62_ppu R1121). -/
def coefficient (v : Nat) : Nat := min 16 v

/-- Alpha blending (62_ppu R1121). -/
def alphaBlend (s : State) (top second : Half) : Half :=
  let eva := coefficient (fieldNat s.ppu.bldalpha 0 5)
  let evb := coefficient (fieldNat s.ppu.bldalpha 8 5)
  colourOf fun i => min 31 ((channel top i * eva + channel second i * evb) / 16)

/-- Brightness increase (62_ppu R1122). -/
def brighten (s : State) (top : Half) : Half :=
  let evy := coefficient s.ppu.bldy.toNat
  colourOf fun i => channel top i + (31 - channel top i) * evy / 16

/-- Brightness decrease (62_ppu R1123). -/
def darken (s : State) (top : Half) : Half :=
  let evy := coefficient s.ppu.bldy.toNat
  colourOf fun i => channel top i - channel top i * evy / 16

/-- `Effect(top, second, en)` (62_ppu R1120, R1124). -/
def colourEffect (s : State) (top second : Candidate) (en : Bool) : Half :=
  let e := fieldNat s.ppu.bldcnt 6 2
  let t1 := s.ppu.bldcnt.getLsbD top.layerBit
  let t2 := s.ppu.bldcnt.getLsbD (8 + second.layerBit)
  if !en then top.colour
  else if top.kind == .object && top.semi && t2 then alphaBlend s top.colour second.colour
  else if e == 1 && t1 && t2 then alphaBlend s top.colour second.colour
  else if e == 2 && t1 then brighten s top.colour
  else if e == 3 && t1 then darken s top.colour
  else top.colour

/-- The 15-bit colour of a pixel (62_ppu R1105). -/
def pixelColour (s : State) (objs : List ObjEntry) (x y : Nat) : Half :=
  let ctl := controlSet s objs x y
  let sorted := sortCandidates (winningKind s.params.equalPriorityWinner) (candidates s objs ctl x y) ++ [backdrop s]
  let top := sorted.headD (backdrop s)
  let second := (sorted.drop 1).headD (backdrop s)
  colourEffect s top second (ctl.getLsbD 5)

/-- An 8-bit channel (62_ppu R1140). -/
def expandChannel (v : Nat) : Byte := (BitVec.ofNat 8 v <<< 3) ||| (BitVec.ofNat 8 v >>> 2)

/-- `ColorExpand` (62_ppu R1140). -/
def colorExpand (s : State) (c : Half) : Pixel :=
  match s.params.colorExpand with
  | .standard => ⟨expandChannel (channel c 0), expandChannel (channel c 1), expandChannel (channel c 2), 0xFF#8⟩
  | .supplied n =>
    let p := Config.suppliedColorExpand n c
    ⟨p.1, p.2.1, p.2.2.1, p.2.2.2⟩

/-- Row y as `RenderLine(y)` computes it (62_ppu R1105, R1106). -/
def renderLine (s : State) (y : Nat) : List Pixel :=
  if s.ppu.dispcnt.getLsbD 7 then List.replicate 240 (colorExpand s 0x7FFF#16)
  else
    let objs := lineObjects s y
    (List.range 240).map fun x => colorExpand s (pixelColour s objs x y)

end Sys2Proof.Machine
end

