-- ==== Sys2Proof/Machine/Video.lean ====
section
/-! DEFINITION. Video timing and its events (62_ppu R1003-R1006, R1025, R1026; 61_timers R980). -/

namespace Sys2Proof.Machine

/-- Put a row into a frame. -/
def Frame.setRow : Frame → Nat → List Pixel → Frame
  | [], y, row => [(y, row)]
  | (z, r) :: rest, y, row =>
    if y < z then (y, row) :: (z, r) :: rest
    else if y = z then (y, row) :: rest
    else (z, r) :: Frame.setRow rest y row

/-- The row of a frame; a row never written holds the power-on contents (log 4). -/
def Frame.row (f : Frame) (y : Nat) : List Pixel :=
  match f.find? (fun e => e.1 == y) with
  | some e => e.2
  | none => (List.range 240).map fun x =>
      ⟨Config.initialPixelByte y x 0, Config.initialPixelByte y x 1, Config.initialPixelByte y x 2,
       Config.initialPixelByte y x 3⟩

/-- `AffineAdvance` of one layer (62_ppu R1026). -/
def Affine.advance (a : Affine) : Affine :=
  { a with refX := a.refX + a.pb.signExtend 28, refY := a.refY + a.pd.signExtend 28 }

/-- `AffineReload` of one layer (62_ppu R1025). -/
def Affine.reload (a : Affine) : Affine := { a with refX := a.x, refY := a.y }

/-- `AffineAdvance()` (62_ppu R1026). -/
def affineAdvance (s : State) : State :=
  s.setPpu { s.ppu with aff2 := s.ppu.aff2.advance, aff3 := s.ppu.aff3.advance }

/-- `AffineReload()` (62_ppu R1025). -/
def affineReload (s : State) : State :=
  s.setPpu { s.ppu with aff2 := s.ppu.aff2.reload, aff3 := s.ppu.aff3.reload }

/-- Request an interrupt if it is enabled. -/
def State.requestIf (s : State) (b : Bool) (n : Nat) : State := if b then s.requestIrq n else s

/-- `RenderLine(v)` into the frame buffer (62_ppu R1001, R1005). -/
def renderRow (v : Nat) (s : State) : State := { s with frame := s.frame.setRow v (renderLine s v) }

/-- `HBlankStart(v)` (62_ppu R1005). -/
def hblankStart (v : Nat) (s : State) : State :=
  let s1 := if v < 160 then affineAdvance (renderRow v s) else s
  let s2 := s1.setPpu { s1.ppu with hblank := true }
  let s3 := s2.requestIf s2.ppu.hblankIrq 1
  if v < 160 then triggerDma 2 s3 else s3

/-- KEYINPUT takes the host's state, active low (61_timers R980, R982). -/
def sampleKeys (s : State) : State :=
  keypadCheck { s with keys := { s.keys with keyinput := (~~~s.keys.hostKeys).setWidth 16 } }

/-- The start of VBlank (62_ppu R1005). -/
def vblankStart (s : State) : State :=
  let s1 := s.setPpu { s.ppu with vblank := true }
  let s2 := triggerDma 1 (s1.requestIf s1.ppu.vblankIrq 0)
  { s2 with hostFrame := some s2.frame }

/-- `LineStart(v)` (62_ppu R1005). -/
def lineStart (v : Nat) (s : State) : State :=
  let s1 := s.setPpu { s.ppu with vcount := v, hblank := false }
  let s2 := if v = 160 then vblankStart s1 else s1
  let s3 := if v = 227 then s2.setPpu { s2.ppu with vblank := false } else s2
  let s4 := if v = 0 then sampleKeys (affineReload s3) else s3
  let s5 := s4.setPpu { s4.ppu with vmatch := v == s4.ppu.vcountSetting.toNat }
  s5.requestIf (s5.ppu.vmatch && s5.ppu.vcountIrq) 2

/-- One cycle of `VideoTick` (62_ppu R1004). -/
def videoCycle (s : State) : State :=
  let h := s.ppu.hcycle + 1
  let s1 := s.setPpu { s.ppu with hcycle := h }
  if h = 960 then hblankStart s1.ppu.vcount s1
  else if h = 1232 then
    lineStart ((s1.ppu.vcount + 1) % 228) (s1.setPpu { s1.ppu with hcycle := 0 })
  else s1

/-- `VideoTick(n)` (62_ppu R1004). -/
def videoTick : Nat → State → State
  | 0, s => s
  | n + 1, s => videoTick n (videoCycle s)

end Sys2Proof.Machine
end

