-- ==== Sys2Proof/Machine/System.lean ====
section
/-! DEFINITION. The system step around an instruction: the boundary order, the fetch, device time; and how an
instruction is placed where the next fetch reads it (60_exceptions R840-R850; 30_encoding R301; 70_reset R1230). -/

namespace Sys2Proof.Machine

/-- A pending and enabled interrupt source: `(IE AND IF)[13:0] != 0` (60_exceptions R840, R841). -/
def interruptPending (s : State) : Bool := (s.irq.ie &&& s.irq.iff).extractLsb' 0 14 != 0#14

/-- The CPU takes an IRQ at this boundary (60_exceptions R840). -/
def irqReady (s : State) : Bool := s.irq.ime && interruptPending s && !s.cpsr.i

/-- The halt flag clears at a boundary with a pending, enabled source (60_exceptions R841). -/
def wake (s : State) : State := if s.halt && interruptPending s then { s with halt := false } else s

/-- The timers, then the video, for `n` cycles (60_exceptions R850). -/
def deviceTicks (n : Nat) (s : State) : State := videoTick n (timerTick n s)

/-- `DeviceTick(cost)`: the cost, or under `DeviceTime = Abstract` a free count of at least 1 (70_reset R1230; log 29). -/
def deviceTick (cost : Nat) (s : State) : State :=
  match s.params.deviceTime with
  | .exact => deviceTicks cost s
  | .abstractTime => deviceTicks (Config.freeCount s.draws + 1) s.bump

/-- The end of a step that ran: whether it left the pipeline refilled at its pc, then the tick of its cost
(60_exceptions R850; 70_reset R1235). -/
def endStep (c : StepCost) (s : State) : State := deviceTick c.cycles (s.withRefill (if c.refill then some s.pc else none))

/-- The value of the instruction fetch (30_encoding R301). -/
def fetchValue (s : State) : Word := busRead s (fetchWidth s) s.pc

/-- The fetch's side effects: the pipeline marker, and the free value it may have used (10_state R125). -/
def fetched (s : State) : State :=
  let v := fetchValue s
  { s.bump with
    lastFetchAddr := s.pc
    lastFetchWord := if s.cpsr.t then v.extractLsb' 0 16 ++ v.extractLsb' 0 16 else v }

/-- The instruction a fetched value is, in the state CPSR.T selects (30_encoding R300, R301). -/
def decodeFetched (s : State) (v : Word) : Except DecodeError Instr :=
  if s.cpsr.t then decodeThumb (v.extractLsb' 0 16) else decodeArm v

/-- Execute one instruction at pc and tick the devices by its cost (60_exceptions R850). -/
def instructionStep (run : Instr → State → Result) (s : State) : Result :=
  match decodeFetched s (fetchValue s) with
  | .error _ => .refused .undecodable
  | .ok i =>
    andThen (run i (fetched s)) fun t => .next (endStep (instrCost i s t) t)

/-- The boundary after the wake (60_exceptions R850). -/
def boundaryStep (run : Instr → State → Result) (s : State) : Result :=
  match pendingChannel s with
  | some k => andThen (dmaTransfer k s) fun t => .next (deviceTick (dmaCost s k) t)
  | none =>
    if irqReady s then
      let t := irqEntry s
      .next (endStep (irqCost s t) t)
    else if s.halt then .next (deviceTick 1 s)
    else instructionStep run s

/-- `SystemStep()` over a given meaning of instructions (60_exceptions R850). -/
def runStep (run : Instr → State → Result) (s : State) : Result := boundaryStep run (wake s)

/-! ### Placing an instruction -/

/-- The number of bytes of an instruction. -/
def instrBytes (nbits : Nat) : Nat := if nbits = 16 then 2 else 4

/-- Where the instruction is placed: at pc, aligned, if it is in memory a program can be stored in; else at the
cartridge's entry. -/
def placeAddr (s : State) (nbits : Nat) : Word :=
  let a := if nbits = 16 then alignHalf s.pc else alignWord s.pc
  match regionOf a with
  | .save | .io | .unmapped => 0x08000000#32
  | _ => a

/-- The location of an address for placing, ROM included whatever the image's length. -/
def placeLocation (s : State) (a : Word) : Nat :=
  match regionOf a with
  | .rom _ => romBase + (a &&& 0x1FFFFFF#32).toNat
  | _ => (locationOf s a).getD 0

/-- The image's length that makes `n` bytes at the address part of the image. -/
def placeRomLength (s : State) (a : Word) (n : Nat) : Fin 0x2000001 :=
  match regionOf a with
  | .rom _ => if s.params.romLength.val < (a &&& 0x1FFFFFF#32).toNat + n then
      Fin.ofNat 0x2000001 ((a &&& 0x1FFFFFF#32).toNat + n) else s.params.romLength
  | _ => s.params.romLength

/-- The bytes with their locations, from `k` up. -/
def placedCells : Nat → List Byte → List Host.Cell
  | _, [] => []
  | k, b :: rest => (k, b) :: placedCells (k + 1) rest

/-- The state in which the very next step fetches and runs the instruction of `nbits` bits (32: ARM state, 16: Thumb
state): the CPU is not halted, no DMA channel is pending, no interrupt request is ready, T selects the state, and the
bytes stand at pc (log 15). -/
def placeInstr (s : State) (nbits w : Nat) : State :=
  let a := placeAddr s nbits
  { s with
    halt := false
    dma := s.dma.map fun c => { c with pending := false }
    irq := if irqReady s then { s.irq with iff := 0 } else s.irq
    cpsr := { s.cpsr with t := nbits == 16 }
    pc := a
    params := { s.params with romLength := placeRomLength s a (instrBytes nbits) }
    mem := Memory.putAll s.mem (placedCells (placeLocation s a) (tableBytes nbits w)) }

end Sys2Proof.Machine
end

