-- ==== Sys2Proof/Machine/Step.lean ====
section
/-! DEFINITION. The step of the whole hardware (60_exceptions R850), and the placing of an instruction. -/

namespace Sys2Proof.Machine

/-- One system step. -/
def step (s : State) : Host.Outcome State Fault Refusal := runStep exec s

/-- The state whose next step fetches and runs the opcode-table word `w` of `nbits` bits. -/
def State.withFetchWord (s : State) (nbits w : Nat) : State := placeInstr s nbits w

end Sys2Proof.Machine
end

