-- ==== Sys2Proof/Safety.lean ====
section
/-! DEFINITION. What the claims are stated in: a step that goes on, the invariants of the machine, and the frames that
say which parts of the state two states share. -/

namespace Sys2Proof.Machine

/-- A safe step: it answers a next state. -/
def SafeStep (s : State) : Prop := ∃ t, step s = .next t

/-! ### Invariants -/

/-- Memory and the storage-only I/O bytes are in their canonical form. -/
structure State.MemoryInv (s : State) : Prop where
  mem : Memory.wf s.mem
  io : IoStore.wf s.ioStore

/-- pc is a multiple of the instruction size of the current state (10_state R120). -/
def State.PcInv (s : State) : Prop := if s.cpsr.t then s.pc.getLsbD 0 = false else s.pc.extractLsb' 0 2 = 0#2

/-- The bits of DMAkCNT_H that read 0: 4:0, and 11 on channels 0 to 2 (61_timers R931). -/
def DmaControlBits (k : Fin 4) (h : Half) : Prop := h.extractLsb' 0 5 = 0#5 ∧ (k ≠ 3 → h.getLsbD 11 = false)

/-- The counters stay in their ranges and the unused bits of the registers read 0 (62_ppu R1003, R1010; 61_timers R931,
R960, R980; 60_exceptions R831; 20_memory R265). -/
structure State.DeviceInv (s : State) : Prop where
  vcount : s.ppu.vcount < 228
  hcycle : s.ppu.hcycle < 1232
  fifoA : s.fifoA ≤ 32
  fifoB : s.fifoB ≤ 32
  dispcnt : s.ppu.dispcnt.getLsbD 3 = false
  ie : s.irq.ie.extractLsb' 14 2 = 0#2
  iff : s.irq.iff.extractLsb' 14 2 = 0#2
  waitcnt : s.waitcnt &&& 0xA000#16 = 0#16
  keyinput : s.keys.keyinput.extractLsb' 10 6 = 0#6
  dmaControl : ∀ k : Fin 4, DmaControlBits k s.dma[k].cntH

/-! ### Frames -/

/-- The CPU's own state but for the general registers, pc and CPSR, and what only the video writes: equal. No
instruction but an exception entry, an MSR to an SPSR and SoftReset changes it. -/
structure SameCore (s t : State) : Prop where
  spsrFiq : t.spsrFiq = s.spsrFiq
  spsrIrq : t.spsrIrq = s.spsrIrq
  spsrSvc : t.spsrSvc = s.spsrSvc
  spsrAbt : t.spsrAbt = s.spsrAbt
  spsrUnd : t.spsrUnd = s.spsrUnd
  lastFetchAddr : t.lastFetchAddr = s.lastFetchAddr
  lastFetchWord : t.lastFetchWord = s.lastFetchWord
  frame : t.frame = s.frame
  hostFrame : t.hostFrame = s.hostFrame
  params : t.params = s.params
  refill : t.refill = s.refill

/-- The I/O registers and the device state behind them: equal. -/
structure SameDevices (s t : State) : Prop where
  halt : t.halt = s.halt
  ioStore : t.ioStore = s.ioStore
  irq : t.irq = s.irq
  waitcnt : t.waitcnt = s.waitcnt
  timers : t.timers = s.timers
  fifoA : t.fifoA = s.fifoA
  fifoB : t.fifoB = s.fifoB
  dma : t.dma = s.dma
  keys : t.keys = s.keys
  ppu : t.ppu = s.ppu

/-- I, F, T and the mode: equal. -/
structure SameControl (s t : State) : Prop where
  irqDisable : t.cpsr.i = s.cpsr.i
  fiqDisable : t.cpsr.f = s.cpsr.f
  thumb : t.cpsr.t = s.cpsr.t
  mode : t.cpsr.mode = s.cpsr.mode

/-- N, Z, C and V: equal. -/
structure SameFlags (s t : State) : Prop where
  n : t.cpsr.n = s.cpsr.n
  z : t.cpsr.z = s.cpsr.z
  c : t.cpsr.c = s.cpsr.c
  v : t.cpsr.v = s.cpsr.v

/-- Every physical register but the listed ones: equal. -/
def RegsSameBut (written : List PReg) (s t : State) : Prop := ∀ r, r ∉ written → t.reg r = s.reg r

/-- The physical register a number names in the current view; none for R15. -/
def destOf (s : State) (i : RegNum) : List PReg := (s.cpsr.mode.view i).toList

/-- Every byte reads as before. -/
def SameReads (s t : State) : Prop := ∀ a, peek t a = peek s a

/-- The frame of an instruction that stores nothing: only the listed registers, the flags and pc may change. -/
structure RegisterFrame (written : List PReg) (s t : State) : Prop where
  regs : RegsSameBut written s t
  control : SameControl s t
  core : SameCore s t
  devices : SameDevices s t
  save : t.save = s.save
  reads : SameReads s t

/-- The frame of an instruction that stores nothing and may write CPSR: only the listed registers, CPSR and pc may
change. -/
structure StatusFrame (written : List PReg) (s t : State) : Prop where
  regs : RegsSameBut written s t
  core : SameCore s t
  devices : SameDevices s t
  save : t.save = s.save
  reads : SameReads s t

/-- Is the byte at `a` among the bytes a store of `w` at `addr` covers, under any of their names? -/
def covered (s : State) (w : Width) (addr a : Word) : Bool := (storedAddrs s w addr).any fun p => sameByte s p a

/-- Writes on the bus, in order: width, address, value (20_memory R280, R281). -/
def busWrites (writes : List (Width × Word × Word)) (s : State) : State :=
  writes.foldl (fun t e => busWrite t e.1 e.2.1 e.2.2) s

/-- The devices, the save chip and every byte of memory are those of `u`. -/
structure BusAs (u t : State) : Prop where
  devices : SameDevices u t
  save : t.save = u.save
  reads : SameReads u t

/-- The effect of a store of `v` on everything but the CPU: that of the bus write; and, by the region of the address given
to the bus, nothing for BIOS, ROM and unmapped addresses; for memory, the covered bytes alone; for I/O and save memory,
nothing outside that window. -/
def StoreFrame (w : Width) (addr v : Word) (s t : State) : Prop :=
  BusAs (busWrite s w addr v) t ∧ match regionOf addr with
  | .bios | .rom _ | .unmapped => SameDevices s t ∧ t.save = s.save ∧ SameReads s t
  | .ewram | .iwram | .palette | .vram | .oam =>
    SameDevices s t ∧ t.save = s.save ∧ ∀ a, covered s w addr a = false → peek t a = peek s a
  | .io => t.save = s.save ∧ ∀ a, regionOf a ≠ .io → peek t a = peek s a
  | .save => SameDevices s t ∧ ∀ a, regionOf a ≠ .save → peek t a = peek s a

/-- The bytes of the value lie in memory, lowest first, at the address given to the bus (20_memory R216). -/
def StoredBytes (w : Width) (addr v : Word) (t : State) : Prop :=
  ∀ k, k < w.bytes → peek t (w.align addr + BitVec.ofNat 32 k) = some (byteOf v k)

/-- N, Z, C and V of an arithmetic result (40_alu R434). -/
def ArithmeticFlags (r : Sum) (t : State) : Prop :=
  t.cpsr.n = r.value.getLsbD 31 ∧ t.cpsr.z = (r.value == 0#32) ∧ t.cpsr.c = r.carry ∧ t.cpsr.v = r.overflow

/-- N and Z of a result; C as given, V as before (40_alu R433). -/
def LogicalFlags (r : Word) (c : Bool) (s t : State) : Prop :=
  t.cpsr.n = r.getLsbD 31 ∧ t.cpsr.z = (r == 0#32) ∧ t.cpsr.c = c ∧ t.cpsr.v = s.cpsr.v

/-- The next state lies behind the instruction: `pc + ISize` (10_state R121). -/
def Advanced (s t : State) : Prop := t.pc = s.pc + s.isize

/-- The destination takes the value, pc lies behind the instruction, and no other register, no control bit, no special
register, no device and no byte of memory changes. -/
structure Writes (rd : RegNum) (v : Word) (s t : State) : Prop where
  value : t.x rd = v
  pc : Advanced s t
  frame : RegisterFrame (destOf s rd) s t

/-- Nothing but pc and the flags changes. -/
structure OnlyFlags (s t : State) : Prop where
  pc : Advanced s t
  frame : RegisterFrame [] s t

/-- The instruction answers a next state, and that state is as `post` says. -/
def Runs (i : Instr) (s : State) (post : State → Prop) : Prop := ∃ t, exec i s = .next t ∧ post t

/-! ### Exact arithmetic -/

/-- `a + b + c` with its carry and overflow, from exact numbers (40_alu R430). -/
def sumOf (a b : Word) (c : Bool) : Sum where
  value := a + b + BitVec.ofNat 32 c.toNat
  carry := decide (0xFFFFFFFF < a.toNat + b.toNat + c.toNat)
  overflow := decide (a.toInt + b.toInt + c.toNat < -2147483648 ∨ 2147483647 < a.toInt + b.toInt + c.toNat)

/-- `a - b - (1 - c)` with its carry (no borrow) and overflow, from exact numbers (40_alu R431). -/
def differenceOf (a b : Word) (c : Bool) : Sum where
  value := a - b - BitVec.ofNat 32 (1 - c.toNat)
  carry := decide (b.toNat + 1 - c.toNat ≤ a.toNat)
  overflow := decide (a.toInt - b.toInt - (1 - c.toNat) < -2147483648 ∨ 2147483647 < a.toInt - b.toInt - (1 - c.toNat))

/-! ### Loads and stores -/

/-- A single transfer writes its base back (43 R531). -/
def BaseWritten (p w : Bool) : Prop := p = false ∨ w = true

/-- The register the write-back writes, if there is one. -/
def baseDest (p w : Bool) (s : State) (rn : RegNum) : List PReg := if p && !w then [] else destOf s rn

/-- The write-back restrictions of a single transfer hold (43 R532, R533). -/
def BaseUsable (p w : Bool) (rn rd : RegNum) : Prop := BaseWritten p w → rn ≠ 15#4 ∧ rd ≠ rn

/-- The second operand names no R15 as a shift amount (41 R453). -/
def ShiftUsable (o : Operand2) : Prop := ∀ ty rm, o ≠ .shiftReg ty 15#4 rm

/-- The offset names no R15 (43 R534). -/
def OffsetUsable (off : Offset) : Prop := ∀ ty n, off ≠ .reg ty n 15#4

/-- The effect of a single load: Rd takes the data, the base is written back where the form does, nothing else
changes. -/
structure Loaded (p u w : Bool) (rn rd : RegNum) (offset data : Word) (s t : State) : Prop where
  value : t.x rd = data
  base : BaseWritten p w → t.x rn = offsetAddr u (s.x rn) offset
  pc : Advanced s t
  cpsr : t.cpsr = s.cpsr
  frame : RegisterFrame (destOf s rd ++ baseDest p w s rn) s t

/-- The bus stores a write's bytes as they are: a memory region, and no 8-bit write under the video quirk
(20_memory R222). -/
def StoresPlainly (s : State) (w : Width) (addr : Word) : Prop :=
  (regionOf addr = .ewram ∨ regionOf addr = .iwram) ∨
  ((regionOf addr = .palette ∨ regionOf addr = .vram ∨ regionOf addr = .oam) ∧
    (w = .byte → s.params.narrowVideoWrites = .plain))

/-- The effect of a store of `v` at the bus address `addr`: the listed registers (a base written back, a destination)
and pc may change, memory changes in the stored bytes alone, and the bytes are there afterwards. -/
structure StoreDone (written : List PReg) (w : Width) (addr v : Word) (s t : State) : Prop where
  regs : RegsSameBut written s t
  cpsr : t.cpsr = s.cpsr
  core : SameCore s t
  pc : Advanced s t
  store : StoreFrame w addr v s t
  bytes : StoresPlainly s w addr → StoredBytes w addr v t

/-- A store of Rd, with the base written back where the form does. -/
structure Stored (p u wb : Bool) (rn : RegNum) (offset : Word) (w : Width) (addr v : Word) (s t : State) : Prop where
  base : BaseWritten p wb → t.x rn = offsetAddr u (s.x rn) offset
  done : StoreDone (baseDest p wb s rn) w addr v s t

/-! ### Exceptions -/

/-- The effect of an exception's entry into mode `m` (60_exceptions R812), and its frame. -/
structure Entered (m : Mode) (vector link : Word) (s t : State) : Prop where
  cpsr : t.cpsr = { s.cpsr with t := false, i := true, mode := m }
  saved : (t.spsrOf m).map Spsr.toWord = some s.cpsr.toWord
  link : t.reg m.lr = link
  pc : t.pc = vector
  regs : RegsSameBut [m.lr] s t
  spsrs : ∀ n, n ≠ m → t.spsrOf n = s.spsrOf n
  devices : SameDevices s t
  save : t.save = s.save
  reads : SameReads s t
  lastFetch : t.lastFetchAddr = s.lastFetchAddr ∧ t.lastFetchWord = s.lastFetchWord
  frames : t.frame = s.frame ∧ t.hostFrame = s.hostFrame
  params : t.params = s.params
  refill : t.refill = s.refill

/-- The aligned word at an address outside save memory is known, and is `v` (20_memory R216). -/
def WordAt (s : State) (a v : Word) : Prop :=
  regionOf a ≠ .save ∧ ∀ k, k < 4 → peek s (alignWord a + BitVec.ofNat 32 k) = some (byteOf v k)

/-- The frame of an instruction that stores several words, (address, value) in the order of the accesses: the effect is
that of the bus writes; memory changes in the words' bytes alone, devices only if a word lies in the I/O window, save memory
only if a word lies in its window. -/
structure BlockStoreFrame (words : List (Word × Word)) (s t : State) : Prop where
  bus : BusAs (busWrites (words.map fun e => (.word, e.1, e.2)) s) t
  memory : ∀ a, regionOf a ≠ .io → regionOf a ≠ .save → (∀ e ∈ words, covered s .word e.1 a = false) →
    peek t a = peek s a
  devices : (∀ e ∈ words, regionOf e.1 ≠ .io) → SameDevices s t ∧ ∀ a, regionOf a = .io → peek t a = peek s a
  save : (∀ e ∈ words, regionOf e.1 ≠ .save) → t.save = s.save ∧ ∀ a, regionOf a = .save → peek t a = peek s a

/-- The number of listed registers below number `i` (30_encoding R326); `lowerCount list 16` is n. -/
def lowerCount (list : BitVec 16) (i : Nat) : Nat := (List.range i).countP fun j => list.getLsbD j

/-- The registers of the privileged banks: every one that USR and SYS do not see (10_state R103, R104). -/
def privilegedBanks : List PReg :=
  [.r8Fiq, .r9Fiq, .r10Fiq, .r11Fiq, .r12Fiq, .r13Fiq, .r13Irq, .r13Svc, .r13Abt, .r13Und,
   .r14Fiq, .r14Irq, .r14Svc, .r14Abt, .r14Und]

/-- The return from an exception: CPSR is the SPSR of the current mode, restored (10_state R106). -/
def Restores (s t : State) : Prop := ∃ p c, s.spsrOf s.cpsr.mode = some p ∧ p.restored = some c ∧ t.cpsr = c

/-- The address of word `k` of the `n` words of a block transfer: the table of 43 R560, aligned, four apart (R564). -/
def blockAddr (p u : Bool) (base : Word) (n k : Nat) : Word :=
  let first := if u then (if p then base + 4#32 else base)
    else if p then base - BitVec.ofNat 32 (4 * n) else base - BitVec.ofNat 32 (4 * n) + 4#32
  alignWord first + BitVec.ofNat 32 (4 * k)

/-- The written-back base of a block transfer (43 R560). -/
def blockBase (u : Bool) (base : Word) (n : Nat) : Word :=
  if u then base + BitVec.ofNat 32 (4 * n) else base - BitVec.ofNat 32 (4 * n)

/-- R15 as a store stores it (43 R541). -/
def storedPc (s : State) : Word :=
  match s.params.storePcOffset with
  | .twelve => s.pc + 12#32
  | .four => s.pc + 4#32

/-- The value a block store stores for register `i` of mode `m`'s view: R15 as above; the base, when it is written back,
by the parameter `StmBaseInList` (43 R567, R573, R575). -/
def blockValue (s : State) (m : Mode) (rn : RegNum) (w : Bool) (list : BitVec 16) (newBase : Word) (i : RegNum) : Word :=
  if i = 15#4 then storedPc s
  else if w = true ∧ i = rn ∧ s.params.stmBaseInList = .newIfNotLowest ∧ lowerCount list rn.toNat ≠ 0 then newBase
  else s.xIn m i

/-- The register numbers of a list, with the registers they name in the view of mode `m`. -/
def listedBy (m : Mode) (list : BitVec 16) : List PReg :=
  (List.range 16).flatMap fun i => if list.getLsbD i then (m.view (BitVec.ofNat 4 i)).toList else []

/-- A block load's effect on the registers: each listed register of mode `m`'s view takes the word at its address,
where that word is known (43 R564, R566). -/
def WordsLoaded (m : Mode) (p u : Bool) (base : Word) (list : BitVec 16) (s t : State) : Prop :=
  ∀ i v, list.getLsbD i.toNat = true → i ≠ 15#4 →
    WordAt s (blockAddr p u base (lowerCount list 16) (lowerCount list i.toNat)) v → t.xIn m i = v

/-- The words of a block store, (address, value), in the order of the accesses: upward from the lowest for an up-mode,
downward from the highest for a down-mode (43 R564, R565). -/
def wordsInOrder (p u : Bool) (base : Word) (list : BitVec 16) (value : RegNum → Word) : List (Word × Word) :=
  let l := ((List.range 16).filter fun i => list.getLsbD i).map fun i =>
    (blockAddr p u base (lowerCount list 16) (lowerCount list i), value (BitVec.ofNat 4 i))
  if u then l else l.reverse

/-- A block store's effect: each listed register's value lies at its address, in memory that stores it plainly; nothing
else changes but pc and the listed registers `written` (43 R564, R567). -/
structure WordsStored (written : List PReg) (p u : Bool) (base : Word) (list : BitVec 16) (value : RegNum → Word)
    (s t : State) : Prop where
  words : ∀ i, list.getLsbD i.toNat = true →
    StoresPlainly s .word (blockAddr p u base (lowerCount list 16) (lowerCount list i.toNat)) →
    StoredBytes .word (blockAddr p u base (lowerCount list 16) (lowerCount list i.toNat)) (value i) t
  pc : Advanced s t
  cpsr : t.cpsr = s.cpsr
  regs : RegsSameBut written s t
  core : SameCore s t
  frame : BlockStoreFrame (wordsInOrder p u base list value) s t

/-- No word of a block store falls on the next two instruction slots (70_reset R1220). -/
def NoBlockHazard (p u : Bool) (base : Word) (list : BitVec 16) (s : State) : Prop :=
  ∀ k, k < lowerCount list 16 → storeHazard s .word (blockAddr p u base (lowerCount list 16) k) = false

/-! ### Software interrupts -/

/-- The instruction is an SWI of function number `n` whose condition passes (46_bios_hle R752). -/
def SwiCall (i : Instr) (n : Byte) (s : State) : Prop :=
  (∃ cond comment, i = .armSwi cond comment ∧ conditionPassed s.cpsr cond = true ∧
    match s.params.armSwiNumberField with
    | .bits23to16 => comment.toNat / 2 ^ 16 = n.toNat
    | .bits7to0 => comment.toNat % 2 ^ 8 = n.toNat) ∨
  i = .thumbSwi n

/-- An emulated BIOS call that stores nothing: the results, the advance, no mode change, and no register changed but R0 to
R3 and R12 (46_bios_hle R750, R753). -/
structure HleReturns (results : List (RegNum × Word)) (s t : State) : Prop where
  results : ∀ e ∈ results, t.x e.1 = e.2
  pc : Advanced s t
  cpsr : t.cpsr = s.cpsr
  frame : RegisterFrame ([.r0, .r1, .r2, .r3] ++ destOf s 12#4) s t

/-- A read of `w` at `addr` gives `v`, whatever the free values are: the spec fixes every byte of it (20_memory R216-R219,
R223, R230). -/
def ReadsAs (s : State) (w : Width) (addr v : Word) : Prop := ∀ n, busRead { s with draws := n } w addr = v

/-- An emulated BIOS call that writes on the bus: the advance, no mode change, no register changed but the scratch
registers and R12, and the devices, the save chip and memory as the writes leave them (46_bios_hle R750, R753). -/
structure HleStores (scratch : List PReg) (writes : List (Width × Word × Word)) (s t : State) : Prop where
  pc : Advanced s t
  cpsr : t.cpsr = s.cpsr
  regs : RegsSameBut (scratch ++ destOf s 12#4) s t
  core : SameCore s t
  bus : BusAs (busWrites writes s) t

/-- The registers of a Thumb PUSH or POP as a 16-bit list (45_thumb R730). -/
def pushList (list : BitVec 8) (r : Bool) (extra : Nat) : BitVec 16 :=
  list.setWidth 16 ||| if r then BitVec.twoPow 16 extra else 0#16

/-- The instructions that may write N, Z, C or V (10_state R111): data processing with S, which includes the return that
restores the SPSR, comparisons, multiplies with S, LDM with S and R15, MSR to the CPSR flags, the Thumb data operations,
and SWI, which may run SoftReset. -/
def mayWriteFlags : Instr → Bool
  | .armAnd _ s _ _ _ | .armEor _ s _ _ _ | .armSub _ s _ _ _ | .armRsb _ s _ _ _ | .armAdd _ s _ _ _
  | .armAdc _ s _ _ _ | .armSbc _ s _ _ _ | .armRsc _ s _ _ _ | .armOrr _ s _ _ _ | .armMov _ s _ _ _
  | .armBic _ s _ _ _ | .armMvn _ s _ _ _ => s
  | .armTst _ _ _ _ | .armTeq _ _ _ _ | .armCmp _ _ _ _ | .armCmn _ _ _ _ => true
  | .armMul _ s _ _ _ _ | .armMla _ s _ _ _ _ | .armUmull _ s _ _ _ _ | .armUmlal _ s _ _ _ _
  | .armSmull _ s _ _ _ _ | .armSmlal _ s _ _ _ _ => s
  | .armLdm _ _ _ s _ _ list => s && list.getLsbD 15
  | .armMsrReg _ r mask _ => !r && mask.getLsbD 3
  | .armMsrImm _ r mask _ _ => !r && mask.getLsbD 3
  | .thumbAddReg _ _ _ | .thumbSubReg _ _ _ | .thumbAddImm3 _ _ _ | .thumbSubImm3 _ _ _ => true
  | .thumbLslImm _ _ _ | .thumbLsrImm _ _ _ | .thumbAsrImm _ _ _ => true
  | .thumbMovImm8 _ _ | .thumbCmpImm8 _ _ | .thumbAddImm8 _ _ | .thumbSubImm8 _ _ => true
  | .thumbAnd _ _ | .thumbEor _ _ | .thumbLsl _ _ | .thumbLsr _ _ | .thumbAsr _ _ | .thumbAdc _ _ | .thumbSbc _ _
  | .thumbRor _ _ | .thumbTst _ _ | .thumbNeg _ _ | .thumbCmp _ _ | .thumbCmn _ _ | .thumbOrr _ _ | .thumbMul _ _
  | .thumbBic _ _ | .thumbMvn _ _ => true
  | .thumbCmpHi _ _ => true
  | .armSwi _ _ | .thumbSwi _ => true
  | _ => false

end Sys2Proof.Machine
end

