-- ==== Sys2Proof/Certificates/Slice0/Obligations.lean ====
section
/-! DEFINITION. The statements for the provers. Each docstring names the rules of spec/ it formalises; what rests on a
choice of the model names its log entry. -/

open Sys2Proof Sys2Proof.Machine

/-! ### Encoding -/

/-- 30_encoding R303, R330: decoding the encoding of any well-formed instruction gives it back, with every operand. -/
def Obligations.DecodeOfEncode : Prop := ∀ i : Instr, i.wf = true → decodeEncoded (encode i) = .ok i

/-- 30_encoding R320, R340: every ARM word and every Thumb halfword is exactly one well-formed instruction, and that
instruction encodes to it: no bit pattern is without meaning and no bit is dropped. -/
def Obligations.EveryWordIsAnInstruction : Prop :=
  (∀ w : Word, ∃ i, decodeArm w = .ok i ∧ i.wf = true ∧ encode i = .arm w) ∧
  ∀ h : Half, ∃ i, decodeThumb h = .ok i ∧ i.wf = true ∧ encode i = .thumb h

/-- Words the spec writes out with their assembler form (41 R460, R473; 42 R505; 43 R540, R580; 44 R600, R612; 45_thumb
R650, R710, R731, R742) decode to the instruction they stand for. -/
def Obligations.WordsOfTheSpecDecode : Prop :=
  decodeArm 0xE0102001#32 = .ok (.armAnd .al true 0#4 2#4 (.shiftImm .lsl 0#5 1#4)) ∧
  decodeArm 0xE1B00021#32 = .ok (.armMov .al true 0#4 0#4 (.shiftImm .lsr 0#5 1#4)) ∧
  decodeArm 0xE0810392#32 = .ok (.armUmull .al false 1#4 0#4 3#4 2#4) ∧
  decodeArm 0xE5910004#32 = .ok (.armLdr .al true true false 1#4 0#4 (.imm 4#12)) ∧
  decodeArm 0xE1020091#32 = .ok (.armSwp .al 2#4 0#4 1#4) ∧
  decodeArm 0xEAFFFFFE#32 = .ok (.armB .al 0xFFFFFE#24) ∧
  decodeArm 0xE321F0D2#32 = .ok (.armMsrImm .al false 1#4 0#4 0xD2#8) ∧
  decodeThumb 0x0108#16 = .ok (.thumbLslImm 4#5 1#3 0#3) ∧
  decodeThumb 0x4440#16 = .ok (.thumbAddHi 0#4 8#4) ∧
  decodeThumb 0xB503#16 = .ok (.thumbPush true 0x03#8) ∧
  decodeThumb 0xF802#16 = .ok (.thumbBlSecond 2#11)

/-! ### The step -/

/-- 60_exceptions R850, 30_encoding R300, R301: at a boundary with no pending DMA channel, no interrupt to take and no
halt, the step is the meaning of the fetched instruction (in the state after the fetch's own marker, 10_state R125), then
the end of the step: the record of a pipeline refill (the model's own, log 10) and the device tick of the cost. Outside save
memory the fetched instruction is the one that the bytes at pc decode to. -/
def Obligations.StepRunsTheFetchedInstruction : Prop :=
  (∀ (s w : State) (i : Instr), w = wake s → pendingChannel w = none → irqReady w = false → w.halt = false →
    decodeFetched w (fetchValue w) = .ok i →
    step s = andThen (exec i (fetched w)) fun t => .next (endStep (instrCost i w t) t)) ∧
  (∀ (c : StepCost) (t : State),
    endStep c t = deviceTick c.cycles { t with refill := if c.refill then some t.pc else none }) ∧
  (∀ (s : State) (bytes : List Byte) (i : Instr), s.PcInv → regionOf s.pc ≠ .save →
    (∀ k, ∀ h : k < bytes.length, peek s (s.pc + BitVec.ofNat 32 k) = some bytes[k]) →
    decodeBytes s.cpsr.t bytes = .ok i → decodeFetched s (fetchValue s) = .ok i) ∧
  ∀ s : State, StatusFrame [] { s with lastFetchAddr := (fetched s).lastFetchAddr,
                                       lastFetchWord := (fetched s).lastFetchWord } (fetched s) ∧
    (fetched s).cpsr = s.cpsr ∧ (fetched s).pc = s.pc ∧ (fetched s).lastFetchAddr = s.pc ∧
    (s.cpsr.t = false → (fetched s).lastFetchWord = fetchValue s)

/-- 60_exceptions R841, R850: before anything else a pending, enabled source ends the halt; then a pending DMA channel,
the lowest-numbered one, runs its whole transfer; else an interrupt is taken; else a halted CPU lets one cycle pass. -/
def Obligations.BoundaryOrder : Prop :=
  ∀ s w : State, w = wake s →
    (w = { s with halt := s.halt && !interruptPending s }) ∧
    (∀ k, pendingChannel w = some k → w.dma[k].pending = true ∧ (∀ j : Fin 4, j < k → w.dma[j].pending = false) ∧
      step s = andThen (dmaTransfer k w) fun t => .next (deviceTick (dmaCost w k) t)) ∧
    (pendingChannel w = none → (∀ j : Fin 4, w.dma[j].pending = false) ∧
      (irqReady w = true → step s = .next (endStep (irqCost w (irqEntry w)) (irqEntry w))) ∧
      (irqReady w = false → w.halt = true → step s = .next (deviceTick 1 w)))

/-- 40_alu R402: an instruction whose condition fails is the advance of pc alone, whatever its other bits are, and costs
one fetch; the Thumb conditional branch likewise. 20_memory R260, 10_state R125: that fetch is sequential exactly if the
previous fetch address was 4 (Thumb: 2) less, or the step before refilled the pipeline at pc (the latter is the model's
reading of R260 beside 70_reset R1235, log 10). -/
def Obligations.ConditionFailed : Prop :=
  let oneFetch := fun s : State =>
    let size := if s.cpsr.t then 2#32 else 4#32
    let sequential := decide (s.lastFetchAddr = s.pc - size) || decide (s.refill = some s.pc)
    (⟨accessCost s (if s.cpsr.t then .half else .word) s.pc sequential, false⟩ : StepCost)
  (∀ (i : Instr) (s : State), conditionPassed s.cpsr (instrCondition i) = false →
    exec i s = .next s.advance ∧ ∀ t, instrCost i s t = oneFetch s) ∧
  ∀ (cond : Cond) (off : BitVec 8) (s : State), conditionPassed s.cpsr cond = false →
    exec (.thumbBCond cond off) s = .next s.advance ∧ ∀ t, instrCost (.thumbBCond cond off) s t = oneFetch s

/-- 20_memory R200-R215 (the model's canonical form, log 3): a step keeps memory and the storage-only I/O bytes
canonical. -/
def Obligations.StepKeepsMemoryCanonical : Prop := ∀ s t : State, s.MemoryInv → step s = .next t → t.MemoryInv

/-- 10_state R120: after every step pc is aligned for the state CPSR.T selects. -/
def Obligations.StepKeepsPcAligned : Prop := ∀ s t : State, s.PcInv → step s = .next t → t.PcInv

/-- 62_ppu R1003, R1010; 61_timers R931, R960, R980; 60_exceptions R830, R831; 20_memory R265: a step keeps the video
position, the FIFO levels and the bits that read 0 in their ranges. -/
def Obligations.StepKeepsDeviceRanges : Prop := ∀ s t : State, s.DeviceInv → step s = .next t → t.DeviceInv

/-- The three invariants hold at power-on, in either boot mode and for every choice of parameters (70_reset R1201). -/
def Obligations.InvariantsAtPowerOn : Prop :=
  ∀ p : Config.Params, (State.powerOn p).MemoryInv ∧ (State.powerOn p).PcInv ∧ (State.powerOn p).DeviceInv

/-- 60_exceptions R855, R856: in USR mode a step leaves the mode, I and F as they are, and the privileged banks and the
SPSRs too; or it enters an exception, which saves CPSR and masks IRQ; or it is the SoftReset call. -/
def Obligations.UserModeIsConfined : Prop :=
  ∀ s t : State, s.cpsr.mode = .usr → step s = .next t →
    (t.cpsr.mode = .usr ∧ t.cpsr.i = s.cpsr.i ∧ t.cpsr.f = s.cpsr.f ∧ (∀ r ∈ privilegedBanks, t.reg r = s.reg r) ∧
      ∀ m, t.spsrOf m = s.spsrOf m) ∨
    (∃ m, (m = .und ∨ m = .svc ∨ m = .irq) ∧ t.cpsr = { s.cpsr with t := false, i := true, mode := m } ∧
      t.spsrOf m = some s.cpsr.saved ∧ (∀ n, n ≠ m → t.spsrOf n = s.spsrOf n) ∧
      ∀ r ∈ privilegedBanks, r ≠ m.lr → t.reg r = s.reg r) ∨
    (s.params.swiHandling = .hle ∧
      ((∃ cond comment, decodeFetched s (fetchValue s) = .ok (.armSwi cond comment) ∧ armSwiNumber s comment = 0#8) ∨
        decodeFetched s (fetchValue s) = .ok (.thumbSwi 0#8)) ∧
      t.cpsr = ⟨false, false, false, false, false, false, false, .sys⟩)

/-- 10_state R111, R113, R114; 60_exceptions R856: the flags are written only by the instructions R111 lists; I, F, T and
the mode only by BX (T alone), by an MSR to the control field in a privileged mode (not T), by an exception's entry, by an
SPSR restore, and by SoftReset. -/
def Obligations.WritersOfTheStatusBits : Prop :=
  ∀ (i : Instr) (s t : State), exec i s = .next t → (¬SameFlags s t → mayWriteFlags i = true) ∧ (¬SameControl s t →
    (((∃ cond rm, i = .armBx cond rm) ∨ ∃ rm sbz, i = .thumbBx rm sbz) ∧
      ∃ b, t.cpsr = { s.cpsr with t := b }) ∨
    (((∃ cond mask rm, i = .armMsrReg cond false mask rm ∧ mask.getLsbD 0 = true) ∨
        ∃ cond mask rot imm8, i = .armMsrImm cond false mask rot imm8 ∧ mask.getLsbD 0 = true) ∧
      s.cpsr.mode ≠ .usr ∧ t.cpsr.t = s.cpsr.t) ∨
    (∃ m, (m = .und ∨ m = .svc) ∧ t.cpsr = { s.cpsr with t := false, i := true, mode := m } ∧
      t.spsrOf m = some s.cpsr.saved) ∨
    Restores s t ∨
    (s.params.swiHandling = .hle ∧
      ((∃ cond comment, i = .armSwi cond comment ∧ armSwiNumber s comment = 0#8) ∨ i = .thumbSwi 0#8) ∧
      t.cpsr = ⟨false, false, false, false, false, false, false, .sys⟩))

/-! ### ARM data processing -/

/-- 41 R460, R461, R472, R474, R475 (and R473, R454, R458): the logical operations write Rd; with S they set N and Z from
the result and C from the shifter, and keep V; nothing else changes. -/
def Obligations.ArmLogicalOperations : Prop :=
  ∀ (s : State) (cond : Cond) (sb : Bool) (rn rd : RegNum) (op2 : Operand2) (a : Word) (o : Shifted),
    conditionPassed s.cpsr cond = true → rd ≠ 15#4 → ShiftUsable op2 →
    a = dpRegister s (isRegShift op2) rn → o = operand2Value s op2 →
    ∀ e ∈ [(Instr.armAnd cond sb rn rd op2, a &&& o.value), (.armEor cond sb rn rd op2, a ^^^ o.value),
        (.armOrr cond sb rn rd op2, a ||| o.value), (.armMov cond sb rn rd op2, o.value),
        (.armBic cond sb rn rd op2, a &&& ~~~o.value), (.armMvn cond sb rn rd op2, ~~~o.value)],
      Runs e.1 s fun t => Writes rd e.2 s t ∧ if sb then LogicalFlags e.2 o.carry s t else SameFlags s t

/-- 41 R462-R467 (and R454, R458; 40_alu R430, R431): the arithmetic operations write Rd; with S they set N, Z, C and V
from the exact sum or difference; nothing else changes. -/
def Obligations.ArmArithmeticOperations : Prop :=
  ∀ (s : State) (cond : Cond) (sb : Bool) (rn rd : RegNum) (op2 : Operand2) (a b : Word),
    conditionPassed s.cpsr cond = true → rd ≠ 15#4 → ShiftUsable op2 →
    a = dpRegister s (isRegShift op2) rn → b = (operand2Value s op2).value →
    ∀ e ∈ [(Instr.armSub cond sb rn rd op2, differenceOf a b true), (.armRsb cond sb rn rd op2, differenceOf b a true),
        (.armAdd cond sb rn rd op2, sumOf a b false), (.armAdc cond sb rn rd op2, sumOf a b s.cpsr.c),
        (.armSbc cond sb rn rd op2, differenceOf a b s.cpsr.c), (.armRsc cond sb rn rd op2, differenceOf b a s.cpsr.c)],
      Runs e.1 s fun t => Writes rd e.2.value s t ∧ if sb then ArithmeticFlags e.2 t else SameFlags s t

/-- 41 R468-R471 (and R457): the comparisons write the flags alone, whatever the ignored Rd field holds. -/
def Obligations.ArmComparisons : Prop :=
  ∀ (s : State) (cond : Cond) (rn sbz : RegNum) (op2 : Operand2) (a : Word) (o : Shifted),
    conditionPassed s.cpsr cond = true → ShiftUsable op2 →
    a = dpRegister s (isRegShift op2) rn → o = operand2Value s op2 →
    Runs (.armTst cond rn sbz op2) s (fun t => OnlyFlags s t ∧ LogicalFlags (a &&& o.value) o.carry s t) ∧
    Runs (.armTeq cond rn sbz op2) s (fun t => OnlyFlags s t ∧ LogicalFlags (a ^^^ o.value) o.carry s t) ∧
    Runs (.armCmp cond rn sbz op2) s (fun t => OnlyFlags s t ∧ ArithmeticFlags (differenceOf a o.value true) t) ∧
    Runs (.armCmn cond rn sbz op2) s (fun t => OnlyFlags s t ∧ ArithmeticFlags (sumOf a o.value false) t)

/-- 41 R455, R456; 10_state R106: with Rd = 15 an operation without S is a branch to the word-aligned result and changes
nothing else; with S it restores CPSR from the SPSR and branches to the result, aligned for the restored state; in a mode
without an SPSR, or with a saved mode that is none, it stops. -/
def Obligations.ArmResultsToPc : Prop :=
  ∀ (s : State) (cond : Cond) (rn : RegNum) (op2 : Operand2) (a b : Word),
    conditionPassed s.cpsr cond = true → ShiftUsable op2 →
    a = dpRegister s (isRegShift op2) rn → b = (operand2Value s op2).value →
    ∀ e ∈ [((fun sb => Instr.armAnd cond sb rn 15#4 op2), a &&& b), (fun sb => .armEor cond sb rn 15#4 op2, a ^^^ b),
        (fun sb => .armSub cond sb rn 15#4 op2, a - b), (fun sb => .armRsb cond sb rn 15#4 op2, b - a),
        (fun sb => .armAdd cond sb rn 15#4 op2, a + b),
        (fun sb => .armAdc cond sb rn 15#4 op2, a + b + BitVec.ofNat 32 s.cpsr.c.toNat),
        (fun sb => .armSbc cond sb rn 15#4 op2, a - b - BitVec.ofNat 32 (1 - s.cpsr.c.toNat)),
        (fun sb => .armRsc cond sb rn 15#4 op2, b - a - BitVec.ofNat 32 (1 - s.cpsr.c.toNat)),
        (fun sb => .armOrr cond sb rn 15#4 op2, a ||| b), (fun sb => .armMov cond sb rn 15#4 op2, b),
        (fun sb => .armBic cond sb rn 15#4 op2, a &&& ~~~b), (fun sb => .armMvn cond sb rn 15#4 op2, ~~~b)],
      (Runs (e.1 false) s fun t => t.pc = alignWord e.2 ∧ t.cpsr = s.cpsr ∧ RegisterFrame [] s t) ∧
      (∀ p c, s.spsrOf s.cpsr.mode = some p → p.restored = some c →
        Runs (e.1 true) s fun t => t.cpsr = c ∧ t.pc = (if c.t then alignHalf e.2 else alignWord e.2) ∧
          StatusFrame [] s t) ∧
      (s.spsrOf s.cpsr.mode = none → exec (e.1 true) s = .fault .noSpsrInMode) ∧
      (∀ p, s.spsrOf s.cpsr.mode = some p → p.restored = none → exec (e.1 true) s = .fault .invalidModeRestore)

/-- 40_alu R420-R423, R425: the shifts by 0 in the immediate form, and LSL by 32 and more in the register form. -/
def Obligations.ShifterSpecialCases : Prop :=
  ∀ (v : Word) (cin : Bool),
    shiftImm .lsl v 0 cin = ⟨v, cin⟩ ∧
    shiftImm .lsr v 0 cin = ⟨0#32, v.getLsbD 31⟩ ∧
    shiftImm .asr v 0 cin = ⟨if v.getLsbD 31 then 0xFFFFFFFF#32 else 0#32, v.getLsbD 31⟩ ∧
    shiftImm .ror v 0 cin = ⟨BitVec.ofBool cin ++ v.extractLsb' 1 31, v.getLsbD 0⟩ ∧
    ∀ n, 32 ≤ n → shiftReg .lsl v n cin = ⟨0#32, if n = 32 then v.getLsbD 0 else false⟩

/-- 40_alu R412, R424, R426, R427: both forms by 1 to 31 as arithmetic on the value, with the last bit shifted out; the
register form by 0 and by 32 and more. -/
def Obligations.ShifterResults : Prop :=
  ∀ (v : Word) (n : Nat) (cin : Bool),
    (0 < n → n < 32 → ∀ f ∈ [shiftImm, shiftReg],
      (f .lsl v n cin).value.toNat = v.toNat * 2 ^ n % 2 ^ 32 ∧
      (f .lsr v n cin).value.toNat = v.toNat / 2 ^ n ∧
      (f .asr v n cin).value.toInt = v.toInt / 2 ^ n ∧
      (f .ror v n cin).value.toNat = v.toNat / 2 ^ n + v.toNat % 2 ^ n * 2 ^ (32 - n) ∧
      (f .lsl v n cin).carry = decide (v.toNat / 2 ^ (32 - n) % 2 = 1) ∧
      ∀ ty ∈ [ShiftType.lsr, .asr, .ror], (f ty v n cin).carry = decide (v.toNat / 2 ^ (n - 1) % 2 = 1)) ∧
    (∀ ty, shiftReg ty v 0 cin = ⟨v, cin⟩) ∧
    (32 ≤ n → shiftReg .lsr v n cin = ⟨0#32, if n = 32 then v.getLsbD 31 else false⟩ ∧
      shiftReg .asr v n cin = ⟨if v.toInt < 0 then 0xFFFFFFFF#32 else 0#32, v.getLsbD 31⟩ ∧
      shiftReg .ror v n cin = if n % 32 = 0 then ⟨v, v.getLsbD 31⟩ else shiftReg .ror v (n % 32) cin)

/-- 41 R450-R452; 30_encoding R322-R324; 40_alu R428; 10_state R123: the operand forms. An immediate is its 8 bits rotated
right by twice the rotate field; R15 reads 8 ahead, and 12 ahead in the register-shift form. -/
def Obligations.OperandForms : Prop :=
  ∀ s : State,
    (∀ rot imm8, (operand2Value s (.imm rot imm8)).value = (imm8.setWidth 32).rotateRight (2 * rot.toNat) ∧
      (operand2Value s (.imm rot imm8)).carry =
        if rot = 0#4 then s.cpsr.c else ((imm8.setWidth 32).rotateRight (2 * rot.toNat)).getLsbD 31) ∧
    (∀ ty n rm, operand2Value s (.shiftImm ty n rm) = shiftImm ty (s.x rm) n.toNat s.cpsr.c) ∧
    (∀ ty rs rm, operand2Value s (.shiftReg ty rs rm) =
      shiftReg ty (if rm = 15#4 then s.pc + 12#32 else s.x rm) ((s.x rs).toNat % 256) s.cpsr.c) ∧
    (∀ imm12, (offsetValue s (.imm imm12)).toNat = imm12.toNat) ∧
    (∀ ty n rm, offsetValue s (.reg ty n rm) = (shiftImm ty (s.x rm) n.toNat s.cpsr.c).value) ∧
    (∀ rn ty rs rm, dpRegister s (isRegShift (.shiftReg ty rs rm)) rn = if rn = 15#4 then s.pc + 12#32 else s.x rn) ∧
    (∀ rn ty n rm rot imm8, dpRegister s (isRegShift (.shiftImm ty n rm)) rn = s.x rn ∧
      dpRegister s (isRegShift (.imm rot imm8)) rn = s.x rn) ∧
    s.x 15#4 = s.pc + if s.cpsr.t then 4#32 else 8#32

/-- 40_alu R436: the flag laws of addition and subtraction. -/
def Obligations.FlagLaws : Prop :=
  ∀ a b : Word,
    (addWithCarry (addWithCarry a b false).value (~~~b) true).value = a ∧
    (addWithCarry a b false).carry = decide (0xFFFFFFFF < a.toNat + b.toNat) ∧
    ((addWithCarry a b false).overflow = true ↔
      a.getLsbD 31 = b.getLsbD 31 ∧ (addWithCarry a b false).value.getLsbD 31 ≠ a.getLsbD 31) ∧
    ((addWithCarry a (~~~b) true).overflow = true ↔
      a.getLsbD 31 ≠ b.getLsbD 31 ∧ (addWithCarry a (~~~b) true).value.getLsbD 31 ≠ a.getLsbD 31)

/-! ### ARM multiplies -/

/-- 42 R502, R503; 45_thumb R683: MUL and MLA write the low 32 bits of the product or sum; with S, and in Thumb always,
they set N and Z and keep V (C is a free value, of which nothing is said). -/
def Obligations.ArmMultiplies : Prop :=
  ∀ (s : State) (cond : Cond) (sb : Bool) (rd rn rs rm : RegNum),
    conditionPassed s.cpsr cond = true → rd ≠ 15#4 → rs ≠ 15#4 → rm ≠ 15#4 → rd ≠ rm →
    let flags := fun (v : Word) (t : State) =>
      if sb then t.cpsr.n = v.getLsbD 31 ∧ t.cpsr.z = (v == 0#32) ∧ t.cpsr.v = s.cpsr.v else SameFlags s t
    let product := BitVec.ofNat 32 ((s.x rm).toNat * (s.x rs).toNat)
    let sum := BitVec.ofNat 32 ((s.x rm).toNat * (s.x rs).toNat + (s.x rn).toNat)
    (Runs (.armMul cond sb rd rn rs rm) s fun t => Writes rd product s t ∧ flags product t) ∧
    (rn ≠ 15#4 → Runs (.armMla cond sb rd rn rs rm) s fun t => Writes rd sum s t ∧ flags sum t) ∧
    ∀ x y : LowReg, x ≠ y → sb = true →
      let v := BitVec.ofNat 32 ((s.x (lowReg y)).toNat * (s.x (lowReg x)).toNat)
      Runs (.thumbMul y x) s fun t => Writes (lowReg x) v s t ∧ flags v t

/-- 42 R504-R509: the long multiplies write the 64-bit product, or the product plus RdHi :: RdLo, as exact numbers modulo
2^64; with S they set N and Z (C and V are free values, of which nothing is said). -/
def Obligations.ArmLongMultiplies : Prop :=
  ∀ (s : State) (cond : Cond) (sb : Bool) (hi lo rs rm : RegNum),
    conditionPassed s.cpsr cond = true → hi ≠ 15#4 → lo ≠ 15#4 → rs ≠ 15#4 → rm ≠ 15#4 → hi ≠ lo → hi ≠ rm →
    lo ≠ rm →
    let u := (s.x rm).toNat * (s.x rs).toNat
    let i := (s.x rm).toInt * (s.x rs).toInt
    ∀ e ∈ [(Instr.armUmull cond sb hi lo rs rm, BitVec.ofNat 64 u),
        (.armUmlal cond sb hi lo rs rm, BitVec.ofNat 64 (u + ((s.x hi).toNat * 2 ^ 32 + (s.x lo).toNat))),
        (.armSmull cond sb hi lo rs rm, BitVec.ofInt 64 i),
        (.armSmlal cond sb hi lo rs rm, BitVec.ofInt 64 (i + (s.x hi ++ s.x lo).toInt))],
      Runs e.1 s fun t => t.x hi ++ t.x lo = e.2 ∧ Advanced s t ∧ RegisterFrame (destOf s hi ++ destOf s lo) s t ∧
        if sb then t.cpsr.n = e.2.getLsbD 63 ∧ t.cpsr.z = (e.2 == 0#64) else SameFlags s t

/-- 42 R510: the UMAAL encoding changes no register, flag or memory; pc advances by 4. -/
def Obligations.UmaalIsNoOperation : Prop :=
  ∀ (s : State) (cond : Cond) (hi lo rs rm : RegNum), conditionPassed s.cpsr cond = true → s.cpsr.t = false →
    Runs (.armUmaal cond hi lo rs rm) s fun t => t.pc = s.pc + 4#32 ∧ SameFlags s t ∧ RegisterFrame [] s t

/-- 41 R453; 42 R500, R501; 43 R532-R534, R537, R548, R561, R563, R569, R571, R573, R582; 44 R611, R612; 45_thumb R683,
R730 (the spec's decisions D11, D16, D17, D19): the operand combinations that stop the machine. That MRS with Rd = 15 and
R = 1 stops as unpredictable in USR and SYS too, where the missing SPSR would stop it as well, is the model's choice of
which stop is named (log 18). -/
def Obligations.ForbiddenOperandsStop : Prop :=
  ∀ (s : State) (cond : Cond) (sb p u w r : Bool) (rn rd rs rm hi lo : RegNum) (op2 : Operand2) (off : Offset)
    (imm8 : BitVec 8) (mask : BitVec 4) (list : BitVec 16), conditionPassed s.cpsr cond = true →
    (¬ShiftUsable op2 → ∀ i ∈ [Instr.armAnd cond sb rn rd op2, .armEor cond sb rn rd op2, .armSub cond sb rn rd op2,
      .armRsb cond sb rn rd op2, .armAdd cond sb rn rd op2, .armAdc cond sb rn rd op2, .armSbc cond sb rn rd op2,
      .armRsc cond sb rn rd op2, .armTst cond rn rd op2, .armTeq cond rn rd op2, .armCmp cond rn rd op2,
      .armCmn cond rn rd op2, .armOrr cond sb rn rd op2, .armMov cond sb rn rd op2, .armBic cond sb rn rd op2,
      .armMvn cond sb rn rd op2], exec i s = .fault .unpredictable) ∧
    (rd = 15#4 ∨ rs = 15#4 ∨ rm = 15#4 ∨ rd = rm → exec (.armMul cond sb rd rn rs rm) s = .fault .unpredictable) ∧
    (rd = 15#4 ∨ rn = 15#4 ∨ rs = 15#4 ∨ rm = 15#4 ∨ rd = rm →
      exec (.armMla cond sb rd rn rs rm) s = .fault .unpredictable) ∧
    (hi = 15#4 ∨ lo = 15#4 ∨ rs = 15#4 ∨ rm = 15#4 ∨ hi = lo ∨ hi = rm ∨ lo = rm →
      ∀ i ∈ [Instr.armUmull cond sb hi lo rs rm, .armUmlal cond sb hi lo rs rm, .armSmull cond sb hi lo rs rm,
        .armSmlal cond sb hi lo rs rm], exec i s = .fault .unpredictable) ∧
    (¬BaseUsable p w rn rd ∨ ¬OffsetUsable off →
      ∀ i ∈ [Instr.armLdr cond p u w rn rd off, .armStr cond p u w rn rd off], exec i s = .fault .unpredictable) ∧
    (¬BaseUsable p w rn rd ∨ ¬OffsetUsable off ∨ rd = 15#4 →
      ∀ i ∈ [Instr.armLdrb cond p u w rn rd off, .armStrb cond p u w rn rd off], exec i s = .fault .unpredictable) ∧
    (rn = 15#4 ∨ rd = rn ∨ ¬OffsetUsable off →
      ∀ i ∈ [Instr.armLdrt cond u rn rd off, .armStrt cond u rn rd off], exec i s = .fault .unpredictable) ∧
    (rn = 15#4 ∨ rd = rn ∨ ¬OffsetUsable off ∨ rd = 15#4 →
      ∀ i ∈ [Instr.armLdrbt cond u rn rd off, .armStrbt cond u rn rd off], exec i s = .fault .unpredictable) ∧
    (¬BaseUsable p w rn rd ∨ (p = false ∧ w = true) ∨ rd = 15#4 →
      ∀ i ∈ [Instr.armStrhImm cond p u w rn rd imm8, .armLdrhImm cond p u w rn rd imm8,
        .armLdrsbImm cond p u w rn rd imm8, .armLdrshImm cond p u w rn rd imm8], exec i s = .fault .unpredictable) ∧
    (¬BaseUsable p w rn rd ∨ (p = false ∧ w = true) ∨ rd = 15#4 ∨ rm = 15#4 →
      ∀ i ∈ [Instr.armStrhReg cond p u w rn rd rm, .armLdrhReg cond p u w rn rd rm, .armLdrsbReg cond p u w rn rd rm,
        .armLdrshReg cond p u w rn rd rm], exec i s = .fault .unpredictable) ∧
    (rn = 15#4 ∨ rd = 15#4 ∨ rm = 15#4 ∨ rn = rd ∨ rn = rm →
      ∀ i ∈ [Instr.armSwp cond rn rd rm, .armSwpb cond rn rd rm], exec i s = .fault .unpredictable) ∧
    (list = 0#16 ∨ rn = 15#4 ∨ (w = true ∧ list.getLsbD rn.toNat = true) ∨
        (sb = true ∧ list.getLsbD 15 = false ∧ (w = true ∨ s.cpsr.mode = .usr ∨ s.cpsr.mode = .sys)) →
      exec (.armLdm cond p u sb w rn list) s = .fault .unpredictable) ∧
    (list = 0#16 ∨ rn = 15#4 ∨ (sb = true ∧ (w = true ∨ s.cpsr.mode = .usr ∨ s.cpsr.mode = .sys)) →
      exec (.armStm cond p u sb w rn list) s = .fault .unpredictable) ∧
    exec (.armMrs cond r 15#4) s = .fault .unpredictable ∧
    exec (.armMsrReg cond r mask 15#4) s = .fault .unpredictable ∧
    (∀ x : LowReg, exec (.thumbMul x x) s = .fault .unpredictable) ∧
    (∀ x : LowReg, ∀ i ∈ [Instr.thumbPush false 0#8, .thumbPop false 0#8, .thumbStmia x 0#8, .thumbLdmia x 0#8],
      exec i s = .fault .unpredictable)

/-! ### ARM loads and stores -/

/-- 43 R530, R531, R535, R538, R540, R542, R543, R545, R547: LDR, LDRB, LDRT and LDRBT into a register, and LDR and LDRT
into R15, which branch to the loaded word, word-aligned, in ARM state. -/
def Obligations.ArmWordAndByteLoads : Prop :=
  ∀ (s : State) (cond : Cond) (p u w : Bool) (rn rd : RegNum) (off : Offset) (o addr : Word),
    conditionPassed s.cpsr cond = true → BaseUsable p w rn rd → OffsetUsable off →
    o = offsetValue s off → addr = accessAddr p u (s.x rn) o →
    (rd ≠ 15#4 →
      Runs (.armLdr cond p u w rn rd off) s (Loaded p u w rn rd o (loadWord s addr) s) ∧
      Runs (.armLdrb cond p u w rn rd off) s (Loaded p u w rn rd o (loadByte s addr) s) ∧
      (p = false → w = true → Runs (.armLdrt cond u rn rd off) s (Loaded p u w rn rd o (loadWord s addr) s) ∧
        Runs (.armLdrbt cond u rn rd off) s (Loaded p u w rn rd o (loadByte s addr) s))) ∧
    (rd = 15#4 →
      ∀ i, i = .armLdr cond p u w rn rd off ∨ (p = false ∧ w = true ∧ i = .armLdrt cond u rn rd off) →
      Runs i s fun t => t.pc = alignWord (loadWord s addr) ∧ t.cpsr = s.cpsr ∧
        (BaseWritten p w → t.x rn = offsetAddr u (s.x rn) o) ∧ RegisterFrame (baseDest p w s rn) s t)

/-- 43 R548, R551-R553: LDRH, LDRSB and LDRSH, with an immediate and with a register offset. -/
def Obligations.ArmHalfwordAndSignedLoads : Prop :=
  ∀ (s : State) (cond : Cond) (p u w : Bool) (rn rd rm : RegNum) (imm8 : BitVec 8),
    conditionPassed s.cpsr cond = true → rd ≠ 15#4 → rm ≠ 15#4 → BaseUsable p w rn rd → ¬(p = false ∧ w = true) →
    let imm : Word := imm8.setWidth 32
    let loads := fun (i : Instr) (f : State → Word → Word) (o : Word) =>
      Runs i s (Loaded p u w rn rd o (f s (accessAddr p u (s.x rn) o)) s)
    loads (.armLdrhImm cond p u w rn rd imm8) loadHalf imm ∧
    loads (.armLdrhReg cond p u w rn rd rm) loadHalf (s.x rm) ∧
    loads (.armLdrsbImm cond p u w rn rd imm8) loadSignedByte imm ∧
    loads (.armLdrsbReg cond p u w rn rd rm) loadSignedByte (s.x rm) ∧
    loads (.armLdrshImm cond p u w rn rd imm8) loadSignedHalf imm ∧
    loads (.armLdrshReg cond p u w rn rd rm) loadSignedHalf (s.x rm)

/-- 43 R538, R543, R549, R551-R553; 20_memory R216, R217: what the loads return, byte by byte, outside save memory, where
the bytes are known. A misaligned word or halfword comes rotated, if the parameter says so. -/
def Obligations.LoadedValues : Prop :=
  ∀ (s : State) (a : Word), regionOf a ≠ .save →
    (∀ b : Nat → Byte, (∀ k, k < 4 → peek s (alignWord a + BitVec.ofNat 32 k) = some (b k)) →
      ∀ k, k < 4 → byteOf (loadWord s a) k =
        b (if s.params.misalignedLoadRotate then (a.toNat % 4 + k) % 4 else k)) ∧
    (∀ b0 b1, peek s (alignHalf a) = some b0 → peek s (alignHalf a + 1#32) = some b1 →
      loadHalf s a = (if a.toNat % 2 = 1 ∧ s.params.misalignedLoadRotate = true then b0 ++ 0#16 ++ b1
        else 0#16 ++ b1 ++ b0) ∧
      loadSignedHalf s a = (if a.toNat % 2 = 1 ∧ s.params.misalignedLoadRotate = true then b1.signExtend 32
        else (b1 ++ b0).signExtend 32)) ∧
    ∀ b, peek s a = some b → loadByte s a = b.setWidth 32 ∧ loadSignedByte s a = b.signExtend 32

/-- 43 R530, R531, R541, R544, R546, R547, R550; 20_memory R216, R217: the ARM stores, where they are no pipeline
hazard. -/
def Obligations.ArmStores : Prop :=
  ∀ (s : State) (cond : Cond) (p u w : Bool) (rn rd rm : RegNum) (off : Offset) (o addr imm : Word) (imm8 : BitVec 8),
    s.MemoryInv → conditionPassed s.cpsr cond = true → BaseUsable p w rn rd → o = offsetValue s off →
    addr = accessAddr p u (s.x rn) o → imm = imm8.setWidth 32 →
    (OffsetUsable off → storeHazard s .word (alignWord addr) = false →
      let v := if rd = 15#4 then storedPc s else s.x rd
      Runs (.armStr cond p u w rn rd off) s (Stored p u w rn o .word (alignWord addr) v s) ∧
      (p = false → w = true → Runs (.armStrt cond u rn rd off) s (Stored p u w rn o .word (alignWord addr) v s))) ∧
    (OffsetUsable off → rd ≠ 15#4 → storeHazard s .byte addr = false →
      Runs (.armStrb cond p u w rn rd off) s (Stored p u w rn o .byte addr (s.x rd) s) ∧
      (p = false → w = true → Runs (.armStrbt cond u rn rd off) s (Stored p u w rn o .byte addr (s.x rd) s))) ∧
    (rd ≠ 15#4 → ¬(p = false ∧ w = true) →
      let a := fun x => alignHalf (accessAddr p u (s.x rn) x)
      (storeHazard s .half (a imm) = false →
        Runs (.armStrhImm cond p u w rn rd imm8) s (Stored p u w rn imm .half (a imm) (s.x rd) s)) ∧
      (rm ≠ 15#4 → storeHazard s .half (a (s.x rm)) = false →
        Runs (.armStrhReg cond p u w rn rd rm) s (Stored p u w rn (s.x rm) .half (a (s.x rm)) (s.x rd) s)))

/-- 43 R580, R581: SWP and SWPB read memory, store Rm there and write what was read to Rd, in one step. -/
def Obligations.ArmSwaps : Prop :=
  ∀ (s : State) (cond : Cond) (rn rd rm : RegNum), s.MemoryInv → conditionPassed s.cpsr cond = true →
    rn ≠ 15#4 → rd ≠ 15#4 → rm ≠ 15#4 → rn ≠ rd → rn ≠ rm →
    (storeHazard s .word (alignWord (s.x rn)) = false → Runs (.armSwp cond rn rd rm) s fun t =>
      t.x rd = loadWord s (s.x rn) ∧ StoreDone (destOf s rd) .word (alignWord (s.x rn)) (s.x rm) s t) ∧
    (storeHazard s .byte (s.x rn) = false → Runs (.armSwpb cond rn rd rm) s fun t =>
      t.x rd = loadByte s (s.x rn) ∧ StoreDone (destOf s rd) .byte (s.x rn) (s.x rm) s t)

/-- 43 R560, R562, R564, R566, R569, R571, R574: LDM without R15 in its list, into the current view, or with S into the
user bank. -/
def Obligations.ArmLoadMultiple : Prop :=
  ∀ (s : State) (cond : Cond) (p u sb w : Bool) (rn : RegNum) (list : BitVec 16) (m : Mode),
    conditionPassed s.cpsr cond = true → list ≠ 0#16 → list.getLsbD 15 = false → rn ≠ 15#4 →
    (w = true → list.getLsbD rn.toNat = false) →
    (sb = true → w = false ∧ s.cpsr.mode ≠ .usr ∧ s.cpsr.mode ≠ .sys) → m = (if sb then .usr else s.cpsr.mode) →
    Runs (.armLdm cond p u sb w rn list) s fun t =>
      WordsLoaded m p u (s.x rn) list s t ∧
      (w = true → t.x rn = blockBase u (s.x rn) (lowerCount list 16)) ∧ Advanced s t ∧ t.cpsr = s.cpsr ∧
      RegisterFrame (listedBy m list ++ if w then destOf s rn else []) s t

/-- 43 R568, R572; 10_state R106: LDM with R15 in its list branches to the word loaded for R15; with S it also restores
CPSR, after the registers of the old view are loaded. -/
def Obligations.ArmLoadMultipleWithPc : Prop :=
  ∀ (s : State) (cond : Cond) (p u w : Bool) (rn : RegNum) (list : BitVec 16),
    conditionPassed s.cpsr cond = true → list.getLsbD 15 = true → rn ≠ 15#4 →
    (w = true → list.getLsbD rn.toNat = false) →
    let n := lowerCount list 16
    let regs := fun (t : State) => WordsLoaded s.cpsr.mode p u (s.x rn) list s t ∧
      (w = true → t.xIn s.cpsr.mode rn = blockBase u (s.x rn) n)
    let written := listedBy s.cpsr.mode list ++ if w then destOf s rn else []
    (Runs (.armLdm cond p u false w rn list) s fun t => regs t ∧
      (∀ v, WordAt s (blockAddr p u (s.x rn) n (n - 1)) v → t.pc = alignWord v) ∧ t.cpsr = s.cpsr ∧
      RegisterFrame written s t) ∧
    (∀ q c, s.spsrOf s.cpsr.mode = some q → q.restored = some c →
      Runs (.armLdm cond p u true w rn list) s fun t => regs t ∧
        (∀ v, WordAt s (blockAddr p u (s.x rn) n (n - 1)) v → t.pc = if c.t then alignHalf v else alignWord v) ∧
        t.cpsr = c ∧ StatusFrame written s t) ∧
    (s.spsrOf s.cpsr.mode = none → exec (.armLdm cond p u true w rn list) s = .fault .noSpsrInMode) ∧
    (∀ q, s.spsrOf s.cpsr.mode = some q → q.restored = none →
      exec (.armLdm cond p u true w rn list) s = .fault .invalidModeRestore)

/-- 43 R560, R562, R564, R567, R573, R575: STM from the current view, or with S from the user bank. -/
def Obligations.ArmStoreMultiple : Prop :=
  ∀ (s : State) (cond : Cond) (p u sb w : Bool) (rn : RegNum) (list : BitVec 16) (m : Mode) (base' : Word),
    s.MemoryInv → conditionPassed s.cpsr cond = true → list ≠ 0#16 → rn ≠ 15#4 →
    (sb = true → w = false ∧ s.cpsr.mode ≠ .usr ∧ s.cpsr.mode ≠ .sys) → m = (if sb then .usr else s.cpsr.mode) →
    base' = blockBase u (s.x rn) (lowerCount list 16) → NoBlockHazard p u (s.x rn) list s →
    Runs (.armStm cond p u sb w rn list) s fun t => (w = true → t.x rn = base') ∧
      WordsStored (if w then destOf s rn else []) p u (s.x rn) list (blockValue s m rn w list base') s t

/-! ### PSR transfer -/

/-- 44 R611; 10_state R110, R115: MRS reads CPSR, or the SPSR of a mode that has one; without one it stops. -/
def Obligations.MrsReadsStatus : Prop :=
  ∀ (s : State) (cond : Cond) (rd : RegNum), conditionPassed s.cpsr cond = true → rd ≠ 15#4 →
    (Runs (.armMrs cond false rd) s fun t => Writes rd s.cpsr.toWord s t ∧ SameFlags s t) ∧
    (∀ p, s.spsrOf s.cpsr.mode = some p → Runs (.armMrs cond true rd) s fun t => Writes rd p.toWord s t ∧ SameFlags s t) ∧
    (s.spsrOf s.cpsr.mode = none → exec (.armMrs cond true rd) s = .fault .noSpsrInMode) ∧
    s.cpsr.toWord.extractLsb' 8 20 = 0#20 ∧ ∀ p, s.spsrOf s.cpsr.mode = some p → p.toWord.extractLsb' 8 20 = 0#20

/-- 44 R612-R616: MSR to CPSR writes the flags byte in any mode and the control byte in a privileged one, the latter only
with a legal mode and the state bit as it is; MSR to the SPSR writes its flags and control bytes, in a mode that has
one. That an empty mask stops too in a mode without an SPSR is the model's choice (log 17), and so is which of two stops is
named (log 18). -/
def Obligations.MsrWritesStatus : Prop :=
  ∀ (s : State) (cond : Cond) (mask rot : BitVec 4) (rm : RegNum) (imm8 : BitVec 8),
    conditionPassed s.cpsr cond = true → rm ≠ 15#4 →
    ∀ e ∈ [((fun r => Instr.armMsrReg cond r mask rm), s.x rm),
        (fun r => .armMsrImm cond r mask rot imm8, (imm8.setWidth 32).rotateRight (2 * rot.toNat))],
      let lanes := fun c : Bool => (if mask.getLsbD 3 then 0xF0000000#32 else 0#32) ||| if c then 0xFF#32 else 0#32
      let control := mask.getLsbD 0 && s.cpsr.mode != .usr
      let m := lanes control
      let ms := lanes (mask.getLsbD 0)
      let legal := (Mode.ofBits (e.2.extractLsb' 0 5)).isSome
      (control = true → legal = false → exec (e.1 false) s = .fault .invalidMode) ∧
      (control = true → legal = true → e.2.getLsbD 5 ≠ s.cpsr.t → exec (e.1 false) s = .fault .unpredictable) ∧
      ((control = true → legal = true ∧ e.2.getLsbD 5 = s.cpsr.t) → Runs (e.1 false) s fun t =>
        t.cpsr.toWord = (s.cpsr.toWord &&& ~~~m) ||| (e.2 &&& m) ∧ Advanced s t ∧ StatusFrame [] s t) ∧
      (s.spsrOf s.cpsr.mode = none → exec (e.1 true) s = .fault .noSpsrInMode) ∧
      ∀ p, s.spsrOf s.cpsr.mode = some p → Runs (e.1 true) s fun t =>
        (t.spsrOf s.cpsr.mode).map Spsr.toWord = some ((p.toWord &&& ~~~ms) ||| (e.2 &&& ms)) ∧
        (∀ n, n ≠ s.cpsr.mode → t.spsrOf n = s.spsrOf n) ∧ Advanced s t ∧ t.cpsr = s.cpsr ∧ RegsSameBut [] s t ∧
        SameDevices s t ∧ t.save = s.save ∧ SameReads s t ∧ t.lastFetchAddr = s.lastFetchAddr ∧
        t.lastFetchWord = s.lastFetchWord ∧ t.params = s.params ∧ t.refill = s.refill

/-! ### Branches -/

/-- 44 R600; 45_thumb R737, R740, R741: the branches add their signed offset to the operand value of R15; the first half of
a Thumb BL prepares R14; no flag changes. -/
def Obligations.Branches : Prop :=
  ∀ (s : State) (cond : Cond) (offset24 : BitVec 24) (soffset8 : BitVec 8) (offset11 : BitVec 11),
    let target := fun (d : Int) (t : State) =>
      t.pc = s.pc + BitVec.ofInt 32 d ∧ t.cpsr = s.cpsr ∧ RegisterFrame [] s t
    (conditionPassed s.cpsr cond = true → Runs (.armB cond offset24) s (target (8 + 4 * offset24.toInt))) ∧
    (conditionPassed s.cpsr cond = true → Runs (.thumbBCond cond soffset8) s (target (4 + 2 * soffset8.toInt))) ∧
    (conditionPassed s.cpsr cond = false → s.cpsr.t = true → Runs (.thumbBCond cond soffset8) s (target 2)) ∧
    Runs (.thumbB offset11) s (target (4 + 2 * offset11.toInt)) ∧
    Runs (.thumbBlFirst offset11) s fun t => t.x 14#4 = s.pc + BitVec.ofInt 32 (4 + 4096 * offset11.toInt) ∧
      Advanced s t ∧ t.cpsr = s.cpsr ∧ RegisterFrame (destOf s 14#4) s t

/-- 44 R601, R603; 45_thumb R713, R742: BL writes the return address to R14 (Thumb: with bit 0 set, in the second half); BX
branches to a register and takes its bit 0 as the state. -/
def Obligations.LinkAndExchange : Prop :=
  ∀ (s : State) (cond : Cond) (offset24 : BitVec 24) (rm : RegNum) (sbz : BitVec 3) (offset11 : BitVec 11),
    let exchange := fun t : State => t.cpsr = { s.cpsr with t := (s.x rm).getLsbD 0 } ∧
      t.pc = (if (s.x rm).getLsbD 0 then alignHalf (s.x rm) else alignWord (s.x rm)) ∧ StatusFrame [] s t
    (conditionPassed s.cpsr cond = true → (Runs (.armBl cond offset24) s fun t => t.x 14#4 = s.pc + 4#32 ∧
      t.pc = s.pc + BitVec.ofInt 32 (8 + 4 * offset24.toInt) ∧ t.cpsr = s.cpsr ∧ RegisterFrame (destOf s 14#4) s t) ∧
      Runs (.armBx cond rm) s exchange) ∧
    Runs (.thumbBx rm sbz) s exchange ∧
    Runs (.thumbBlSecond offset11) s fun t => t.x 14#4 = (s.pc + 2#32) ||| 1#32 ∧
      t.pc = alignHalf (s.x 14#4 + BitVec.ofNat 32 (2 * offset11.toNat)) ∧ t.cpsr = s.cpsr ∧
      RegisterFrame (destOf s 14#4) s t

/-! ### Software interrupts and reserved encodings -/

/-- 46_bios_hle R755, R759, R764, R768 (and R750, R753, R758): Div and DivArm truncate toward zero, Sqrt is the floor of
the square root, GetBiosChecksum answers the parameter; MidiKey2Freq with its default function is the floor of
`f * 2^((256 mk + fp - 46080) / 3072)`, where that is below 2^32 (from there on it is a free value, log 19). -/
def Obligations.HleArithmetic : Prop :=
  ∀ (s : State) (i : Instr) (n : Byte), SwiCall i n s → s.params.swiHandling = .hle →
    let divides := fun num den : Int => den ≠ 0 → ¬(num = -2147483648 ∧ den = -1) →
      Runs i s (HleReturns [(0#4, BitVec.ofInt 32 (num.tdiv den)), (1#4, BitVec.ofInt 32 (num - num.tdiv den * den)),
        (3#4, BitVec.ofNat 32 (num.tdiv den).natAbs)] s)
    (n = 0x06#8 → .div ∈ s.params.hleSwiSet → divides (s.x 0#4).toInt (s.x 1#4).toInt) ∧
    (n = 0x07#8 → .divArm ∈ s.params.hleSwiSet → divides (s.x 1#4).toInt (s.x 0#4).toInt) ∧
    (n = 0x08#8 → .sqrt ∈ s.params.hleSwiSet → Runs i s fun t => HleReturns [] s t ∧
      (t.x 0#4).toNat ^ 2 ≤ (s.x 0#4).toNat ∧ (s.x 0#4).toNat < ((t.x 0#4).toNat + 1) ^ 2) ∧
    (n = 0x0D#8 → .getBiosChecksum ∈ s.params.hleSwiSet → Runs i s (HleReturns [(0#4, s.params.biosChecksum)] s)) ∧
    (n = 0x1F#8 → .midiKey2Freq ∈ s.params.hleSwiSet → s.params.midiFreqFn = .standard → ∀ (f : Word) (e d : Nat),
      ReadsAs s .word (s.x 0#4 + 4#32) f → e = 3072 → d = 256 * (s.x 1#4).toNat + (s.x 2#4).toNat →
      let scaled := f.toNat ^ e * 2 ^ (d - 46080)
      let power := fun r : Nat => r ^ e * 2 ^ (46080 - d)
      scaled < power (2 ^ 32) → Runs i s fun t => HleReturns [] s t ∧
        power (t.x 0#4).toNat ≤ scaled ∧ scaled < power ((t.x 0#4).toNat + 1))

/-- 46_bios_hle R756, R757, R760, R761 (the spec's decisions D59-D61): division by zero and its overflow; the arctangent
polynomial on the integers, for tangents from -1 to 1; the axes of ArcTan2. -/
def Obligations.HleCorners : Prop :=
  ∀ (s : State) (i : Instr) (n : Byte), SwiCall i n s → s.params.swiHandling = .hle →
    let byZero := fun num : Word => Runs i s (HleReturns
      [(0#4, if num.toInt < 0 then 0xFFFFFFFF#32 else 1#32), (1#4, num), (3#4, 1#32)] s)
    let overflow := Runs i s (HleReturns [(0#4, s.params.divOverflowResult.1),
      (1#4, s.params.divOverflowResult.2.1), (3#4, s.params.divOverflowResult.2.2)] s)
    (n = 0x06#8 → .div ∈ s.params.hleSwiSet → (s.x 1#4 = 0#32 → byZero (s.x 0#4)) ∧
      (s.x 0#4 = 0x80000000#32 → s.x 1#4 = 0xFFFFFFFF#32 → overflow)) ∧
    (n = 0x07#8 → .divArm ∈ s.params.hleSwiSet → (s.x 0#4 = 0#32 → byZero (s.x 1#4)) ∧
      (s.x 1#4 = 0x80000000#32 → s.x 0#4 = 0xFFFFFFFF#32 → overflow)) ∧
    (n = 0x09#8 → .arcTan ∈ s.params.hleSwiSet → s.params.arcTanFn = .standard →
      -16384 ≤ (s.x 0#4).toInt → (s.x 0#4).toInt ≤ 16384 →
      let v := (s.x 0#4).toInt
      let a := -(v * v / 16384)
      let b := [0x390, 0x91C, 0xFB6, 0x16AA, 0x2081, 0x3651, 0xA2F9].foldl (fun b c => b * a / 16384 + c) (0xA9 : Int)
      Runs i s (HleReturns [(0#4, (BitVec.ofInt 16 (v * b / 65536)).setWidth 32)] s)) ∧
    (n = 0x0A#8 → .arcTan2 ∈ s.params.hleSwiSet → s.params.arcTan2Fn = .standard →
      let x := ((s.x 0#4).setWidth 16).toInt
      let y := ((s.x 1#4).setWidth 16).toInt
      (y = 0 → Runs i s (HleReturns [(0#4, if 0 ≤ x then 0#32 else 0x8000#32)] s)) ∧
      (x = 0 → y ≠ 0 → Runs i s (HleReturns [(0#4, if 0 ≤ y then 0x4000#32 else 0xC000#32)] s)))

/-- 46_bios_hle R762, R763, R765, R766, R767 (and R750, R753; 70_reset R1220): the emulated functions that write memory,
where no store is a pipeline hazard. CpuSet filling with words stores the source word `count` times and changes nothing
else, where the destination is work RAM. CpuSet and CpuFastSet, filling or copying, BgAffineSet, ObjAffineSet and BitUnPack
do exactly their bus writes, in order, for every destination; what they read is read after the writes before it. Div by a
power of two rounds down (`>>` of R765, R766). BitUnPack with another width stops. -/
def Obligations.HleMemoryFunctions : Prop :=
  (∀ (s : State) (i : Instr) (n : Byte) (writes : List (Width × Word × Word)), SwiCall i n s →
    s.params.swiHandling = .hle → (∀ e ∈ writes, storeHazard s e.1 e.2.1 = false) →
    let stores := fun scratch : List PReg => Runs i s (HleStores scratch writes s)
    let after := fun k : Nat => busWrites (writes.take k) s
    let at' := fun (r : RegNum) (o : Nat) => s.x r + BitVec.ofNat 32 o
    let all : List PReg := [.r0, .r1, .r2, .r3]
    let matrix := fun (sx sy : Int) (theta : Word) =>
      let (sn, cs) := sinCos s.params (theta.extractLsb' 8 8)
      (sx * cs / 16384, -(sx * sn / 16384), sy * sn / 16384, sy * cs / 16384)
    let half := fun (a : Word) (v : Int) => (Width.half, a, BitVec.ofInt 32 v)
    let word := fun (a : Word) (v : Int) => (Width.word, a, BitVec.ofInt 32 v)
    (∀ (w : Width) (count : Nat) (src dst : Word) (v : Nat → Word),
      ((n = 0x0B#8 ∧ .cpuSet ∈ s.params.hleSwiSet ∧ w = (if (s.x 2#4).getLsbD 26 then .word else .half) ∧
          count = (s.x 2#4).toNat % 2 ^ 21) ∨
        (n = 0x0C#8 ∧ .cpuFastSet ∈ s.params.hleSwiSet ∧ w = .word ∧ count = ((s.x 2#4).toNat % 2 ^ 21 + 7) / 8 * 8)) →
      src = w.align (s.x 0#4) → dst = w.align (s.x 1#4) →
      writes = ((List.range count).map fun k => (w, dst + BitVec.ofNat 32 (w.bytes * k), v k)) →
      (∀ k, k < count → if (s.x 2#4).getLsbD 24 then ReadsAs s w src (v k)
        else ReadsAs (after k) w (src + BitVec.ofNat 32 (w.bytes * k)) (v k)) → stores [.r0, .r1, .r3]) ∧
    (n = 0x0E#8 → .bgAffineSet ∈ s.params.hleSwiSet → ∀ (ox oy cx cy sx sy theta : Nat → Word),
      writes = ((List.range (s.x 2#4).toNat).flatMap fun k =>
        let (pa, pb, pc, pd) := matrix (s16 (sx k)) (s16 (sy k)) (theta k)
        let out := fun o => at' 1#4 (16 * k + o)
        [half (out 0) pa, half (out 2) pb, half (out 4) pc, half (out 6) pd,
          word (out 8) ((ox k).toInt - (pa * s16 (cx k) + pb * s16 (cy k))),
          word (out 12) ((oy k).toInt - (pc * s16 (cx k) + pd * s16 (cy k)))]) →
      (∀ k, k < (s.x 2#4).toNat → ∀ e ∈ [(Width.word, 0, ox k), (.word, 4, oy k), (.half, 8, cx k), (.half, 10, cy k),
          (.half, 12, sx k), (.half, 14, sy k), (.half, 16, theta k)],
        ReadsAs (after (6 * k)) e.1 (at' 0#4 (20 * k + e.2.1)) e.2.2) → stores all) ∧
    (n = 0x0F#8 → .objAffineSet ∈ s.params.hleSwiSet → ∀ (sx sy theta : Nat → Word),
      writes = ((List.range (s.x 2#4).toNat).flatMap fun k =>
        let (pa, pb, pc, pd) := matrix (s16 (sx k)) (s16 (sy k)) (theta k)
        let out := fun j => at' 1#4 ((4 * k + j) * (s.x 3#4).toNat)
        [half (out 0) pa, half (out 1) pb, half (out 2) pc, half (out 3) pd]) →
      (∀ k, k < (s.x 2#4).toNat → ∀ e ∈ [(0, sx k), (2, sy k), (4, theta k)],
        ReadsAs (after (4 * k)) .half (at' 0#4 (8 * k + e.1)) e.2) → stores all) ∧
    (n = 0x10#8 → .bitUnPack ∈ s.params.hleSwiSet → ∀ (len sw dw bias : Word) (b v : Nat → Word),
      ReadsAs s .half (s.x 2#4) len → ReadsAs s .byte (at' 2#4 2) sw → ReadsAs s .byte (at' 2#4 3) dw →
      ReadsAs s .word (at' 2#4 4) bias →
      let legal := sw.toNat ∈ [1, 2, 4, 8] ∧ dw.toNat ∈ [1, 2, 4, 8, 16, 32]
      let words := fun m : Nat => m * (8 / sw.toNat) * dw.toNat / 32
      let unit := fun j : Nat => (b (j * sw.toNat / 8)).toNat / 2 ^ (j * sw.toNat % 8) % 2 ^ sw.toNat
      let biased := fun j : Nat => if unit j ≠ 0 ∨ bias.getLsbD 31 = true then unit j + bias.toNat % 2 ^ 31 else unit j
      (legal → writes = ((List.range (words len.toNat)).map fun q => (Width.word, at' 1#4 (4 * q), v q)) →
        (∀ m, m < len.toNat → ReadsAs (after (words m)) .byte (at' 0#4 m) (b m)) →
        (∀ q j, q < words len.toNat → j < 32 / dw.toNat →
          (v q).toNat / 2 ^ (dw.toNat * j) % 2 ^ dw.toNat = biased (q * (32 / dw.toNat) + j) % 2 ^ dw.toNat) →
        stores all) ∧
      (¬legal → exec i s = .fault .badArgument))) ∧
  ∀ (s : State) (i : Instr) (src dst v : Word) (count : Nat), SwiCall i 0x0B#8 s → s.params.swiHandling = .hle →
    .cpuSet ∈ s.params.hleSwiSet → s.MemoryInv → (s.x 2#4).getLsbD 24 = true → (s.x 2#4).getLsbD 26 = true →
    count = (s.x 2#4).toNat % 2 ^ 21 → src = alignWord (s.x 0#4) → dst = alignWord (s.x 1#4) → WordAt s src v →
    regionOf dst = .ewram → dst.toNat % 0x40000 + 4 * count ≤ 0x40000 →
    (∀ k, k < count → storeHazard s .word (dst + BitVec.ofNat 32 (4 * k)) = false) →
    Runs i s fun t => Advanced s t ∧ t.cpsr = s.cpsr ∧ RegsSameBut ([.r0, .r1, .r3] ++ destOf s 12#4) s t ∧
      SameCore s t ∧ SameDevices s t ∧ t.save = s.save ∧
      (∀ k, k < count → WordAt t (dst + BitVec.ofNat 32 (4 * k)) v) ∧
      ∀ a, (regionOf a = .ewram → a.toNat % 0x40000 < dst.toNat % 0x40000 ∨
        dst.toNat % 0x40000 + 4 * count ≤ a.toNat % 0x40000) → peek t a = peek s a

/-- 46_bios_hle R754: SoftReset clears the top of IWRAM, sets the stacks, links, saved status registers, R0 to R12 and CPSR,
and starts the cartridge or the EWRAM image by the flag byte. -/
def Obligations.HleSoftReset : Prop :=
  ∀ (s : State) (i : Instr), SwiCall i 0x00#8 s → s.params.swiHandling = .hle → .softReset ∈ s.params.hleSwiSet →
    s.MemoryInv → Runs i s fun t =>
      (∀ a, regionOf a = .iwram → 0x7E00 ≤ a.toNat % 0x8000 → peek t a = some 0#8) ∧
      (∀ a, ¬(regionOf a = .iwram ∧ 0x7E00 ≤ a.toNat % 0x8000) → peek t a = peek s a) ∧
      t.cpsr = ⟨false, false, false, false, false, false, false, .sys⟩ ∧
      (∀ b, peek s 0x03007FFA#32 = some b → t.pc = if b = 0#8 then 0x08000000#32 else 0x02000000#32) ∧
      t.reg .r13Svc = 0x03007FE0#32 ∧ t.reg .r13Irq = 0x03007FA0#32 ∧ t.reg .r13 = 0x03007F00#32 ∧
      (∀ r ∈ [PReg.r14Svc, .r14Irq, .r14, .r0, .r1, .r2, .r3, .r4, .r5, .r6, .r7, .r8, .r9, .r10, .r11, .r12],
        t.reg r = 0#32) ∧
      RegsSameBut [.r13Svc, .r13Irq, .r13, .r14Svc, .r14Irq, .r14, .r0, .r1, .r2, .r3, .r4, .r5, .r6, .r7, .r8, .r9,
        .r10, .r11, .r12] s t ∧
      (t.spsrOf .svc).map Spsr.toWord = some 0#32 ∧ (t.spsrOf .irq).map Spsr.toWord = some 0#32 ∧
      (∀ m, m ≠ .svc → m ≠ .irq → t.spsrOf m = s.spsrOf m) ∧ SameDevices s t ∧ t.save = s.save ∧ t.params = s.params

/-- 44 R620; 45_thumb R738; 46_bios_hle R751; 60_exceptions R812, R813, R820: an SWI takes the software-interrupt exception
under `Vector`; under `Hle` a number without a selected function is an undefined instruction. -/
def Obligations.SwiExceptions : Prop :=
  ∀ (s : State) (i : Instr) (n : Byte), SwiCall i n s →
    hleFunction n = [(0x00#8, Config.HleFn.softReset), (0x06#8, .div), (0x07#8, .divArm), (0x08#8, .sqrt),
      (0x09#8, .arcTan), (0x0A#8, .arcTan2), (0x0B#8, .cpuSet), (0x0C#8, .cpuFastSet), (0x0D#8, .getBiosChecksum),
      (0x0E#8, .bgAffineSet), (0x0F#8, .objAffineSet), (0x10#8, .bitUnPack), (0x1F#8, .midiKey2Freq)].lookup n ∧
    (s.params.swiHandling = .vector → Runs i s (Entered .svc 0x00000008#32 (s.pc + s.isize) s)) ∧
    (s.params.swiHandling = .hle → (∀ f, hleFunction n = some f → f ∉ s.params.hleSwiSet) →
      (s.params.invalidOpcode = .undefinedException → Runs i s (Entered .und 0x00000004#32 (s.pc + s.isize) s)) ∧
      (s.params.invalidOpcode = .noOp → exec i s = .next s.advance))

/-- 30_encoding R360-R362; 44 R625, R626; 60_exceptions R812, R820, R821: the undefined encodings, the coprocessor
instructions among them, take the Undefined exception (or advance, by the parameter); the reserved words of R361 stop. -/
def Obligations.ReservedEncodings : Prop :=
  ∀ (s : State) (cond : Cond) (body : BitVec 28) (p u n w l : Bool) (op : BitVec 4) (rn crd cp crm : RegNum)
    (op3 op2 : BitVec 3) (x7 : BitVec 7) (x8 : BitVec 8) (x11 : BitVec 11) (x12 : BitVec 12),
    conditionPassed s.cpsr cond = true →
    (∀ i ∈ [Instr.armUndefMultiply cond body, .armUndefCompareReg cond body, .armUndefCompareImm cond body,
        .armUndefA14 cond body, .armLdcStc cond p u n w l rn crd cp x8, .armCdp cond op rn crd cp op2 crm,
        .armMcr cond op3 rn crd cp op2 crm, .armMrc cond op3 rn crd cp op2 crm, .thumbUndefBlxReg x7,
        .thumbUndef1011 x12, .thumbUndefCond14 x8, .thumbUndefBlxSuffix x11],
      (s.params.invalidOpcode = .undefinedException → Runs i s (Entered .und 0x00000004#32 (s.pc + s.isize) s)) ∧
      (s.params.invalidOpcode = .noOp → Runs i s fun t => t = s.advance)) ∧
    ∀ i ∈ [Instr.armUnpredSwap cond body, .armUnpredDoubleword cond body, .armUnpredHalfwordReg cond body,
        .armUnpredMrs cond body, .armUnpredMsrReg cond body, .armUnpredMsrImm cond body],
      exec i s = .fault .unpredictable

/-! ### Thumb -/

/-- 45_thumb R653-R656, R661-R663, R675, R676, R679-R681, R711: the Thumb additions, subtractions and comparisons, with
all four flags from the exact numbers. -/
def Obligations.ThumbArithmetic : Prop :=
  ∀ (s : State) (rn rs rd : LowReg) (hd hm : RegNum) (imm3 : BitVec 3) (imm8 : BitVec 8) (d a b i3 i8 : Word) (c : Bool),
    d = s.x (lowReg rd) → a = s.x (lowReg rs) → b = s.x (lowReg rn) → i3 = imm3.setWidth 32 → i8 = imm8.setWidth 32 →
    c = s.cpsr.c →
    (∀ e ∈ [(Instr.thumbAddReg rn rs rd, sumOf a b false), (.thumbSubReg rn rs rd, differenceOf a b true),
        (.thumbAddImm3 imm3 rs rd, sumOf a i3 false), (.thumbSubImm3 imm3 rs rd, differenceOf a i3 true),
        (.thumbAddImm8 rd imm8, sumOf d i8 false), (.thumbSubImm8 rd imm8, differenceOf d i8 true),
        (.thumbAdc rs rd, sumOf d a c), (.thumbSbc rs rd, differenceOf d a c), (.thumbNeg rs rd, differenceOf 0#32 a true)],
      Runs e.1 s fun t => Writes (lowReg rd) e.2.value s t ∧ ArithmeticFlags e.2 t) ∧
    ∀ e ∈ [(Instr.thumbCmpImm8 rd imm8, differenceOf d i8 true), (.thumbCmp rs rd, differenceOf d a true),
        (.thumbCmn rs rd, sumOf d a false), (.thumbCmpHi hd hm, differenceOf (s.x hd) (s.x hm) true)],
      Runs e.1 s fun t => OnlyFlags s t ∧ ArithmeticFlags e.2 t

/-- 45_thumb R660, R670, R671, R678, R682, R684, R685: the Thumb moves and logical operations set N and Z and keep C and
V. R650-R652, R672-R674, R677, R701: the shifts, by a 5-bit immediate and by the low byte of Rs, take C from the shifter. -/
def Obligations.ThumbLogicalAndShifts : Prop :=
  ∀ (s : State) (rs rd : LowReg) (imm8 : BitVec 8) (imm5 : BitVec 5) (d a : Word) (n k : Nat) (c : Bool),
    d = s.x (lowReg rd) → a = s.x (lowReg rs) → n = imm5.toNat → k = a.toNat % 256 → c = s.cpsr.c →
    (∀ e ∈ [(Instr.thumbMovImm8 rd imm8, (⟨imm8.setWidth 32, c⟩ : Shifted)), (.thumbAnd rs rd, ⟨d &&& a, c⟩),
        (.thumbEor rs rd, ⟨d ^^^ a, c⟩), (.thumbOrr rs rd, ⟨d ||| a, c⟩), (.thumbBic rs rd, ⟨d &&& ~~~a, c⟩),
        (.thumbMvn rs rd, ⟨~~~a, c⟩), (.thumbLslImm imm5 rs rd, shiftImm .lsl a n c),
        (.thumbLsrImm imm5 rs rd, shiftImm .lsr a n c), (.thumbAsrImm imm5 rs rd, shiftImm .asr a n c),
        (.thumbLsl rs rd, shiftReg .lsl d k c), (.thumbLsr rs rd, shiftReg .lsr d k c),
        (.thumbAsr rs rd, shiftReg .asr d k c), (.thumbRor rs rd, shiftReg .ror d k c)],
      Runs e.1 s fun t => Writes (lowReg rd) e.2.value s t ∧ LogicalFlags e.2.value e.2.carry s t) ∧
    Runs (.thumbTst rs rd) s fun t => OnlyFlags s t ∧ LogicalFlags (d &&& a) c s t

/-- 45_thumb R710, R712, R727-R729: the hi-register ADD and MOV and the address forms change no flag; with R15 as the
destination ADD and MOV branch, halfword-aligned, in Thumb state. -/
def Obligations.ThumbHiRegistersAndAddresses : Prop :=
  ∀ (s : State) (hd hm : RegNum) (rd : LowReg) (word8 : BitVec 8) (sword7 : BitVec 7) (imm imm7 : Word),
    imm = BitVec.ofNat 32 (4 * word8.toNat) → imm7 = BitVec.ofNat 32 (4 * sword7.toNat) →
    (∀ e ∈ [(Instr.thumbAddHi hd hm, s.x hd + s.x hm), (.thumbMovHi hd hm, s.x hm)],
      (hd ≠ 15#4 → Runs e.1 s fun t => Writes hd e.2 s t ∧ SameFlags s t) ∧
      (hd = 15#4 → Runs e.1 s fun t => t.pc = alignHalf e.2 ∧ t.cpsr = s.cpsr ∧ RegisterFrame [] s t)) ∧
    ∀ e ∈ [(Instr.thumbAddPc rd word8, lowReg rd, alignWord (s.pc + 4#32) + imm),
        (.thumbAddSp rd word8, lowReg rd, s.x 13#4 + imm), (.thumbAdjustSp false sword7, 13#4, s.x 13#4 + imm7),
        (.thumbAdjustSp true sword7, 13#4, s.x 13#4 - imm7)],
      Runs e.1 s fun t => Writes e.2.1 e.2.2 s t ∧ SameFlags s t

/-- 45_thumb R691, R693, R695, R703, R717, R718, R720-R723, R726: the Thumb loads; no flag changes. -/
def Obligations.ThumbLoads : Prop :=
  ∀ (s : State) (ro rb rd : LowReg) (imm5 : BitVec 5) (word8 : BitVec 8) (b x sp : Word),
    b = s.x (lowReg rb) → x = b + s.x (lowReg ro) → sp = s.x 13#4 →
    let off := fun k : Nat => b + BitVec.ofNat 32 (k * imm5.toNat)
    let words := BitVec.ofNat 32 (4 * word8.toNat)
    ∀ e ∈ [(Instr.thumbLdrReg ro rb rd, loadWord s x), (.thumbLdrbReg ro rb rd, loadByte s x),
        (.thumbLdrhReg ro rb rd, loadHalf s x), (.thumbLdsb ro rb rd, loadSignedByte s x),
        (.thumbLdsh ro rb rd, loadSignedHalf s x), (.thumbLdrImm imm5 rb rd, loadWord s (off 4)),
        (.thumbLdrbImm imm5 rb rd, loadByte s (off 1)), (.thumbLdrhImm imm5 rb rd, loadHalf s (off 2)),
        (.thumbLdrPc rd word8, loadWord s (alignWord (s.pc + 4#32) + words)), (.thumbLdrSp rd word8, loadWord s (sp + words))],
      Runs e.1 s fun t => Writes (lowReg rd) e.2 s t ∧ SameFlags s t

/-- 45_thumb R690, R692, R694, R703, R715, R716, R719, R725: the Thumb stores, where they are no pipeline hazard. -/
def Obligations.ThumbStores : Prop :=
  ∀ (s : State) (ro rb rd : LowReg) (imm5 : BitVec 5) (word8 : BitVec 8) (b x : Word), s.MemoryInv →
    b = s.x (lowReg rb) → x = b + s.x (lowReg ro) →
    let off := fun k : Nat => b + BitVec.ofNat 32 (k * imm5.toNat)
    ∀ e ∈ [(Instr.thumbStrReg ro rb rd, Width.word, alignWord x), (.thumbStrbReg ro rb rd, .byte, x),
        (.thumbStrhReg ro rb rd, .half, alignHalf x), (.thumbStrImm imm5 rb rd, .word, alignWord (off 4)),
        (.thumbStrbImm imm5 rb rd, .byte, off 1), (.thumbStrhImm imm5 rb rd, .half, alignHalf (off 2)),
        (.thumbStrSp rd word8, .word, alignWord (s.x 13#4 + BitVec.ofNat 32 (4 * word8.toNat)))],
      storeHazard s e.2.1 e.2.2 = false → Runs e.1 s (StoreDone [] e.2.1 e.2.2 (s.x (lowReg rd)) s)

/-- 45_thumb R730-R735: PUSH lowers SP by its list's size and stores the list from there upward, in ascending order (R731);
STMIA stores upward from its base; POP and LDMIA load upward; POP with PC branches, halfword-aligned, in Thumb state; LDMIA
keeps a loaded base. For every list that is not empty each completes, a store where it is no pipeline hazard. That the words
lie at the start address aligned down to a word, as those of STM and LDM, is the model's reading (log 32). -/
def Obligations.ThumbBlockTransfers : Prop :=
  ∀ (s : State) (r : Bool) (rb : LowReg) (list : BitVec 8) (sp start b : Word) (low push pop : BitVec 16) (n : Nat)
    (m : Mode), m = s.cpsr.mode → sp = s.x 13#4 → b = s.x (lowReg rb) → low = list.setWidth 16 →
    push = pushList list r 14 → pop = pushList list r 15 → n = lowerCount pop 16 →
    start = sp - BitVec.ofNat 32 (4 * lowerCount push 16) →
    (s.MemoryInv → push ≠ 0#16 → NoBlockHazard false true start push s → Runs (.thumbPush r list) s fun t =>
      t.x 13#4 = start ∧ WordsStored (destOf s 13#4) false true start push (s.xIn m) s t) ∧
    (pop ≠ 0#16 → Runs (.thumbPop r list) s fun t => WordsLoaded m false true sp pop s t ∧
      t.x 13#4 = blockBase true sp n ∧ t.cpsr = s.cpsr ∧ (r = false → Advanced s t) ∧
      (r = true → ∀ v, WordAt s (blockAddr false true sp n (n - 1)) v → t.pc = alignHalf v) ∧
      RegisterFrame (listedBy m low ++ destOf s 13#4) s t) ∧
    (s.MemoryInv → list ≠ 0#8 → NoBlockHazard false true b low s → Runs (.thumbStmia rb list) s fun t =>
      t.x (lowReg rb) = blockBase true b (lowerCount low 16) ∧
      WordsStored (destOf s (lowReg rb)) false true b low
        (blockValue s m (lowReg rb) true low (blockBase true b (lowerCount low 16))) s t) ∧
    (list ≠ 0#8 → Runs (.thumbLdmia rb list) s fun t => WordsLoaded m false true b low s t ∧
      (list.getLsbD rb.toNat = false → t.x (lowReg rb) = blockBase true b (lowerCount low 16)) ∧ Advanced s t ∧
      t.cpsr = s.cpsr ∧ RegisterFrame (listedBy m low ++ destOf s (lowReg rb)) s t)

/-! ### Exceptions, banks and reset -/

/-- 60_exceptions R840, R841, R850: at a boundary with no pending DMA channel the IRQ is taken exactly when IME, an enabled request
and CPSR.I allow it. No instruction runs in that step, IF is not cleared, and the devices tick a positive cost. Else a
halted CPU waits a cycle (R841) and any other runs its instruction (R850). That the entry's cost is recorded as a refill is
the model's own (log 10). -/
def Obligations.InterruptIsTaken : Prop :=
  ∀ s w : State, w = wake s → (∀ k : Fin 4, w.dma[k].pending = false) →
    let taken := ∃ t c, 0 < c.cycles ∧ c.refill = true ∧ Entered .irq 0x00000018#32 (w.pc + 4#32) w t ∧
      step s = .next (endStep c t)
    let allowed := w.irq.ime = true ∧ (w.irq.ie &&& w.irq.iff).extractLsb' 0 14 ≠ 0#14 ∧ w.cpsr.i = false
    (allowed → w.halt = false ∧ taken) ∧
    (¬allowed → w.halt = true → step s = .next (deviceTick 1 w)) ∧
    (¬allowed → w.halt = false → ∀ i, decodeFetched w (fetchValue w) = .ok i →
      step s = andThen (exec i (fetched w)) fun t => .next (endStep (instrCost i w t) t))

/-- 60_exceptions R814, R815, R812: a handler returns with MOVS PC, R14 after Undefined and SWI, and with SUBS PC, R14, #4
after IRQ, wherever it ended, if the SPSR and R14 of its mode are as the entry left them. -/
def Obligations.ReturnUndoesEntry : Prop :=
  ∀ (s h : State) (rn : RegNum), s.PcInv →
    (∀ m, m = .und ∨ m = .svc → h.cpsr.mode = m → h.spsrOf m = some s.cpsr.saved → h.x 14#4 = s.pc + s.isize →
      Runs (.armMov .al true rn 15#4 (.shiftImm .lsl 0#5 14#4)) h fun t =>
        t.cpsr = s.cpsr ∧ t.pc = s.pc + s.isize ∧ StatusFrame [] h t) ∧
    (h.cpsr.mode = .irq → h.spsrOf .irq = some s.cpsr.saved → h.x 14#4 = s.pc + 4#32 →
      Runs (.armSub .al true 14#4 15#4 (.imm 0#4 4#8)) h fun t => t.cpsr = s.cpsr ∧ t.pc = s.pc ∧ StatusFrame [] h t) ∧
    ∀ e ∈ [(undefinedEntry s, Mode.und, s.pc + s.isize), (swiEntry s, .svc, s.pc + s.isize),
        (irqEntry s, .irq, s.pc + 4#32)],
      e.1.cpsr.mode = e.2.1 ∧ e.1.spsrOf e.2.1 = some s.cpsr.saved ∧ e.1.x 14#4 = e.2.2

/-- 10_state R104 (and R103, R105, R123): the table of the physical register that each mode's view names for R0 to R14, and
which views share one; reads and writes go to that register, a write touches no other; switching the mode changes no
register; R15 reads as the pc operand. -/
def Obligations.BankedRegisters : Prop :=
  (∀ (m n : Mode) (i j : RegNum),
    let low : List PReg := [.r0, .r1, .r2, .r3, .r4, .r5, .r6, .r7]
    let middle : List PReg := if m = .fiq then [.r8Fiq, .r9Fiq, .r10Fiq, .r11Fiq, .r12Fiq] else [.r8, .r9, .r10, .r11, .r12]
    let high : List PReg := match m with
      | .usr | .sys => [.r13, .r14]
      | .fiq => [.r13Fiq, .r14Fiq]
      | .irq => [.r13Irq, .r14Irq]
      | .svc => [.r13Svc, .r14Svc]
      | .abt => [.r13Abt, .r14Abt]
      | .und => [.r13Und, .r14Und]
    m.view i = (low ++ middle ++ high)[i.toNat]? ∧
    (m.view i = none ↔ i = 15#4) ∧
    (i ≠ 15#4 → m.view i = n.view j → i = j) ∧
    (i.toNat < 8 → m.view i = n.view i) ∧
    (8 ≤ i.toNat → i.toNat < 13 → (m.view i = n.view i ↔ (m = .fiq ↔ n = .fiq))) ∧
    (i = 13#4 ∨ i = 14#4 → (m.view i = n.view i ↔ m = n ∨ ((m = .usr ∨ m = .sys) ∧ (n = .usr ∨ n = .sys))))) ∧
  ∀ (s : State) (m : Mode) (i : RegNum) (v : Word),
    (i ≠ 15#4 → (s.setX i v).x i = v ∧ RegsSameBut (destOf s i) s (s.setX i v)) ∧
    (∀ r, s.cpsr.mode.view i = some r → s.x i = s.reg r ∧ (s.setX i v).reg r = v) ∧
    RegsSameBut [] s (s.setMode m) ∧ (s.setMode m).cpsr = { s.cpsr with mode := m } ∧ s.x 15#4 = s.pcOperand

/-- 10_state R130; 70_reset R1206, R1210; 60_exceptions R833, R841; 61_timers R980 (the spec's decisions D5, D62, D64):
what reset leaves, with every word of the BIOS image: those of the stub at their addresses, 0 everywhere else. -/
def Obligations.ResetValues : Prop :=
  let s := State.reset
  let stub : List (Nat × Word) :=
    [(0x000, 0xE3A0F302#32), (0x004, 0xE1B0F00E#32), (0x008, 0xE1B0F00E#32), (0x00C, 0xE25EF004#32),
      (0x010, 0xE25EF008#32), (0x014, 0xEAFFFFFE#32), (0x018, 0xEA000042#32), (0x01C, 0xE25EF004#32),
      (0x128, 0xE92D500F#32), (0x12C, 0xE3A00301#32), (0x130, 0xE28FE000#32), (0x134, 0xE510F004#32),
      (0x138, 0xE8BD500F#32), (0x13C, 0xE25EF004#32)]
  s.cpsr.toWord = 0x0000001F#32 ∧ s.pc = 0x08000000#32 ∧ s.halt = false ∧
  s.reg .r13 = 0x03007F00#32 ∧ s.reg .r13Irq = 0x03007FA0#32 ∧ s.reg .r13Svc = 0x03007FE0#32 ∧
  (∀ r, r ∉ [PReg.r13, .r13Irq, .r13Svc] → s.reg r = 0#32) ∧
  (∀ m, m ≠ .usr → m ≠ .sys → (s.spsrOf m).map Spsr.toWord = some 0#32) ∧
  peek s 0x04000000#32 = some 0x80#8 ∧ peek s 0x04000130#32 = some 0xFF#8 ∧ peek s 0x04000131#32 = some 0x03#8 ∧
  peek s 0x04000300#32 = some 0x01#8 ∧
  (∀ o < 0x400, o ∉ [0x000, 0x130, 0x131, 0x300] → (peek s (0x04000000#32 + BitVec.ofNat 32 o)).getD 0#8 = 0#8) ∧
  s.ppu.aff2 = ⟨0x0100#16, 0, 0, 0x0100#16, 0, 0, 0, 0⟩ ∧ s.ppu.aff3 = ⟨0x0100#16, 0, 0, 0x0100#16, 0, 0, 0, 0⟩ ∧
  s.ppu.vcount = 0 ∧ s.ppu.hcycle = 0 ∧ s.fifoA = 0 ∧ s.fifoB = 0 ∧ (∀ k : Fin 4, s.dma[k].pending = false) ∧
  ∀ n, n < 0x1000 → WordAt s (BitVec.ofNat 32 (4 * n)) ((stub.lookup (4 * n)).getD 0#32)

/-! ### Memory and the bus -/

/-- 20_memory R202, R205-R213, R217, R218, R230 (and R206-R211's mirrors): a plain write reads back at its own width;
every mirror of an address names the same byte; ROM, BIOS and unmapped addresses ignore writes. -/
def Obligations.MemoryMap : Prop :=
  ∀ (s : State) (w : Width) (a b v : Word), s.MemoryInv →
    (StoresPlainly s w a → busRead (busWrite s w a v) w a = w.truncate v) ∧
    (∀ e ∈ [(Region.ewram, 0x40000), (.iwram, 0x8000), (.palette, 0x400), (.vram, 0x20000), (.oam, 0x400), (.save, 0x10000)],
      regionOf a = e.1 → regionOf b = e.1 → a.toNat % e.2 = b.toNat % e.2 →
        peek s a = peek s b ∧ busWrite s w a v = busWrite s w b v) ∧
    (regionOf a = .vram → 0x18000 ≤ a.toNat % 0x20000 → peek s a = peek s (a - 0x8000#32)) ∧
    (∀ g h, regionOf a = .rom g → regionOf b = .rom h → a.toNat % 0x2000000 = b.toNat % 0x2000000 →
      peek s a = peek s b ∧ (s.params.romLength.val ≤ a.toNat % 0x2000000 → s.params.openBus = .draw → peek s a = none)) ∧
    (0x10000000 ≤ a.toNat → regionOf a = .unmapped) ∧
    (regionOf a = .bios ∨ regionOf a = .unmapped ∨ (∃ g, regionOf a = .rom g) → busWrite s w a v = s)

/-- 20_memory R222, R223 (the spec's decisions D31, D32): 8-bit writes to video memory, and the 8-bit save bus. -/
def Obligations.EightBitBuses : Prop :=
  ∀ (s : State) (w : Width) (a v : Word),
    (s.MemoryInv → s.params.narrowVideoWrites = .quirk →
      let mode := s.ppu.dispcnt.toNat % 8
      let o := if 0x18000 ≤ a.toNat % 0x20000 then a.toNat % 0x20000 - 0x8000 else a.toNat % 0x20000
      let below := (mode < 3 ∧ o < 0x10000) ∨ (3 ≤ mode ∧ mode < 6 ∧ o < 0x14000)
      let above := (mode < 3 ∧ 0x10000 ≤ o) ∨ (3 ≤ mode ∧ mode < 6 ∧ 0x14000 ≤ o)
      (regionOf a = .palette ∨ (regionOf a = .vram ∧ below) → ∀ t, t = busWrite s .byte a v →
        StoredBytes .half a (wordOfBytes (byteOf v 0) (byteOf v 0) 0 0) t ∧ StoreFrame .byte a v s t) ∧
      (regionOf a = .oam ∨ (regionOf a = .vram ∧ above) → busWrite s .byte a v = s)) ∧
    (regionOf a = .save → ∀ b, peek s a = some b →
      busRead s w a = w.truncate (b ++ b ++ b ++ b) ∧
      busWrite s w a v = busWrite s .byte a (v >>> (8 * (a.toNat % w.bytes))))

/-- 20_memory R215, R245, R250, R251 (the spec's decisions D33, D34): the save memory. SRAM stores bytes and turns into
Flash at the unlock sequence; the Flash commands write a byte, erase a sector or the chip, switch the bank and show the
identity. That every SRAM write, and so the unlock sequence, sets `saveRequired`, whether or not a byte changes its value,
is the model's choice beside R215's "every write that changes a save buffer" (log 5). -/
def Obligations.SaveMemoryCommands : Prop :=
  ∀ (s : State) (o : Nat) (b : Byte) (a : Word), s.MemoryInv → o < 0x10000 →
    let at' := fun k : Nat => 0x0E000000#32 + BitVec.ofNat 32 k
    let put := fun (t : State) (e : Nat × Byte) => busWrite t .byte (at' e.1) (e.2.setWidth 32)
    let flash := fun (t : State) => t.save.kind = .flash ∧ t.save.flashState = .ready
    let unlocked := [(0x5555, 0xAA#8), (0x2AAA, 0x55#8)]
    let erase := unlocked ++ [(0x5555, 0x80#8)] ++ unlocked
    (s.save.kind = .sram → (put s (o, b)).save.saveRequired = true ∧
      (o ≠ 0x2AAA → peek (put s (o, b)) (at' o) = some b ∧ (put s (o, b)).save.kind = .sram ∧
        (regionOf a = .save → a.toNat % 0x10000 ≠ o → peek (put s (o, b)) a = peek s a)) ∧
      (unlocked.foldl put s).save = { s.save with kind := .flash, sawAA := false, flashState := .unlock2,
                                                  saveRequired := true }) ∧
    (flash s → regionOf a = .save → s.save.idMode = false →
      (∀ t, t = (unlocked ++ [(0x5555, 0xA0#8), (o, b)]).foldl put s →
        peek t a = (if a.toNat % 0x10000 = o then some b else peek s a) ∧ flash t) ∧
      (∀ t, t = (erase ++ [(o, 0x30#8)]).foldl put s →
        peek t a = (if a.toNat % 0x10000 / 0x1000 = o / 0x1000 then some 0xFF#8 else peek s a) ∧ flash t) ∧
      (∀ t, t = (erase ++ [(0x5555, 0x10#8)]).foldl put s → peek t a = some 0xFF#8 ∧ flash t) ∧
      (∀ t, t = (unlocked ++ [(0x5555, 0xB0#8), (0, b)]).foldl put s →
        t = { s with save := { s.save with bank := b.getLsbD 0 } }) ∧
      ∀ t, t = (unlocked ++ [(0x5555, 0x90#8)]).foldl put s →
        peek t (at' 0) = some s.params.flashMaker ∧ peek t (at' 1) = some s.params.flashDevice ∧
        (unlocked ++ [(0x5555, 0xF0#8)]).foldl put t = s)

/-- 70_reset R1220 (the spec's decisions D28, D29): a store into the next two instruction slots ends the step in a fault,
those of the emulated BIOS functions too, each by the addresses it stores at (46_bios_hle R762, R763, R765-R767). That a store to a mirror of the slots counts, and one that the bus ignores, is the model's reading (log 8). -/
def Obligations.StoreHazardsStop : Prop :=
  (∀ (s : State) (cond : Cond) (p u sb w r : Bool) (rn rd rm : RegNum) (off : Offset) (imm8 list8 : BitVec 8)
    (list : BitVec 16) (ro rb lo : LowReg) (imm5 : BitVec 5) (addr : Word), conditionPassed s.cpsr cond = true →
    addr = accessAddr p u (s.x rn) (offsetValue s off) →
    let b := s.x (lowReg rb)
    let x := b + s.x (lowReg ro)
    let o := fun k : Nat => b + BitVec.ofNat 32 (k * imm5.toNat)
    let stops := fun i : Instr => exec i s = .fault .pipelineHazard
    (BaseUsable p w rn rd → OffsetUsable off → storeHazard s .word (alignWord addr) = true →
      stops (.armStr cond p u w rn rd off) ∧ (p = false → w = true → stops (.armStrt cond u rn rd off))) ∧
    (BaseUsable p w rn rd → OffsetUsable off → rd ≠ 15#4 → storeHazard s .byte addr = true →
      stops (.armStrb cond p u w rn rd off) ∧ (p = false → w = true → stops (.armStrbt cond u rn rd off))) ∧
    (BaseUsable p w rn rd → rd ≠ 15#4 → ¬(p = false ∧ w = true) →
      (storeHazard s .half (alignHalf (accessAddr p u (s.x rn) (imm8.setWidth 32))) = true →
        stops (.armStrhImm cond p u w rn rd imm8)) ∧
      (rm ≠ 15#4 → storeHazard s .half (alignHalf (accessAddr p u (s.x rn) (s.x rm))) = true →
        stops (.armStrhReg cond p u w rn rd rm))) ∧
    (rn ≠ 15#4 → rd ≠ 15#4 → rm ≠ 15#4 → rn ≠ rd → rn ≠ rm →
      (storeHazard s .word (alignWord (s.x rn)) = true → stops (.armSwp cond rn rd rm)) ∧
      (storeHazard s .byte (s.x rn) = true → stops (.armSwpb cond rn rd rm))) ∧
    (list ≠ 0#16 → rn ≠ 15#4 → (sb = true → w = false ∧ s.cpsr.mode ≠ .usr ∧ s.cpsr.mode ≠ .sys) →
      ¬NoBlockHazard p u (s.x rn) list s → stops (.armStm cond p u sb w rn list)) ∧
    (∀ e ∈ [(Instr.thumbStrReg ro rb lo, Width.word, alignWord x), (.thumbStrbReg ro rb lo, .byte, x),
        (.thumbStrhReg ro rb lo, .half, alignHalf x), (.thumbStrImm imm5 rb lo, .word, alignWord (o 4)),
        (.thumbStrbImm imm5 rb lo, .byte, o 1), (.thumbStrhImm imm5 rb lo, .half, alignHalf (o 2)),
        (.thumbStrSp lo imm8, .word, alignWord (s.x 13#4 + BitVec.ofNat 32 (4 * imm8.toNat)))],
      storeHazard s e.2.1 e.2.2 = true → stops e.1) ∧
    (pushList list8 r 14 ≠ 0#16 → ¬NoBlockHazard true false (s.x 13#4) (pushList list8 r 14) s →
      stops (.thumbPush r list8)) ∧
    (list8 ≠ 0#8 → ¬NoBlockHazard false true b (list8.setWidth 16) s → stops (.thumbStmia rb list8))) ∧
  ∀ (s : State) (i : Instr) (n : Byte) (stores : List (Width × Word)), SwiCall i n s → s.params.swiHandling = .hle →
    (∃ e ∈ stores, storeHazard s e.1 e.2 = true) →
    let stops := exec i s = .fault .pipelineHazard
    let at' := fun (r : RegNum) (o : Nat) => s.x r + BitVec.ofNat 32 o
    (∀ (w : Width) (count : Nat),
      ((n = 0x0B#8 ∧ .cpuSet ∈ s.params.hleSwiSet ∧ w = (if (s.x 2#4).getLsbD 26 then .word else .half) ∧
          count = (s.x 2#4).toNat % 2 ^ 21) ∨
        (n = 0x0C#8 ∧ .cpuFastSet ∈ s.params.hleSwiSet ∧ w = .word ∧ count = ((s.x 2#4).toNat % 2 ^ 21 + 7) / 8 * 8)) →
      stores = ((List.range count).map fun k => (w, w.align (s.x 1#4) + BitVec.ofNat 32 (w.bytes * k))) → stops) ∧
    (n = 0x0E#8 → .bgAffineSet ∈ s.params.hleSwiSet →
      stores = ((List.range (s.x 2#4).toNat).flatMap fun k =>
        [(Width.half, 0), (.half, 2), (.half, 4), (.half, 6), (.word, 8), (.word, 12)].map fun e =>
          (e.1, at' 1#4 (16 * k + e.2))) → stops) ∧
    (n = 0x0F#8 → .objAffineSet ∈ s.params.hleSwiSet →
      stores = ((List.range (s.x 2#4).toNat).flatMap fun k =>
        (List.range 4).map fun j => (Width.half, at' 1#4 ((4 * k + j) * (s.x 3#4).toNat))) → stops) ∧
    (n = 0x10#8 → .bitUnPack ∈ s.params.hleSwiSet → ∀ len sw dw : Word,
      ReadsAs s .half (s.x 2#4) len → ReadsAs s .byte (at' 2#4 2) sw → ReadsAs s .byte (at' 2#4 3) dw →
      sw.toNat ∈ [1, 2, 4, 8] → dw.toNat ∈ [1, 2, 4, 8, 16, 32] →
      stores = ((List.range (len.toNat * (8 / sw.toNat) * dw.toNat / 32)).map fun q => (Width.word, at' 1#4 (4 * q))) →
      stops)

/-! ### Devices -/

/-- 60_exceptions R830-R834, R836 (20_memory R219): the interrupt registers as writes and reads see them. 61_timers
R980-R982: KEYINPUT ignores writes; a write of KEYCNT requests the keypad interrupt if its condition holds, at each of its
two bytes, the low one first (log 31). -/
def Obligations.InterruptRegisters : Prop :=
  (∀ (s t : State) (v : Word) (c : Half), t = busWrite s .half 0x04000132#32 v → c = v.setWidth 16 &&& 0xC3FF#16 →
    let pressed := fun i : Nat => s.keys.keyinput.getLsbD i = false
    let holds := fun c : Half => c.getLsbD 14 = true ∧ (∃ i, i < 10 ∧ c.getLsbD i = true) ∧
      if c.getLsbD 15 then ∀ i, i < 10 → c.getLsbD i = true → pressed i
      else ∃ i, i < 10 ∧ c.getLsbD i = true ∧ pressed i
    busRead s .half 0x04000130#32 = s.keys.keyinput.setWidth 32 ∧ busWrite s .half 0x04000130#32 v = s ∧
    busRead s .half 0x04000132#32 = s.keys.keycnt.setWidth 32 ∧
    t = { s with keys := { s.keys with keycnt := c }, irq := { s.irq with iff := t.irq.iff } } ∧
    (t.irq.iff.getLsbD 12 = true ↔ s.irq.iff.getLsbD 12 = true ∨ (s.params.keypadIrq = true ∧
      (holds ((s.keys.keycnt &&& 0xC300#16) ||| (c &&& 0x00FF#16)) ∨ holds c))) ∧
    ∀ n, n ≠ 12 → t.irq.iff.getLsbD n = s.irq.iff.getLsbD n) ∧
  ∀ (s : State) (v : Word) (h : Half), h = v.setWidth 16 →
    busWrite s .half 0x04000200#32 v = { s with irq := { s.irq with ie := h &&& 0x3FFF#16 } } ∧
    busWrite s .half 0x04000202#32 v = { s with irq := { s.irq with iff := s.irq.iff &&& ~~~h } } ∧
    busWrite s .half 0x04000208#32 v = { s with irq := { s.irq with ime := h.getLsbD 0 } } ∧
    busWrite s .byte 0x04000300#32 v = { s with irq := { s.irq with postflg := v.getLsbD 0 } } ∧
    busWrite s .byte 0x04000301#32 v = { s with halt := true } ∧
    busRead s .half 0x04000200#32 = s.irq.ie.setWidth 32 ∧ busRead s .half 0x04000202#32 = s.irq.iff.setWidth 32 ∧
    busRead s .half 0x04000208#32 = (if s.irq.ime then 1#32 else 0#32) ∧
    busRead s .byte 0x04000300#32 = (if s.irq.postflg then 1#32 else 0#32) ∧
    ∀ n k, n < 16 → k < 16 → (s.requestIrq n).irq.iff.getLsbD k = (s.irq.iff.getLsbD k || decide (k = n))

/-- 61_timers R900-R902 (20_memory R219): the timer registers; a write of the control byte that sets `enable` loads the
reload value and clears the sub-tick accumulator. R960: a byte written to a sound FIFO adds one to its level, up to 32, and
SOUNDCNT_H's high byte empties the FIFOs. R901, R903-R906, R960: what a tick of n cycles does to the timers, in closed
form: how many increments each gets, how often it overflows, its new count and its interrupt request; each overflow of the
timer a FIFO selects takes one byte from it, and at 16 or fewer the FIFO requests its DMA channels. -/
def Obligations.TimerTick : Prop :=
  (∀ (s : State) (x : Fin 4) (t : Timer) (v : Word), t = s.timers[x] →
    let at' := fun o : Nat => 0x04000100#32 + BitVec.ofNat 32 (4 * x.val + o)
    let control := fun (b : Byte) (t : Timer) =>
      let t1 : Timer :=
        { t with prescale := b.extractLsb' 0 2, cascade := b.getLsbD 2, irq := b.getLsbD 6, enable := b.getLsbD 7 }
      if t.enable = false ∧ b.getLsbD 7 = true then { t1 with count := t.reload, acc := 0 } else t1
    busWrite s .half (at' 0) v = s.setTimer x { t with reload := v.setWidth 16 } ∧
    busWrite s .half (at' 2) v = s.setTimer x (control (v.setWidth 8) t) ∧
    busWrite s .word (at' 0) v = s.setTimer x (control (v.extractLsb' 16 8) { t with reload := v.setWidth 16 }) ∧
    busRead s .half (at' 0) = t.count.setWidth 32 ∧
    busRead s .half (at' 2) = 0#24 ++ BitVec.ofBool t.enable ++ BitVec.ofBool t.irq ++ 0#3 ++ BitVec.ofBool t.cascade
      ++ t.prescale) ∧
  (∀ (s : State) (v : Word),
    busWrite s .byte 0x040000A0#32 v = { s with fifoA := min 32 (s.fifoA + 1) } ∧
    busWrite s .byte 0x040000A4#32 v = { s with fifoB := min 32 (s.fifoB + 1) } ∧
    ∀ t, t = busWrite s .byte 0x04000083#32 v → (s.MemoryInv → soundControlHigh t = v.setWidth 8) ∧
      t = { s with ioStore := t.ioStore, fifoA := if v.getLsbD 3 then 0 else s.fifoA,
                   fifoB := if v.getLsbD 7 then 0 else s.fifoB }) ∧
  ∀ (s : State) (n : Nat), ∃ inc ovf : Fin 4 → Nat,
    (let t := timerTick n s
     let clocks := fun b : Nat => ovf (if (soundControlHigh s).getLsbD b then 1 else 0)
     let requests := fun (c : DmaChannel) (fifo : Word) (b level : Nat) =>
       decide (c.dad = fifo ∧ 0 < clocks b ∧ level ≤ 16)
     t = { s with timers := t.timers, irq := { s.irq with iff := t.irq.iff }, fifoA := t.fifoA, fifoB := t.fifoB,
                  dma := t.dma } ∧
     (∀ b, b < 3 ∨ 6 < b → t.irq.iff.getLsbD b = s.irq.iff.getLsbD b) ∧
     t.fifoA = s.fifoA - clocks 2 ∧ t.fifoB = s.fifoB - clocks 6 ∧
     ∀ (k : Fin 4) (c : DmaChannel), c = s.dma[k] → t.dma[k] = { c with pending := c.pending ||
       (decide (k = 1 ∨ k = 2) && c.enabled && decide (c.timing = 3) &&
         (requests c 0x040000A0#32 2 t.fifoA || requests c 0x040000A4#32 6 t.fifoB)) }) ∧
    ∀ (x : Fin 4) (old new : Timer), old = s.timers[x] → new = (timerTick n s).timers[x] →
    let cascaded := x ≠ 0 ∧ old.cascade = true
    let shift := ([0, 6, 8, 10] : List Nat).getD old.prescale.toNat 0
    let total := old.count.toNat + inc x
    inc x = (if old.enable = false then 0 else if cascaded then ovf (x - 1) else (old.acc + n) / 2 ^ shift) ∧
    ovf x = (if total < 0x10000 then 0 else 1 + (total - 0x10000) / (0x10000 - old.reload.toNat)) ∧
    new.count.toNat = (if total < 0x10000 then total
      else old.reload.toNat + (total - 0x10000) % (0x10000 - old.reload.toNat)) ∧
    new.acc = (if old.enable = true ∧ ¬cascaded then (old.acc + n) % 2 ^ shift else old.acc) ∧
    new = { old with count := new.count, acc := new.acc } ∧
    (timerTick n s).irq.iff.getLsbD (3 + x.val) = (s.irq.iff.getLsbD (3 + x.val) || (old.irq && decide (0 < ovf x)))

/-- 61_timers R930-R933 (20_memory R219): the DMA registers. A write of DMAxCNT_H that sets the enable bit arms the channel:
it loads the internal registers, with count 0 as the maximum, and an immediate channel becomes pending; one that clears it
cancels a pending transfer; another keeps what is pending. R936, R937: a VBlank or HBlank trigger makes the armed channels
of its timing pending, and a pending one stays so. R940-R942, R945: a one-shot transfer from EWRAM to IWRAM with both
addresses incremented copies its units, clears the enable bit, requests its interrupt if asked to, and changes nothing
else; source control 3 stops. -/
def Obligations.DmaTransfer : Prop :=
  (∀ (s : State) (k : Fin 4) (c : DmaChannel) (v : Word), c = s.dma[k] →
    let at' := fun o : Nat => 0x040000B0#32 + BitVec.ofNat 32 (12 * k.val + o)
    let kept := fun wide : Bool => if wide then 0x0FFFFFFF#32 else 0x07FFFFFF#32
    let h := v.setWidth 16 &&& if k = 3 then 0xFFE0#16 else 0xF7E0#16
    busWrite s .word (at' 0) v = s.setDma k { c with sad := v &&& kept (k ≠ 0) } ∧
    busWrite s .word (at' 4) v = s.setDma k { c with dad := v &&& kept (k = 3) } ∧
    busWrite s .half (at' 8) v =
      s.setDma k { c with cntL := v.setWidth 16 &&& if k = 3 then 0xFFFF#16 else 0x3FFF#16 } ∧
    busRead s .half (at' 10) = c.cntH.setWidth 32 ∧
    busWrite s .half (at' 10) v = s.setDma k
      (if c.cntH.getLsbD 15 = false ∧ h.getLsbD 15 = true then
        { c with cntH := h, isrc := c.sad, idst := c.dad, pending := h.extractLsb' 12 2 == 0#2,
                 icount := if c.cntL = 0#16 then (if k = 3 then 0x10000 else 0x4000) else c.cntL.toNat }
      else { c with cntH := h, pending := c.pending && h.getLsbD 15 })) ∧
  (∀ (s : State) (timing : Nat) (k : Fin 4) (c : DmaChannel), c = s.dma[k] →
    (triggerDma timing s).dma[k] =
      { c with pending := c.pending || (c.cntH.getLsbD 15 && decide ((c.cntH.extractLsb' 12 2).toNat = timing)) } ∧
    triggerDma timing s = { s with dma := (triggerDma timing s).dma }) ∧
  ∀ (s : State) (k : Fin 4) (c : DmaChannel) (w : Width) (src dst : Word) (n : Nat), c = s.dma[k] →
    (c.srcControl = 3 → dmaTransfer k s = .fault .unpredictable) ∧
    (s.MemoryInv → c.timing ≠ 3 → w = (if c.wide then .word else .half) → n = c.icount * w.bytes → c.srcControl = 0 →
      c.dstControl = 0 → c.repeats = false → src = w.align c.isrc → dst = w.align c.idst →
      regionOf src = .ewram → src.toNat % 0x40000 + n ≤ 0x40000 →
      regionOf dst = .iwram → dst.toNat % 0x8000 + n ≤ 0x8000 →
      ∃ t, dmaTransfer k s = .next t ∧
        (∀ j, j < n → peek t (dst + BitVec.ofNat 32 j) = peek s (src + BitVec.ofNat 32 j)) ∧
        (∀ a, regionOf a ≠ .io → (regionOf a = .iwram → a.toNat % 0x8000 < dst.toNat % 0x8000 ∨
          dst.toNat % 0x8000 + n ≤ a.toNat % 0x8000) → peek t a = peek s a) ∧
        t.dma[k] = { c with pending := false, isrc := c.isrc + BitVec.ofNat 32 n, idst := c.idst + BitVec.ofNat 32 n,
                            cntH := c.cntH &&& 0x7FFF#16 } ∧
        (∀ j, j ≠ k → t.dma[j] = s.dma[j]) ∧
        t.irq = { s.irq with iff := if c.irqEnabled then s.irq.iff ||| (1#16 <<< (8 + k.val)) else s.irq.iff } ∧
        t.cpsr = s.cpsr ∧ t.pc = s.pc ∧ RegsSameBut [] s t ∧ SameCore s t ∧ t.halt = s.halt ∧ t.ioStore = s.ioStore ∧
        t.waitcnt = s.waitcnt ∧ t.timers = s.timers ∧ t.fifoA = s.fifoA ∧ t.fifoB = s.fifoB ∧ t.keys = s.keys ∧
        t.ppu = s.ppu ∧ t.save = s.save)

/-- 62_ppu R1003-R1005, R1025, R1026, R1105, R1106, R1140; 61_timers R936, R980, R982 (the spec's decisions D46, D48, D49,
D55): the position after n cycles, and the events at the start of HBlank and of a line: the line rendered, the affine
references advanced and reloaded, the flags, the interrupts, the DMA triggers, KEYINPUT sampled with its interrupt, the
frame delivered; no other cycle has an event. A blanked line is white, and a line without layers and effects is the
backdrop. -/
def Obligations.VideoTiming : Prop :=
  ∀ (s : State) (n : Nat), s.DeviceInv →
    let position := fun t : State => t.ppu.vcount * 1232 + t.ppu.hcycle
    let t := videoCycle s
    let v := (s.ppu.vcount + 1) % 228
    let visible := s.ppu.vcount < 160
    let advanced := fun a : Affine =>
      if visible then { a with refX := a.refX + a.pb.signExtend 28, refY := a.refY + a.pd.signExtend 28 } else a
    let reloaded := fun a : Affine => if v = 0 then { a with refX := a.x, refY := a.y } else a
    let triggered := fun (now : Prop) (timing : Nat) => ∀ (k : Fin 4) (c : DmaChannel), c = s.dma[k] →
      ∃ b : Bool, (b = true ↔ now ∧ c.enabled = true ∧ c.timing = timing) ∧ t.dma[k] = { c with pending := c.pending || b }
    let requests := fun r : Nat → Prop =>
      ∀ n, t.irq.iff.getLsbD n = true ↔ s.irq.iff.getLsbD n = true ∨ r n
    let pressed := fun i : Nat => s.keys.hostKeys.getLsbD i = true
    let c := s.keys.keycnt
    let keypad := s.params.keypadIrq = true ∧ c.getLsbD 14 = true ∧ (∃ i, i < 10 ∧ c.getLsbD i = true) ∧
      if c.getLsbD 15 then ∀ i, i < 10 → c.getLsbD i = true → pressed i
      else ∃ i, i < 10 ∧ c.getLsbD i = true ∧ pressed i
    position (videoTick n s) = (position s + n) % 280896 ∧
    (s.ppu.hcycle ≠ 959 → s.ppu.hcycle ≠ 1231 → t = { s with ppu := { s.ppu with hcycle := s.ppu.hcycle + 1 } }) ∧
    (s.ppu.hcycle = 959 →
      t.ppu = { s.ppu with hcycle := 960, hblank := true, aff2 := advanced s.ppu.aff2, aff3 := advanced s.ppu.aff3 } ∧
      triggered visible 2 ∧ requests (fun n => n = 1 ∧ s.ppu.hblankIrq = true) ∧
      (visible → t.frame.row s.ppu.vcount = renderLine s s.ppu.vcount) ∧
      (∀ y, y ≠ s.ppu.vcount → t.frame.row y = s.frame.row y) ∧
      t = { s with ppu := t.ppu, dma := t.dma, irq := { s.irq with iff := t.irq.iff }, frame := t.frame }) ∧
    (s.ppu.hcycle = 1231 →
      t.ppu = { s.ppu with
        vcount := v, hcycle := 0, hblank := false,
        vblank := if v = 160 then true else if v = 227 then false else s.ppu.vblank,
        vmatch := decide (v = s.ppu.vcountSetting.toNat),
        aff2 := reloaded s.ppu.aff2, aff3 := reloaded s.ppu.aff3 } ∧
      triggered (v = 160) 1 ∧
      requests (fun n => (n = 0 ∧ v = 160 ∧ s.ppu.vblankIrq = true) ∨
        (n = 2 ∧ v = s.ppu.vcountSetting.toNat ∧ s.ppu.vcountIrq = true) ∨ (n = 12 ∧ v = 0 ∧ keypad)) ∧
      t.keys = (if v = 0 then { s.keys with keyinput := (~~~s.keys.hostKeys).setWidth 16 } else s.keys) ∧
      t.hostFrame = (if v = 160 then some s.frame else s.hostFrame) ∧
      t = { s with ppu := t.ppu, dma := t.dma, irq := { s.irq with iff := t.irq.iff }, keys := t.keys,
                   hostFrame := t.hostFrame }) ∧
    (s.ppu.dispcnt.getLsbD 7 = true → s.params.colorExpand = .standard →
      renderLine s n = List.replicate 240 ⟨0xFF#8, 0xFF#8, 0xFF#8, 0xFF#8⟩) ∧
    (s.ppu.dispcnt.getLsbD 7 = false → s.ppu.dispcnt.extractLsb' 8 5 = 0#5 → s.ppu.bldcnt.extractLsb' 6 2 = 0#2 →
      renderLine s n = List.replicate 240 (colorExpand s (paletteEntry s 0 0)))
end

