-- ==== Sys2Proof/Laws/State.lean ====
section
/-! SUPPORT. One lemma per field for each of the state's setters, so that no proof unfolds a record update. -/

namespace Sys2Proof.Machine.State

variable (s : State)

/-! ### `setReg` -/

@[simp] theorem setReg_regs (r : PReg) (v : Word) : (s.setReg r v).regs = s.regs.set r.index v := rfl
@[simp] theorem setReg_cpsr (r : PReg) (v : Word) : (s.setReg r v).cpsr = s.cpsr := rfl
@[simp] theorem setReg_spsrFiq (r : PReg) (v : Word) : (s.setReg r v).spsrFiq = s.spsrFiq := rfl
@[simp] theorem setReg_spsrIrq (r : PReg) (v : Word) : (s.setReg r v).spsrIrq = s.spsrIrq := rfl
@[simp] theorem setReg_spsrSvc (r : PReg) (v : Word) : (s.setReg r v).spsrSvc = s.spsrSvc := rfl
@[simp] theorem setReg_spsrAbt (r : PReg) (v : Word) : (s.setReg r v).spsrAbt = s.spsrAbt := rfl
@[simp] theorem setReg_spsrUnd (r : PReg) (v : Word) : (s.setReg r v).spsrUnd = s.spsrUnd := rfl
@[simp] theorem setReg_pc (r : PReg) (v : Word) : (s.setReg r v).pc = s.pc := rfl
@[simp] theorem setReg_lastFetchAddr (r : PReg) (v : Word) : (s.setReg r v).lastFetchAddr = s.lastFetchAddr := rfl
@[simp] theorem setReg_lastFetchWord (r : PReg) (v : Word) : (s.setReg r v).lastFetchWord = s.lastFetchWord := rfl
@[simp] theorem setReg_halt (r : PReg) (v : Word) : (s.setReg r v).halt = s.halt := rfl
@[simp] theorem setReg_mem (r : PReg) (v : Word) : (s.setReg r v).mem = s.mem := rfl
@[simp] theorem setReg_save (r : PReg) (v : Word) : (s.setReg r v).save = s.save := rfl
@[simp] theorem setReg_ioStore (r : PReg) (v : Word) : (s.setReg r v).ioStore = s.ioStore := rfl
@[simp] theorem setReg_irq (r : PReg) (v : Word) : (s.setReg r v).irq = s.irq := rfl
@[simp] theorem setReg_waitcnt (r : PReg) (v : Word) : (s.setReg r v).waitcnt = s.waitcnt := rfl
@[simp] theorem setReg_timers (r : PReg) (v : Word) : (s.setReg r v).timers = s.timers := rfl
@[simp] theorem setReg_fifoA (r : PReg) (v : Word) : (s.setReg r v).fifoA = s.fifoA := rfl
@[simp] theorem setReg_fifoB (r : PReg) (v : Word) : (s.setReg r v).fifoB = s.fifoB := rfl
@[simp] theorem setReg_dma (r : PReg) (v : Word) : (s.setReg r v).dma = s.dma := rfl
@[simp] theorem setReg_keys (r : PReg) (v : Word) : (s.setReg r v).keys = s.keys := rfl
@[simp] theorem setReg_ppu (r : PReg) (v : Word) : (s.setReg r v).ppu = s.ppu := rfl
@[simp] theorem setReg_frame (r : PReg) (v : Word) : (s.setReg r v).frame = s.frame := rfl
@[simp] theorem setReg_hostFrame (r : PReg) (v : Word) : (s.setReg r v).hostFrame = s.hostFrame := rfl
@[simp] theorem setReg_params (r : PReg) (v : Word) : (s.setReg r v).params = s.params := rfl
@[simp] theorem setReg_refill (r : PReg) (v : Word) : (s.setReg r v).refill = s.refill := rfl
@[simp] theorem setReg_draws (r : PReg) (v : Word) : (s.setReg r v).draws = s.draws := rfl

/-! ### `setPc` -/

@[simp] theorem setPc_regs (v : Word) : (s.setPc v).regs = s.regs := rfl
@[simp] theorem setPc_cpsr (v : Word) : (s.setPc v).cpsr = s.cpsr := rfl
@[simp] theorem setPc_spsrFiq (v : Word) : (s.setPc v).spsrFiq = s.spsrFiq := rfl
@[simp] theorem setPc_spsrIrq (v : Word) : (s.setPc v).spsrIrq = s.spsrIrq := rfl
@[simp] theorem setPc_spsrSvc (v : Word) : (s.setPc v).spsrSvc = s.spsrSvc := rfl
@[simp] theorem setPc_spsrAbt (v : Word) : (s.setPc v).spsrAbt = s.spsrAbt := rfl
@[simp] theorem setPc_spsrUnd (v : Word) : (s.setPc v).spsrUnd = s.spsrUnd := rfl
@[simp] theorem setPc_pc (v : Word) : (s.setPc v).pc = v := rfl
@[simp] theorem setPc_lastFetchAddr (v : Word) : (s.setPc v).lastFetchAddr = s.lastFetchAddr := rfl
@[simp] theorem setPc_lastFetchWord (v : Word) : (s.setPc v).lastFetchWord = s.lastFetchWord := rfl
@[simp] theorem setPc_halt (v : Word) : (s.setPc v).halt = s.halt := rfl
@[simp] theorem setPc_mem (v : Word) : (s.setPc v).mem = s.mem := rfl
@[simp] theorem setPc_save (v : Word) : (s.setPc v).save = s.save := rfl
@[simp] theorem setPc_ioStore (v : Word) : (s.setPc v).ioStore = s.ioStore := rfl
@[simp] theorem setPc_irq (v : Word) : (s.setPc v).irq = s.irq := rfl
@[simp] theorem setPc_waitcnt (v : Word) : (s.setPc v).waitcnt = s.waitcnt := rfl
@[simp] theorem setPc_timers (v : Word) : (s.setPc v).timers = s.timers := rfl
@[simp] theorem setPc_fifoA (v : Word) : (s.setPc v).fifoA = s.fifoA := rfl
@[simp] theorem setPc_fifoB (v : Word) : (s.setPc v).fifoB = s.fifoB := rfl
@[simp] theorem setPc_dma (v : Word) : (s.setPc v).dma = s.dma := rfl
@[simp] theorem setPc_keys (v : Word) : (s.setPc v).keys = s.keys := rfl
@[simp] theorem setPc_ppu (v : Word) : (s.setPc v).ppu = s.ppu := rfl
@[simp] theorem setPc_frame (v : Word) : (s.setPc v).frame = s.frame := rfl
@[simp] theorem setPc_hostFrame (v : Word) : (s.setPc v).hostFrame = s.hostFrame := rfl
@[simp] theorem setPc_params (v : Word) : (s.setPc v).params = s.params := rfl
@[simp] theorem setPc_refill (v : Word) : (s.setPc v).refill = s.refill := rfl
@[simp] theorem setPc_draws (v : Word) : (s.setPc v).draws = s.draws := rfl

/-! ### `setCpsr` -/

@[simp] theorem setCpsr_regs (p : Cpsr) : (s.setCpsr p).regs = s.regs := rfl
@[simp] theorem setCpsr_cpsr (p : Cpsr) : (s.setCpsr p).cpsr = p := rfl
@[simp] theorem setCpsr_spsrFiq (p : Cpsr) : (s.setCpsr p).spsrFiq = s.spsrFiq := rfl
@[simp] theorem setCpsr_spsrIrq (p : Cpsr) : (s.setCpsr p).spsrIrq = s.spsrIrq := rfl
@[simp] theorem setCpsr_spsrSvc (p : Cpsr) : (s.setCpsr p).spsrSvc = s.spsrSvc := rfl
@[simp] theorem setCpsr_spsrAbt (p : Cpsr) : (s.setCpsr p).spsrAbt = s.spsrAbt := rfl
@[simp] theorem setCpsr_spsrUnd (p : Cpsr) : (s.setCpsr p).spsrUnd = s.spsrUnd := rfl
@[simp] theorem setCpsr_pc (p : Cpsr) : (s.setCpsr p).pc = s.pc := rfl
@[simp] theorem setCpsr_lastFetchAddr (p : Cpsr) : (s.setCpsr p).lastFetchAddr = s.lastFetchAddr := rfl
@[simp] theorem setCpsr_lastFetchWord (p : Cpsr) : (s.setCpsr p).lastFetchWord = s.lastFetchWord := rfl
@[simp] theorem setCpsr_halt (p : Cpsr) : (s.setCpsr p).halt = s.halt := rfl
@[simp] theorem setCpsr_mem (p : Cpsr) : (s.setCpsr p).mem = s.mem := rfl
@[simp] theorem setCpsr_save (p : Cpsr) : (s.setCpsr p).save = s.save := rfl
@[simp] theorem setCpsr_ioStore (p : Cpsr) : (s.setCpsr p).ioStore = s.ioStore := rfl
@[simp] theorem setCpsr_irq (p : Cpsr) : (s.setCpsr p).irq = s.irq := rfl
@[simp] theorem setCpsr_waitcnt (p : Cpsr) : (s.setCpsr p).waitcnt = s.waitcnt := rfl
@[simp] theorem setCpsr_timers (p : Cpsr) : (s.setCpsr p).timers = s.timers := rfl
@[simp] theorem setCpsr_fifoA (p : Cpsr) : (s.setCpsr p).fifoA = s.fifoA := rfl
@[simp] theorem setCpsr_fifoB (p : Cpsr) : (s.setCpsr p).fifoB = s.fifoB := rfl
@[simp] theorem setCpsr_dma (p : Cpsr) : (s.setCpsr p).dma = s.dma := rfl
@[simp] theorem setCpsr_keys (p : Cpsr) : (s.setCpsr p).keys = s.keys := rfl
@[simp] theorem setCpsr_ppu (p : Cpsr) : (s.setCpsr p).ppu = s.ppu := rfl
@[simp] theorem setCpsr_frame (p : Cpsr) : (s.setCpsr p).frame = s.frame := rfl
@[simp] theorem setCpsr_hostFrame (p : Cpsr) : (s.setCpsr p).hostFrame = s.hostFrame := rfl
@[simp] theorem setCpsr_params (p : Cpsr) : (s.setCpsr p).params = s.params := rfl
@[simp] theorem setCpsr_refill (p : Cpsr) : (s.setCpsr p).refill = s.refill := rfl
@[simp] theorem setCpsr_draws (p : Cpsr) : (s.setCpsr p).draws = s.draws := rfl

/-! ### `setMem` -/

@[simp] theorem setMem_regs (m : List Host.Cell) : (s.setMem m).regs = s.regs := rfl
@[simp] theorem setMem_cpsr (m : List Host.Cell) : (s.setMem m).cpsr = s.cpsr := rfl
@[simp] theorem setMem_spsrFiq (m : List Host.Cell) : (s.setMem m).spsrFiq = s.spsrFiq := rfl
@[simp] theorem setMem_spsrIrq (m : List Host.Cell) : (s.setMem m).spsrIrq = s.spsrIrq := rfl
@[simp] theorem setMem_spsrSvc (m : List Host.Cell) : (s.setMem m).spsrSvc = s.spsrSvc := rfl
@[simp] theorem setMem_spsrAbt (m : List Host.Cell) : (s.setMem m).spsrAbt = s.spsrAbt := rfl
@[simp] theorem setMem_spsrUnd (m : List Host.Cell) : (s.setMem m).spsrUnd = s.spsrUnd := rfl
@[simp] theorem setMem_pc (m : List Host.Cell) : (s.setMem m).pc = s.pc := rfl
@[simp] theorem setMem_lastFetchAddr (m : List Host.Cell) : (s.setMem m).lastFetchAddr = s.lastFetchAddr := rfl
@[simp] theorem setMem_lastFetchWord (m : List Host.Cell) : (s.setMem m).lastFetchWord = s.lastFetchWord := rfl
@[simp] theorem setMem_halt (m : List Host.Cell) : (s.setMem m).halt = s.halt := rfl
@[simp] theorem setMem_mem (m : List Host.Cell) : (s.setMem m).mem = m := rfl
@[simp] theorem setMem_save (m : List Host.Cell) : (s.setMem m).save = s.save := rfl
@[simp] theorem setMem_ioStore (m : List Host.Cell) : (s.setMem m).ioStore = s.ioStore := rfl
@[simp] theorem setMem_irq (m : List Host.Cell) : (s.setMem m).irq = s.irq := rfl
@[simp] theorem setMem_waitcnt (m : List Host.Cell) : (s.setMem m).waitcnt = s.waitcnt := rfl
@[simp] theorem setMem_timers (m : List Host.Cell) : (s.setMem m).timers = s.timers := rfl
@[simp] theorem setMem_fifoA (m : List Host.Cell) : (s.setMem m).fifoA = s.fifoA := rfl
@[simp] theorem setMem_fifoB (m : List Host.Cell) : (s.setMem m).fifoB = s.fifoB := rfl
@[simp] theorem setMem_dma (m : List Host.Cell) : (s.setMem m).dma = s.dma := rfl
@[simp] theorem setMem_keys (m : List Host.Cell) : (s.setMem m).keys = s.keys := rfl
@[simp] theorem setMem_ppu (m : List Host.Cell) : (s.setMem m).ppu = s.ppu := rfl
@[simp] theorem setMem_frame (m : List Host.Cell) : (s.setMem m).frame = s.frame := rfl
@[simp] theorem setMem_hostFrame (m : List Host.Cell) : (s.setMem m).hostFrame = s.hostFrame := rfl
@[simp] theorem setMem_params (m : List Host.Cell) : (s.setMem m).params = s.params := rfl
@[simp] theorem setMem_refill (m : List Host.Cell) : (s.setMem m).refill = s.refill := rfl
@[simp] theorem setMem_draws (m : List Host.Cell) : (s.setMem m).draws = s.draws := rfl

/-! ### `bump` -/

@[simp] theorem bump_regs : (s.bump).regs = s.regs := rfl
@[simp] theorem bump_cpsr : (s.bump).cpsr = s.cpsr := rfl
@[simp] theorem bump_spsrFiq : (s.bump).spsrFiq = s.spsrFiq := rfl
@[simp] theorem bump_spsrIrq : (s.bump).spsrIrq = s.spsrIrq := rfl
@[simp] theorem bump_spsrSvc : (s.bump).spsrSvc = s.spsrSvc := rfl
@[simp] theorem bump_spsrAbt : (s.bump).spsrAbt = s.spsrAbt := rfl
@[simp] theorem bump_spsrUnd : (s.bump).spsrUnd = s.spsrUnd := rfl
@[simp] theorem bump_pc : (s.bump).pc = s.pc := rfl
@[simp] theorem bump_lastFetchAddr : (s.bump).lastFetchAddr = s.lastFetchAddr := rfl
@[simp] theorem bump_lastFetchWord : (s.bump).lastFetchWord = s.lastFetchWord := rfl
@[simp] theorem bump_halt : (s.bump).halt = s.halt := rfl
@[simp] theorem bump_mem : (s.bump).mem = s.mem := rfl
@[simp] theorem bump_save : (s.bump).save = s.save := rfl
@[simp] theorem bump_ioStore : (s.bump).ioStore = s.ioStore := rfl
@[simp] theorem bump_irq : (s.bump).irq = s.irq := rfl
@[simp] theorem bump_waitcnt : (s.bump).waitcnt = s.waitcnt := rfl
@[simp] theorem bump_timers : (s.bump).timers = s.timers := rfl
@[simp] theorem bump_fifoA : (s.bump).fifoA = s.fifoA := rfl
@[simp] theorem bump_fifoB : (s.bump).fifoB = s.fifoB := rfl
@[simp] theorem bump_dma : (s.bump).dma = s.dma := rfl
@[simp] theorem bump_keys : (s.bump).keys = s.keys := rfl
@[simp] theorem bump_ppu : (s.bump).ppu = s.ppu := rfl
@[simp] theorem bump_frame : (s.bump).frame = s.frame := rfl
@[simp] theorem bump_hostFrame : (s.bump).hostFrame = s.hostFrame := rfl
@[simp] theorem bump_params : (s.bump).params = s.params := rfl
@[simp] theorem bump_refill : (s.bump).refill = s.refill := rfl
@[simp] theorem bump_draws : (s.bump).draws = s.draws + 1 := rfl

/-! ### `withRefill` -/

@[simp] theorem withRefill_regs (r : Option Word) : (s.withRefill r).regs = s.regs := rfl
@[simp] theorem withRefill_cpsr (r : Option Word) : (s.withRefill r).cpsr = s.cpsr := rfl
@[simp] theorem withRefill_spsrFiq (r : Option Word) : (s.withRefill r).spsrFiq = s.spsrFiq := rfl
@[simp] theorem withRefill_spsrIrq (r : Option Word) : (s.withRefill r).spsrIrq = s.spsrIrq := rfl
@[simp] theorem withRefill_spsrSvc (r : Option Word) : (s.withRefill r).spsrSvc = s.spsrSvc := rfl
@[simp] theorem withRefill_spsrAbt (r : Option Word) : (s.withRefill r).spsrAbt = s.spsrAbt := rfl
@[simp] theorem withRefill_spsrUnd (r : Option Word) : (s.withRefill r).spsrUnd = s.spsrUnd := rfl
@[simp] theorem withRefill_pc (r : Option Word) : (s.withRefill r).pc = s.pc := rfl
@[simp] theorem withRefill_lastFetchAddr (r : Option Word) : (s.withRefill r).lastFetchAddr = s.lastFetchAddr := rfl
@[simp] theorem withRefill_lastFetchWord (r : Option Word) : (s.withRefill r).lastFetchWord = s.lastFetchWord := rfl
@[simp] theorem withRefill_halt (r : Option Word) : (s.withRefill r).halt = s.halt := rfl
@[simp] theorem withRefill_mem (r : Option Word) : (s.withRefill r).mem = s.mem := rfl
@[simp] theorem withRefill_save (r : Option Word) : (s.withRefill r).save = s.save := rfl
@[simp] theorem withRefill_ioStore (r : Option Word) : (s.withRefill r).ioStore = s.ioStore := rfl
@[simp] theorem withRefill_irq (r : Option Word) : (s.withRefill r).irq = s.irq := rfl
@[simp] theorem withRefill_waitcnt (r : Option Word) : (s.withRefill r).waitcnt = s.waitcnt := rfl
@[simp] theorem withRefill_timers (r : Option Word) : (s.withRefill r).timers = s.timers := rfl
@[simp] theorem withRefill_fifoA (r : Option Word) : (s.withRefill r).fifoA = s.fifoA := rfl
@[simp] theorem withRefill_fifoB (r : Option Word) : (s.withRefill r).fifoB = s.fifoB := rfl
@[simp] theorem withRefill_dma (r : Option Word) : (s.withRefill r).dma = s.dma := rfl
@[simp] theorem withRefill_keys (r : Option Word) : (s.withRefill r).keys = s.keys := rfl
@[simp] theorem withRefill_ppu (r : Option Word) : (s.withRefill r).ppu = s.ppu := rfl
@[simp] theorem withRefill_frame (r : Option Word) : (s.withRefill r).frame = s.frame := rfl
@[simp] theorem withRefill_hostFrame (r : Option Word) : (s.withRefill r).hostFrame = s.hostFrame := rfl
@[simp] theorem withRefill_params (r : Option Word) : (s.withRefill r).params = s.params := rfl
@[simp] theorem withRefill_refill (r : Option Word) : (s.withRefill r).refill = r := rfl
@[simp] theorem withRefill_draws (r : Option Word) : (s.withRefill r).draws = s.draws := rfl

/-! ### `advance` -/

@[simp] theorem advance_regs : (s.advance).regs = s.regs := rfl
@[simp] theorem advance_cpsr : (s.advance).cpsr = s.cpsr := rfl
@[simp] theorem advance_spsrFiq : (s.advance).spsrFiq = s.spsrFiq := rfl
@[simp] theorem advance_spsrIrq : (s.advance).spsrIrq = s.spsrIrq := rfl
@[simp] theorem advance_spsrSvc : (s.advance).spsrSvc = s.spsrSvc := rfl
@[simp] theorem advance_spsrAbt : (s.advance).spsrAbt = s.spsrAbt := rfl
@[simp] theorem advance_spsrUnd : (s.advance).spsrUnd = s.spsrUnd := rfl
@[simp] theorem advance_pc : (s.advance).pc = s.pc + s.isize := rfl
@[simp] theorem advance_lastFetchAddr : (s.advance).lastFetchAddr = s.lastFetchAddr := rfl
@[simp] theorem advance_lastFetchWord : (s.advance).lastFetchWord = s.lastFetchWord := rfl
@[simp] theorem advance_halt : (s.advance).halt = s.halt := rfl
@[simp] theorem advance_mem : (s.advance).mem = s.mem := rfl
@[simp] theorem advance_save : (s.advance).save = s.save := rfl
@[simp] theorem advance_ioStore : (s.advance).ioStore = s.ioStore := rfl
@[simp] theorem advance_irq : (s.advance).irq = s.irq := rfl
@[simp] theorem advance_waitcnt : (s.advance).waitcnt = s.waitcnt := rfl
@[simp] theorem advance_timers : (s.advance).timers = s.timers := rfl
@[simp] theorem advance_fifoA : (s.advance).fifoA = s.fifoA := rfl
@[simp] theorem advance_fifoB : (s.advance).fifoB = s.fifoB := rfl
@[simp] theorem advance_dma : (s.advance).dma = s.dma := rfl
@[simp] theorem advance_keys : (s.advance).keys = s.keys := rfl
@[simp] theorem advance_ppu : (s.advance).ppu = s.ppu := rfl
@[simp] theorem advance_frame : (s.advance).frame = s.frame := rfl
@[simp] theorem advance_hostFrame : (s.advance).hostFrame = s.hostFrame := rfl
@[simp] theorem advance_params : (s.advance).params = s.params := rfl
@[simp] theorem advance_refill : (s.advance).refill = s.refill := rfl
@[simp] theorem advance_draws : (s.advance).draws = s.draws := rfl

/-! ### `setMode` -/

@[simp] theorem setMode_regs (m : Mode) : (s.setMode m).regs = s.regs := rfl
@[simp] theorem setMode_cpsr (m : Mode) : (s.setMode m).cpsr = { s.cpsr with mode := m } := rfl
@[simp] theorem setMode_spsrFiq (m : Mode) : (s.setMode m).spsrFiq = s.spsrFiq := rfl
@[simp] theorem setMode_spsrIrq (m : Mode) : (s.setMode m).spsrIrq = s.spsrIrq := rfl
@[simp] theorem setMode_spsrSvc (m : Mode) : (s.setMode m).spsrSvc = s.spsrSvc := rfl
@[simp] theorem setMode_spsrAbt (m : Mode) : (s.setMode m).spsrAbt = s.spsrAbt := rfl
@[simp] theorem setMode_spsrUnd (m : Mode) : (s.setMode m).spsrUnd = s.spsrUnd := rfl
@[simp] theorem setMode_pc (m : Mode) : (s.setMode m).pc = s.pc := rfl
@[simp] theorem setMode_lastFetchAddr (m : Mode) : (s.setMode m).lastFetchAddr = s.lastFetchAddr := rfl
@[simp] theorem setMode_lastFetchWord (m : Mode) : (s.setMode m).lastFetchWord = s.lastFetchWord := rfl
@[simp] theorem setMode_halt (m : Mode) : (s.setMode m).halt = s.halt := rfl
@[simp] theorem setMode_mem (m : Mode) : (s.setMode m).mem = s.mem := rfl
@[simp] theorem setMode_save (m : Mode) : (s.setMode m).save = s.save := rfl
@[simp] theorem setMode_ioStore (m : Mode) : (s.setMode m).ioStore = s.ioStore := rfl
@[simp] theorem setMode_irq (m : Mode) : (s.setMode m).irq = s.irq := rfl
@[simp] theorem setMode_waitcnt (m : Mode) : (s.setMode m).waitcnt = s.waitcnt := rfl
@[simp] theorem setMode_timers (m : Mode) : (s.setMode m).timers = s.timers := rfl
@[simp] theorem setMode_fifoA (m : Mode) : (s.setMode m).fifoA = s.fifoA := rfl
@[simp] theorem setMode_fifoB (m : Mode) : (s.setMode m).fifoB = s.fifoB := rfl
@[simp] theorem setMode_dma (m : Mode) : (s.setMode m).dma = s.dma := rfl
@[simp] theorem setMode_keys (m : Mode) : (s.setMode m).keys = s.keys := rfl
@[simp] theorem setMode_ppu (m : Mode) : (s.setMode m).ppu = s.ppu := rfl
@[simp] theorem setMode_frame (m : Mode) : (s.setMode m).frame = s.frame := rfl
@[simp] theorem setMode_hostFrame (m : Mode) : (s.setMode m).hostFrame = s.hostFrame := rfl
@[simp] theorem setMode_params (m : Mode) : (s.setMode m).params = s.params := rfl
@[simp] theorem setMode_refill (m : Mode) : (s.setMode m).refill = s.refill := rfl
@[simp] theorem setMode_draws (m : Mode) : (s.setMode m).draws = s.draws := rfl

/-! ### `setXIn` -/

@[simp] theorem setXIn_cpsr (m : Mode) (i : RegNum) (v : Word) : (s.setXIn m i v).cpsr = s.cpsr :=
    by unfold State.setXIn; split <;> rfl
@[simp] theorem setXIn_spsrFiq (m : Mode) (i : RegNum) (v : Word) : (s.setXIn m i v).spsrFiq = s.spsrFiq :=
    by unfold State.setXIn; split <;> rfl
@[simp] theorem setXIn_spsrIrq (m : Mode) (i : RegNum) (v : Word) : (s.setXIn m i v).spsrIrq = s.spsrIrq :=
    by unfold State.setXIn; split <;> rfl
@[simp] theorem setXIn_spsrSvc (m : Mode) (i : RegNum) (v : Word) : (s.setXIn m i v).spsrSvc = s.spsrSvc :=
    by unfold State.setXIn; split <;> rfl
@[simp] theorem setXIn_spsrAbt (m : Mode) (i : RegNum) (v : Word) : (s.setXIn m i v).spsrAbt = s.spsrAbt :=
    by unfold State.setXIn; split <;> rfl
@[simp] theorem setXIn_spsrUnd (m : Mode) (i : RegNum) (v : Word) : (s.setXIn m i v).spsrUnd = s.spsrUnd :=
    by unfold State.setXIn; split <;> rfl
@[simp] theorem setXIn_pc (m : Mode) (i : RegNum) (v : Word) : (s.setXIn m i v).pc = s.pc :=
    by unfold State.setXIn; split <;> rfl
@[simp] theorem setXIn_lastFetchAddr (m : Mode) (i : RegNum) (v : Word) : (s.setXIn m i v).lastFetchAddr = s.lastFetchAddr :=
    by unfold State.setXIn; split <;> rfl
@[simp] theorem setXIn_lastFetchWord (m : Mode) (i : RegNum) (v : Word) : (s.setXIn m i v).lastFetchWord = s.lastFetchWord :=
    by unfold State.setXIn; split <;> rfl
@[simp] theorem setXIn_halt (m : Mode) (i : RegNum) (v : Word) : (s.setXIn m i v).halt = s.halt :=
    by unfold State.setXIn; split <;> rfl
@[simp] theorem setXIn_mem (m : Mode) (i : RegNum) (v : Word) : (s.setXIn m i v).mem = s.mem :=
    by unfold State.setXIn; split <;> rfl
@[simp] theorem setXIn_save (m : Mode) (i : RegNum) (v : Word) : (s.setXIn m i v).save = s.save :=
    by unfold State.setXIn; split <;> rfl
@[simp] theorem setXIn_ioStore (m : Mode) (i : RegNum) (v : Word) : (s.setXIn m i v).ioStore = s.ioStore :=
    by unfold State.setXIn; split <;> rfl
@[simp] theorem setXIn_irq (m : Mode) (i : RegNum) (v : Word) : (s.setXIn m i v).irq = s.irq :=
    by unfold State.setXIn; split <;> rfl
@[simp] theorem setXIn_waitcnt (m : Mode) (i : RegNum) (v : Word) : (s.setXIn m i v).waitcnt = s.waitcnt :=
    by unfold State.setXIn; split <;> rfl
@[simp] theorem setXIn_timers (m : Mode) (i : RegNum) (v : Word) : (s.setXIn m i v).timers = s.timers :=
    by unfold State.setXIn; split <;> rfl
@[simp] theorem setXIn_fifoA (m : Mode) (i : RegNum) (v : Word) : (s.setXIn m i v).fifoA = s.fifoA :=
    by unfold State.setXIn; split <;> rfl
@[simp] theorem setXIn_fifoB (m : Mode) (i : RegNum) (v : Word) : (s.setXIn m i v).fifoB = s.fifoB :=
    by unfold State.setXIn; split <;> rfl
@[simp] theorem setXIn_dma (m : Mode) (i : RegNum) (v : Word) : (s.setXIn m i v).dma = s.dma :=
    by unfold State.setXIn; split <;> rfl
@[simp] theorem setXIn_keys (m : Mode) (i : RegNum) (v : Word) : (s.setXIn m i v).keys = s.keys :=
    by unfold State.setXIn; split <;> rfl
@[simp] theorem setXIn_ppu (m : Mode) (i : RegNum) (v : Word) : (s.setXIn m i v).ppu = s.ppu :=
    by unfold State.setXIn; split <;> rfl
@[simp] theorem setXIn_frame (m : Mode) (i : RegNum) (v : Word) : (s.setXIn m i v).frame = s.frame :=
    by unfold State.setXIn; split <;> rfl
@[simp] theorem setXIn_hostFrame (m : Mode) (i : RegNum) (v : Word) : (s.setXIn m i v).hostFrame = s.hostFrame :=
    by unfold State.setXIn; split <;> rfl
@[simp] theorem setXIn_params (m : Mode) (i : RegNum) (v : Word) : (s.setXIn m i v).params = s.params :=
    by unfold State.setXIn; split <;> rfl
@[simp] theorem setXIn_refill (m : Mode) (i : RegNum) (v : Word) : (s.setXIn m i v).refill = s.refill :=
    by unfold State.setXIn; split <;> rfl
@[simp] theorem setXIn_draws (m : Mode) (i : RegNum) (v : Word) : (s.setXIn m i v).draws = s.draws :=
    by unfold State.setXIn; split <;> rfl

/-! ### `setX` -/

@[simp] theorem setX_cpsr (i : RegNum) (v : Word) : (s.setX i v).cpsr = s.cpsr := setXIn_cpsr ..
@[simp] theorem setX_spsrFiq (i : RegNum) (v : Word) : (s.setX i v).spsrFiq = s.spsrFiq := setXIn_spsrFiq ..
@[simp] theorem setX_spsrIrq (i : RegNum) (v : Word) : (s.setX i v).spsrIrq = s.spsrIrq := setXIn_spsrIrq ..
@[simp] theorem setX_spsrSvc (i : RegNum) (v : Word) : (s.setX i v).spsrSvc = s.spsrSvc := setXIn_spsrSvc ..
@[simp] theorem setX_spsrAbt (i : RegNum) (v : Word) : (s.setX i v).spsrAbt = s.spsrAbt := setXIn_spsrAbt ..
@[simp] theorem setX_spsrUnd (i : RegNum) (v : Word) : (s.setX i v).spsrUnd = s.spsrUnd := setXIn_spsrUnd ..
@[simp] theorem setX_pc (i : RegNum) (v : Word) : (s.setX i v).pc = s.pc := setXIn_pc ..
@[simp] theorem setX_lastFetchAddr (i : RegNum) (v : Word) : (s.setX i v).lastFetchAddr = s.lastFetchAddr :=
    setXIn_lastFetchAddr ..
@[simp] theorem setX_lastFetchWord (i : RegNum) (v : Word) : (s.setX i v).lastFetchWord = s.lastFetchWord :=
    setXIn_lastFetchWord ..
@[simp] theorem setX_halt (i : RegNum) (v : Word) : (s.setX i v).halt = s.halt := setXIn_halt ..
@[simp] theorem setX_mem (i : RegNum) (v : Word) : (s.setX i v).mem = s.mem := setXIn_mem ..
@[simp] theorem setX_save (i : RegNum) (v : Word) : (s.setX i v).save = s.save := setXIn_save ..
@[simp] theorem setX_ioStore (i : RegNum) (v : Word) : (s.setX i v).ioStore = s.ioStore := setXIn_ioStore ..
@[simp] theorem setX_irq (i : RegNum) (v : Word) : (s.setX i v).irq = s.irq := setXIn_irq ..
@[simp] theorem setX_waitcnt (i : RegNum) (v : Word) : (s.setX i v).waitcnt = s.waitcnt := setXIn_waitcnt ..
@[simp] theorem setX_timers (i : RegNum) (v : Word) : (s.setX i v).timers = s.timers := setXIn_timers ..
@[simp] theorem setX_fifoA (i : RegNum) (v : Word) : (s.setX i v).fifoA = s.fifoA := setXIn_fifoA ..
@[simp] theorem setX_fifoB (i : RegNum) (v : Word) : (s.setX i v).fifoB = s.fifoB := setXIn_fifoB ..
@[simp] theorem setX_dma (i : RegNum) (v : Word) : (s.setX i v).dma = s.dma := setXIn_dma ..
@[simp] theorem setX_keys (i : RegNum) (v : Word) : (s.setX i v).keys = s.keys := setXIn_keys ..
@[simp] theorem setX_ppu (i : RegNum) (v : Word) : (s.setX i v).ppu = s.ppu := setXIn_ppu ..
@[simp] theorem setX_frame (i : RegNum) (v : Word) : (s.setX i v).frame = s.frame := setXIn_frame ..
@[simp] theorem setX_hostFrame (i : RegNum) (v : Word) : (s.setX i v).hostFrame = s.hostFrame := setXIn_hostFrame ..
@[simp] theorem setX_params (i : RegNum) (v : Word) : (s.setX i v).params = s.params := setXIn_params ..
@[simp] theorem setX_refill (i : RegNum) (v : Word) : (s.setX i v).refill = s.refill := setXIn_refill ..
@[simp] theorem setX_draws (i : RegNum) (v : Word) : (s.setX i v).draws = s.draws := setXIn_draws ..

/-! ### `setSpsrOf` -/

@[simp] theorem setSpsrOf_regs (m : Mode) (p : Spsr) : (s.setSpsrOf m p).regs = s.regs := by cases m <;> rfl
@[simp] theorem setSpsrOf_cpsr (m : Mode) (p : Spsr) : (s.setSpsrOf m p).cpsr = s.cpsr := by cases m <;> rfl
@[simp] theorem setSpsrOf_pc (m : Mode) (p : Spsr) : (s.setSpsrOf m p).pc = s.pc := by cases m <;> rfl
@[simp] theorem setSpsrOf_lastFetchAddr (m : Mode) (p : Spsr) : (s.setSpsrOf m p).lastFetchAddr = s.lastFetchAddr :=
    by cases m <;> rfl
@[simp] theorem setSpsrOf_lastFetchWord (m : Mode) (p : Spsr) : (s.setSpsrOf m p).lastFetchWord = s.lastFetchWord :=
    by cases m <;> rfl
@[simp] theorem setSpsrOf_halt (m : Mode) (p : Spsr) : (s.setSpsrOf m p).halt = s.halt := by cases m <;> rfl
@[simp] theorem setSpsrOf_mem (m : Mode) (p : Spsr) : (s.setSpsrOf m p).mem = s.mem := by cases m <;> rfl
@[simp] theorem setSpsrOf_save (m : Mode) (p : Spsr) : (s.setSpsrOf m p).save = s.save := by cases m <;> rfl
@[simp] theorem setSpsrOf_ioStore (m : Mode) (p : Spsr) : (s.setSpsrOf m p).ioStore = s.ioStore := by cases m <;> rfl
@[simp] theorem setSpsrOf_irq (m : Mode) (p : Spsr) : (s.setSpsrOf m p).irq = s.irq := by cases m <;> rfl
@[simp] theorem setSpsrOf_waitcnt (m : Mode) (p : Spsr) : (s.setSpsrOf m p).waitcnt = s.waitcnt := by cases m <;> rfl
@[simp] theorem setSpsrOf_timers (m : Mode) (p : Spsr) : (s.setSpsrOf m p).timers = s.timers := by cases m <;> rfl
@[simp] theorem setSpsrOf_fifoA (m : Mode) (p : Spsr) : (s.setSpsrOf m p).fifoA = s.fifoA := by cases m <;> rfl
@[simp] theorem setSpsrOf_fifoB (m : Mode) (p : Spsr) : (s.setSpsrOf m p).fifoB = s.fifoB := by cases m <;> rfl
@[simp] theorem setSpsrOf_dma (m : Mode) (p : Spsr) : (s.setSpsrOf m p).dma = s.dma := by cases m <;> rfl
@[simp] theorem setSpsrOf_keys (m : Mode) (p : Spsr) : (s.setSpsrOf m p).keys = s.keys := by cases m <;> rfl
@[simp] theorem setSpsrOf_ppu (m : Mode) (p : Spsr) : (s.setSpsrOf m p).ppu = s.ppu := by cases m <;> rfl
@[simp] theorem setSpsrOf_frame (m : Mode) (p : Spsr) : (s.setSpsrOf m p).frame = s.frame := by cases m <;> rfl
@[simp] theorem setSpsrOf_hostFrame (m : Mode) (p : Spsr) : (s.setSpsrOf m p).hostFrame = s.hostFrame :=
    by cases m <;> rfl
@[simp] theorem setSpsrOf_params (m : Mode) (p : Spsr) : (s.setSpsrOf m p).params = s.params := by cases m <;> rfl
@[simp] theorem setSpsrOf_refill (m : Mode) (p : Spsr) : (s.setSpsrOf m p).refill = s.refill := by cases m <;> rfl
@[simp] theorem setSpsrOf_draws (m : Mode) (p : Spsr) : (s.setSpsrOf m p).draws = s.draws := by cases m <;> rfl

/-! ### `requestIrq` -/

@[simp] theorem requestIrq_regs (n : Nat) : (s.requestIrq n).regs = s.regs := rfl
@[simp] theorem requestIrq_cpsr (n : Nat) : (s.requestIrq n).cpsr = s.cpsr := rfl
@[simp] theorem requestIrq_spsrFiq (n : Nat) : (s.requestIrq n).spsrFiq = s.spsrFiq := rfl
@[simp] theorem requestIrq_spsrIrq (n : Nat) : (s.requestIrq n).spsrIrq = s.spsrIrq := rfl
@[simp] theorem requestIrq_spsrSvc (n : Nat) : (s.requestIrq n).spsrSvc = s.spsrSvc := rfl
@[simp] theorem requestIrq_spsrAbt (n : Nat) : (s.requestIrq n).spsrAbt = s.spsrAbt := rfl
@[simp] theorem requestIrq_spsrUnd (n : Nat) : (s.requestIrq n).spsrUnd = s.spsrUnd := rfl
@[simp] theorem requestIrq_pc (n : Nat) : (s.requestIrq n).pc = s.pc := rfl
@[simp] theorem requestIrq_lastFetchAddr (n : Nat) : (s.requestIrq n).lastFetchAddr = s.lastFetchAddr := rfl
@[simp] theorem requestIrq_lastFetchWord (n : Nat) : (s.requestIrq n).lastFetchWord = s.lastFetchWord := rfl
@[simp] theorem requestIrq_halt (n : Nat) : (s.requestIrq n).halt = s.halt := rfl
@[simp] theorem requestIrq_mem (n : Nat) : (s.requestIrq n).mem = s.mem := rfl
@[simp] theorem requestIrq_save (n : Nat) : (s.requestIrq n).save = s.save := rfl
@[simp] theorem requestIrq_ioStore (n : Nat) : (s.requestIrq n).ioStore = s.ioStore := rfl
@[simp] theorem requestIrq_irq (n : Nat) :
    (s.requestIrq n).irq = { s.irq with iff := s.irq.iff ||| (1#16 <<< n) } := rfl
@[simp] theorem requestIrq_waitcnt (n : Nat) : (s.requestIrq n).waitcnt = s.waitcnt := rfl
@[simp] theorem requestIrq_timers (n : Nat) : (s.requestIrq n).timers = s.timers := rfl
@[simp] theorem requestIrq_fifoA (n : Nat) : (s.requestIrq n).fifoA = s.fifoA := rfl
@[simp] theorem requestIrq_fifoB (n : Nat) : (s.requestIrq n).fifoB = s.fifoB := rfl
@[simp] theorem requestIrq_dma (n : Nat) : (s.requestIrq n).dma = s.dma := rfl
@[simp] theorem requestIrq_keys (n : Nat) : (s.requestIrq n).keys = s.keys := rfl
@[simp] theorem requestIrq_ppu (n : Nat) : (s.requestIrq n).ppu = s.ppu := rfl
@[simp] theorem requestIrq_frame (n : Nat) : (s.requestIrq n).frame = s.frame := rfl
@[simp] theorem requestIrq_hostFrame (n : Nat) : (s.requestIrq n).hostFrame = s.hostFrame := rfl
@[simp] theorem requestIrq_params (n : Nat) : (s.requestIrq n).params = s.params := rfl
@[simp] theorem requestIrq_refill (n : Nat) : (s.requestIrq n).refill = s.refill := rfl
@[simp] theorem requestIrq_draws (n : Nat) : (s.requestIrq n).draws = s.draws := rfl

/-! ### `setDma` -/

@[simp] theorem setDma_regs (k : Fin 4) (c : DmaChannel) : (s.setDma k c).regs = s.regs := rfl
@[simp] theorem setDma_cpsr (k : Fin 4) (c : DmaChannel) : (s.setDma k c).cpsr = s.cpsr := rfl
@[simp] theorem setDma_spsrFiq (k : Fin 4) (c : DmaChannel) : (s.setDma k c).spsrFiq = s.spsrFiq := rfl
@[simp] theorem setDma_spsrIrq (k : Fin 4) (c : DmaChannel) : (s.setDma k c).spsrIrq = s.spsrIrq := rfl
@[simp] theorem setDma_spsrSvc (k : Fin 4) (c : DmaChannel) : (s.setDma k c).spsrSvc = s.spsrSvc := rfl
@[simp] theorem setDma_spsrAbt (k : Fin 4) (c : DmaChannel) : (s.setDma k c).spsrAbt = s.spsrAbt := rfl
@[simp] theorem setDma_spsrUnd (k : Fin 4) (c : DmaChannel) : (s.setDma k c).spsrUnd = s.spsrUnd := rfl
@[simp] theorem setDma_pc (k : Fin 4) (c : DmaChannel) : (s.setDma k c).pc = s.pc := rfl
@[simp] theorem setDma_lastFetchAddr (k : Fin 4) (c : DmaChannel) : (s.setDma k c).lastFetchAddr = s.lastFetchAddr :=
    rfl
@[simp] theorem setDma_lastFetchWord (k : Fin 4) (c : DmaChannel) : (s.setDma k c).lastFetchWord = s.lastFetchWord :=
    rfl
@[simp] theorem setDma_halt (k : Fin 4) (c : DmaChannel) : (s.setDma k c).halt = s.halt := rfl
@[simp] theorem setDma_mem (k : Fin 4) (c : DmaChannel) : (s.setDma k c).mem = s.mem := rfl
@[simp] theorem setDma_save (k : Fin 4) (c : DmaChannel) : (s.setDma k c).save = s.save := rfl
@[simp] theorem setDma_ioStore (k : Fin 4) (c : DmaChannel) : (s.setDma k c).ioStore = s.ioStore := rfl
@[simp] theorem setDma_irq (k : Fin 4) (c : DmaChannel) : (s.setDma k c).irq = s.irq := rfl
@[simp] theorem setDma_waitcnt (k : Fin 4) (c : DmaChannel) : (s.setDma k c).waitcnt = s.waitcnt := rfl
@[simp] theorem setDma_timers (k : Fin 4) (c : DmaChannel) : (s.setDma k c).timers = s.timers := rfl
@[simp] theorem setDma_fifoA (k : Fin 4) (c : DmaChannel) : (s.setDma k c).fifoA = s.fifoA := rfl
@[simp] theorem setDma_fifoB (k : Fin 4) (c : DmaChannel) : (s.setDma k c).fifoB = s.fifoB := rfl
@[simp] theorem setDma_dma (k : Fin 4) (c : DmaChannel) : (s.setDma k c).dma = s.dma.set k c := rfl
@[simp] theorem setDma_keys (k : Fin 4) (c : DmaChannel) : (s.setDma k c).keys = s.keys := rfl
@[simp] theorem setDma_ppu (k : Fin 4) (c : DmaChannel) : (s.setDma k c).ppu = s.ppu := rfl
@[simp] theorem setDma_frame (k : Fin 4) (c : DmaChannel) : (s.setDma k c).frame = s.frame := rfl
@[simp] theorem setDma_hostFrame (k : Fin 4) (c : DmaChannel) : (s.setDma k c).hostFrame = s.hostFrame := rfl
@[simp] theorem setDma_params (k : Fin 4) (c : DmaChannel) : (s.setDma k c).params = s.params := rfl
@[simp] theorem setDma_refill (k : Fin 4) (c : DmaChannel) : (s.setDma k c).refill = s.refill := rfl
@[simp] theorem setDma_draws (k : Fin 4) (c : DmaChannel) : (s.setDma k c).draws = s.draws := rfl

/-! ### `setTimer` -/

@[simp] theorem setTimer_regs (k : Fin 4) (t : Timer) : (s.setTimer k t).regs = s.regs := rfl
@[simp] theorem setTimer_cpsr (k : Fin 4) (t : Timer) : (s.setTimer k t).cpsr = s.cpsr := rfl
@[simp] theorem setTimer_spsrFiq (k : Fin 4) (t : Timer) : (s.setTimer k t).spsrFiq = s.spsrFiq := rfl
@[simp] theorem setTimer_spsrIrq (k : Fin 4) (t : Timer) : (s.setTimer k t).spsrIrq = s.spsrIrq := rfl
@[simp] theorem setTimer_spsrSvc (k : Fin 4) (t : Timer) : (s.setTimer k t).spsrSvc = s.spsrSvc := rfl
@[simp] theorem setTimer_spsrAbt (k : Fin 4) (t : Timer) : (s.setTimer k t).spsrAbt = s.spsrAbt := rfl
@[simp] theorem setTimer_spsrUnd (k : Fin 4) (t : Timer) : (s.setTimer k t).spsrUnd = s.spsrUnd := rfl
@[simp] theorem setTimer_pc (k : Fin 4) (t : Timer) : (s.setTimer k t).pc = s.pc := rfl
@[simp] theorem setTimer_lastFetchAddr (k : Fin 4) (t : Timer) : (s.setTimer k t).lastFetchAddr = s.lastFetchAddr :=
    rfl
@[simp] theorem setTimer_lastFetchWord (k : Fin 4) (t : Timer) : (s.setTimer k t).lastFetchWord = s.lastFetchWord :=
    rfl
@[simp] theorem setTimer_halt (k : Fin 4) (t : Timer) : (s.setTimer k t).halt = s.halt := rfl
@[simp] theorem setTimer_mem (k : Fin 4) (t : Timer) : (s.setTimer k t).mem = s.mem := rfl
@[simp] theorem setTimer_save (k : Fin 4) (t : Timer) : (s.setTimer k t).save = s.save := rfl
@[simp] theorem setTimer_ioStore (k : Fin 4) (t : Timer) : (s.setTimer k t).ioStore = s.ioStore := rfl
@[simp] theorem setTimer_irq (k : Fin 4) (t : Timer) : (s.setTimer k t).irq = s.irq := rfl
@[simp] theorem setTimer_waitcnt (k : Fin 4) (t : Timer) : (s.setTimer k t).waitcnt = s.waitcnt := rfl
@[simp] theorem setTimer_timers (k : Fin 4) (t : Timer) : (s.setTimer k t).timers = s.timers.set k t := rfl
@[simp] theorem setTimer_fifoA (k : Fin 4) (t : Timer) : (s.setTimer k t).fifoA = s.fifoA := rfl
@[simp] theorem setTimer_fifoB (k : Fin 4) (t : Timer) : (s.setTimer k t).fifoB = s.fifoB := rfl
@[simp] theorem setTimer_dma (k : Fin 4) (t : Timer) : (s.setTimer k t).dma = s.dma := rfl
@[simp] theorem setTimer_keys (k : Fin 4) (t : Timer) : (s.setTimer k t).keys = s.keys := rfl
@[simp] theorem setTimer_ppu (k : Fin 4) (t : Timer) : (s.setTimer k t).ppu = s.ppu := rfl
@[simp] theorem setTimer_frame (k : Fin 4) (t : Timer) : (s.setTimer k t).frame = s.frame := rfl
@[simp] theorem setTimer_hostFrame (k : Fin 4) (t : Timer) : (s.setTimer k t).hostFrame = s.hostFrame := rfl
@[simp] theorem setTimer_params (k : Fin 4) (t : Timer) : (s.setTimer k t).params = s.params := rfl
@[simp] theorem setTimer_refill (k : Fin 4) (t : Timer) : (s.setTimer k t).refill = s.refill := rfl
@[simp] theorem setTimer_draws (k : Fin 4) (t : Timer) : (s.setTimer k t).draws = s.draws := rfl

/-! ### `setPpu` -/

@[simp] theorem setPpu_regs (p : Ppu) : (s.setPpu p).regs = s.regs := rfl
@[simp] theorem setPpu_cpsr (p : Ppu) : (s.setPpu p).cpsr = s.cpsr := rfl
@[simp] theorem setPpu_spsrFiq (p : Ppu) : (s.setPpu p).spsrFiq = s.spsrFiq := rfl
@[simp] theorem setPpu_spsrIrq (p : Ppu) : (s.setPpu p).spsrIrq = s.spsrIrq := rfl
@[simp] theorem setPpu_spsrSvc (p : Ppu) : (s.setPpu p).spsrSvc = s.spsrSvc := rfl
@[simp] theorem setPpu_spsrAbt (p : Ppu) : (s.setPpu p).spsrAbt = s.spsrAbt := rfl
@[simp] theorem setPpu_spsrUnd (p : Ppu) : (s.setPpu p).spsrUnd = s.spsrUnd := rfl
@[simp] theorem setPpu_pc (p : Ppu) : (s.setPpu p).pc = s.pc := rfl
@[simp] theorem setPpu_lastFetchAddr (p : Ppu) : (s.setPpu p).lastFetchAddr = s.lastFetchAddr := rfl
@[simp] theorem setPpu_lastFetchWord (p : Ppu) : (s.setPpu p).lastFetchWord = s.lastFetchWord := rfl
@[simp] theorem setPpu_halt (p : Ppu) : (s.setPpu p).halt = s.halt := rfl
@[simp] theorem setPpu_mem (p : Ppu) : (s.setPpu p).mem = s.mem := rfl
@[simp] theorem setPpu_save (p : Ppu) : (s.setPpu p).save = s.save := rfl
@[simp] theorem setPpu_ioStore (p : Ppu) : (s.setPpu p).ioStore = s.ioStore := rfl
@[simp] theorem setPpu_irq (p : Ppu) : (s.setPpu p).irq = s.irq := rfl
@[simp] theorem setPpu_waitcnt (p : Ppu) : (s.setPpu p).waitcnt = s.waitcnt := rfl
@[simp] theorem setPpu_timers (p : Ppu) : (s.setPpu p).timers = s.timers := rfl
@[simp] theorem setPpu_fifoA (p : Ppu) : (s.setPpu p).fifoA = s.fifoA := rfl
@[simp] theorem setPpu_fifoB (p : Ppu) : (s.setPpu p).fifoB = s.fifoB := rfl
@[simp] theorem setPpu_dma (p : Ppu) : (s.setPpu p).dma = s.dma := rfl
@[simp] theorem setPpu_keys (p : Ppu) : (s.setPpu p).keys = s.keys := rfl
@[simp] theorem setPpu_ppu (p : Ppu) : (s.setPpu p).ppu = p := rfl
@[simp] theorem setPpu_frame (p : Ppu) : (s.setPpu p).frame = s.frame := rfl
@[simp] theorem setPpu_hostFrame (p : Ppu) : (s.setPpu p).hostFrame = s.hostFrame := rfl
@[simp] theorem setPpu_params (p : Ppu) : (s.setPpu p).params = s.params := rfl
@[simp] theorem setPpu_refill (p : Ppu) : (s.setPpu p).refill = s.refill := rfl
@[simp] theorem setPpu_draws (p : Ppu) : (s.setPpu p).draws = s.draws := rfl

/-! ### `setBg` -/

@[simp] theorem setBg_regs (k : Fin 4) (b : Background) : (s.setBg k b).regs = s.regs := rfl
@[simp] theorem setBg_cpsr (k : Fin 4) (b : Background) : (s.setBg k b).cpsr = s.cpsr := rfl
@[simp] theorem setBg_spsrFiq (k : Fin 4) (b : Background) : (s.setBg k b).spsrFiq = s.spsrFiq := rfl
@[simp] theorem setBg_spsrIrq (k : Fin 4) (b : Background) : (s.setBg k b).spsrIrq = s.spsrIrq := rfl
@[simp] theorem setBg_spsrSvc (k : Fin 4) (b : Background) : (s.setBg k b).spsrSvc = s.spsrSvc := rfl
@[simp] theorem setBg_spsrAbt (k : Fin 4) (b : Background) : (s.setBg k b).spsrAbt = s.spsrAbt := rfl
@[simp] theorem setBg_spsrUnd (k : Fin 4) (b : Background) : (s.setBg k b).spsrUnd = s.spsrUnd := rfl
@[simp] theorem setBg_pc (k : Fin 4) (b : Background) : (s.setBg k b).pc = s.pc := rfl
@[simp] theorem setBg_lastFetchAddr (k : Fin 4) (b : Background) : (s.setBg k b).lastFetchAddr = s.lastFetchAddr :=
    rfl
@[simp] theorem setBg_lastFetchWord (k : Fin 4) (b : Background) : (s.setBg k b).lastFetchWord = s.lastFetchWord :=
    rfl
@[simp] theorem setBg_halt (k : Fin 4) (b : Background) : (s.setBg k b).halt = s.halt := rfl
@[simp] theorem setBg_mem (k : Fin 4) (b : Background) : (s.setBg k b).mem = s.mem := rfl
@[simp] theorem setBg_save (k : Fin 4) (b : Background) : (s.setBg k b).save = s.save := rfl
@[simp] theorem setBg_ioStore (k : Fin 4) (b : Background) : (s.setBg k b).ioStore = s.ioStore := rfl
@[simp] theorem setBg_irq (k : Fin 4) (b : Background) : (s.setBg k b).irq = s.irq := rfl
@[simp] theorem setBg_waitcnt (k : Fin 4) (b : Background) : (s.setBg k b).waitcnt = s.waitcnt := rfl
@[simp] theorem setBg_timers (k : Fin 4) (b : Background) : (s.setBg k b).timers = s.timers := rfl
@[simp] theorem setBg_fifoA (k : Fin 4) (b : Background) : (s.setBg k b).fifoA = s.fifoA := rfl
@[simp] theorem setBg_fifoB (k : Fin 4) (b : Background) : (s.setBg k b).fifoB = s.fifoB := rfl
@[simp] theorem setBg_dma (k : Fin 4) (b : Background) : (s.setBg k b).dma = s.dma := rfl
@[simp] theorem setBg_keys (k : Fin 4) (b : Background) : (s.setBg k b).keys = s.keys := rfl
@[simp] theorem setBg_ppu (k : Fin 4) (b : Background) :
    (s.setBg k b).ppu = { s.ppu with bg := s.ppu.bg.set k b } := rfl
@[simp] theorem setBg_frame (k : Fin 4) (b : Background) : (s.setBg k b).frame = s.frame := rfl
@[simp] theorem setBg_hostFrame (k : Fin 4) (b : Background) : (s.setBg k b).hostFrame = s.hostFrame := rfl
@[simp] theorem setBg_params (k : Fin 4) (b : Background) : (s.setBg k b).params = s.params := rfl
@[simp] theorem setBg_refill (k : Fin 4) (b : Background) : (s.setBg k b).refill = s.refill := rfl
@[simp] theorem setBg_draws (k : Fin 4) (b : Background) : (s.setBg k b).draws = s.draws := rfl

/-! ### `setAffine` -/

@[simp] theorem setAffine_regs (g : Bool) (a : Affine) : (s.setAffine g a).regs = s.regs := by cases g <;> rfl
@[simp] theorem setAffine_cpsr (g : Bool) (a : Affine) : (s.setAffine g a).cpsr = s.cpsr := by cases g <;> rfl
@[simp] theorem setAffine_spsrFiq (g : Bool) (a : Affine) : (s.setAffine g a).spsrFiq = s.spsrFiq :=
    by cases g <;> rfl
@[simp] theorem setAffine_spsrIrq (g : Bool) (a : Affine) : (s.setAffine g a).spsrIrq = s.spsrIrq :=
    by cases g <;> rfl
@[simp] theorem setAffine_spsrSvc (g : Bool) (a : Affine) : (s.setAffine g a).spsrSvc = s.spsrSvc :=
    by cases g <;> rfl
@[simp] theorem setAffine_spsrAbt (g : Bool) (a : Affine) : (s.setAffine g a).spsrAbt = s.spsrAbt :=
    by cases g <;> rfl
@[simp] theorem setAffine_spsrUnd (g : Bool) (a : Affine) : (s.setAffine g a).spsrUnd = s.spsrUnd :=
    by cases g <;> rfl
@[simp] theorem setAffine_pc (g : Bool) (a : Affine) : (s.setAffine g a).pc = s.pc := by cases g <;> rfl
@[simp] theorem setAffine_lastFetchAddr (g : Bool) (a : Affine) : (s.setAffine g a).lastFetchAddr = s.lastFetchAddr :=
    by cases g <;> rfl
@[simp] theorem setAffine_lastFetchWord (g : Bool) (a : Affine) : (s.setAffine g a).lastFetchWord = s.lastFetchWord :=
    by cases g <;> rfl
@[simp] theorem setAffine_halt (g : Bool) (a : Affine) : (s.setAffine g a).halt = s.halt := by cases g <;> rfl
@[simp] theorem setAffine_mem (g : Bool) (a : Affine) : (s.setAffine g a).mem = s.mem := by cases g <;> rfl
@[simp] theorem setAffine_save (g : Bool) (a : Affine) : (s.setAffine g a).save = s.save := by cases g <;> rfl
@[simp] theorem setAffine_ioStore (g : Bool) (a : Affine) : (s.setAffine g a).ioStore = s.ioStore :=
    by cases g <;> rfl
@[simp] theorem setAffine_irq (g : Bool) (a : Affine) : (s.setAffine g a).irq = s.irq := by cases g <;> rfl
@[simp] theorem setAffine_waitcnt (g : Bool) (a : Affine) : (s.setAffine g a).waitcnt = s.waitcnt :=
    by cases g <;> rfl
@[simp] theorem setAffine_timers (g : Bool) (a : Affine) : (s.setAffine g a).timers = s.timers := by cases g <;> rfl
@[simp] theorem setAffine_fifoA (g : Bool) (a : Affine) : (s.setAffine g a).fifoA = s.fifoA := by cases g <;> rfl
@[simp] theorem setAffine_fifoB (g : Bool) (a : Affine) : (s.setAffine g a).fifoB = s.fifoB := by cases g <;> rfl
@[simp] theorem setAffine_dma (g : Bool) (a : Affine) : (s.setAffine g a).dma = s.dma := by cases g <;> rfl
@[simp] theorem setAffine_keys (g : Bool) (a : Affine) : (s.setAffine g a).keys = s.keys := by cases g <;> rfl
@[simp] theorem setAffine_frame (g : Bool) (a : Affine) : (s.setAffine g a).frame = s.frame := by cases g <;> rfl
@[simp] theorem setAffine_hostFrame (g : Bool) (a : Affine) : (s.setAffine g a).hostFrame = s.hostFrame :=
    by cases g <;> rfl
@[simp] theorem setAffine_params (g : Bool) (a : Affine) : (s.setAffine g a).params = s.params := by cases g <;> rfl
@[simp] theorem setAffine_refill (g : Bool) (a : Affine) : (s.setAffine g a).refill = s.refill := by cases g <;> rfl
@[simp] theorem setAffine_draws (g : Bool) (a : Affine) : (s.setAffine g a).draws = s.draws := by cases g <;> rfl

/-! ### `setFlashState` -/

@[simp] theorem setFlashState_regs (f : FlashState) : (s.setFlashState f).regs = s.regs := rfl
@[simp] theorem setFlashState_cpsr (f : FlashState) : (s.setFlashState f).cpsr = s.cpsr := rfl
@[simp] theorem setFlashState_spsrFiq (f : FlashState) : (s.setFlashState f).spsrFiq = s.spsrFiq := rfl
@[simp] theorem setFlashState_spsrIrq (f : FlashState) : (s.setFlashState f).spsrIrq = s.spsrIrq := rfl
@[simp] theorem setFlashState_spsrSvc (f : FlashState) : (s.setFlashState f).spsrSvc = s.spsrSvc := rfl
@[simp] theorem setFlashState_spsrAbt (f : FlashState) : (s.setFlashState f).spsrAbt = s.spsrAbt := rfl
@[simp] theorem setFlashState_spsrUnd (f : FlashState) : (s.setFlashState f).spsrUnd = s.spsrUnd := rfl
@[simp] theorem setFlashState_pc (f : FlashState) : (s.setFlashState f).pc = s.pc := rfl
@[simp] theorem setFlashState_lastFetchAddr (f : FlashState) : (s.setFlashState f).lastFetchAddr = s.lastFetchAddr :=
    rfl
@[simp] theorem setFlashState_lastFetchWord (f : FlashState) : (s.setFlashState f).lastFetchWord = s.lastFetchWord :=
    rfl
@[simp] theorem setFlashState_halt (f : FlashState) : (s.setFlashState f).halt = s.halt := rfl
@[simp] theorem setFlashState_mem (f : FlashState) : (s.setFlashState f).mem = s.mem := rfl
@[simp] theorem setFlashState_save (f : FlashState) :
    (s.setFlashState f).save = { s.save with flashState := f } := rfl
@[simp] theorem setFlashState_ioStore (f : FlashState) : (s.setFlashState f).ioStore = s.ioStore := rfl
@[simp] theorem setFlashState_irq (f : FlashState) : (s.setFlashState f).irq = s.irq := rfl
@[simp] theorem setFlashState_waitcnt (f : FlashState) : (s.setFlashState f).waitcnt = s.waitcnt := rfl
@[simp] theorem setFlashState_timers (f : FlashState) : (s.setFlashState f).timers = s.timers := rfl
@[simp] theorem setFlashState_fifoA (f : FlashState) : (s.setFlashState f).fifoA = s.fifoA := rfl
@[simp] theorem setFlashState_fifoB (f : FlashState) : (s.setFlashState f).fifoB = s.fifoB := rfl
@[simp] theorem setFlashState_dma (f : FlashState) : (s.setFlashState f).dma = s.dma := rfl
@[simp] theorem setFlashState_keys (f : FlashState) : (s.setFlashState f).keys = s.keys := rfl
@[simp] theorem setFlashState_ppu (f : FlashState) : (s.setFlashState f).ppu = s.ppu := rfl
@[simp] theorem setFlashState_frame (f : FlashState) : (s.setFlashState f).frame = s.frame := rfl
@[simp] theorem setFlashState_hostFrame (f : FlashState) : (s.setFlashState f).hostFrame = s.hostFrame := rfl
@[simp] theorem setFlashState_params (f : FlashState) : (s.setFlashState f).params = s.params := rfl
@[simp] theorem setFlashState_refill (f : FlashState) : (s.setFlashState f).refill = s.refill := rfl
@[simp] theorem setFlashState_draws (f : FlashState) : (s.setFlashState f).draws = s.draws := rfl

end Sys2Proof.Machine.State
end

