-- ==== Sys2Proof/Laws/Memory.lean ====
section
/-! SUPPORT. The canonical lists of cells: reading after writing, and every write keeps the canonical form. -/

namespace Sys2Proof.Machine

namespace Cells

variable {u : Nat → Option Byte} {m : List Host.Cell} {k j : Nat} {b : Byte}

/-- Rising locations. -/
abbrev rising (m : List Host.Cell) : Prop := m.Pairwise (fun c d => c.1 < d.1)

theorem lookup_eq_none_of_lt (h : ∀ c ∈ m, k < c.1) : lookup m k = none := by
  induction m with
  | nil => rfl
  | cons c rest ih =>
    obtain ⟨a, x⟩ := c
    simp only [List.mem_cons, forall_eq_or_imp] at h
    rw [lookup, if_neg (by have := h.1; omega), ih h.2]

/-! ### Insert -/

theorem mem_insert {c : Host.Cell} (h : c ∈ insert m k b) : c = (k, b) ∨ c ∈ m := by
  induction m with
  | nil => simpa [insert] using h
  | cons d rest ih =>
    obtain ⟨a, x⟩ := d
    simp only [insert] at h
    split at h
    · simpa using h
    · split at h
      · simp only [List.mem_cons] at h ⊢; tauto
      · simp only [List.mem_cons] at h ⊢
        rcases h with h | h
        · tauto
        · rcases ih h with h | h <;> tauto

theorem rising_insert (h : rising m) : rising (insert m k b) := by
  induction m with
  | nil => simp [insert, rising]
  | cons d rest ih =>
    obtain ⟨a, x⟩ := d
    have hc := List.pairwise_cons.mp h
    simp only [insert]
    split
    · next hk =>
      refine List.pairwise_cons.mpr ⟨fun e he => ?_, h⟩
      simp only [List.mem_cons] at he
      rcases he with rfl | he
      · exact hk
      · exact Nat.lt_trans hk (hc.1 e he)
    · split
      · next hk => exact List.pairwise_cons.mpr ⟨fun e he => by simpa [hk] using hc.1 e he, hc.2⟩
      · refine List.pairwise_cons.mpr ⟨fun e he => ?_, ih hc.2⟩
        rcases mem_insert he with rfl | he
        · simp only; omega
        · exact hc.1 e he

theorem lookup_insert : lookup (insert m k b) j = if j = k then some b else lookup m j := by
  induction m with
  | nil => simp only [insert, lookup, eq_comm]
  | cons d rest ih =>
    obtain ⟨a, x⟩ := d
    simp only [insert]
    split
    · simp only [lookup, eq_comm (a := k)]
    · split
      · next hk => subst hk; simp only [lookup]; split <;> simp_all [eq_comm]
      · simp only [lookup, ih]; split <;> split <;> simp_all

/-! ### Erase -/

theorem erase_sublist : (erase m k).Sublist m := by
  induction m with
  | nil => exact .slnil
  | cons d rest ih =>
    obtain ⟨a, x⟩ := d
    simp only [erase]
    split
    · exact List.sublist_cons_self ..
    · exact ih.cons_cons _

theorem lookup_erase (h : rising m) : lookup (erase m k) j = if j = k then none else lookup m j := by
  induction m with
  | nil => simp [erase, lookup]
  | cons d rest ih =>
    obtain ⟨a, x⟩ := d
    have hc := List.pairwise_cons.mp h
    simp only [erase]
    split
    · next hk =>
      subst hk
      split
      · next hj => subst hj; exact lookup_eq_none_of_lt fun c hm => hc.1 c hm
      · next hj => rw [lookup, if_neg (fun e => hj e.symm)]
    · next hk =>
      simp only [lookup, ih hc.2]
      split
      · next hj => rw [if_neg (by omega)]
      · rfl

/-! ### Put -/

theorem wf_put (h : wf u m) : wf u (put u m k b) := by
  simp only [put]
  split
  · exact ⟨h.1.sublist erase_sublist, fun c hc => h.2 c (erase_sublist.subset hc)⟩
  · next hu =>
    refine ⟨rising_insert h.1, fun c hc => ?_⟩
    rcases mem_insert hc with rfl | hc
    · exact hu
    · exact h.2 c hc

/-- The byte a location holds, an unlisted one as `u` says. -/
theorem lookup_put (h : wf u m) :
    lookup (put u m k b) j = if j = k then (if u k = some b then none else some b) else lookup m j := by
  simp only [put]
  split
  · rw [lookup_erase h.1]
  · rw [lookup_insert]

/-! ### Fill -/

variable {lo n : Nat}

theorem mem_fill {c : Host.Cell} (h : c ∈ fill m lo n b) :
    (c ∈ m ∧ (c.1 < lo ∨ lo + n ≤ c.1)) ∨ (lo ≤ c.1 ∧ c.1 < lo + n ∧ c.2 = b) := by
  simp only [fill, List.mem_append, List.mem_filter, List.mem_map, List.mem_range, decide_eq_true_eq] at h
  rcases h with (h | ⟨i, hi, rfl⟩) | h
  · exact .inl ⟨h.1, .inl h.2⟩
  · exact .inr ⟨by simp, by simpa using hi, rfl⟩
  · exact .inl ⟨h.1, .inr h.2⟩

theorem wf_fill (h : wf u m) (hu : ∀ j, lo ≤ j → j < lo + n → u j ≠ some b) : wf u (fill m lo n b) := by
  refine ⟨?_, fun c hc => ?_⟩
  · simp only [fill, List.pairwise_append, List.mem_append, List.mem_filter, List.mem_map, List.mem_range,
      decide_eq_true_eq]
    refine ⟨⟨h.1.filter _, ?_, ?_⟩, h.1.filter _, ?_⟩
    · rw [List.pairwise_map]
      exact List.pairwise_lt_range.imp (by intros; simp only; omega)
    · rintro c ⟨_, hc⟩ d ⟨i, _, rfl⟩; simp only; omega
    · rintro c (⟨_, hc⟩ | ⟨i, hi, rfl⟩) d ⟨_, hd⟩
      · omega
      · simp only; omega
  · rcases mem_fill hc with ⟨hm, _⟩ | ⟨h1, h2, h3⟩
    · exact h.2 c hm
    · rw [h3]; exact hu c.1 h1 h2

theorem lookup_append (l r : List Host.Cell) (j : Nat) : lookup (l ++ r) j = (lookup l j).or (lookup r j) := by
  induction l with
  | nil => simp [lookup]
  | cons d rest ih =>
    obtain ⟨a, x⟩ := d
    simp only [List.cons_append, lookup]
    split
    · rfl
    · exact ih

theorem lookup_filter (p : Nat → Bool) (m : List Host.Cell) (j : Nat) :
    lookup (m.filter fun c => p c.1) j = if p j then lookup m j else none := by
  induction m with
  | nil => simp [lookup]
  | cons d rest ih =>
    obtain ⟨a, x⟩ := d
    simp only [List.filter_cons, lookup]
    by_cases ha : a = j
    · subst ha
      by_cases hp : p a <;> simp [hp, lookup, ih]
    · by_cases hp : p a <;> simp [hp, lookup, ih, ha]

theorem lookup_range (lo n : Nat) (b : Byte) (j : Nat) :
    lookup ((List.range n).map fun i => (lo + i, b)) j = if lo ≤ j ∧ j < lo + n then some b else none := by
  induction n with
  | zero => rw [if_neg (by omega)]; rfl
  | succ n ih =>
    rw [List.range_succ, List.map_append, lookup_append, ih]
    simp only [List.map_cons, List.map_nil, lookup]
    by_cases h1 : lo ≤ j ∧ j < lo + n
    · have h2 : lo ≤ j ∧ j < lo + (n + 1) := by omega
      simp only [if_pos h1, if_pos h2, Option.some_or]
    · by_cases h2 : lo + n = j
      · have h3 : lo ≤ j ∧ j < lo + (n + 1) := by omega
        simp only [if_neg h1, if_pos h2, if_pos h3, Option.none_or]
      · have h3 : ¬(lo ≤ j ∧ j < lo + (n + 1)) := by omega
        simp only [if_neg h1, if_neg h2, if_neg h3, Option.none_or]

/-- Filling reads the fill inside, the old bytes outside. -/
theorem lookup_fill (m : List Host.Cell) (lo n : Nat) (b : Byte) (j : Nat) :
    lookup (fill m lo n b) j = if lo ≤ j ∧ j < lo + n then some b else lookup m j := by
  rw [fill, lookup_append, lookup_append, lookup_range, lookup_filter (fun k => decide (k < lo)),
    lookup_filter (fun k => decide (lo + n ≤ k))]
  by_cases h1 : lo ≤ j ∧ j < lo + n
  · have h2 : ¬j < lo := by omega
    simp [h1, h2]
  · by_cases h2 : j < lo
    · have h3 : ¬lo + n ≤ j := by omega
      simp [h1, h2, h3]
    · have h3 : lo + n ≤ j := by omega
      simp [h1, h2, h3]

end Cells

/-! ### Memory -/

theorem Memory.get_fill (m : List Host.Cell) (lo n : Nat) (b : Byte) (j : Nat) :
    Memory.get (Cells.fill m lo n b) j = if lo ≤ j ∧ j < lo + n then b else Memory.get m j := by
  simp only [Memory.get, Cells.lookup_fill]
  by_cases h : lo ≤ j ∧ j < lo + n <;> simp [h]

theorem Memory.wf_put {m : List Host.Cell} (h : Memory.wf m) (k : Nat) (b : Byte) : Memory.wf (Memory.put m k b) :=
  Cells.wf_put h

theorem Memory.wf_putAll {m : List Host.Cell} (h : Memory.wf m) (cells : List Host.Cell) :
    Memory.wf (Memory.putAll m cells) := by
  induction cells generalizing m with
  | nil => exact h
  | cons c rest ih => exact ih (Memory.wf_put h c.1 c.2)

/-- Reading a location after writing it, or after writing another. -/
theorem Memory.get_put {m : List Host.Cell} (h : Memory.wf m) (k j : Nat) (b : Byte) :
    Memory.get (Memory.put m k b) j = if j = k then b else Memory.get m j := by
  simp only [Memory.get, Memory.put, Cells.lookup_put h]
  by_cases hj : j = k
  · subst hj
    by_cases hu : Memory.unlisted j = some b <;> simp [hu]
  · simp [hj]

theorem Memory.get_putAll {m : List Host.Cell} (h : Memory.wf m) (cells : List Host.Cell) (j : Nat) :
    Memory.get (Memory.putAll m cells) j =
      match Cells.lookup cells.reverse j with
      | some b => b
      | none => Memory.get m j := by
  induction cells generalizing m with
  | nil => rfl
  | cons c rest ih =>
    rw [Memory.putAll, List.foldl_cons, ← Memory.putAll, ih (Memory.wf_put h c.1 c.2), List.reverse_cons,
      Cells.lookup_append]
    cases Cells.lookup rest.reverse j with
    | some b => rfl
    | none =>
      simp only [Memory.get_put h, Option.none_or, Cells.lookup]
      by_cases hc : c.1 = j
      · simp [hc]
      · rw [if_neg (fun e => hc e.symm), if_neg hc]

theorem Memory.get_putAll_of_notMem {m : List Host.Cell} (h : Memory.wf m) {cells : List Host.Cell} {j : Nat}
    (hj : ∀ c ∈ cells, c.1 ≠ j) : Memory.get (Memory.putAll m cells) j = Memory.get m j := by
  induction cells generalizing m with
  | nil => rfl
  | cons c rest ih =>
    simp only [List.mem_cons, forall_eq_or_imp] at hj
    rw [Memory.putAll, List.foldl_cons, ← Memory.putAll, ih (Memory.wf_put h c.1 c.2) hj.2, Memory.get_put h,
      if_neg (fun e => hj.1 e.symm)]

theorem Memory.wf_nil : Memory.wf [] := ⟨List.Pairwise.nil, by simp⟩

theorem IoStore.wf_put {m : List Host.Cell} (h : IoStore.wf m) (k : Nat) (b : Byte) :
    IoStore.wf (Cells.put (fun _ => some 0#8) m k b) := Cells.wf_put h

/-- RAM, save memory and video memory have no known byte unlisted. -/
theorem Memory.unlisted_eq_none {k : Nat} (h1 : 0x4000 ≤ k) (h2 : k < romBase ∨ romBase + 0x2000000 ≤ k) :
    Memory.unlisted k = none := by
  rw [Memory.unlisted, if_neg (by omega), if_neg (by omega)]

end Sys2Proof.Machine
end

