-- ==== Sys2Proof/Laws/Registers.lean ====
section
/-! SUPPORT. The register file: reads after writes, the views of the modes, and the status registers. -/

namespace Sys2Proof.Machine

/-! ### Physical registers -/

theorem PReg.index_inj {q r : PReg} (h : q.index = r.index) : q = r := by
  revert h; cases q <;> cases r <;> decide

namespace State

variable (s : State)

theorem reg_of_regs {s t : State} (h : t.regs = s.regs) (r : PReg) : t.reg r = s.reg r := by
  simp only [reg, h]

@[simp] theorem reg_setReg_same (r : PReg) (v : Word) : (s.setReg r v).reg r = v := by
  simp [reg, setReg]

theorem reg_setReg_ne {q r : PReg} (h : q ≠ r) (v : Word) : (s.setReg r v).reg q = s.reg q := by
  have hi : r.index.val ≠ q.index.val := fun e => h (PReg.index_inj (Fin.ext e)).symm
  simp [reg, setReg, hi]

@[simp] theorem reg_setPc (v : Word) (r : PReg) : (s.setPc v).reg r = s.reg r := rfl
@[simp] theorem reg_setCpsr (p : Cpsr) (r : PReg) : (s.setCpsr p).reg r = s.reg r := rfl
@[simp] theorem reg_setMode (m : Mode) (r : PReg) : (s.setMode m).reg r = s.reg r := rfl
@[simp] theorem reg_setMem (m : List Host.Cell) (r : PReg) : (s.setMem m).reg r = s.reg r := rfl
@[simp] theorem reg_bump (r : PReg) : s.bump.reg r = s.reg r := rfl
@[simp] theorem reg_advance (r : PReg) : s.advance.reg r = s.reg r := rfl
@[simp] theorem reg_setSpsrOf (m : Mode) (p : Spsr) (r : PReg) : (s.setSpsrOf m p).reg r = s.reg r :=
  reg_of_regs (by simp) r

end State

/-! ### Views -/

theorem Mode.view_eq_none {m : Mode} {i : RegNum} : m.view i = none ↔ i = 15#4 := by
  revert i; cases m <;> decide

theorem Mode.view_isSome {m : Mode} {i : RegNum} (h : i ≠ 15#4) : ∃ r, m.view i = some r :=
  Option.ne_none_iff_exists'.mp fun e => h (Mode.view_eq_none.mp e)

theorem Mode.view_inj {m : Mode} {i j : RegNum} {r : PReg} (hi : m.view i = some r) (hj : m.view j = some r) :
    i = j := by
  have hne : i ≠ 15#4 := fun e => by rw [Mode.view_eq_none.mpr e] at hi; cases hi
  have key : ∀ m : Mode, ∀ i j : RegNum, i ≠ 15#4 → m.view i = m.view j → i = j := by
    intro m; cases m <;> decide
  exact key m i j hne (hi.trans hj.symm)

namespace State

variable (s : State)

theorem xIn_setXIn_same {m : Mode} {i : RegNum} (h : i ≠ 15#4) (v : Word) : (s.setXIn m i v).xIn m i = v := by
  obtain ⟨r, hr⟩ := Mode.view_isSome (m := m) h
  simp [xIn, setXIn, hr]

theorem xIn_setXIn_ne {m : Mode} {i j : RegNum} (hj : j ≠ 15#4) (h : j ≠ i) (v : Word) :
    (s.setXIn m i v).xIn m j = s.xIn m j := by
  obtain ⟨q, hq⟩ := Mode.view_isSome (m := m) hj
  simp only [xIn, setXIn, hq]
  split
  · next r hr => exact reg_setReg_ne s (by rintro rfl; exact h (Mode.view_inj hq hr)) v
  · rfl

theorem x_setX_same {i : RegNum} (h : i ≠ 15#4) (v : Word) : (s.setX i v).x i = v := by
  simp only [x, setX_cpsr]; exact xIn_setXIn_same s h v

theorem x_setX_ne {i j : RegNum} (hj : j ≠ 15#4) (h : j ≠ i) (v : Word) : (s.setX i v).x j = s.x j := by
  simp only [x, setX_cpsr]; exact xIn_setXIn_ne s hj h v

/-- A register other than R15 reads the same in any state with the same registers and mode. -/
theorem x_congr {s t : State} {i : RegNum} (hi : i ≠ 15#4) (hr : t.regs = s.regs)
    (hm : t.cpsr.mode = s.cpsr.mode) : t.x i = s.x i := by
  obtain ⟨r, h⟩ := Mode.view_isSome (m := s.cpsr.mode) hi
  simp only [x, xIn, hm, h, reg, hr]

theorem x_setPc {i : RegNum} (hi : i ≠ 15#4) (v : Word) : (s.setPc v).x i = s.x i := x_congr hi rfl rfl

theorem x_advance {i : RegNum} (hi : i ≠ 15#4) : s.advance.x i = s.x i := x_congr hi rfl rfl

theorem x_bump {i : RegNum} (hi : i ≠ 15#4) : s.bump.x i = s.x i := x_congr hi rfl rfl

/-- Writing a register leaves every physical register but the one the view names. -/
theorem reg_setX_of_notMem {i : RegNum} {r : PReg} (h : r ∉ destOf s i) (v : Word) :
    (s.setX i v).reg r = s.reg r := by
  simp only [destOf, Option.mem_toList] at h
  simp only [setX, setXIn]
  split
  · next q hq => exact reg_setReg_ne s (by rintro rfl; exact h hq) v
  · rfl

theorem reg_setXIn_of_notMem {m : Mode} {i : RegNum} {r : PReg} (h : r ∉ (m.view i).toList) (v : Word) :
    (s.setXIn m i v).reg r = s.reg r := by
  simp only [Option.mem_toList] at h
  simp only [setXIn]
  split
  · next q hq => exact reg_setReg_ne s (by rintro rfl; exact h hq) v
  · rfl

@[simp] theorem setX_r15 (v : Word) : s.setX 15#4 v = s := by
  simp only [setX, setXIn]
  rw [Mode.view_eq_none.mpr rfl]

theorem x_r15 : s.x 15#4 = s.pcOperand := by
  simp only [x, xIn]
  rw [Mode.view_eq_none.mpr rfl]

@[simp] theorem isize_setPc (v : Word) : (s.setPc v).isize = s.isize := rfl
@[simp] theorem isize_bump : s.bump.isize = s.isize := rfl
@[simp] theorem isize_setMem (m : List Host.Cell) : (s.setMem m).isize = s.isize := rfl
@[simp] theorem isize_setX (i : RegNum) (v : Word) : (s.setX i v).isize = s.isize := by simp [isize]
@[simp] theorem isize_setXIn (m : Mode) (i : RegNum) (v : Word) : (s.setXIn m i v).isize = s.isize := by simp [isize]

/-! ### SPSRs -/

theorem spsrOf_setSpsrOf_same {m : Mode} (h : m.hasSpsr = true) (p : Spsr) : (s.setSpsrOf m p).spsrOf m = some p := by
  cases m <;> first | rfl | exact absurd h (by decide)

theorem spsrOf_setSpsrOf_ne {m n : Mode} (h : n ≠ m) (p : Spsr) : (s.setSpsrOf m p).spsrOf n = s.spsrOf n := by
  cases m <;> cases n <;> first | rfl | exact absurd rfl h

theorem spsrOf_isSome {m : Mode} : (s.spsrOf m).isSome = m.hasSpsr := by cases m <;> rfl

end State

/-! ### Status registers -/

@[simp] theorem Mode.ofBits_toBits (m : Mode) : Mode.ofBits m.toBits = some m := by cases m <;> rfl

theorem Mode.toBits_of_ofBits {b : BitVec 5} {m : Mode} (h : Mode.ofBits b = some m) : m.toBits = b := by
  revert h; revert b; cases m <;> decide

@[simp] theorem Cpsr.restored_saved (p : Cpsr) : p.saved.restored = some p := by
  simp [Cpsr.saved, Spsr.restored]

@[simp] theorem Spsr.ofImage_toWord (p : Spsr) : Spsr.ofImage p.toWord = p := by
  obtain ⟨n, z, c, v, i, f, t, m⟩ := p
  simp only [Spsr.toWord, psrWord, Spsr.ofImage, Spsr.mk.injEq]
  refine ⟨?_, ?_, ?_, ?_, ?_, ?_, ?_, ?_⟩
  case refine_8 =>
    apply BitVec.eq_of_getLsbD_eq
    intro j hj
    rw [BitVec.getLsbD_extractLsb', Nat.zero_add, BitVec.getLsbD_append]
    simp [hj]
  all_goals
    repeat rw [BitVec.getLsbD_append]
    simp

end Sys2Proof.Machine
end

