-- ==== Sys2Proof/Laws/Bus.lean ====
section
/-! SUPPORT. What a bus write can do: the CPU's own state is untouched, memory stays canonical, and each window of the
address space is written alone. -/

namespace Sys2Proof.Machine

/-! ### The CPU's own state -/

/-- Everything a bus write leaves alone. -/
structure CpuSame (s t : State) : Prop where
  regs : t.regs = s.regs
  cpsr : t.cpsr = s.cpsr
  pc : t.pc = s.pc
  draws : t.draws = s.draws
  core : SameCore s t

theorem SameCore.refl (s : State) : SameCore s s := ⟨rfl, rfl, rfl, rfl, rfl, rfl, rfl, rfl, rfl, rfl, rfl⟩

theorem SameCore.trans {s t u : State} (h : SameCore s t) (g : SameCore t u) : SameCore s u where
  spsrFiq := g.spsrFiq.trans h.spsrFiq
  spsrIrq := g.spsrIrq.trans h.spsrIrq
  spsrSvc := g.spsrSvc.trans h.spsrSvc
  spsrAbt := g.spsrAbt.trans h.spsrAbt
  spsrUnd := g.spsrUnd.trans h.spsrUnd
  lastFetchAddr := g.lastFetchAddr.trans h.lastFetchAddr
  lastFetchWord := g.lastFetchWord.trans h.lastFetchWord
  frame := g.frame.trans h.frame
  hostFrame := g.hostFrame.trans h.hostFrame
  params := g.params.trans h.params
  refill := g.refill.trans h.refill

theorem SameDevices.refl (s : State) : SameDevices s s := ⟨rfl, rfl, rfl, rfl, rfl, rfl, rfl, rfl, rfl, rfl⟩

theorem SameDevices.trans {s t u : State} (h : SameDevices s t) (g : SameDevices t u) : SameDevices s u where
  halt := g.halt.trans h.halt
  ioStore := g.ioStore.trans h.ioStore
  irq := g.irq.trans h.irq
  waitcnt := g.waitcnt.trans h.waitcnt
  timers := g.timers.trans h.timers
  fifoA := g.fifoA.trans h.fifoA
  fifoB := g.fifoB.trans h.fifoB
  dma := g.dma.trans h.dma
  keys := g.keys.trans h.keys
  ppu := g.ppu.trans h.ppu

theorem CpuSame.refl (s : State) : CpuSame s s := ⟨rfl, rfl, rfl, rfl, .refl s⟩

theorem CpuSame.trans {s t u : State} (h : CpuSame s t) (g : CpuSame t u) : CpuSame s u :=
  ⟨g.regs.trans h.regs, g.cpsr.trans h.cpsr, g.pc.trans h.pc, g.draws.trans h.draws, h.core.trans g.core⟩

theorem CpuSame.ite {c : Prop} [Decidable c] {s t u : State} (ht : CpuSame s t) (hu : CpuSame s u) :
    CpuSame s (if c then t else u) := by split <;> assumption

theorem cpuSame_setMem (s : State) (m : List Host.Cell) : CpuSame s (s.setMem m) :=
  ⟨rfl, rfl, rfl, rfl, ⟨rfl, rfl, rfl, rfl, rfl, rfl, rfl, rfl, rfl, rfl, rfl⟩⟩

theorem cpuSame_store (s : State) (w : Width) (k : Nat) (v : Word) : CpuSame s (s.store w k v) := cpuSame_setMem ..

theorem cpuSame_mk {s t : State} (h : t = { s with
    halt := t.halt, mem := t.mem, save := t.save, ioStore := t.ioStore, irq := t.irq, waitcnt := t.waitcnt,
    timers := t.timers, fifoA := t.fifoA, fifoB := t.fifoB, dma := t.dma, keys := t.keys, ppu := t.ppu }) :
    CpuSame s t := by
  rw [h]
  exact ⟨rfl, rfl, rfl, rfl, ⟨rfl, rfl, rfl, rfl, rfl, rfl, rfl, rfl, rfl, rfl, rfl⟩⟩

theorem cpuSame_keypadCheck (s : State) : CpuSame s (keypadCheck s) := by
  unfold keypadCheck
  exact CpuSame.ite (cpuSame_mk rfl) (CpuSame.refl s)

theorem cpuSame_ioWriteByte (s : State) (off : Nat) (b : Byte) : CpuSame s (ioWriteByte s off b) := by
  unfold ioWriteByte
  dsimp only
  split
  all_goals first
    | exact CpuSame.refl s
    | exact cpuSame_mk rfl
    | exact CpuSame.ite (cpuSame_mk rfl) (cpuSame_mk rfl)

theorem cpuSame_ioWrite (s : State) (w : Width) (off : Nat) (v : Word) : CpuSame s (ioWrite s w off v) := by
  cases w
  · exact cpuSame_ioWriteByte ..
  · exact (cpuSame_ioWriteByte ..).trans (cpuSame_ioWriteByte ..)
  · exact (((cpuSame_ioWriteByte ..).trans (cpuSame_ioWriteByte ..)).trans (cpuSame_ioWriteByte ..)).trans
      (cpuSame_ioWriteByte ..)

theorem cpuSame_flashWrite (s : State) (o : Nat) (b : Byte) : CpuSame s (flashWrite s o b) := by
  unfold flashWrite flashCommand
  dsimp only
  repeat' split
  all_goals exact cpuSame_mk rfl

theorem cpuSame_saveWrite (s : State) (o : Nat) (b : Byte) : CpuSame s (saveWrite s o b) := by
  unfold saveWrite
  split
  · unfold sramWrite
    exact CpuSame.ite (cpuSame_mk rfl) (cpuSame_mk rfl)
  · exact cpuSame_flashWrite ..

theorem cpuSame_videoWrite (s : State) (w : Width) (addr v : Word) : CpuSame s (videoWrite s w addr v) := by
  unfold videoWrite
  dsimp only
  repeat' split
  all_goals first
    | exact CpuSame.refl s
    | exact cpuSame_store ..

/-- A bus write changes memory, the save control and the devices; nothing else. -/
theorem cpuSame_busWrite (s : State) (w : Width) (addr v : Word) : CpuSame s (busWrite s w addr v) := by
  unfold busWrite
  repeat' split
  all_goals first
    | exact CpuSame.refl s
    | exact cpuSame_store ..
    | exact cpuSame_videoWrite ..
    | exact cpuSame_ioWrite ..
    | exact cpuSame_saveWrite ..

@[simp] theorem busWrite_regs (s : State) (w : Width) (a v : Word) : (busWrite s w a v).regs = s.regs :=
  (cpuSame_busWrite s w a v).regs

@[simp] theorem busWrite_cpsr (s : State) (w : Width) (a v : Word) : (busWrite s w a v).cpsr = s.cpsr :=
  (cpuSame_busWrite s w a v).cpsr

@[simp] theorem busWrite_pc (s : State) (w : Width) (a v : Word) : (busWrite s w a v).pc = s.pc :=
  (cpuSame_busWrite s w a v).pc

@[simp] theorem busWrite_draws (s : State) (w : Width) (a v : Word) : (busWrite s w a v).draws = s.draws :=
  (cpuSame_busWrite s w a v).draws

@[simp] theorem busWrite_params (s : State) (w : Width) (a v : Word) : (busWrite s w a v).params = s.params :=
  (cpuSame_busWrite s w a v).core.params

@[simp] theorem busWrite_reg (s : State) (w : Width) (a v : Word) (r : PReg) : (busWrite s w a v).reg r = s.reg r :=
  State.reg_of_regs (busWrite_regs ..) r

/-! ### A bus write does not depend on the CPU -/

/-- The bus side of `s` (memory, the save chip, the devices) with the CPU side of `k`. -/
def State.onto (s k : State) : State :=
  { k with halt := s.halt, mem := s.mem, save := s.save, ioStore := s.ioStore, irq := s.irq, waitcnt := s.waitcnt,
           timers := s.timers, fifoA := s.fifoA, fifoB := s.fifoB, dma := s.dma, keys := s.keys, ppu := s.ppu }

theorem keypadCheck_onto {s k : State} (h : k.params = s.params) : keypadCheck (s.onto k) = (keypadCheck s).onto k := by
  simp only [keypadCheck, State.onto, h]
  split <;> rfl

theorem ioWriteByte_onto {s k : State} (h : k.params = s.params) (off : Nat) (b : Byte) :
    ioWriteByte (s.onto k) off b = (ioWriteByte s off b).onto k := by
  unfold ioWriteByte
  dsimp only
  split
  all_goals first
    | rfl
    | exact keypadCheck_onto (s := { s with keys := _ }) h
    | (simp only [State.affine, State.setAffine]; split <;> rfl)
    | (split <;> rfl)

theorem ioWrite_onto {s k : State} (h : k.params = s.params) (w : Width) (off : Nat) (v : Word) :
    ioWrite (s.onto k) w off v = (ioWrite s w off v).onto k := by
  have hp : ∀ {t : State} (o : Nat) (b : Byte), k.params = t.params → k.params = (ioWriteByte t o b).params := by
    intro t o b e
    rw [(cpuSame_ioWriteByte t o b).core.params]; exact e
  cases w <;> unfold ioWrite
  · rw [ioWriteByte_onto h]
  · rw [ioWriteByte_onto h, ioWriteByte_onto (hp _ _ h)]
  · rw [ioWriteByte_onto h, ioWriteByte_onto (hp _ _ h), ioWriteByte_onto (hp _ _ (hp _ _ h)),
      ioWriteByte_onto (hp _ _ (hp _ _ (hp _ _ h)))]

theorem saveWrite_onto (s k : State) (o : Nat) (b : Byte) : saveWrite (s.onto k) o b = (saveWrite s o b).onto k := by
  have hs : (s.onto k).save = s.save := rfl
  unfold saveWrite sramWrite flashWrite flashCommand
  dsimp only
  rw [hs]
  repeat' split
  all_goals rfl

theorem videoWrite_onto {s k : State} (h : k.params = s.params) (w : Width) (addr v : Word) :
    videoWrite (s.onto k) w addr v = (videoWrite s w addr v).onto k := by
  have hl : ∀ a, locationOf (s.onto k) a = locationOf s a := fun a => by
    unfold locationOf; split <;> first | rfl | (simp only [State.onto, h])
  have hd : narrowDoubles (s.onto k) addr = narrowDoubles s addr := rfl
  have hp : (s.onto k).params = s.params := h
  unfold videoWrite
  rw [hl, hd, hp]
  dsimp only
  repeat' split
  all_goals rfl

/-- A bus write does to the bus side what it does, whatever CPU stands beside it. -/
theorem busWrite_onto {s k : State} (h : k.params = s.params) (w : Width) (addr v : Word) :
    busWrite (s.onto k) w addr v = (busWrite s w addr v).onto k := by
  have hl : ∀ a, locationOf (s.onto k) a = locationOf s a := fun a => by
    unfold locationOf; split <;> first | rfl | (simp only [State.onto, h])
  unfold busWrite
  rw [hl]
  repeat' split
  all_goals first
    | rfl
    | exact videoWrite_onto h ..
    | exact ioWrite_onto h ..
    | exact saveWrite_onto ..

/-- Two states that differ in the CPU alone. -/
structure SameBus (s t : State) : Prop where
  mem : t.mem = s.mem
  save : t.save = s.save
  devices : SameDevices s t
  params : t.params = s.params
  lastFetchWord : t.lastFetchWord = s.lastFetchWord

theorem SameBus.refl (s : State) : SameBus s s := ⟨rfl, rfl, .refl s, rfl, rfl⟩

theorem SameBus.trans {s t u : State} (h : SameBus s t) (g : SameBus t u) : SameBus s u :=
  ⟨g.mem.trans h.mem, g.save.trans h.save, h.devices.trans g.devices, g.params.trans h.params,
   g.lastFetchWord.trans h.lastFetchWord⟩

theorem SameBus.eq_onto {s t : State} (h : SameBus s t) : t = s.onto t := by
  obtain ⟨hm, hs, ⟨h1, h2, h3, h4, h5, h6, h7, h8, h9, h10⟩, -, -⟩ := h
  cases s; cases t
  simp only at *
  subst_vars
  rfl

/-- A bus write keeps states alike that differ in the CPU alone. -/
theorem SameBus.busWrite {s t : State} (h : SameBus s t) (w : Width) (a v : Word) :
    SameBus (busWrite s w a v) (busWrite t w a v) := by
  have hp := (cpuSame_busWrite t w a v).core.params.trans (h.params.trans (cpuSame_busWrite s w a v).core.params.symm)
  have hf := (cpuSame_busWrite t w a v).core.lastFetchWord.trans
    (h.lastFetchWord.trans (cpuSame_busWrite s w a v).core.lastFetchWord.symm)
  have e : Machine.busWrite t w a v = (Machine.busWrite s w a v).onto t :=
    (congrArg (Machine.busWrite · w a v) h.eq_onto).trans (busWrite_onto h.params ..)
  rw [e] at hp hf ⊢
  exact ⟨rfl, rfl, ⟨rfl, rfl, rfl, rfl, rfl, rfl, rfl, rfl, rfl, rfl⟩, hp, hf⟩

theorem SameBus.busWrites (l : List (Width × Word × Word)) :
    ∀ {s t : State}, SameBus s t → SameBus (busWrites l s) (busWrites l t) := by
  induction l with
  | nil => exact id
  | cons e rest ih => exact fun h => ih (h.busWrite ..)

/-- A state that differs in the CPU alone from `s`. -/
theorem sameBus_mk {s t : State} (h : t = { s with
    regs := t.regs, cpsr := t.cpsr, spsrFiq := t.spsrFiq, spsrIrq := t.spsrIrq, spsrSvc := t.spsrSvc,
    spsrAbt := t.spsrAbt, spsrUnd := t.spsrUnd, pc := t.pc, lastFetchAddr := t.lastFetchAddr, refill := t.refill,
    draws := t.draws }) : SameBus s t := by
  rw [h]
  exact ⟨rfl, rfl, ⟨rfl, rfl, rfl, rfl, rfl, rfl, rfl, rfl, rfl, rfl⟩, rfl, rfl⟩

/-! ### I/O writes touch no memory -/

/-- What an I/O write leaves alone beside the CPU. -/
structure NoMemory (s t : State) : Prop where
  mem : t.mem = s.mem
  save : t.save = s.save

theorem NoMemory.trans {s t u : State} (h : NoMemory s t) (g : NoMemory t u) : NoMemory s u :=
  ⟨g.mem.trans h.mem, g.save.trans h.save⟩

theorem NoMemory.ite {c : Prop} [Decidable c] {s t u : State} (ht : NoMemory s t) (hu : NoMemory s u) :
    NoMemory s (if c then t else u) := by split <;> assumption

theorem noMemory_keypadCheck (s : State) : NoMemory s (keypadCheck s) := by
  unfold keypadCheck
  exact NoMemory.ite ⟨rfl, rfl⟩ ⟨rfl, rfl⟩

theorem noMemory_ioWriteByte (s : State) (off : Nat) (b : Byte) : NoMemory s (ioWriteByte s off b) := by
  unfold ioWriteByte
  dsimp only
  split
  all_goals first
    | exact ⟨rfl, rfl⟩
    | exact NoMemory.ite ⟨rfl, rfl⟩ ⟨rfl, rfl⟩

theorem noMemory_ioWrite (s : State) (w : Width) (off : Nat) (v : Word) : NoMemory s (ioWrite s w off v) := by
  cases w
  · exact noMemory_ioWriteByte ..
  · exact (noMemory_ioWriteByte ..).trans (noMemory_ioWriteByte ..)
  · exact (((noMemory_ioWriteByte ..).trans (noMemory_ioWriteByte ..)).trans (noMemory_ioWriteByte ..)).trans
      (noMemory_ioWriteByte ..)

/-! ### Memory and save writes touch no device -/

theorem SameDevices.ite {c : Prop} [Decidable c] {s t u : State} (ht : SameDevices s t) (hu : SameDevices s u) :
    SameDevices s (if c then t else u) := by split <;> assumption

theorem sameDevices_store (s : State) (w : Width) (k : Nat) (v : Word) : SameDevices s (s.store w k v) :=
  ⟨rfl, rfl, rfl, rfl, rfl, rfl, rfl, rfl, rfl, rfl⟩

theorem sameDevices_videoWrite (s : State) (w : Width) (addr v : Word) : SameDevices s (videoWrite s w addr v) := by
  unfold videoWrite
  dsimp only
  repeat' split
  all_goals first
    | exact SameDevices.refl s
    | exact sameDevices_store ..

theorem sameDevices_saveWrite (s : State) (o : Nat) (b : Byte) : SameDevices s (saveWrite s o b) := by
  unfold saveWrite sramWrite flashWrite flashCommand
  dsimp only
  repeat' split
  all_goals exact ⟨rfl, rfl, rfl, rfl, rfl, rfl, rfl, rfl, rfl, rfl⟩

/-- Outside the I/O window a write reaches no device. -/
theorem sameDevices_busWrite {s : State} {w : Width} {addr : Word} (h : regionOf addr ≠ .io) (v : Word) :
    SameDevices s (busWrite s w addr v) := by
  unfold busWrite
  repeat' split
  all_goals first
    | exact SameDevices.refl s
    | exact sameDevices_store ..
    | exact sameDevices_videoWrite ..
    | exact sameDevices_saveWrite ..
    | contradiction

theorem save_videoWrite (s : State) (w : Width) (addr v : Word) : (videoWrite s w addr v).save = s.save := by
  unfold videoWrite
  dsimp only
  repeat' split
  all_goals rfl

/-- Outside the save window a write leaves the save control. -/
theorem save_busWrite {s : State} {w : Width} {addr : Word} (h : regionOf addr ≠ .save) (v : Word) :
    (busWrite s w addr v).save = s.save := by
  unfold busWrite
  repeat' split
  all_goals first
    | rfl
    | exact save_videoWrite ..
    | exact (noMemory_ioWrite ..).save
    | contradiction

/-! ### Memory stays canonical -/

theorem memoryInv_store {s : State} (h : s.MemoryInv) (w : Width) (k : Nat) (v : Word) : (s.store w k v).MemoryInv :=
  ⟨Memory.wf_putAll h.mem _, h.io⟩

@[simp] theorem keypadCheck_ioStore (s : State) : (keypadCheck s).ioStore = s.ioStore := by
  unfold keypadCheck; split <;> rfl

theorem memoryInv_ioWriteByte {s : State} (h : s.MemoryInv) (off : Nat) (b : Byte) : (ioWriteByte s off b).MemoryInv := by
  refine ⟨by rw [(noMemory_ioWriteByte s off b).mem]; exact h.mem, ?_⟩
  have hi := h.io
  unfold ioWriteByte
  dsimp only
  split
  all_goals first
    | exact hi
    | (rw [keypadCheck_ioStore]; exact hi)
    | (rw [State.setAffine_ioStore]; exact hi)
    | (split <;> exact hi)
    | (split <;> exact IoStore.wf_put hi off b)

theorem memoryInv_ioWrite {s : State} (h : s.MemoryInv) (w : Width) (off : Nat) (v : Word) :
    (ioWrite s w off v).MemoryInv := by
  cases w
  · exact memoryInv_ioWriteByte h ..
  · exact memoryInv_ioWriteByte (memoryInv_ioWriteByte h ..) ..
  · exact memoryInv_ioWriteByte (memoryInv_ioWriteByte (memoryInv_ioWriteByte (memoryInv_ioWriteByte h ..) ..) ..) ..

theorem memoryInv_saveStore {s : State} (h : s.MemoryInv) (o : Nat) (b : Byte) : (saveStore s o b).MemoryInv :=
  ⟨Memory.wf_put h.mem .., h.io⟩

theorem memoryInv_flashErase {s : State} (h : s.MemoryInv) (lo n : Nat) : (flashErase s lo n).MemoryInv := by
  refine ⟨Cells.wf_fill h.mem fun j hj _ => ?_, h.io⟩
  rw [Memory.unlisted_eq_none]
  · exact fun e => nomatch e
  · simp only [flashBase] at hj; omega
  · simp only [flashBase, romBase] at hj ⊢; omega

theorem memoryInv_saveWrite {s : State} (h : s.MemoryInv) (o : Nat) (b : Byte) : (saveWrite s o b).MemoryInv := by
  unfold saveWrite sramWrite flashWrite flashCommand
  dsimp only
  repeat' split
  all_goals first
    | exact ⟨h.mem, h.io⟩
    | exact memoryInv_saveStore (s := s.setFlashState .ready) ⟨h.mem, h.io⟩ o b
    | exact memoryInv_flashErase (s := s.setFlashState .ready) ⟨h.mem, h.io⟩ ..
    | (have g := memoryInv_saveStore h o b; exact ⟨g.mem, g.io⟩)

theorem memoryInv_videoWrite {s : State} (h : s.MemoryInv) (w : Width) (addr v : Word) :
    (videoWrite s w addr v).MemoryInv := by
  unfold videoWrite
  dsimp only
  repeat' split
  all_goals first
    | exact h
    | exact memoryInv_store h ..

/-- Every bus write keeps the canonical form. -/
theorem memoryInv_busWrite {s : State} (h : s.MemoryInv) (w : Width) (addr v : Word) :
    (busWrite s w addr v).MemoryInv := by
  unfold busWrite
  repeat' split
  all_goals first
    | exact h
    | exact memoryInv_store h ..
    | exact memoryInv_videoWrite h ..
    | exact memoryInv_ioWrite h ..
    | exact memoryInv_saveWrite h ..

end Sys2Proof.Machine
end

