-- ==== Sys2Proof/Laws/Reads.lean ====
section
/-! SUPPORT. What a byte reads after a bus write: the stored bytes in memory, and every byte the write does not cover. -/

namespace Sys2Proof.Machine

/-! ### States that read alike -/

theorem ioReadByte_congr {s t : State} (h : SameDevices s t) (off : Nat) : ioReadByte t off = ioReadByte s off := by
  simp only [ioReadByte]
  congr 1
  cases (ioRegAt off).1 <;> simp only [ioValue, h.ppu, h.dma, h.timers, h.keys, h.irq, h.waitcnt]

theorem openBusByte_congr {s t : State} (h : SameCore s t) (a : Word) : openBusByte t a = openBusByte s a := by
  simp only [openBusByte, h.params, h.lastFetchWord]

theorem locationOf_congr {s t : State} (hc : SameCore s t) (hs : t.save = s.save) (a : Word) :
    locationOf t a = locationOf s a := by
  simp only [locationOf, hc.params, hs]

/-- A read depends on the devices, memory, the save control, the parameters and the last fetch alone. -/
theorem peek_congr {s t : State} (hc : SameCore s t) (hd : SameDevices s t) (hs : t.save = s.save) (hm : t.mem = s.mem)
    (a : Word) : peek t a = peek s a := by
  simp only [peek, ioReadByte_congr hd, openBusByte_congr hc, locationOf_congr hc hs, saveRead, hs, hm, hc.params]

/-- Outside the I/O window no device matters. -/
theorem peek_congr_memory {s t : State} (hc : SameCore s t) (hs : t.save = s.save) (hm : t.mem = s.mem) {a : Word}
    (ha : regionOf a ≠ .io) : peek t a = peek s a := by
  unfold peek
  split
  · contradiction
  · simp only [saveRead, hs, hm, hc.params]
  · exact openBusByte_congr hc a
  · simp only [openBusByte_congr hc, locationOf_congr hc hs, hm]

theorem SameBus.peek {s t : State} (h : SameBus s t) (a : Word) : peek t a = peek s a := by
  simp only [Machine.peek, ioReadByte_congr h.devices, openBusByte, locationOf, saveRead, h.save, h.mem, h.params,
    h.lastFetchWord]

theorem SameBus.busAs {s t : State} (h : SameBus s t) : BusAs s t := ⟨h.devices, h.save, h.peek⟩

theorem BusAs.trans {s t u : State} (h : BusAs s t) (g : BusAs t u) : BusAs s u :=
  ⟨h.devices.trans g.devices, g.save.trans h.save, fun a => (g.reads a).trans (h.reads a)⟩

/-- What follows a store without touching the bus keeps its frame. -/
theorem StoreFrame.then {w : Width} {addr v : Word} {s t u : State} (h : StoreFrame w addr v s t) (g : BusAs t u) :
    StoreFrame w addr v s u := by
  obtain ⟨h1, h2⟩ := h
  refine ⟨h1.trans g, ?_⟩
  split at h2
  all_goals first
    | exact ⟨h2.1.trans g.devices, g.save.trans h2.2.1, fun a => (g.reads a).trans (h2.2.2 a)⟩
    | exact ⟨h2.1.trans g.devices, g.save.trans h2.2.1, fun a ha => (g.reads a).trans (h2.2.2 a ha)⟩
    | exact ⟨g.save.trans h2.1, fun a ha => (g.reads a).trans (h2.2 a ha)⟩
    | exact ⟨h2.1.trans g.devices, fun a ha => (g.reads a).trans (h2.2 a ha)⟩

/-- The same of a block store. -/
theorem BlockStoreFrame.then {l : List (Word × Word)} {s t u : State} (h : BlockStoreFrame l s t) (g : BusAs t u) :
    BlockStoreFrame l s u where
  bus := h.bus.trans g
  memory a h1 h2 h3 := (g.reads a).trans (h.memory a h1 h2 h3)
  devices hl := ⟨(h.devices hl).1.trans g.devices, fun a ha => (g.reads a).trans ((h.devices hl).2 a ha)⟩
  save hl := ⟨g.save.trans (h.save hl).1, fun a ha => (g.reads a).trans ((h.save hl).2 a ha)⟩

/-- A read whose bytes the spec fixes gives its value in every state with the same bus side. -/
theorem ReadsAs.busRead {s t : State} {w : Width} {a v : Word} (h : ReadsAs s w a v) (b : SameBus s t) :
    busRead t w a = v := by
  rw [← h t.draws]
  have hl : ∀ a k, laneOf t a k = laneOf { s with draws := t.draws } a k := fun a k => by
    have hp : Machine.peek { s with draws := t.draws } (a + BitVec.ofNat 32 k) = Machine.peek s (a + BitVec.ofNat 32 k) :=
      SameBus.peek (sameBus_mk rfl) _
    simp only [laneOf, b.peek, hp]; rfl
  have hs : saveRead t (saveOffset a) = saveRead { s with draws := t.draws } (saveOffset a) := by
    simp only [saveRead, b.save, b.mem, b.params]
  simp only [Machine.busRead, hl, hs]

/-! ### Addresses inside a region -/

theorem shiftRight24_toNat (a : Word) : (a >>> 24).toNat = a.toNat / 2 ^ 24 := by
  rw [BitVec.toNat_ushiftRight, Nat.shiftRight_eq_div_pow]

theorem toNat_and_mask (a : Word) {n : Nat} (hn : n ≤ 32) : (a &&& BitVec.ofNat 32 (2 ^ n - 1)).toNat = a.toNat % 2 ^ n := by
  have : 2 ^ n ≤ 2 ^ 32 := Nat.pow_le_pow_right (by omega) hn
  rw [BitVec.toNat_and, BitVec.toNat_ofNat, Nat.mod_eq_of_lt (by omega), Nat.and_two_pow_sub_one_eq_mod]

theorem alignHalf_toNat (a : Word) : (alignHalf a).toNat = a.toNat / 2 * 2 := by
  have : alignHalf a = (a >>> 1) <<< 1 := by
    apply BitVec.eq_of_getLsbD_eq
    intro i hi
    simp only [alignHalf, BitVec.getLsbD_and, BitVec.getLsbD_shiftLeft, BitVec.getLsbD_ushiftRight]
    interval_cases i <;> simp
  rw [this, BitVec.toNat_shiftLeft, BitVec.toNat_ushiftRight, Nat.shiftRight_eq_div_pow, Nat.shiftLeft_eq]
  have := a.isLt
  omega

theorem alignWord_toNat (a : Word) : (alignWord a).toNat = a.toNat / 4 * 4 := by
  have : alignWord a = (a >>> 2) <<< 2 := by
    apply BitVec.eq_of_getLsbD_eq
    intro i hi
    simp only [alignWord, BitVec.getLsbD_and, BitVec.getLsbD_shiftLeft, BitVec.getLsbD_ushiftRight]
    interval_cases i <;> simp
  rw [this, BitVec.toNat_shiftLeft, BitVec.toNat_ushiftRight, Nat.shiftRight_eq_div_pow, Nat.shiftLeft_eq]
  have := a.isLt
  omega

theorem align_toNat (w : Width) (a : Word) : (w.align a).toNat = a.toNat / w.bytes * w.bytes := by
  cases w
  · simp [Width.align, Width.bytes]
  · exact alignHalf_toNat a
  · exact alignWord_toNat a

/-- The bytes of an aligned access do not wrap. -/
theorem lane_toNat (w : Width) (a : Word) {k : Nat} (hk : k < w.bytes) :
    (w.align a + BitVec.ofNat 32 k).toNat = a.toNat / w.bytes * w.bytes + k := by
  have h := a.isLt
  rw [BitVec.toNat_add, align_toNat, BitVec.toNat_ofNat]
  cases w <;> simp only [Width.bytes] at hk ⊢ <;> omega

theorem regionOf_eq_of_toNat {a b : Word} (h : b.toNat / 4 = a.toNat / 4) : regionOf b = regionOf a := by
  have hh : (b >>> 24).toNat = (a >>> 24).toNat := by
    rw [shiftRight24_toNat, shiftRight24_toNat]; omega
  have h1 : (b.toNat < 0x4000) = (a.toNat < 0x4000) := by apply propext; omega
  have h2 : (b.toNat < 0x04000400) = (a.toNat < 0x04000400) := by apply propext; omega
  simp only [regionOf, hh, h1, h2]

theorem lane_div (w : Width) (a : Word) {k : Nat} (hk : k < w.bytes) :
    (w.align a + BitVec.ofNat 32 k).toNat / 4 = a.toNat / 4 := by
  rw [lane_toNat w a hk]
  cases w <;> simp only [Width.bytes] at hk ⊢ <;> omega

/-- Every byte of an access lies in the region of its address. -/
theorem regionOf_lane (w : Width) (a : Word) {k : Nat} (hk : k < w.bytes) :
    regionOf (w.align a + BitVec.ofNat 32 k) = regionOf a := regionOf_eq_of_toNat (lane_div w a hk)

theorem regionOf_align (w : Width) (a : Word) : regionOf (w.align a) = regionOf a := by
  have := regionOf_lane w a (k := 0) (by cases w <;> decide)
  simpa using this

/-- The regions whose bytes are plain memory. -/
def Region.isMemory : Region → Bool
  | .ewram | .iwram | .palette | .vram | .oam => true
  | .bios | .io | .rom _ | .save | .unmapped => false

theorem vramOffset_toNat (a : Word) :
    vramOffset a = if 0x18000 ≤ a.toNat % 0x20000 then a.toNat % 0x20000 - 0x8000 else a.toNat % 0x20000 := by
  have := toNat_and_mask a (n := 17) (by omega)
  simp only [vramOffset]
  rw [show (0x1FFFF#32 : Word) = BitVec.ofNat 32 (2 ^ 17 - 1) from rfl, this]
  rfl

/-- The location of a byte of plain memory, from its address as a number. -/
def memoryLocation (r : Region) (n : Nat) : Nat :=
  match r with
  | .ewram => ewramBase + n % 2 ^ 18
  | .iwram => iwramBase + n % 2 ^ 15
  | .palette => paletteBase + n % 2 ^ 10
  | .vram => vramBase + if 0x18000 ≤ n % 0x20000 then n % 0x20000 - 0x8000 else n % 0x20000
  | .oam => oamBase + n % 2 ^ 10
  | .bios | .io | .rom _ | .save | .unmapped => 0

theorem locationOf_memory (s : State) {a : Word} (h : (regionOf a).isMemory = true) :
    locationOf s a = some (memoryLocation (regionOf a) a.toNat) := by
  have e := toNat_and_mask a (n := 18) (by omega)
  have f := toNat_and_mask a (n := 15) (by omega)
  have g := toNat_and_mask a (n := 10) (by omega)
  have v := vramOffset_toNat a
  unfold locationOf
  cases hr : regionOf a <;> rw [hr] at h <;> first
    | (cases h; done)
    | exact congrArg (fun n => some (ewramBase + n)) e
    | exact congrArg (fun n => some (iwramBase + n)) f
    | exact congrArg (fun n => some (paletteBase + n)) g
    | exact congrArg (fun n => some (oamBase + n)) g
    | exact congrArg (fun n => some (vramBase + n)) v

theorem memoryLocation_lane (r : Region) (hr : r.isMemory = true) (w : Width) (n : Nat) {k : Nat} (hk : k < w.bytes) :
    memoryLocation r (n / w.bytes * w.bytes + k) = memoryLocation r (n / w.bytes * w.bytes) + k := by
  cases r with
  | bios | io | rom _ | save | unmapped => cases hr
  | ewram | iwram | palette | oam =>
    simp only [memoryLocation]
    cases w <;> simp only [Width.bytes] at hk ⊢ <;> omega
  | vram =>
    cases w <;> simp only [Width.bytes] at hk ⊢ <;> unfold memoryLocation <;> dsimp only <;> split <;> split <;> omega

/-- In plain memory the bytes of an access lie at consecutive locations. -/
theorem locationOf_lane (s : State) (w : Width) {a : Word} (h : (regionOf a).isMemory = true) {k : Nat}
    (hk : k < w.bytes) :
    locationOf s (w.align a + BitVec.ofNat 32 k) = some (memoryLocation (regionOf a) (a.toNat / w.bytes * w.bytes) + k) := by
  rw [locationOf_memory s (by rw [regionOf_lane w a hk]; exact h), regionOf_lane w a hk, lane_toNat w a hk,
    memoryLocation_lane _ h w a.toNat hk]

theorem locationOf_align (s : State) (w : Width) {a : Word} (h : (regionOf a).isMemory = true) :
    locationOf s (w.align a) = some (memoryLocation (regionOf a) (a.toNat / w.bytes * w.bytes)) := by
  rw [locationOf_memory s (by rw [regionOf_align w a]; exact h), regionOf_align w a, align_toNat]

theorem writableLocation_of_memory (s : State) {a : Word} (h : (regionOf a).isMemory = true) :
    writableLocation s a = locationOf s a := by
  unfold writableLocation
  cases hr : regionOf a <;> rw [hr] at h <;> cases h

theorem peek_of_location (s : State) {a : Word} (h : (regionOf a).isMemory = true) {k : Nat}
    (hk : locationOf s a = some k) : peek s a = some (Memory.get s.mem k) := by
  unfold peek
  rw [hk]
  cases hr : regionOf a <;> rw [hr] at h <;> cases h

/-! ### The bytes a store changes -/

theorem get_store_of_lt {s : State} (h : Memory.wf s.mem) (w : Width) (k : Nat) (v : Word) {j : Nat}
    (hj : j < k ∨ k + w.bytes ≤ j) : Memory.get (s.store w k v).mem j = Memory.get s.mem j := by
  refine Memory.get_putAll_of_notMem h fun c hc => ?_
  cases w <;> simp only [cellsOf, List.mem_cons, List.not_mem_nil, or_false, Width.bytes] at hc hj <;>
    rcases hc with rfl | hc <;> (try simp only) <;> (try omega)
  · rcases hc with rfl; simp only; omega
  · rcases hc with rfl | rfl | rfl <;> simp only <;> omega

theorem get_store_lane {s : State} (h : Memory.wf s.mem) (w : Width) (k : Nat) (v : Word) {i : Nat}
    (hi : i < w.bytes) : Memory.get (s.store w k v).mem (k + i) = byteOf v i := by
  rw [State.store, State.setMem_mem, Memory.get_putAll h]
  cases w <;> simp only [Width.bytes] at hi <;> interval_cases i <;>
    simp [cellsOf, Cells.lookup]

/-- The addresses of the bytes of an access. -/
def laneAddrs (w : Width) (addr : Word) : List Word :=
  (List.range w.bytes).map fun k => w.align addr + BitVec.ofNat 32 k

theorem storedAddrs_plain {s : State} {w : Width} {addr : Word} (hr : regionOf addr ≠ .save)
    (hn : (w == .byte && s.params.narrowVideoWrites == .quirk && narrowDoubles s addr) = false) :
    storedAddrs s w addr = laneAddrs w addr := by
  have h0 : ∀ a : Word, a + 0#32 = a := fun a => BitVec.add_zero a
  unfold storedAddrs
  split
  · contradiction
  · cases w
    · simp only [beq_self_eq_true, Bool.true_and] at hn
      simp [hn, laneAddrs, Width.bytes, List.range_succ]
    · simp [laneAddrs, Width.bytes, List.range_succ]
    · simp [laneAddrs, Width.bytes, List.range_succ]

theorem storedAddrs_doubled {s : State} {addr : Word} (hr : regionOf addr ≠ .save)
    (hn : (s.params.narrowVideoWrites == .quirk && narrowDoubles s addr) = true) :
    storedAddrs s .byte addr = laneAddrs .half addr := by
  unfold storedAddrs
  split
  · contradiction
  · simp [hn, laneAddrs, Width.bytes, Width.align, List.range_succ]

theorem memoryLocation_half (r : Region) (hr : r.isMemory = true) (n : Nat) :
    memoryLocation r n / 2 * 2 = memoryLocation r (n / 2 * 2) := by
  cases r with
  | bios | io | rom _ | save | unmapped => cases hr
  | ewram => simp only [memoryLocation, ewramBase]; omega
  | iwram => simp only [memoryLocation, iwramBase]; omega
  | palette => simp only [memoryLocation, paletteBase]; omega
  | oam => simp only [memoryLocation, oamBase]; omega
  | vram => unfold memoryLocation; dsimp only [vramBase]; split <;> split <;> omega

/-- A write to plain memory stores the bytes of one width at consecutive locations, or nothing. -/
theorem busWrite_memory (s : State) (w : Width) {addr : Word} (h : (regionOf addr).isMemory = true) (v : Word) :
    busWrite s w addr v = s ∨ ∃ w' v', storedAddrs s w addr = laneAddrs w' addr ∧
      busWrite s w addr v =
        s.store w' (memoryLocation (regionOf addr) (addr.toNat / w'.bytes * w'.bytes)) v' := by
  have hs : regionOf addr ≠ .save := by intro e; rw [e] at h; cases h
  have hl := locationOf_align s w h
  have ram : (w == .byte && s.params.narrowVideoWrites == .quirk && narrowDoubles s addr) = false →
      ∃ w' v', storedAddrs s w addr = laneAddrs w' addr ∧
        s.store w (memoryLocation (regionOf addr) (addr.toNat / w.bytes * w.bytes)) v =
          s.store w' (memoryLocation (regionOf addr) (addr.toNat / w'.bytes * w'.bytes)) v' :=
    fun hn => ⟨w, v, storedAddrs_plain hs hn, rfl⟩
  have video : videoWrite s w addr v = s ∨ ∃ w' v', storedAddrs s w addr = laneAddrs w' addr ∧
      videoWrite s w addr v =
        s.store w' (memoryLocation (regionOf addr) (addr.toNat / w'.bytes * w'.bytes)) v' := by
    simp only [videoWrite, hl]
    split
    · next hq =>
      rw [Bool.and_eq_true, decide_eq_true_eq] at hq
      obtain ⟨hw, hq'⟩ := hq
      subst hw
      split
      · next hd =>
        refine .inr ⟨.half, wordOfBytes (byteOf v 0) (byteOf v 0) 0 0, storedAddrs_doubled hs (by rw [hq', hd]; rfl), ?_⟩
        rw [memoryLocation_half _ h]
        simp only [Width.bytes, Nat.div_one, Nat.mul_one]
      · exact .inl rfl
    · next hq =>
      refine .inr (ram ?_)
      cases w
      · simp only [decide_true, Bool.true_and] at hq
        simp [hq]
      · rfl
      · rfl
  unfold busWrite
  cases hr : regionOf addr <;> rw [hr] at h <;> cases h <;> rw [hr] at video ram hl
  · simp only [hl]
    exact .inr (ram (by simp [narrowDoubles, hr]))
  · simp only [hl]
    exact .inr (ram (by simp [narrowDoubles, hr]))
  all_goals exact video

/-! ### Frames of a bus write -/

theorem memoryLocation_bounds (r : Region) (hr : r.isMemory = true) (n : Nat) :
    0x4000 ≤ memoryLocation r n ∧ memoryLocation r n < romBase := by
  cases r with
  | bios | io | rom _ | save | unmapped => cases hr
  | ewram => simp only [memoryLocation, ewramBase, romBase]; omega
  | iwram => simp only [memoryLocation, iwramBase, romBase]; omega
  | palette => simp only [memoryLocation, paletteBase, romBase]; omega
  | oam => simp only [memoryLocation, oamBase, romBase]; omega
  | vram => unfold memoryLocation; dsimp only [vramBase, romBase]; split <;> omega

/-- Bytes at other locations than the stored ones read as before. -/
theorem peek_store_of_lt {s : State} (h : Memory.wf s.mem) (w : Width) (k : Nat) (v : Word) (a : Word)
    (ha : ∀ j, j < k ∨ k + w.bytes ≤ j ∨ locationOf s a ≠ some j ∨ regionOf a = .io) :
    peek (s.store w k v) a = peek s a := by
  have hc := (cpuSame_store s w k v).core
  have hd := sameDevices_store s w k v
  have key : ∀ j, regionOf a ≠ .io → locationOf s a = some j →
      Memory.get (s.store w k v).mem j = Memory.get s.mem j := fun j hi hj =>
    get_store_of_lt h w k v (by
      rcases ha j with h1 | h1 | h1 | h1
      · exact .inl h1
      · exact .inr h1
      · exact absurd hj h1
      · exact absurd h1 hi)
  unfold peek
  split
  · exact ioReadByte_congr hd _
  · next hr =>
    have hl : locationOf s a = some (saveLocation s.save (saveOffset a)) := by simp only [locationOf, hr]
    simp only [saveRead, State.store, State.setMem_save, State.setMem_params]
    rw [← State.store, key _ (by rw [hr]; decide) hl]
    rfl
  · exact openBusByte_congr hc a
  · next h1 h2 h3 =>
    rw [locationOf_congr hc rfl, openBusByte_congr hc]
    cases hl : locationOf s a with
    | none => rfl
    | some j => simp only [key j h1 hl]

/-- A location of plain memory belongs to addresses of its region alone. -/
theorem covered_of_location {s : State} {w w' : Width} {addr a : Word} (h : (regionOf addr).isMemory = true)
    (hl : storedAddrs s w addr = laneAddrs w' addr) {i : Nat} (hi : i < w'.bytes)
    (ha : locationOf s a = some (memoryLocation (regionOf addr) (addr.toNat / w'.bytes * w'.bytes) + i)) :
    covered s w addr a = true := by
  have hb := memoryLocation_bounds _ h (addr.toNat / w'.bytes * w'.bytes + i)
  rw [memoryLocation_lane _ h w' addr.toNat hi] at hb
  have hlane := locationOf_lane s w' h hi
  have hw := writableLocation_of_memory s (a := w'.align addr + BitVec.ofNat 32 i)
    (by rw [regionOf_lane w' addr hi]; exact h)
  have ham : writableLocation s a = locationOf s a := by
    by_cases hm : (regionOf a).isMemory = true
    · exact writableLocation_of_memory s hm
    · have h4 : regionOf a = .bios → a.toNat < 0x4000 := by
        intro e
        by_contra hn
        unfold regionOf at e
        split at e <;> first | cases e | (split at e <;> contradiction)
      cases hr : regionOf a <;> rw [hr] at hm <;> first | exact absurd rfl hm | skip
      · have := h4 hr
        simp only [locationOf, hr, Option.some.injEq] at ha; omega
      · simp only [locationOf, hr] at ha; cases ha
      · simp only [locationOf, hr] at ha
        split at ha
        · simp only [Option.some.injEq] at ha; omega
        · cases ha
      · simp only [writableLocation, hr]
      · simp only [locationOf, hr] at ha; cases ha
  refine List.any_eq_true.mpr ⟨w'.align addr + BitVec.ofNat 32 i, ?_, ?_⟩
  · rw [hl]; exact List.mem_map.mpr ⟨i, List.mem_range.mpr hi, rfl⟩
  · simp [sameByte, hw, hlane, ham, ha]

/-- The locations of everything but save memory lie below the save buffers. -/
theorem locationOf_lt {s : State} {a : Word} (ha : regionOf a ≠ .save) {j : Nat} (hj : locationOf s a = some j) :
    j < sramBase := by
  by_cases hm : (regionOf a).isMemory = true
  · have := (memoryLocation_bounds _ hm a.toNat).2
    rw [locationOf_memory s hm, Option.some.injEq] at hj
    rw [← hj]
    exact Nat.lt_trans this (by decide)
  · unfold locationOf at hj
    cases hr : regionOf a <;> rw [hr] at hm hj <;> first | exact absurd rfl hm | contradiction | skip
    · simp only [Option.some.injEq] at hj
      have := a.isLt
      simp only [sramBase]; omega
    · simp only at hj
      split at hj
      · next hl =>
        have := s.params.romLength.isLt
        simp only [Option.some.injEq, romBase] at hj
        simp only [sramBase]; omega
      · contradiction

/-- A save write changes save locations alone. -/
theorem get_saveWrite_of_lt {s : State} (h : Memory.wf s.mem) (o : Nat) (b : Byte) {j : Nat} (hj : j < sramBase) :
    Memory.get (saveWrite s o b).mem j = Memory.get s.mem j := by
  have hloc : ∀ (sv : Save) (o : Nat), j ≠ saveLocation sv o := by
    intro sv o
    unfold saveLocation
    simp only [sramBase, flashBase] at hj ⊢
    split
    · omega
    · split <;> omega
  have hst : ∀ (sv : Save) (o : Nat) (b : Byte),
      Memory.get (Memory.put s.mem (saveLocation sv o) b) j = Memory.get s.mem j := fun sv o b => by
    rw [Memory.get_put h, if_neg (hloc sv o)]
  have hfill : ∀ lo n, Memory.get (Cells.fill s.mem (flashBase + lo) n 0xFF#8) j = Memory.get s.mem j := fun lo n => by
    rw [Memory.get_fill, if_neg]
    simp only [sramBase, flashBase] at hj ⊢; omega
  unfold saveWrite sramWrite flashWrite flashCommand
  dsimp only
  repeat' split
  all_goals first
    | rfl
    | exact hst ..
    | exact hfill ..

/-- The frame of every bus write. -/
theorem storeFrame_busWrite {s : State} (h : s.MemoryInv) (w : Width) (addr v : Word) :
    StoreFrame w addr v s (busWrite s w addr v) := by
  have hmem : (regionOf addr).isMemory = true → SameDevices s (busWrite s w addr v) ∧ (busWrite s w addr v).save = s.save ∧
      ∀ a, covered s w addr a = false → peek (busWrite s w addr v) a = peek s a := by
    intro hr
    refine ⟨sameDevices_busWrite (by intro e; rw [e] at hr; cases hr) v,
      save_busWrite (by intro e; rw [e] at hr; cases hr) v, fun a ha => ?_⟩
    rcases busWrite_memory s w hr v with e | ⟨w', v', hl, e⟩
    · rw [e]
    · rw [e]
      refine peek_store_of_lt h.mem _ _ _ _ fun j => ?_
      by_contra hn
      simp only [not_or, not_lt, not_le, ne_eq, not_not] at hn
      obtain ⟨h1, h2, h3, -⟩ := hn
      obtain ⟨i, rfl⟩ := Nat.exists_eq_add_of_le h1
      rw [covered_of_location hr hl (i := i) (by omega) h3] at ha
      cases ha
  have hcore := (cpuSame_busWrite s w addr v).core
  refine ⟨(SameBus.refl _).busAs, ?_⟩
  cases hr : regionOf addr with
  | bios | rom _ | unmapped =>
    have e : busWrite s w addr v = s := by simp only [busWrite, hr]
    rw [e]
    exact ⟨.refl s, rfl, fun _ => rfl⟩
  | ewram | iwram | palette | vram | oam => exact hmem (by rw [hr]; rfl)
  | io =>
    have e : busWrite s w addr v = ioWrite s w (ioOffset (w.align addr)) v := by simp only [busWrite, hr]
    rw [e] at hcore ⊢
    have hn := noMemory_ioWrite s w (ioOffset (w.align addr)) v
    exact ⟨hn.save, fun a ha => peek_congr_memory hcore hn.save hn.mem ha⟩
  | save =>
    have e : busWrite s w addr v = saveWrite s (saveOffset addr) (saveLane w addr v) := by simp only [busWrite, hr]
    refine ⟨sameDevices_busWrite (by rw [hr]; decide) v, fun a ha => ?_⟩
    have hd := sameDevices_busWrite (s := s) (w := w) (addr := addr) (by rw [hr]; decide) v
    rw [e] at hcore hd ⊢
    have hloc : locationOf (saveWrite s (saveOffset addr) (saveLane w addr v)) a = locationOf s a := by
      unfold locationOf
      cases hra : regionOf a <;> first | exact absurd hra ha | rfl | simp only [hcore.params]
    unfold peek
    split
    · exact ioReadByte_congr hd _
    · contradiction
    · exact openBusByte_congr hcore a
    · next h1 h2 h3 =>
      rw [hloc, openBusByte_congr hcore]
      cases hl : locationOf s a with
      | none => rfl
      | some j =>
        simp only
        rw [get_saveWrite_of_lt h.mem _ _ (locationOf_lt ha hl)]

/-! ### What a store leaves in memory -/

/-- A write that the narrow-video rule does not change: its bytes lie in memory (20_memory R222). -/
theorem busWrite_plain (s : State) (w : Width) {addr : Word} (h : (regionOf addr).isMemory = true)
    (hn : w = .byte → s.params.narrowVideoWrites = .plain ∨ regionOf addr = .ewram ∨ regionOf addr = .iwram) (v : Word) :
    busWrite s w addr v = s.store w (memoryLocation (regionOf addr) (addr.toNat / w.bytes * w.bytes)) v := by
  have hl := locationOf_align s w h
  have video : regionOf addr ≠ .ewram → regionOf addr ≠ .iwram → videoWrite s w addr v =
      s.store w (memoryLocation (regionOf addr) (addr.toNat / w.bytes * w.bytes)) v := by
    intro h1 h2
    simp only [videoWrite, hl]
    rw [if_neg]
    rw [Bool.and_eq_true, decide_eq_true_eq]
    rintro ⟨rfl, hq⟩
    rcases hn rfl with e | e | e
    · rw [e] at hq; cases hq
    · exact h1 e
    · exact h2 e
  unfold busWrite
  cases hr : regionOf addr <;> rw [hr] at h <;> cases h <;> rw [hr] at hl video
  · simp only [hl]
  · simp only [hl]
  all_goals exact video (by decide) (by decide)

theorem storedBytes_busWrite {s : State} (hm : s.MemoryInv) (w : Width) {addr : Word}
    (h : (regionOf addr).isMemory = true)
    (hn : w = .byte → s.params.narrowVideoWrites = .plain ∨ regionOf addr = .ewram ∨ regionOf addr = .iwram) (v : Word) :
    StoredBytes w addr v (busWrite s w addr v) := by
  intro k hk
  rw [busWrite_plain s w h hn v]
  have hl := locationOf_lane s w h hk
  rw [← locationOf_congr (cpuSame_store s w _ v).core rfl] at hl
  rw [peek_of_location _ (by rw [regionOf_lane w addr hk]; exact h) hl, get_store_lane hm.mem w _ v hk]

/-! ### The width of a read -/

/-- A word read of four known bytes is those bytes, the lowest first (20_memory R216). -/
theorem busRead_word {s : State} {a : Word} (hr : regionOf a ≠ .save) {b0 b1 b2 b3 : Byte}
    (h0 : peek s (alignWord a) = some b0) (h1 : peek s (alignWord a + 1#32) = some b1)
    (h2 : peek s (alignWord a + 2#32) = some b2) (h3 : peek s (alignWord a + 3#32) = some b3) :
    busRead s .word a = wordOfBytes b0 b1 b2 b3 := by
  unfold busRead
  split
  · contradiction
  · simp [laneOf, Width.align, h0, h1, h2, h3]

/-- The bytes of a width, put together. -/
theorem wordOfBytes_truncate (v : Word) :
    wordOfBytes (byteOf v 0) 0 0 0 = Width.byte.truncate v ∧
    wordOfBytes (byteOf v 0) (byteOf v 1) 0 0 = Width.half.truncate v ∧
    wordOfBytes (byteOf v 0) (byteOf v 1) (byteOf v 2) (byteOf v 3) = v := by
  refine ⟨?_, ?_, ?_⟩ <;>
  · apply BitVec.eq_of_getLsbD_eq
    intro i hi
    simp only [wordOfBytes, byteOf, Width.truncate, BitVec.getLsbD_append, BitVec.getLsbD_and, BitVec.getLsbD_extractLsb']
    interval_cases i <;> simp

/-- A read outside save memory whose bytes are known reads as their value, whatever the free values are. -/
theorem readsAs_of_lanes {s : State} {w : Width} {a v : Word} (hr : regionOf a ≠ .save) (hv : w.truncate v = v)
    (h : ∀ k, k < w.bytes → peek s (w.align a + BitVec.ofNat 32 k) = some (byteOf v k)) : ReadsAs s w a v := by
  intro n
  have hl : ∀ k, k < w.bytes → laneOf { s with draws := n } (w.align a) k = byteOf v k := fun k hk => by
    have hp : peek { s with draws := n } (w.align a + BitVec.ofNat 32 k) = some (byteOf v k) :=
      (SameBus.peek (sameBus_mk rfl) _).trans (h k hk)
    simp only [laneOf, hp]
  generalize ({ s with draws := n } : State) = u at hl ⊢
  obtain ⟨e1, e2, e4⟩ := wordOfBytes_truncate v
  unfold busRead
  split
  · contradiction
  · cases w <;> dsimp only [Width.bytes] at hl ⊢
    · rw [hl 0 (by decide), e1, hv]
    · rw [hl 0 (by decide), hl 1 (by decide), e2, hv]
    · rw [hl 0 (by decide), hl 1 (by decide), hl 2 (by decide), hl 3 (by decide), e4]

end Sys2Proof.Machine
end

