-- ==== Sys2Proof/Laws/Ops.lean ====
section
/-! SUPPORT. The shared operations of the meanings: how a result goes on, the condition, exceptions and returns, loads
and stores, and how the frames compose. -/

namespace Sys2Proof.Machine

/-! ### Results -/

@[simp] theorem andThen_next (s : State) (f : State → Result) : andThen (.next s) f = f s := rfl
@[simp] theorem andThen_fault (e : Fault) (f : State → Result) : andThen (.fault e) f = .fault e := rfl
@[simp] theorem andThen_refused (e : Refusal) (f : State → Result) : andThen (.refused e) f = .refused e := rfl

/-- A sequence answers a next state exactly if both parts do. -/
theorem andThen_eq_next {r : Result} {f : State → Result} {t : State} :
    andThen r f = .next t ↔ ∃ u, r = .next u ∧ f u = .next t := by
  cases r with
  | next u => simp
  | fault e => simp
  | refused e => simp

@[simp] theorem unlessUnpredictable_false (r : Result) : unlessUnpredictable false r = r := rfl
@[simp] theorem unlessUnpredictable_true (r : Result) : unlessUnpredictable true r = .fault .unpredictable := rfl

theorem unlessUnpredictable_eq_next {bad : Bool} {r : Result} {t : State} :
    unlessUnpredictable bad r = .next t ↔ bad = false ∧ r = .next t := by
  cases bad <;> simp

theorem conditional_passed {cond : Cond} {s : State} (h : conditionPassed s.cpsr cond = true) (f : State → Result) :
    conditional cond s f = f s := by simp only [conditional, h, if_true]

theorem conditional_failed {cond : Cond} {s : State} (h : conditionPassed s.cpsr cond = false) (f : State → Result) :
    conditional cond s f = .next s.advance := by
  simp only [conditional, h, nextInstr]; rfl

/-! ### Frames -/

theorem RegsSameBut.refl (s : State) : RegsSameBut [] s s := fun _ _ => rfl

theorem RegsSameBut.trans {A B : List PReg} {s t u : State} (h : RegsSameBut A s t) (g : RegsSameBut B t u) :
    RegsSameBut (A ++ B) s u := fun r hr => by
  rw [List.mem_append, not_or] at hr
  exact (g r hr.2).trans (h r hr.1)

theorem RegsSameBut.mono {A B : List PReg} {s t : State} (hs : A ⊆ B) (h : RegsSameBut A s t) : RegsSameBut B s t :=
  fun r hr => h r fun ha => hr (hs ha)

theorem regsSameBut_of_regs {s t : State} (h : t.regs = s.regs) : RegsSameBut [] s t :=
  fun r _ => State.reg_of_regs h r

theorem SameControl.refl (s : State) : SameControl s s := ⟨rfl, rfl, rfl, rfl⟩

theorem SameControl.trans {s t u : State} (h : SameControl s t) (g : SameControl t u) : SameControl s u :=
  ⟨g.irqDisable.trans h.irqDisable, g.fiqDisable.trans h.fiqDisable, g.thumb.trans h.thumb, g.mode.trans h.mode⟩

theorem sameControl_of_cpsr {s t : State} (h : t.cpsr = s.cpsr) : SameControl s t := by
  constructor <;> rw [h]

theorem sameFlags_of_cpsr {s t : State} (h : t.cpsr = s.cpsr) : SameFlags s t := by
  constructor <;> rw [h]

theorem RegisterFrame.refl (s : State) : RegisterFrame [] s s :=
  ⟨.refl s, .refl s, .refl s, .refl s, rfl, fun _ => rfl⟩

theorem RegisterFrame.trans {A B : List PReg} {s t u : State} (h : RegisterFrame A s t) (g : RegisterFrame B t u) :
    RegisterFrame (A ++ B) s u where
  regs := h.regs.trans g.regs
  control := h.control.trans g.control
  core := h.core.trans g.core
  devices := h.devices.trans g.devices
  save := g.save.trans h.save
  reads a := (g.reads a).trans (h.reads a)

theorem RegisterFrame.mono {A B : List PReg} {s t : State} (hs : A ⊆ B) (h : RegisterFrame A s t) :
    RegisterFrame B s t :=
  ⟨h.regs.mono hs, h.control, h.core, h.devices, h.save, h.reads⟩

theorem StatusFrame.mono {A B : List PReg} {s t : State} (hs : A ⊆ B) (h : StatusFrame A s t) : StatusFrame B s t :=
  ⟨h.regs.mono hs, h.core, h.devices, h.save, h.reads⟩

theorem RegisterFrame.toStatus {A : List PReg} {s t : State} (h : RegisterFrame A s t) : StatusFrame A s t :=
  ⟨h.regs, h.core, h.devices, h.save, h.reads⟩

theorem StatusFrame.trans {A B : List PReg} {s t u : State} (h : StatusFrame A s t) (g : StatusFrame B t u) :
    StatusFrame (A ++ B) s u where
  regs := h.regs.trans g.regs
  core := h.core.trans g.core
  devices := h.devices.trans g.devices
  save := g.save.trans h.save
  reads a := (g.reads a).trans (h.reads a)

theorem StatusFrame.toRegister {A : List PReg} {s t : State} (h : StatusFrame A s t) (c : SameControl s t) :
    RegisterFrame A s t := ⟨h.regs, c, h.core, h.devices, h.save, h.reads⟩

/-- A state that differs in registers, CPSR, pc and the free-value counter alone meets the frame of its registers. -/
theorem statusFrame_mk {A : List PReg} {s t : State} (hr : RegsSameBut A s t)
    (h : t = { s with regs := t.regs, cpsr := t.cpsr, pc := t.pc, draws := t.draws }) : StatusFrame A s t := by
  have hc : SameCore s t := by rw [h]; exact ⟨rfl, rfl, rfl, rfl, rfl, rfl, rfl, rfl, rfl, rfl, rfl⟩
  have hd : SameDevices s t := by rw [h]; exact ⟨rfl, rfl, rfl, rfl, rfl, rfl, rfl, rfl, rfl, rfl⟩
  have hs : t.save = s.save := by rw [h]
  have hm : t.mem = s.mem := by rw [h]
  exact ⟨hr, hc, hd, hs, peek_congr hc hd hs hm⟩

theorem setXIn_eq (s : State) (m : Mode) (i : RegNum) (v : Word) :
    s.setXIn m i v = { s with regs := (s.setXIn m i v).regs } := by
  unfold State.setXIn; split <;> rfl

theorem setX_eq (s : State) (i : RegNum) (v : Word) : s.setX i v = { s with regs := (s.setX i v).regs } :=
  setXIn_eq s s.cpsr.mode i v

theorem statusFrame_setCpsr (s : State) (p : Cpsr) : StatusFrame [] s (s.setCpsr p) :=
  statusFrame_mk (fun _ _ => rfl) rfl

theorem registerFrame_setPc (s : State) (v : Word) : RegisterFrame [] s (s.setPc v) :=
  (statusFrame_mk (s := s) (t := s.setPc v) (fun _ _ => rfl) rfl).toRegister ⟨rfl, rfl, rfl, rfl⟩

theorem registerFrame_advance (s : State) : RegisterFrame [] s s.advance := registerFrame_setPc ..

theorem registerFrame_bump (s : State) : RegisterFrame [] s s.bump :=
  (statusFrame_mk (s := s) (t := s.bump) (fun _ _ => rfl) rfl).toRegister ⟨rfl, rfl, rfl, rfl⟩

theorem registerFrame_setXIn (s : State) (m : Mode) (i : RegNum) (v : Word) :
    RegisterFrame (m.view i).toList s (s.setXIn m i v) :=
  (statusFrame_mk (fun _ hr => s.reg_setXIn_of_notMem hr v) (by rw [setXIn_eq])).toRegister
    (sameControl_of_cpsr (by rw [setXIn_eq]))

theorem registerFrame_setX (s : State) (i : RegNum) (v : Word) : RegisterFrame (destOf s i) s (s.setX i v) :=
  registerFrame_setXIn s s.cpsr.mode i v

theorem registerFrame_withFlags (s : State) (n z c v : Bool) :
    RegisterFrame [] s (s.setCpsr (s.cpsr.withFlags n z c v)) :=
  (statusFrame_setCpsr ..).toRegister ⟨rfl, rfl, rfl, rfl⟩

/-- Writing a register and going on. -/
theorem writes_setX {s : State} {i : RegNum} (h : i ≠ 15#4) (v : Word) : Writes i v s (s.setX i v).advance where
  value := (State.x_congr h (t := (s.setX i v).advance) (s := s.setX i v) rfl rfl).trans (State.x_setX_same s h v)
  pc := by simp [Advanced]
  frame := by
    have := (registerFrame_setX s i v).trans (registerFrame_advance (s.setX i v))
    rwa [List.append_nil] at this

/-- Writing a register and the flags, and going on. -/
theorem writes_setX_withFlags {s : State} {i : RegNum} (h : i ≠ 15#4) (x : Word) (n z c v : Bool) :
    Writes i x s ((s.setX i x).setCpsr (s.cpsr.withFlags n z c v)).advance where
  value := (State.x_congr h (t := ((s.setX i x).setCpsr (s.cpsr.withFlags n z c v)).advance) (s := s.setX i x) rfl
    (by rw [State.setX_cpsr]; rfl)).trans (State.x_setX_same s h x)
  pc := by simp [Advanced, State.isize, State.advance, Cpsr.withFlags]; rfl
  frame := by
    refine (statusFrame_mk (s := s) (t := ((s.setX i x).setCpsr (s.cpsr.withFlags n z c v)).advance) ?_ ?_).toRegister
      ⟨rfl, rfl, rfl, rfl⟩
    · intro r hr
      exact (s.reg_setX_of_notMem hr x)
    · rw [setX_eq]; rfl

theorem onlyFlags_withFlags (s : State) (n z c v : Bool) : OnlyFlags s (s.setCpsr (s.cpsr.withFlags n z c v)).advance where
  pc := by simp [Advanced, State.isize, State.advance, Cpsr.withFlags]; rfl
  frame := (statusFrame_mk (s := s) (t := (s.setCpsr (s.cpsr.withFlags n z c v)).advance) (fun _ _ => rfl) rfl).toRegister
    ⟨rfl, rfl, rfl, rfl⟩

/-! ### Exceptions -/

/-- The whole effect of an exception's entry (60_exceptions R812). -/
theorem entered_enterException {m : Mode} (h : m.hasSpsr = true) (vector link : Word) (s : State) :
    Entered m vector link s (enterException m vector link false s) := by
  have hr : ∀ r, r ≠ m.lr → (enterException m vector link false s).reg r = s.reg r := fun r hne => by
    simp only [enterException, State.reg_setPc, State.reg_setCpsr]
    rw [State.reg_setReg_ne _ hne]
    simp
  have hd : SameDevices s (enterException m vector link false s) := by
    constructor <;> cases m <;> rfl
  constructor
  · cases m <;> simp [enterException]
  · cases m <;> first | exact absurd h (by decide) | rfl
  · simp only [enterException, State.reg_setPc, State.reg_setCpsr, State.reg_setReg_same]
  · rfl
  · intro r hne; exact hr r (by simpa using hne)
  · intro n hn; cases m <;> cases n <;> first | rfl | exact absurd rfl hn
  · exact hd
  · cases m <;> rfl
  · intro a
    have hs : (enterException m vector link false s).save = s.save := by cases m <;> rfl
    have hm : (enterException m vector link false s).mem = s.mem := by cases m <;> rfl
    have hp : (enterException m vector link false s).params = s.params := by cases m <;> rfl
    have hf : (enterException m vector link false s).lastFetchWord = s.lastFetchWord := by cases m <;> rfl
    simp only [peek, ioReadByte_congr hd, openBusByte, locationOf, saveRead, hs, hm, hp, hf]
  · cases m <;> exact ⟨rfl, rfl⟩
  · cases m <;> exact ⟨rfl, rfl⟩
  · cases m <;> rfl
  · cases m <;> rfl

theorem restoreFromSpsr_eq {s : State} {p : Spsr} {c : Cpsr} (h : s.spsrOf s.cpsr.mode = some p)
    (hc : p.restored = some c) : restoreFromSpsr s = .next (s.setCpsr c) := by
  simp only [restoreFromSpsr, h, hc]

theorem restoreFromSpsr_none {s : State} (h : s.spsrOf s.cpsr.mode = none) :
    restoreFromSpsr s = .fault .noSpsrInMode := by
  simp only [restoreFromSpsr, h]

theorem restoreFromSpsr_invalid {s : State} {p : Spsr} (h : s.spsrOf s.cpsr.mode = some p) (hc : p.restored = none) :
    restoreFromSpsr s = .fault .invalidModeRestore := by
  simp only [restoreFromSpsr, h, hc]

/-- What a return from an exception does when it goes on (60_exceptions R814). -/
theorem exceptionReturn_next {s t : State} {target : Word} (h : exceptionReturn target s = .next t) :
    ∃ p c, s.spsrOf s.cpsr.mode = some p ∧ p.restored = some c ∧
      t = (s.setCpsr c).setPc (if c.t then alignHalf target else alignWord target) := by
  unfold exceptionReturn restoreFromSpsr at h
  split at h
  · cases h
  · next p hp =>
    split at h
    · cases h
    · next c hc => exact ⟨p, c, hp, hc, by cases h; rfl⟩

theorem exceptionReturn_eq {s : State} {p : Spsr} {c : Cpsr} (h : s.spsrOf s.cpsr.mode = some p)
    (hc : p.restored = some c) (target : Word) :
    exceptionReturn target s = .next ((s.setCpsr c).setPc (if c.t then alignHalf target else alignWord target)) := by
  simp only [exceptionReturn, restoreFromSpsr_eq h hc, andThen_next]; rfl

/-! ### Stores -/

theorem cpuStore_next {w : Width} {a v : Word} {s t : State} :
    cpuStore w a v s = .next t ↔ storeHazard s w a = false ∧ t = busWrite s w a v := by
  unfold cpuStore
  cases storeHazard s w a <;> simp [eq_comm]

theorem cpuStore_eq {w : Width} {a : Word} {s : State} (h : storeHazard s w a = false) (v : Word) :
    cpuStore w a v s = .next (busWrite s w a v) := by simp [cpuStore, h]

theorem cpuStore_hazard {w : Width} {a : Word} {s : State} (h : storeHazard s w a = true) (v : Word) :
    cpuStore w a v s = .fault .pipelineHazard := by simp [cpuStore, h]

theorem storesPlainly_isMemory {s : State} {w : Width} {a : Word} (h : StoresPlainly s w a) :
    (regionOf a).isMemory = true ∧
      (w = .byte → s.params.narrowVideoWrites = .plain ∨ regionOf a = .ewram ∨ regionOf a = .iwram) := by
  rcases h with (h | h) | ⟨h | h | h, hn⟩ <;> rw [h] <;> simp_all [Region.isMemory]

end Sys2Proof.Machine
end

