-- ==== Sys2Proof/Laws/Block.lean ====
section
/-! SUPPORT. Block transfers: the listed registers with their addresses, the load loop and the store loop. -/

namespace Sys2Proof.Machine

/-! ### Lists -/

/-- The registers of a list with number below `n`. -/
def listBelow (list : BitVec 16) (n : Nat) : List RegNum :=
  (List.range n).filterMap fun i => if list.getLsbD i then some (BitVec.ofNat 4 i) else none

theorem listRegs_eq (list : BitVec 16) : listRegs list = listBelow list 16 := rfl

theorem length_listBelow (list : BitVec 16) (n : Nat) : (listBelow list n).length = lowerCount list n := by
  induction n with
  | zero => rfl
  | succ n ih =>
    simp only [listBelow, lowerCount, List.range_succ, List.filterMap_append, List.length_append, List.countP_append] at ih ⊢
    rw [ih]
    cases h : list.getLsbD n <;> simp [h]

theorem length_listRegs (list : BitVec 16) : (listRegs list).length = lowerCount list 16 := length_listBelow list 16

theorem zipIdx_listBelow (list : BitVec 16) (n : Nat) :
    (listBelow list n).zipIdx =
      (List.range n).filterMap fun i => if list.getLsbD i then some (BitVec.ofNat 4 i, lowerCount list i) else none := by
  induction n with
  | zero => rfl
  | succ n ih =>
    have hl := length_listBelow list n
    simp only [listBelow, List.range_succ, List.filterMap_append] at ih hl ⊢
    rw [List.zipIdx_append, ih, hl]
    congr 1
    cases h : list.getLsbD n <;> simp [h]

/-- The listed registers with their addresses: register `i` stands at the word numbered by the listed registers below
it (43 R564). -/
theorem mem_blockPairs {list : BitVec 16} {start : Word} {e : RegNum × Word} :
    e ∈ blockPairs (listRegs list) start ↔
      list.getLsbD e.1.toNat = true ∧ e.2 = alignWord start + BitVec.ofNat 32 (4 * lowerCount list e.1.toNat) := by
  have hlt : ∀ i : RegNum, BitVec.ofNat 4 i.toNat = i := fun i => by simp
  simp only [blockPairs, listRegs_eq, zipIdx_listBelow, List.mem_map, List.mem_filterMap, List.mem_range]
  constructor
  · rintro ⟨q, ⟨i, hi, h⟩, rfl⟩
    split at h
    · next hb =>
      cases h
      have : (BitVec.ofNat 4 i).toNat = i := by simp; omega
      simp only [this]
      exact ⟨hb, trivial⟩
    · cases h
  · rintro ⟨h1, h2⟩
    refine ⟨(e.1, lowerCount list e.1.toNat), ⟨e.1.toNat, e.1.isLt, ?_⟩, ?_⟩
    · rw [if_pos h1, hlt]
    · exact Prod.ext rfl h2.symm

/-- No register is listed twice. -/
theorem nodup_blockPairs (list : BitVec 16) (start : Word) : ((blockPairs (listRegs list) start).map Prod.fst).Nodup := by
  have : (blockPairs (listRegs list) start).map Prod.fst = listRegs list := by
    simp only [blockPairs, List.map_map]
    exact List.zipIdx_map_fst ..
  rw [this, listRegs_eq]
  have key : ∀ n, n ≤ 16 → (listBelow list n).Nodup ∧ ∀ r ∈ listBelow list n, r.toNat < n := by
    intro n
    induction n with
    | zero => exact fun _ => ⟨List.nodup_nil, by simp [listBelow]⟩
    | succ n ih =>
      intro hn
      obtain ⟨h1, h2⟩ := ih (by omega)
      simp only [listBelow, List.range_succ, List.filterMap_append] at h1 h2 ⊢
      cases h : list.getLsbD n
      · simp only [List.filterMap_cons, List.filterMap_nil, h, Bool.false_eq_true, if_false, List.append_nil]
        exact ⟨h1, fun r hr => Nat.lt_succ_of_lt (h2 r hr)⟩
      · simp only [List.filterMap_cons, List.filterMap_nil, h, if_true, List.nodup_append, List.mem_append,
          List.mem_singleton, List.nodup_singleton]
        have hnn : (BitVec.ofNat 4 n).toNat = n := by simp; omega
        refine ⟨⟨h1, trivial, ?_⟩, ?_⟩
        · rintro r hr _ rfl rfl
          exact absurd (h2 _ hr) (by omega)
        · rintro r (hr | rfl)
          · exact Nat.lt_succ_of_lt (h2 r hr)
          · omega
  exact (key 16 (Nat.le_refl _)).1

theorem mem_accessOrder {u : Bool} {l : List (RegNum × Word)} {e : RegNum × Word} :
    e ∈ accessOrder u l ↔ e ∈ l := by
  cases u <;> simp [accessOrder]

theorem nodup_accessOrder {u : Bool} {l : List (RegNum × Word)} (h : (l.map Prod.fst).Nodup) :
    ((accessOrder u l).map Prod.fst).Nodup := by
  cases u <;> simp only [accessOrder]
  · simpa [List.nodup_reverse] using h
  · exact h

/-- The addresses of a block transfer (43 R560). -/
theorem blockAddr_eq (p u : Bool) (base : Word) (n k : Nat) :
    blockAddr p u base n k = alignWord (blockStart p u base n) + BitVec.ofNat 32 (4 * k) := by
  cases p <;> cases u <;> rfl

theorem blockWriteBack_eq (u : Bool) (base : Word) (n : Nat) : blockWriteBack u base n = blockBase u base n := by
  cases u <;> rfl

theorem lowerCount_lt {list : BitVec 16} {i : Nat} (hi : i < 16) (h : list.getLsbD i = true) :
    lowerCount list i < lowerCount list 16 := by
  have hs : lowerCount list (i + 1) = lowerCount list i + 1 := by
    simp [lowerCount, List.range_succ, h]
  have hm : ∀ m, i + 1 + m ≤ 16 → lowerCount list (i + 1) ≤ lowerCount list (i + 1 + m) := by
    intro m
    induction m with
    | zero => exact fun _ => Nat.le_refl _
    | succ m ih =>
      intro hle
      refine (ih (by omega)).trans ?_
      rw [show i + 1 + (m + 1) = (i + 1 + m) + 1 by omega]
      simp only [lowerCount, List.range_succ (n := i + 1 + m), List.countP_append]
      omega
  have := hm (16 - (i + 1)) (by omega)
  rw [show i + 1 + (16 - (i + 1)) = 16 by omega] at this
  omega

/-! ### Loads -/

/-- A word whose bytes are known is what a word read returns, in any state that reads alike. -/
theorem busRead_of_wordAt {s t : State} {a v : Word} (h : WordAt s a v) (ht : SameReads s t) :
    busRead t .word a = v := by
  have h0 := h.2 0 (by decide)
  have h1 := h.2 1 (by decide)
  have h2 := h.2 2 (by decide)
  have h3 := h.2 3 (by decide)
  simp only [BitVec.add_zero] at h0 h1 h2 h3
  rw [busRead_word h.1 ((ht _).trans h0) ((ht _).trans h1) ((ht _).trans h2) ((ht _).trans h3)]
  apply BitVec.eq_of_getLsbD_eq
  intro i hi
  simp only [byteOf, wordOfBytes, BitVec.getLsbD_extractLsb', BitVec.getLsbD_append]
  interval_cases i <;> simp

/-- The whole effect of the load loop: the listed registers of the view take their words, R15's word is carried beside
the state, nothing else changes. -/
theorem loadRegs_spec (m : Mode) (l : List (RegNum × Word)) :
    ∀ (s : State) (v0 : Word), (l.map Prod.fst).Nodup →
      RegisterFrame (l.flatMap fun e => (m.view e.1).toList) s (loadRegs m l (s, v0)).1 ∧
      (loadRegs m l (s, v0)).1.cpsr = s.cpsr ∧ (loadRegs m l (s, v0)).1.pc = s.pc ∧
      (∀ e ∈ l, ∀ v, e.1 ≠ 15#4 → WordAt s e.2 v → (loadRegs m l (s, v0)).1.xIn m e.1 = v) ∧
      (∀ e ∈ l, ∀ v, e.1 = 15#4 → WordAt s e.2 v → (loadRegs m l (s, v0)).2 = v) ∧
      ((∀ e ∈ l, e.1 ≠ 15#4) → (loadRegs m l (s, v0)).2 = v0) := by
  induction l with
  | nil =>
    intro s v0 _
    exact ⟨.refl s, rfl, rfl, by simp, by simp, fun _ => rfl⟩
  | cons hd rest ih =>
    obtain ⟨r, a⟩ := hd
    intro s v0 hn
    rw [List.map_cons, List.nodup_cons] at hn
    have hne : ∀ e ∈ rest, e.1 ≠ r := fun e he h => hn.1 (List.mem_map.mpr ⟨e, he, h⟩)
    by_cases h15 : r = 15#4
    · have hstep : loadRegs m ((r, a) :: rest) (s, v0) = loadRegs m rest (s.bump, busRead s .word a) := by
        simp only [loadRegs, if_pos h15]
      rw [hstep]
      obtain ⟨f, c, p, x, _, k⟩ := ih s.bump (busRead s .word a) hn.2
      have hk := k fun e he => h15 ▸ hne e he
      have hr := (registerFrame_bump s).reads
      refine ⟨?_, c, p, ?_, ?_, ?_⟩
      · refine ((registerFrame_bump s).trans f).mono ?_
        rw [List.nil_append, List.flatMap_cons]
        exact List.subset_append_right ..
      · intro e he v hv hw
        rcases List.mem_cons.mp he with rfl | he
        · exact absurd h15 hv
        · exact x e he v hv ⟨hw.1, fun k hk => (hr _).trans (hw.2 k hk)⟩
      · intro e he v hv hw
        rcases List.mem_cons.mp he with rfl | he
        · rw [hk]; exact busRead_of_wordAt hw (fun _ => rfl)
        · exact absurd (hv.trans h15.symm) (hne e he)
      · intro h; exact absurd h15 (h (r, a) List.mem_cons_self)
    · have hstep : loadRegs m ((r, a) :: rest) (s, v0) =
          loadRegs m rest ((s.bump).setXIn m r (busRead s .word a), v0) := by
        simp only [loadRegs, if_neg h15]
      rw [hstep]
      obtain ⟨f, c, p, x, x15, k⟩ := ih ((s.bump).setXIn m r (busRead s .word a)) v0 hn.2
      have f0 := (registerFrame_bump s).trans (registerFrame_setXIn s.bump m r (busRead s .word a))
      rw [List.nil_append] at f0
      have hwa : ∀ b v, WordAt s b v → WordAt ((s.bump).setXIn m r (busRead s .word a)) b v := fun b v hw =>
        ⟨hw.1, fun k hk => (f0.reads _).trans (hw.2 k hk)⟩
      refine ⟨?_, c.trans ?_, p.trans ?_, ?_, ?_, ?_⟩
      · rw [List.flatMap_cons]; exact f0.trans f
      · rw [setXIn_eq]; rfl
      · rw [setXIn_eq]; rfl
      · intro e he v hv hw
        rcases List.mem_cons.mp he with rfl | he
        · obtain ⟨q, hq⟩ := Mode.view_isSome (m := m) h15
          have hread : busRead s .word a = v := busRead_of_wordAt hw (fun _ => rfl)
          have hnot : q ∉ rest.flatMap fun e => (m.view e.1).toList := by
            intro hmem
            obtain ⟨e, he, hme⟩ := List.mem_flatMap.mp hmem
            rw [Option.mem_toList] at hme
            exact hne e he (Mode.view_inj hme hq)
          have hx := State.xIn_setXIn_same s.bump (m := m) h15 (busRead s .word a)
          simp only [State.xIn, hq] at hx ⊢
          rw [f.regs q hnot, hx, hread]
        · exact x e he v hv (hwa _ v hw)
      · intro e he v hv hw
        rcases List.mem_cons.mp he with rfl | he
        · exact absurd hv h15
        · exact x15 e he v hv (hwa _ v hw)
      · intro h; exact k fun e he => h e (List.mem_cons_of_mem _ he)

/-! ### Which bytes two addresses share -/

theorem writableLocation_save (s : State) {a : Word} (h : regionOf a = .save) :
    writableLocation s a = some (saveLocation s.save (saveOffset a)) := by
  simp only [writableLocation, locationOf, h]

theorem saveLocation_ge (sv : Save) (o : Nat) : sramBase ≤ saveLocation sv o := by
  unfold saveLocation
  simp only [sramBase, flashBase]
  split
  · omega
  · split <;> omega

theorem saveLocation_inj {sv : Save} {o p : Nat} : saveLocation sv o = saveLocation sv p ↔ o = p := by
  unfold saveLocation
  split
  · omega
  · split <;> omega

theorem writableLocation_congr (s t : State) {a : Word} (h : regionOf a ≠ .save) :
    writableLocation t a = writableLocation s a := by
  unfold writableLocation locationOf
  cases hr : regionOf a <;> first | rfl | exact absurd hr h

theorem writableLocation_lt {s : State} {a : Word} (h : regionOf a ≠ .save) {j : Nat}
    (hj : writableLocation s a = some j) : j < sramBase := by
  unfold writableLocation at hj
  split at hj <;> first | cases hj | exact locationOf_lt h hj

/-- Which addresses name one byte does not depend on the save control: both names move together. -/
theorem sameByte_congr (s t : State) (p q : Word) : sameByte t p q = sameByte s p q := by
  have key : ((writableLocation t p).isSome && writableLocation t p == writableLocation t q) =
      ((writableLocation s p).isSome && writableLocation s p == writableLocation s q) := by
    have hno : ∀ (u : State) (a b : Word), regionOf a = .save → regionOf b ≠ .save →
        writableLocation u a ≠ writableLocation u b := by
      intro u a b ha hb e
      rw [writableLocation_save u ha] at e
      have h1 := writableLocation_lt hb e.symm
      have h2 := saveLocation_ge u.save (saveOffset a)
      omega
    by_cases h1 : regionOf p = .save
    · by_cases h2 : regionOf q = .save
      · simp only [writableLocation_save _ h1, writableLocation_save _ h2, Option.isSome_some, Bool.true_and]
        rw [Bool.eq_iff_iff, beq_iff_eq, beq_iff_eq, Option.some.injEq, Option.some.injEq, saveLocation_inj,
          saveLocation_inj]
      · rw [beq_eq_false_iff_ne.mpr (hno t p q h1 h2), beq_eq_false_iff_ne.mpr (hno s p q h1 h2), Bool.and_false,
          Bool.and_false]
    · by_cases h2 : regionOf q = .save
      · rw [beq_eq_false_iff_ne.mpr (hno t q p h2 h1).symm, beq_eq_false_iff_ne.mpr (hno s q p h2 h1).symm,
          Bool.and_false, Bool.and_false]
      · rw [writableLocation_congr s t h1, writableLocation_congr s t h2]
  simp only [sameByte, key]

theorem storedAddrs_word_congr (s t : State) (a : Word) : storedAddrs t .word a = storedAddrs s .word a := by
  unfold storedAddrs; split <;> rfl

theorem covered_word_congr (s t : State) (e a : Word) :
    covered t .word e a = covered s .word e a := by
  simp only [covered, storedAddrs_word_congr s t, sameByte_congr s t]

/-- Of a halfword or a word the hazard depends on pc and the instruction set alone. -/
theorem storeHazard_congr {s t : State} {w : Width} (hw : w ≠ .byte) (hc : t.cpsr = s.cpsr) (hp : t.pc = s.pc) (a : Word) :
    storeHazard t w a = storeHazard s w a := by
  have e : storedAddrs t w a = storedAddrs s w a := by
    unfold storedAddrs
    cases w
    · exact absurd rfl hw
    all_goals split <;> rfl
  simp only [storeHazard, e, slotAddrs, hc, hp, sameByte_congr s t]

theorem storeHazard_word_congr {s t : State} (h : CpuSame s t) (a : Word) :
    storeHazard t .word a = storeHazard s .word a := storeHazard_congr (by decide) h.cpsr h.pc a

theorem memoryLocation_mod {r q : Region} (hr : r.isMemory = true) (hq : q.isMemory = true) {m n : Nat}
    (h : memoryLocation r m = memoryLocation q n) : m % 1024 = n % 1024 := by
  have key : ∀ r : Region, r.isMemory = true → ∀ n, memoryLocation r n % 1024 = n % 1024 := by
    intro r hr n
    cases r <;> first
      | exact absurd hr Bool.false_ne_true
      | (simp only [memoryLocation, ewramBase, iwramBase, paletteBase, oamBase]; omega)
      | (unfold memoryLocation; dsimp only [vramBase]; split <;> omega)
  exact (key r hr m).symm.trans ((congrArg (· % 1024) h).trans (key q hq n))

/-- Two words whose numbers differ modulo 256 share no byte, if the first lies in plain memory. -/
theorem covered_word_of_ne {s : State} {e f : Word} (he : (regionOf e).isMemory = true)
    (h : e.toNat / 4 % 256 ≠ f.toNat / 4 % 256) {k : Nat} (hk : k < 4) :
    covered s .word f (alignWord e + BitVec.ofNat 32 k) = false := by
  have hreg : (regionOf (alignWord e + BitVec.ofNat 32 k)).isMemory = true := by
    rw [show alignWord e + BitVec.ofNat 32 k = Width.word.align e + BitVec.ofNat 32 k from rfl, regionOf_lane .word e hk]
    exact he
  have hn : (alignWord e + BitVec.ofNat 32 k).toNat = e.toNat / 4 * 4 + k := lane_toNat .word e hk
  have hw := (writableLocation_of_memory s hreg).trans (locationOf_memory s hreg)
  have far : ∀ p : Word, p.toNat / 4 % 256 = f.toNat / 4 % 256 → sameByte s p (alignWord e + BitVec.ofNat 32 k) = false := by
    intro p hp
    rw [sameByte, Bool.or_eq_false_iff, beq_eq_false_iff_ne, Bool.and_eq_false_iff]
    refine ⟨?_, ?_⟩
    · rintro rfl; rw [hn] at hp; omega
    · refine Classical.or_iff_not_imp_left.mpr fun hs => ?_
      rw [beq_eq_false_iff_ne, hw]
      intro hc
      by_cases hsv : regionOf p = .save
      · rw [writableLocation_save s hsv, Option.some.injEq] at hc
        have h1 := saveLocation_ge s.save (saveOffset p)
        have h2 := (memoryLocation_bounds _ hreg (alignWord e + BitVec.ofNat 32 k).toNat).2
        simp only [sramBase, romBase] at h1 h2
        omega
      · by_cases hpm : (regionOf p).isMemory = true
        · rw [writableLocation_of_memory s hpm, locationOf_memory s hpm, Option.some.injEq] at hc
          have := memoryLocation_mod hpm hreg hc
          rw [hn] at this
          omega
        · unfold writableLocation at hc
          cases hr : regionOf p <;> rw [hr] at hc hpm hsv <;> first
            | cases hc
            | exact absurd rfl hpm
            | exact absurd rfl hsv
  rw [covered, List.any_eq_false]
  intro p hp
  rw [Bool.not_eq_true]
  unfold storedAddrs at hp
  split at hp
  · rw [List.mem_singleton] at hp; subst hp; exact far _ rfl
  · have hl := fun j (hj : j < 4) => lane_toNat .word f (k := j) hj
    simp only [List.mem_cons, List.not_mem_nil, or_false] at hp
    have h0 := hl 0 (by decide)
    have h1 := hl 1 (by decide)
    have h2 := hl 2 (by decide)
    have h3 := hl 3 (by decide)
    simp only [Width.bytes, BitVec.add_zero] at h0 h1 h2 h3
    rcases hp with rfl | rfl | rfl | rfl <;> apply far
    · rw [h0]; omega
    · rw [h1]; omega
    · rw [h2]; omega
    · rw [h3]; omega

/-! ### Stores -/

theorem BlockStoreFrame.refl (s : State) : BlockStoreFrame [] s s :=
  ⟨(SameBus.refl s).busAs, fun _ _ _ _ => rfl, fun _ => ⟨.refl s, fun _ _ => rfl⟩, fun _ => ⟨rfl, fun _ _ => rfl⟩⟩

theorem blockStoreFrame_cons {s u : State} (hm : s.MemoryInv) {a v : Word} {l : List (Word × Word)}
    (g : BlockStoreFrame l (busWrite s .word a v) u) : BlockStoreFrame ((a, v) :: l) s u := by
  have h := (storeFrame_busWrite hm .word a v).2
  generalize ht : busWrite s .word a v = t at h g
  have hmem : ∀ b, regionOf b ≠ .io → regionOf b ≠ .save → covered s .word a b = false → peek t b = peek s b := by
    intro b h1 h2 h3
    split at h <;> first | exact h.2.2 b | exact h.2.2 b h3 | exact h.2 b h1 | exact h.2 b h2
  have hdev : regionOf a ≠ .io → SameDevices s t := by
    intro h1
    split at h <;> first | exact h.1 | contradiction
  have hsave : regionOf a ≠ .save → t.save = s.save := by
    intro h1
    split at h <;> first | exact h.2.1 | exact h.1 | contradiction
  refine ⟨by have := g.bus; rw [← ht] at this; exact this, ?_, ?_, ?_⟩
  · intro b h1 h2 h3
    refine (g.memory b h1 h2 fun e he => ?_).trans (hmem b h1 h2 (h3 (a, v) List.mem_cons_self))
    rw [covered_word_congr s t]; exact h3 e (List.mem_cons_of_mem _ he)
  · intro h1
    obtain ⟨d, q⟩ := g.devices fun e he => h1 e (List.mem_cons_of_mem _ he)
    have d0 := hdev (h1 (a, v) List.mem_cons_self)
    refine ⟨d0.trans d, fun b hb => (q b hb).trans ?_⟩
    simp only [peek, hb]; exact ioReadByte_congr d0 _
  · intro h1
    obtain ⟨d, q⟩ := g.save fun e he => h1 e (List.mem_cons_of_mem _ he)
    have d0 := hsave (h1 (a, v) List.mem_cons_self)
    refine ⟨d.trans d0, fun b hb => (q b hb).trans ?_⟩
    have hcov : (regionOf a).isMemory = true → covered s .word a b = false := by
      intro ha
      rw [covered, List.any_eq_false]
      intro p hp'
      have hpr : (regionOf p).isMemory = true := by
        rw [storedAddrs_plain (h1 (a, v) List.mem_cons_self) rfl] at hp'
        obtain ⟨k, hk, rfl⟩ := List.mem_map.mp hp'
        rw [regionOf_lane .word a (List.mem_range.mp hk)]; exact ha
      rw [Bool.not_eq_true, sameByte, Bool.or_eq_false_iff, beq_eq_false_iff_ne, Bool.and_eq_false_iff]
      refine ⟨fun e => ?_, .inr ?_⟩
      · rw [e, hb] at hpr; cases hpr
      rw [beq_eq_false_iff_ne, writableLocation_of_memory s hpr, locationOf_memory s hpr, writableLocation_save s hb]
      intro e
      rw [Option.some.injEq] at e
      have h1 := saveLocation_ge s.save (saveOffset b)
      have h2 := (memoryLocation_bounds _ hpr p.toNat).2
      simp only [sramBase, romBase] at h1 h2
      omega
    split at h <;> first
      | exact h.2.2 b
      | (next hr => exact h.2.2 b (hcov (by rw [hr]; rfl)))
      | exact h.2 b (by rw [hb]; decide)
      | (next hr => exact absurd hr (h1 (a, v) List.mem_cons_self))

/-- The first listed register is the one that no listed register lies below. -/
theorem head_listRegs {list : BitVec 16} {i : RegNum} (h : list.getLsbD i.toNat = true) :
    (listRegs list).headD 15#4 = i ↔ lowerCount list i.toNat = 0 := by
  have hi := i.isLt
  have e : listRegs list = listBelow list i.toNat ++ i :: ((List.range (15 - i.toNat)).filterMap fun j =>
      if list.getLsbD (i.toNat + (1 + j)) then some (BitVec.ofNat 4 (i.toNat + (1 + j))) else none) := by
    rw [listRegs_eq, listBelow, show List.range 16 = List.range (i.toNat + (1 + (15 - i.toNat))) by congr 1; omega, List.range_add, List.range_add,
      List.filterMap_append, List.map_append, List.filterMap_append, List.filterMap_map, List.filterMap_map,
      List.filterMap_map]
    simp [h, listBelow, Function.comp_def]
  have hl := length_listBelow list i.toNat
  rw [e, ← hl]
  cases hb : listBelow list i.toNat with
  | nil => simp
  | cons r rest =>
    have hr : r ∈ listBelow list i.toNat := by rw [hb]; exact List.mem_cons_self
    simp only [List.cons_append, List.headD_cons, List.length_cons, Nat.succ_ne_zero, iff_false]
    rintro rfl
    simp only [listBelow, List.mem_filterMap, List.mem_range] at hr
    obtain ⟨j, hj, hjr⟩ := hr
    split at hjr
    · have := congrArg BitVec.toNat (Option.some.inj hjr)
      simp at this; omega
    · cases hjr

theorem blockStored_eq (s : State) (m : Mode) (rn : RegNum) (w : Bool) (list : BitVec 16) (wb : Word) {i : RegNum}
    (hi : list.getLsbD i.toNat = true) :
    blockStored s m rn w wb ((listRegs list).headD 15#4) i = blockValue s m rn w list wb i := by
  unfold blockStored blockValue
  by_cases h15 : i = 15#4
  · subst h15; rw [if_pos rfl, if_pos rfl]; rfl
  · rw [if_neg h15, if_neg h15]
    congr 1
    rw [eq_iff_iff]
    simp only [Bool.and_eq_true, beq_iff_eq, bne_iff_ne, ne_eq]
    constructor
    · rintro ⟨⟨⟨h1, rfl⟩, h3⟩, h4⟩
      exact ⟨h1, rfl, h3, fun e => h4 ((head_listRegs hi).mpr e)⟩
    · rintro ⟨h1, rfl, h3, h4⟩
      exact ⟨⟨⟨h1, rfl⟩, h3⟩, fun e => h4 ((head_listRegs hi).mp e)⟩

/-- The listed registers' words from the lowest address up, as the statements list them (43 R564). -/
theorem pairWords_eq (p u : Bool) (base : Word) (list : BitVec 16) {f value : RegNum → Word}
    (hf : ∀ i : RegNum, list.getLsbD i.toNat = true → f i = value i) :
    (blockPairs (listRegs list) (blockStart p u base (listRegs list).length)).map (fun e => (e.2, f e.1)) =
      ((List.range 16).filter fun i => list.getLsbD i).map fun i =>
        (blockAddr p u base (lowerCount list 16) (lowerCount list i), value (BitVec.ofNat 4 i)) := by
  rw [blockPairs, listRegs_eq, zipIdx_listBelow, length_listBelow, List.map_map, List.map_filterMap,
    ← List.filterMap_eq_filter, List.map_filterMap]
  refine List.filterMap_congr fun i hi => ?_
  have hn : (BitVec.ofNat 4 i).toNat = i := by
    rw [List.mem_range] at hi; simp; omega
  cases h : list.getLsbD i
  · simp [Option.guard, h]
  · simp only [if_true, Option.map_some, Option.guard, h, Function.comp_apply, blockAddr_eq]
    rw [hf _ (by rw [hn]; exact h)]

/-- The words the store loop of an STM is given are those of the statements, in the order of the accesses (43 R564, R565,
R575). -/
theorem blockWords_eq (s : State) (m : Mode) (p u : Bool) (base : Word) (list : BitVec 16) (rn : RegNum) (w : Bool)
    (wb : Word) :
    blockWords s m u (listRegs list) (blockStart p u base (listRegs list).length) rn w wb =
      wordsInOrder p u base list (blockValue s m rn w list wb) := by
  unfold blockWords wordsInOrder accessOrder
  dsimp only
  rw [← pairWords_eq p u base list fun i hi => blockStored_eq s m rn w list wb hi]
  cases u <;> simp [List.map_reverse]

/-- The registers of a PUSH or POP as its list names them (45_thumb R730). -/
theorem pushRegs_eq : ∀ (list : BitVec 8) (r : Bool), pushRegs list r 14#4 = listRegs (pushList list r 14) ∧
    pushRegs list r 15#4 = listRegs (pushList list r 15) := by decide +kernel

/-- The words of a PUSH are stored in ascending order (45_thumb R731). -/
theorem pushWords_eq (start : Word) (list : BitVec 16) (f : RegNum → Word) :
    (blockPairs (listRegs list) start).map (fun e => (e.2, f e.1)) = wordsInOrder false true start list f :=
  pairWords_eq false true start list fun _ _ => rfl

/-- The whole effect of the store loop, where no word is a pipeline hazard. -/
theorem storeWords_spec (l : List (Word × Word)) :
    ∀ s : State, s.MemoryInv → (∀ e ∈ l, storeHazard s .word e.1 = false) →
      ∃ t, storeWords l s = .next t ∧ CpuSame s t ∧ t.MemoryInv ∧ BlockStoreFrame l s t ∧
        ((l.map fun e => e.1.toNat / 4 % 256).Nodup → ∀ e ∈ l, StoresPlainly s .word e.1 →
          StoredBytes .word e.1 e.2 t) := by
  induction l with
  | nil => exact fun s hm _ => ⟨s, rfl, .refl s, hm, .refl s, by simp⟩
  | cons hd rest ih =>
    obtain ⟨a, v⟩ := hd
    intro s hm hz
    have hc := cpuSame_busWrite s .word a v
    obtain ⟨t, h1, h2, h3, h4, h5⟩ := ih (busWrite s .word a v) (memoryInv_busWrite hm ..) fun e he => by
      rw [storeHazard_word_congr hc]; exact hz e (List.mem_cons_of_mem _ he)
    refine ⟨t, ?_, hc.trans h2, h3, ?_, ?_⟩
    · simp only [storeWords, cpuStore_eq (hz (a, v) List.mem_cons_self), andThen_next, h1]
    · exact blockStoreFrame_cons hm h4
    · intro hn e he hp
      rw [List.map_cons, List.nodup_cons] at hn
      rcases List.mem_cons.mp he with rfl | he
      · obtain ⟨g1, g2⟩ := storesPlainly_isMemory hp
        intro k hk
        have hreg : (regionOf (alignWord a + BitVec.ofNat 32 k)).isMemory = true := by
          rw [show alignWord a + BitVec.ofNat 32 k = Width.word.align a + BitVec.ofNat 32 k from rfl,
            regionOf_lane .word a hk]
          exact g1
        refine (h4.memory _ ?_ ?_ fun f hf => ?_).trans (storedBytes_busWrite hm .word g1 g2 v k hk)
        · intro e; rw [show Width.word.align a = alignWord a from rfl] at e; rw [e] at hreg; cases hreg
        · intro e; rw [show Width.word.align a = alignWord a from rfl] at e; rw [e] at hreg; cases hreg
        · refine covered_word_of_ne g1 (fun e => hn.1 ?_) hk
          rw [show (a, v).1 = a from rfl, e]
          exact List.mem_map.mpr ⟨f, hf, rfl⟩
      · exact h5 hn.2 e he (by simpa [StoresPlainly] using hp)

/-- A hazard anywhere in the store loop stops it. -/
theorem storeWords_hazard (l : List (Word × Word)) :
    ∀ s : State, (∃ e ∈ l, storeHazard s .word e.1 = true) → storeWords l s = .fault .pipelineHazard := by
  induction l with
  | nil => rintro s ⟨e, he, -⟩; cases he
  | cons hd rest ih =>
    obtain ⟨a, v⟩ := hd
    rintro s ⟨e, he, hz⟩
    cases ha : storeHazard s .word a with
    | true => simp only [storeWords, cpuStore_hazard ha, andThen_fault]
    | false =>
      simp only [storeWords, cpuStore_eq ha, andThen_next]
      rcases List.mem_cons.mp he with rfl | he
      · rw [ha] at hz; cases hz
      · exact ih _ ⟨e, he, by rw [storeHazard_word_congr (cpuSame_busWrite s .word a v)]; exact hz⟩

end Sys2Proof.Machine
end

