-- ==== Sys2Proof/Laws/Bios.lean ====
section
/-! SUPPORT. The loops of the emulated BIOS functions that write memory, said once: which bus writes each does
(46_bios_hle R762, R763, R765-R767). -/

namespace Sys2Proof.Machine

/-! ### A list of bus writes done -/

/-- From `s` on exactly the writes `l` were done on the bus, and free values used. -/
structure Wrote (l : List (Width × Word × Word)) (s t : State) : Prop where
  regs : t.regs = s.regs
  cpsr : t.cpsr = s.cpsr
  pc : t.pc = s.pc
  core : SameCore s t
  bus : SameBus (busWrites l s) t

variable {l : List (Width × Word × Word)} {s t : State} {w : Width} {a v : Word}

theorem wrote_nil (s : State) : Wrote [] s s := ⟨rfl, rfl, rfl, .refl s, .refl s⟩

theorem Wrote.bump (h : Wrote l s t) : Wrote l s t.bump :=
  ⟨h.regs, h.cpsr, h.pc, h.core.trans ⟨rfl, rfl, rfl, rfl, rfl, rfl, rfl, rfl, rfl, rfl, rfl⟩, h.bus.trans (sameBus_mk rfl)⟩

theorem Wrote.write (h : Wrote l s t) (w : Width) (a v : Word) : Wrote (l ++ [(w, a, v)]) s (busWrite t w a v) := by
  have c := cpuSame_busWrite t w a v
  refine ⟨c.regs.trans h.regs, c.cpsr.trans h.cpsr, c.pc.trans h.pc, h.core.trans c.core, ?_⟩
  rw [busWrites, List.foldl_append]
  exact h.bus.busWrite w a v

/-- A read that the spec fixes after the writes is what the state after them reads. -/
theorem Wrote.read (h : Wrote l s t) (hr : ReadsAs (busWrites l s) w a v) : busRead t w a = v := hr.busRead h.bus

theorem Wrote.hazard (h : Wrote l s t) (hw : w ≠ .byte) (a : Word) : storeHazard t w a = storeHazard s w a :=
  storeHazard_congr hw h.cpsr h.pc a

theorem Wrote.store (h : Wrote l s t) (hw : w ≠ .byte) (hz : storeHazard s w a = false) (v : Word) :
    ∃ u, cpuStore w a v t = .next u ∧ Wrote (l ++ [(w, a, v)]) s u :=
  ⟨_, cpuStore_eq (by rw [h.hazard hw, hz]) v, h.write w a v⟩

/-- The writes of the first `n` units. -/
def unitWrites (f : Nat → Width × Word × Word) (n : Nat) : List (Width × Word × Word) := (List.range n).map f

@[simp] theorem unitWrites_zero (f : Nat → Width × Word × Word) : unitWrites f 0 = [] := rfl

theorem unitWrites_succ (f : Nat → Width × Word × Word) (n : Nat) : unitWrites f (n + 1) = unitWrites f n ++ [f n] := by
  simp [unitWrites, List.range_succ]

theorem take_unitWrites (f : Nat → Width × Word × Word) {k n : Nat} (h : k ≤ n) :
    ((List.range n).map f).take k = unitWrites f k := by
  simp [unitWrites, ← List.map_take, List.take_range, Nat.min_eq_left h]

/-- The writes of the first `n` entries, several for each. -/
def entryWrites (f : Nat → List (Width × Word × Word)) (n : Nat) : List (Width × Word × Word) := (List.range n).flatMap f

@[simp] theorem entryWrites_zero (f : Nat → List (Width × Word × Word)) : entryWrites f 0 = [] := rfl

theorem entryWrites_succ (f : Nat → List (Width × Word × Word)) (n : Nat) :
    entryWrites f (n + 1) = entryWrites f n ++ f n := by
  simp [entryWrites, List.range_succ, List.flatMap_append]

theorem take_entryWrites (f : Nat → List (Width × Word × Word)) {c k n : Nat} (hc : ∀ k, (f k).length = c) (h : k ≤ n) :
    ((List.range n).flatMap f).take (c * k) = entryWrites f k := by
  have len : ∀ m, (entryWrites f m).length = c * m := by
    intro m
    induction m with
    | zero => rfl
    | succ m ih => rw [entryWrites_succ, List.length_append, ih, hc, Nat.mul_succ]
  obtain ⟨d, rfl⟩ := Nat.exists_eq_add_of_le h
  rw [List.range_add, List.flatMap_append]
  refine (List.take_append_of_le_length (l₁ := entryWrites f k) (Nat.le_of_eq (len k).symm)).trans ?_
  exact List.take_of_length_le (Nat.le_of_eq (len k))

theorem ofNat_mul_succ (c j : Nat) : BitVec.ofNat 32 (c * (j + 1)) = BitVec.ofNat 32 (c * j) + BitVec.ofNat 32 c := by
  rw [Nat.mul_succ, BitVec.ofNat_add]

theorem add_ofNat_succ (a : Word) (c j : Nat) :
    a + BitVec.ofNat 32 (c * j) + BitVec.ofNat 32 c = a + BitVec.ofNat 32 (c * (j + 1)) := by
  rw [ofNat_mul_succ, BitVec.add_assoc]

/-! ### Copy and fill (46_bios_hle R762, R763) -/

/-- The write of unit `k` of a copy or fill. -/
def copyWrite (w : Width) (dst : Word) (v : Nat → Word) (k : Nat) : Width × Word × Word :=
  (w, dst + BitVec.ofNat 32 (w.bytes * k), v k)

theorem copyUnits_spec (hw : w ≠ .byte) (src dst : Word) (v : Nat → Word) (n : Nat) : ∀ (j : Nat) (t : State),
    Wrote (unitWrites (copyWrite w dst v) j) s t →
    (∀ k, k < j + n → storeHazard s w (dst + BitVec.ofNat 32 (w.bytes * k)) = false ∧
      ReadsAs (busWrites (unitWrites (copyWrite w dst v) k) s) w (src + BitVec.ofNat 32 (w.bytes * k)) (v k)) →
    ∃ u, copyUnits w n (src + BitVec.ofNat 32 (w.bytes * j)) (dst + BitVec.ofNat 32 (w.bytes * j)) t = .next u ∧
      Wrote (unitWrites (copyWrite w dst v) (j + n)) s u := by
  induction n with
  | zero => exact fun j t h _ => ⟨t, rfl, h⟩
  | succ n ih =>
    intro j t h hk
    obtain ⟨hz, hr⟩ := hk j (by omega)
    obtain ⟨u, e, hu⟩ := h.bump.store hw hz (v j)
    rw [copyUnits, h.read hr, e, andThen_next, add_ofNat_succ, add_ofNat_succ]
    have := ih (j + 1) u (by rw [unitWrites_succ]; exact hu) fun k hk' => hk k (by omega)
    rwa [Nat.add_right_comm] at this

theorem fillUnits_spec (hw : w ≠ .byte) (dst v : Word) (n : Nat) : ∀ (j : Nat) (t : State),
    Wrote (unitWrites (copyWrite w dst fun _ => v) j) s t →
    (∀ k, k < j + n → storeHazard s w (dst + BitVec.ofNat 32 (w.bytes * k)) = false) →
    ∃ u, fillUnits w v n (dst + BitVec.ofNat 32 (w.bytes * j)) t = .next u ∧
      Wrote (unitWrites (copyWrite w dst fun _ => v) (j + n)) s u := by
  induction n with
  | zero => exact fun j t h _ => ⟨t, rfl, h⟩
  | succ n ih =>
    intro j t h hk
    obtain ⟨u, e, hu⟩ := h.store hw (hk j (by omega)) v
    rw [fillUnits, e, andThen_next, add_ofNat_succ]
    have := ih (j + 1) u (by rw [unitWrites_succ]; exact hu) fun k hk' => hk k (by omega)
    rwa [Nat.add_right_comm] at this

/-! ### Reads and writes in a row -/

theorem hleWrites_spec (m : List (Width × Word × Word)) : ∀ {l : List (Width × Word × Word)} {t : State}, Wrote l s t →
    (∀ e ∈ m, e.1 ≠ .byte ∧ storeHazard s e.1 e.2.1 = false) → ∃ u, hleWrites m t = .next u ∧ Wrote (l ++ m) s u := by
  induction m with
  | nil => exact fun {l t} h _ => ⟨t, rfl, by rwa [List.append_nil]⟩
  | cons e rest ih =>
    intro l t h hm
    obtain ⟨w, a, v⟩ := e
    obtain ⟨h1, h2⟩ := hm _ List.mem_cons_self
    obtain ⟨u, e, hu⟩ := h.store h1 h2 v
    obtain ⟨u', e', hu'⟩ := ih hu fun f hf => hm f (List.mem_cons_of_mem _ hf)
    exact ⟨u', by rw [hleWrites, e, andThen_next, e'], by rwa [List.append_assoc] at hu'⟩

/-- Reads that the spec fixes answer their values. -/
theorem hleReads_spec (q : List ((Width × Word) × Word)) : ∀ {t : State}, Wrote l s t →
    (∀ e ∈ q, ReadsAs (busWrites l s) e.1.1 e.1.2 e.2) →
    (hleReads (q.map Prod.fst) t).1 = q.map Prod.snd ∧ Wrote l s (hleReads (q.map Prod.fst) t).2 := by
  induction q with
  | nil => exact fun {t} h _ => ⟨rfl, h⟩
  | cons e rest ih =>
    intro t h hq
    obtain ⟨⟨w, a⟩, v⟩ := e
    obtain ⟨h1, h2⟩ := ih h.bump fun f hf => hq f (List.mem_cons_of_mem _ hf)
    have hv : busRead t w a = v := h.read (hq ((w, a), v) List.mem_cons_self)
    simp only [List.map_cons, hleReads]
    exact ⟨by rw [h1, hv], h2⟩

/-! ### Affine set-up (46_bios_hle R765, R766) -/

/-- The writes of one BgAffineSet entry from the values read. -/
def bgAffineWrites (p : Config.Params) (dst ox oy cx cy sx sy theta : Word) : List (Width × Word × Word) :=
  let m := affineMatrix p (s16 sx) (s16 sy) theta
  [(.half, dst, BitVec.ofInt 32 m.1), (.half, dst + 2#32, BitVec.ofInt 32 m.2.1),
   (.half, dst + 4#32, BitVec.ofInt 32 m.2.2.1), (.half, dst + 6#32, BitVec.ofInt 32 m.2.2.2),
   (.word, dst + 8#32, BitVec.ofInt 32 (ox.toInt - (m.1 * s16 cx + m.2.1 * s16 cy))),
   (.word, dst + 12#32, BitVec.ofInt 32 (oy.toInt - (m.2.2.1 * s16 cx + m.2.2.2 * s16 cy)))]

theorem bgAffineEntry_spec {src dst ox oy cx cy sx sy theta : Word} (h : Wrote l s t)
    (hr : ∀ e ∈ [((Width.word, src), ox), ((.word, src + 4#32), oy), ((.half, src + 8#32), cx), ((.half, src + 10#32), cy),
      ((.half, src + 12#32), sx), ((.half, src + 14#32), sy), ((.half, src + 16#32), theta)],
      ReadsAs (busWrites l s) e.1.1 e.1.2 e.2)
    (hz : ∀ e ∈ bgAffineWrites s.params dst ox oy cx cy sx sy theta, storeHazard s e.1 e.2.1 = false) :
    ∃ u, bgAffineEntry src dst t = .next u ∧ Wrote (l ++ bgAffineWrites s.params dst ox oy cx cy sx sy theta) s u := by
  obtain ⟨h1, h2⟩ := hleReads_spec _ h hr
  simp only [List.map_cons, List.map_nil] at h1 h2
  rw [← h.core.params] at hz ⊢
  obtain ⟨u, e, hu⟩ := hleWrites_spec (bgAffineWrites t.params dst ox oy cx cy sx sy theta) h2
    fun f hf => ⟨by simp only [bgAffineWrites, List.mem_cons, List.not_mem_nil, or_false] at hf
                    rcases hf with rfl | rfl | rfl | rfl | rfl | rfl <;> simp, hz f hf⟩
  exact ⟨u, by rw [← e, bgAffineEntry]; simp only [h1]; rfl, hu⟩

/-- The writes of one ObjAffineSet entry from the values read. -/
def objAffineWrites (p : Config.Params) (dst stride sx sy theta : Word) : List (Width × Word × Word) :=
  let m := affineMatrix p (s16 sx) (s16 sy) theta
  [(.half, dst, BitVec.ofInt 32 m.1), (.half, dst + stride, BitVec.ofInt 32 m.2.1),
   (.half, dst + stride + stride, BitVec.ofInt 32 m.2.2.1),
   (.half, dst + stride + stride + stride, BitVec.ofInt 32 m.2.2.2)]

theorem objAffineEntry_spec {src dst stride sx sy theta : Word} (h : Wrote l s t)
    (hr : ∀ e ∈ [((Width.half, src), sx), ((.half, src + 2#32), sy), ((.half, src + 4#32), theta)],
      ReadsAs (busWrites l s) e.1.1 e.1.2 e.2)
    (hz : ∀ e ∈ objAffineWrites s.params dst stride sx sy theta, storeHazard s e.1 e.2.1 = false) :
    ∃ u, objAffineEntry src dst stride t = .next u ∧ Wrote (l ++ objAffineWrites s.params dst stride sx sy theta) s u := by
  obtain ⟨h1, h2⟩ := hleReads_spec _ h hr
  simp only [List.map_cons, List.map_nil] at h1 h2
  rw [← h.core.params] at hz ⊢
  obtain ⟨u, e, hu⟩ := hleWrites_spec (objAffineWrites t.params dst stride sx sy theta) h2
    fun f hf => ⟨by simp only [objAffineWrites, List.mem_cons, List.not_mem_nil, or_false] at hf
                    rcases hf with rfl | rfl | rfl | rfl <;> simp, hz f hf⟩
  exact ⟨u, by rw [← e, objAffineEntry]; simp only [h1]; rfl, hu⟩

/-- Entry by entry, given what each entry does from the writes before it. -/
theorem bgAffineEntries_spec (src dst : Word) (f : Nat → List (Width × Word × Word)) (n : Nat) : ∀ (j : Nat) (t : State),
    Wrote (entryWrites f j) s t →
    (∀ k, k < j + n → ∀ t, Wrote (entryWrites f k) s t →
      ∃ u, bgAffineEntry (src + BitVec.ofNat 32 (20 * k)) (dst + BitVec.ofNat 32 (16 * k)) t = .next u ∧
        Wrote (entryWrites f k ++ f k) s u) →
    ∃ u, bgAffineEntries n (src + BitVec.ofNat 32 (20 * j)) (dst + BitVec.ofNat 32 (16 * j)) t = .next u ∧
      Wrote (entryWrites f (j + n)) s u := by
  induction n with
  | zero => exact fun j t h _ => ⟨t, rfl, h⟩
  | succ n ih =>
    intro j t h hk
    obtain ⟨u, e, hu⟩ := hk j (by omega) t h
    rw [bgAffineEntries, e, andThen_next, show (20#32 : Word) = BitVec.ofNat 32 20 from rfl,
      show (16#32 : Word) = BitVec.ofNat 32 16 from rfl, add_ofNat_succ, add_ofNat_succ]
    have := ih (j + 1) u (by rw [entryWrites_succ]; exact hu) fun k hk' => hk k (by omega)
    rwa [Nat.add_right_comm] at this

theorem objAffineEntries_spec (src dst stride : Word) (f : Nat → List (Width × Word × Word)) (n : Nat) :
    ∀ (j : Nat) (t : State), Wrote (entryWrites f j) s t →
    (∀ k, k < j + n → ∀ t, Wrote (entryWrites f k) s t →
      ∃ u, objAffineEntry (src + BitVec.ofNat 32 (8 * k)) (dst + BitVec.ofNat 32 (4 * k * stride.toNat)) stride t =
        .next u ∧ Wrote (entryWrites f k ++ f k) s u) →
    ∃ u, objAffineEntries stride n (src + BitVec.ofNat 32 (8 * j)) (dst + BitVec.ofNat 32 (4 * j * stride.toNat)) t =
      .next u ∧ Wrote (entryWrites f (j + n)) s u := by
  induction n with
  | zero => exact fun j t h _ => ⟨t, rfl, h⟩
  | succ n ih =>
    intro j t h hk
    obtain ⟨u, e, hu⟩ := hk j (by omega) t h
    have hd : dst + BitVec.ofNat 32 (4 * j * stride.toNat) + stride * 4#32 =
        dst + BitVec.ofNat 32 (4 * (j + 1) * stride.toNat) := by
      rw [Nat.mul_succ, Nat.add_mul, BitVec.ofNat_add, ← BitVec.add_assoc, Nat.mul_comm 4 stride.toNat]
      simp [BitVec.ofNat_mul]
    rw [objAffineEntries, e, andThen_next, show (8#32 : Word) = BitVec.ofNat 32 8 from rfl, add_ofNat_succ, hd]
    have := ih (j + 1) u (by rw [entryWrites_succ]; exact hu) fun k hk' => hk k (by omega)
    rwa [Nat.add_right_comm] at this

/-! ### BitUnPack (46_bios_hle R767) -/

theorem busRead_byte_lt (s : State) (a : Word) : (busRead s .byte a).toNat < 2 ^ 8 := by
  unfold busRead
  split
  · simp only [Width.truncate, BitVec.toNat_and]
    exact Nat.lt_of_le_of_lt Nat.and_le_right (by decide)
  · have h : ∀ b : Byte, (wordOfBytes b 0 0 0).toNat = b.toNat := by decide +kernel
    exact (h _).symm ▸ (laneOf ..).isLt

/-- The value of a source unit with the bias (46_bios_hle R767). -/
def biasedUnit (bias : Word) (unit : Nat) : Nat :=
  if unit ≠ 0 ∨ bias.getLsbD 31 = true then unit + bias.toNat % 2 ^ 31 else unit

/-- The run of the bit-unpacker at `j` units: the whole words are written, the lanes of the next one are in `acc`. -/
structure Unpacked (dw words : Nat) (dst : Word) (v : Nat → Word) (s : State) (j : Nat) (u : Unpack) (t : State) :
    Prop where
  wrote : Wrote (unitWrites (fun q => (.word, dst + BitVec.ofNat 32 (4 * q), v q)) (j * dw / 32)) s t
  dst : u.dst = dst + BitVec.ofNat 32 (4 * (j * dw / 32))
  bits : u.bits = j * dw % 32
  acc : j * dw / 32 < words → u.acc.toNat = (v (j * dw / 32)).toNat % 2 ^ (j * dw % 32)

theorem unpackUnit_spec {sw dw words : Nat} {bias dst : Word} {b : Byte} {v : Nat → Word} {j pos : Nat} {u : Unpack}
    (k : Unpack → State → Result) (hd : dw ∈ [1, 2, 4, 8, 16, 32])
    (h : Unpacked dw words dst v s j u t) (hj : (j + 1) * dw / 32 ≤ words)
    (hz : ∀ q, q < words → storeHazard s .word (dst + BitVec.ofNat 32 (4 * q)) = false)
    (hv : j * dw / 32 < words → (v (j * dw / 32)).toNat / 2 ^ (j * dw % 32) % 2 ^ dw =
      biasedUnit bias (b.toNat / 2 ^ pos % 2 ^ sw) % 2 ^ dw) :
    ∃ u' t', unpackUnit sw dw bias b pos u t k = k u' t' ∧ Unpacked dw words dst v s (j + 1) u' t' := by
  have hb := b.isLt
  have hu8 : b.toNat / 2 ^ pos % 2 ^ sw < 2 ^ 8 := by
    refine Nat.lt_of_le_of_lt (Nat.mod_le ..) (Nat.lt_of_le_of_lt (Nat.div_le_self ..) hb)
  generalize hun : b.toNat / 2 ^ pos % 2 ^ sw = unit at hu8 hv
  have hbi : ((if (BitVec.ofNat 32 unit != 0#32 || bias.getLsbD 31) = true then
      BitVec.ofNat 32 unit + (bias &&& 0x7FFFFFFF#32) else BitVec.ofNat 32 unit : Word)).toNat % 2 ^ dw =
      biasedUnit bias unit % 2 ^ dw := by
    have h0 : (BitVec.ofNat 32 unit != 0#32) = decide (unit ≠ 0) := by
      rw [Bool.eq_iff_iff, bne_iff_ne, decide_eq_true_eq, ne_eq, ne_eq, ← BitVec.toNat_inj]
      simp; omega
    have hm : (bias &&& 0x7FFFFFFF#32).toNat = bias.toNat % 2 ^ 31 := toNat_and_mask bias (n := 31) (by omega)
    have hdv : 2 ^ dw ∣ 2 ^ 32 := Nat.pow_dvd_pow 2 (by simp only [List.mem_cons, List.not_mem_nil, or_false] at hd; omega)
    unfold biasedUnit
    rw [h0]
    by_cases hc : unit ≠ 0 ∨ bias.getLsbD 31 = true
    · rw [if_pos (by simpa using hc), if_pos hc, BitVec.toNat_add, hm, BitVec.toNat_ofNat, Nat.mod_mod_of_dvd _ hdv,
        Nat.mod_eq_of_lt (show unit < 2 ^ 32 by omega)]
    · rw [if_neg (by simpa using hc), if_neg hc, BitVec.toNat_ofNat, Nat.mod_eq_of_lt (show unit < 2 ^ 32 by omega)]
  have hlt : j * dw % 32 + dw ≤ 32 ∧ (j * dw % 32 + dw = 32 → (j + 1) * dw / 32 = j * dw / 32 + 1 ∧ (j + 1) * dw % 32 = 0) ∧
      (j * dw % 32 + dw ≠ 32 → (j + 1) * dw / 32 = j * dw / 32 ∧ (j + 1) * dw % 32 = j * dw % 32 + dw) := by
    simp only [List.mem_cons, List.not_mem_nil, or_false] at hd
    rcases hd with rfl | rfl | rfl | rfl | rfl | rfl <;> omega
  obtain ⟨l1, l2, l3⟩ := hlt
  have hacc : j * dw / 32 < words → (u.acc ||| (BitVec.ofNat 32 (biasedUnit bias unit % 2 ^ dw) <<< u.bits)).toNat =
      (v (j * dw / 32)).toNat % 2 ^ (j * dw % 32 + dw) := by
    intro hq
    have ha := h.acc hq
    rw [← hv hq, h.bits]
    generalize (v (j * dw / 32)) = x at ha ⊢
    generalize j * dw % 32 = r at ha l1 ⊢
    have hx := x.isLt
    have e1 : x.toNat / 2 ^ r % 2 ^ dw < 2 ^ dw := Nat.mod_lt _ (Nat.two_pow_pos _)
    have e2 : 2 ^ dw ≤ 2 ^ 32 := Nat.pow_le_pow_right (by omega) (by omega)
    have e3 : x.toNat / 2 ^ r % 2 ^ dw * 2 ^ r < 2 ^ 32 := by
      calc _ < 2 ^ dw * 2 ^ r := Nat.mul_lt_mul_of_pos_right e1 (Nat.two_pow_pos _)
        _ = 2 ^ (dw + r) := (Nat.pow_add ..).symm
        _ ≤ 2 ^ 32 := Nat.pow_le_pow_right (by omega) (by omega)
    rw [BitVec.toNat_or, BitVec.toNat_shiftLeft, BitVec.toNat_ofNat, Nat.mod_eq_of_lt (Nat.lt_of_lt_of_le e1 e2),
      Nat.shiftLeft_eq, Nat.mod_eq_of_lt e3, ha, Nat.or_comm, ← Nat.shiftLeft_eq,
      ← Nat.shiftLeft_add_eq_or_of_lt (Nat.mod_lt _ (Nat.two_pow_pos _)), Nat.shiftLeft_eq, Nat.pow_add, Nat.mod_mul,
      Nat.add_comm, Nat.mul_comm]
  unfold unpackUnit
  dsimp only
  rw [hun, hbi]
  split
  · next hb32 =>
    rw [h.bits] at hb32
    obtain ⟨m1, m2⟩ := l2 hb32
    have hq : j * dw / 32 < words := by omega
    have hfull := hacc hq
    rw [hb32, Nat.mod_eq_of_lt (v (j * dw / 32)).isLt, BitVec.toNat_inj] at hfull
    rw [hfull, h.dst]
    obtain ⟨t', e, ht⟩ := h.wrote.store (by decide) (hz _ hq) (v (j * dw / 32))
    refine ⟨_, t', by rw [e, andThen_next], ?_, ?_, ?_, ?_⟩
    · rw [m1, unitWrites_succ]; exact ht
    · rw [m1]; exact add_ofNat_succ dst 4 _
    · exact m2.symm
    · intro _; rw [m2]; simp [Nat.mod_one]
  · next hb32 =>
    rw [h.bits] at hb32
    obtain ⟨m1, m2⟩ := l3 hb32
    refine ⟨_, t, rfl, ?_, ?_, ?_, ?_⟩
    · rw [m1]; exact h.wrote
    · rw [m1]; exact h.dst
    · rw [m2, h.bits]
    · rw [m1, m2]; exact hacc

theorem unpackByte_spec {sw dw words : Nat} {bias dst : Word} {b : Byte} {v : Nat → Word} {units : Nat}
    (hd : dw ∈ [1, 2, 4, 8, 16, 32])
    (hz : ∀ q, q < words → storeHazard s .word (dst + BitVec.ofNat 32 (4 * q)) = false) (n : Nat) :
    ∀ (i : Nat) (u : Unpack) (t : State) (k : Unpack → State → Result), Unpacked dw words dst v s (units + i) u t →
    (units + (i + n)) * dw / 32 ≤ words →
    (∀ i', i ≤ i' → i' < i + n → (units + i') * dw / 32 < words →
      (v ((units + i') * dw / 32)).toNat / 2 ^ ((units + i') * dw % 32) % 2 ^ dw =
        biasedUnit bias (b.toNat / 2 ^ (i' * sw) % 2 ^ sw) % 2 ^ dw) →
    ∃ u' t', unpackByte sw dw bias b n (i * sw) u t k = k u' t' ∧ Unpacked dw words dst v s (units + (i + n)) u' t' := by
  induction n with
  | zero => exact fun i u t k h _ _ => ⟨u, t, rfl, h⟩
  | succ n ih =>
    intro i u t k h hw hv
    obtain ⟨u1, t1, e1, h1⟩ := unpackUnit_spec (fun u s => unpackByte sw dw bias b n (i * sw + sw) u s k) hd h
      (Nat.le_trans (Nat.div_le_div_right (Nat.mul_le_mul_right _ (by omega))) hw) hz (hv i (by omega) (by omega))
    rw [← Nat.succ_mul] at e1
    obtain ⟨u2, t2, e2, h2⟩ := ih (i + 1) u1 t1 k h1 (by rwa [Nat.add_right_comm, Nat.add_assoc])
      fun i' a1 a2 => hv i' (by omega) (by omega)
    refine ⟨u2, t2, ?_, by rwa [Nat.add_right_comm, Nat.add_assoc] at h2⟩
    rw [unpackByte, ← Nat.succ_mul]
    exact e1.trans e2

theorem unpackBytes_spec {sw dw words len : Nat} {bias src dst : Word} {b v : Nat → Word} (hs : sw ∈ [1, 2, 4, 8])
    (hd : dw ∈ [1, 2, 4, 8, 16, 32]) (hw : words = len * (8 / sw) * dw / 32)
    (hz : ∀ q, q < words → storeHazard s .word (dst + BitVec.ofNat 32 (4 * q)) = false)
    (hr : ∀ m, m < len → ReadsAs (busWrites (unitWrites (fun q => (.word, dst + BitVec.ofNat 32 (4 * q), v q))
      (m * (8 / sw) * dw / 32)) s) .byte (src + BitVec.ofNat 32 m) (b m))
    (hv : ∀ j, j * dw / 32 < words → (v (j * dw / 32)).toNat / 2 ^ (j * dw % 32) % 2 ^ dw =
      biasedUnit bias ((b (j * sw / 8)).toNat / 2 ^ (j * sw % 8) % 2 ^ sw) % 2 ^ dw) (n : Nat) :
    ∀ (m : Nat) (u : Unpack) (t : State), m + n = len → Unpacked dw words dst v s (m * (8 / sw)) u t →
    ∃ u' t', unpackBytes sw dw bias n (src + BitVec.ofNat 32 m) u t = .next t' ∧
      Unpacked dw words dst v s (len * (8 / sw)) u' t' := by
  have h8 : 8 / sw * sw = 8 := by
    simp only [List.mem_cons, List.not_mem_nil, or_false] at hs
    rcases hs with rfl | rfl | rfl | rfl <;> decide
  induction n with
  | zero => rintro m u t rfl h; exact ⟨u, t, rfl, h⟩
  | succ n ih =>
    intro m u t hm h
    have hread : ((busRead t .byte (src + BitVec.ofNat 32 m)).setWidth 8).toNat = (b m).toNat := by
      have e := h.wrote.read (hr m (by omega))
      rw [← e, BitVec.toNat_setWidth, Nat.mod_eq_of_lt (busRead_byte_lt ..)]
    have hb : Unpacked dw words dst v s (m * (8 / sw) + 0) u t.bump := ⟨h.wrote.bump, h.dst, h.bits, h.acc⟩
    obtain ⟨u1, t1, e1, h1⟩ := unpackByte_spec (b := (busRead t .byte (src + BitVec.ofNat 32 m)).setWidth 8) hd hz
      (8 / sw) 0 u t.bump (unpackBytes sw dw bias n (src + BitVec.ofNat 32 m + 1#32)) hb
      (by rw [hw]; exact Nat.div_le_div_right (Nat.mul_le_mul_right _ (by
            rw [Nat.zero_add, ← Nat.succ_mul]; exact Nat.mul_le_mul_right _ (by omega))))
      (fun i' _ a2 hq => by
        rw [hread, hv _ hq]
        have e8 : (m * (8 / sw) + i') * sw = m * 8 + i' * sw := by rw [Nat.add_mul, Nat.mul_assoc, h8]
        have lt : i' * sw < 8 := by
          rw [← h8]; exact Nat.mul_lt_mul_of_pos_right (by omega) (by
            simp only [List.mem_cons, List.not_mem_nil, or_false] at hs; omega)
        rw [e8, show (m * 8 + i' * sw) / 8 = m by omega, show (m * 8 + i' * sw) % 8 = i' * sw by omega])
    rw [Nat.zero_add, ← Nat.succ_mul] at h1
    obtain ⟨u2, t2, e2, h2⟩ := ih (m + 1) u1 t1 (by omega) h1
    refine ⟨u2, t2, ?_, h2⟩
    rw [unpackBytes, ← e2, BitVec.ofNat_add, ← BitVec.add_assoc]
    rw [Nat.zero_mul] at e1
    exact e1

/-! ### Where a write is a pipeline hazard (70_reset R1220) -/

/-- A run from a state with the pc and status of `s` that stores at `l` in order, and fails at the first hazard alone. -/
structure Gated (s : State) (l : List (Width × Word)) (r : Result) : Prop where
  stop : (∃ e ∈ l, storeHazard s e.1 e.2 = true) → r = .fault .pipelineHazard
  go : (∀ e ∈ l, storeHazard s e.1 e.2 = false) → ∃ u, r = .next u ∧ u.cpsr = s.cpsr ∧ u.pc = s.pc

theorem Gated.next {s u : State} (hc : u.cpsr = s.cpsr) (hp : u.pc = s.pc) : Gated s [] (.next u) :=
  ⟨fun ⟨_, h, _⟩ => absurd h List.not_mem_nil, fun _ => ⟨u, rfl, hc, hp⟩⟩

theorem Gated.of_eq {s : State} {l m : List (Width × Word)} {r : Result} (h : l = m) (g : Gated s l r) : Gated s m r := h ▸ g

theorem Gated.andThen {s : State} {l m : List (Width × Word)} {r : Result} {f : State → Result} (h : Gated s l r)
    (g : ∀ u, u.cpsr = s.cpsr → u.pc = s.pc → Gated s m (f u)) : Gated s (l ++ m) (Sys2Proof.Machine.andThen r f) := by
  by_cases hl : ∃ e ∈ l, storeHazard s e.1 e.2 = true
  · rw [h.stop hl]
    refine ⟨fun _ => rfl, fun hn => ?_⟩
    obtain ⟨e, he, hz⟩ := hl
    rw [hn e (List.mem_append_left _ he)] at hz; cases hz
  · obtain ⟨u, rfl, hc, hp⟩ := h.go fun e he => Bool.eq_false_iff.mpr fun hz => hl ⟨e, he, hz⟩
    refine ⟨fun ⟨e, he, hz⟩ => (g u hc hp).stop ?_, fun hn => (g u hc hp).go fun e he => hn e (List.mem_append_right _ he)⟩
    rcases List.mem_append.mp he with he | he
    · exact absurd ⟨e, he, hz⟩ hl
    · exact ⟨e, he, hz⟩

theorem gated_cpuStore {s t : State} {w : Width} (hw : w ≠ .byte) (hc : t.cpsr = s.cpsr) (hp : t.pc = s.pc) (a v : Word) :
    Gated s [(w, a)] (cpuStore w a v t) := by
  have e := storeHazard_congr hw hc hp a
  refine ⟨fun ⟨x, hx, hz⟩ => ?_, fun h => ?_⟩
  · rw [List.mem_singleton] at hx
    subst hx
    exact cpuStore_hazard (e.trans hz) v
  · have b := cpuSame_busWrite t w a v
    exact ⟨_, cpuStore_eq (e.trans (h (w, a) List.mem_cons_self)) v, b.cpsr.trans hc, b.pc.trans hp⟩

theorem gated_hleWrites {s : State} (l : List (Width × Word × Word)) (hl : ∀ e ∈ l, e.1 ≠ .byte) :
    ∀ t : State, t.cpsr = s.cpsr → t.pc = s.pc → Gated s (l.map fun e => (e.1, e.2.1)) (hleWrites l t) := by
  induction l with
  | nil => exact fun t => Gated.next
  | cons e rest ih =>
    obtain ⟨w, a, v⟩ := e
    intro t hc hp
    exact (gated_cpuStore (hl _ List.mem_cons_self) hc hp a v).andThen (ih fun f hf => hl f (List.mem_cons_of_mem _ hf))

theorem hleReads_same (l : List (Width × Word)) :
    ∀ t : State, (hleReads l t).2.cpsr = t.cpsr ∧ (hleReads l t).2.pc = t.pc := by
  induction l with
  | nil => exact fun _ => ⟨rfl, rfl⟩
  | cons e rest ih => exact fun t => ih t.bump

/-- The addresses of `n` units of `w`. -/
def unitAddrs (w : Width) (dst : Word) (n : Nat) : List (Width × Word) :=
  (List.range n).map fun k => (w, dst + BitVec.ofNat 32 (w.bytes * k))

theorem unitAddrs_succ (w : Width) (dst : Word) (n : Nat) :
    unitAddrs w dst (n + 1) = [(w, dst)] ++ unitAddrs w (dst + BitVec.ofNat 32 w.bytes) n := by
  rw [List.singleton_append, unitAddrs, List.range_succ_eq_map, List.map_cons, List.map_map, Nat.mul_zero, BitVec.add_zero]
  refine congrArg _ (List.map_congr_left fun k _ => ?_)
  rw [Function.comp_apply, Nat.mul_succ, Nat.add_comm, BitVec.ofNat_add, BitVec.add_assoc]

theorem gated_copyUnits {s : State} {w : Width} (hw : w ≠ .byte) (n : Nat) : ∀ (src dst : Word) (t : State),
    t.cpsr = s.cpsr → t.pc = s.pc → Gated s (unitAddrs w dst n) (copyUnits w n src dst t) := by
  induction n with
  | zero => exact fun _ _ t => Gated.next
  | succ n ih =>
    intro src dst t hc hp
    rw [unitAddrs_succ, copyUnits]
    exact (gated_cpuStore (t := t.bump) hw hc hp dst _).andThen (ih _ _)

theorem gated_fillUnits {s : State} {w : Width} (hw : w ≠ .byte) (v : Word) (n : Nat) : ∀ (dst : Word) (t : State),
    t.cpsr = s.cpsr → t.pc = s.pc → Gated s (unitAddrs w dst n) (fillUnits w v n dst t) := by
  induction n with
  | zero => exact fun _ t => Gated.next
  | succ n ih =>
    intro dst t hc hp
    rw [unitAddrs_succ, fillUnits]
    exact (gated_cpuStore hw hc hp dst _).andThen (ih _)

/-- The addresses of one entry of BgAffineSet. -/
def bgAffineAddrs (dst : Word) : List (Width × Word) :=
  [(.half, dst), (.half, dst + 2#32), (.half, dst + 4#32), (.half, dst + 6#32), (.word, dst + 8#32), (.word, dst + 12#32)]

theorem gated_bgAffineEntry {s t : State} (hc : t.cpsr = s.cpsr) (hp : t.pc = s.pc) (src dst : Word) :
    Gated s (bgAffineAddrs dst) (bgAffineEntry src dst t) := by
  have r := fun l => hleReads_same l t
  unfold bgAffineEntry
  dsimp only
  refine .of_eq ?_ (gated_hleWrites _ (fun e he => ?_) _ ((r _).1.trans hc) ((r _).2.trans hp))
  · rfl
  simp only [List.mem_cons, List.not_mem_nil, or_false] at he
  rcases he with rfl | rfl | rfl | rfl | rfl | rfl <;> simp

/-- The addresses of one entry of ObjAffineSet. -/
def objAffineAddrs (stride dst : Word) : List (Width × Word) :=
  [(.half, dst), (.half, dst + stride), (.half, dst + stride + stride), (.half, dst + stride + stride + stride)]

theorem gated_objAffineEntry {s t : State} (hc : t.cpsr = s.cpsr) (hp : t.pc = s.pc) (src dst stride : Word) :
    Gated s (objAffineAddrs stride dst) (objAffineEntry src dst stride t) := by
  have r := fun l => hleReads_same l t
  unfold objAffineEntry
  dsimp only
  refine .of_eq ?_ (gated_hleWrites _ (fun e he => ?_) _ ((r _).1.trans hc) ((r _).2.trans hp))
  · rfl
  simp only [List.mem_cons, List.not_mem_nil, or_false] at he
  rcases he with rfl | rfl | rfl | rfl <;> simp

theorem flatMap_range_succ {α : Type} (f : Nat → List α) (n : Nat) :
    (List.range (n + 1)).flatMap f = f 0 ++ (List.range n).flatMap fun k => f (k + 1) := by
  rw [List.range_succ_eq_map, List.flatMap_cons, List.flatMap_map]

theorem gated_bgAffineEntries {s : State} (n : Nat) : ∀ (src dst : Word) (t : State), t.cpsr = s.cpsr → t.pc = s.pc →
    Gated s ((List.range n).flatMap fun k => bgAffineAddrs (dst + BitVec.ofNat 32 (16 * k)))
      (bgAffineEntries n src dst t) := by
  induction n with
  | zero => exact fun _ _ t => Gated.next
  | succ n ih =>
    intro src dst t hc hp
    have e : (fun k => bgAffineAddrs (dst + BitVec.ofNat 32 (16 * (k + 1)))) =
        fun k => bgAffineAddrs (dst + 16#32 + BitVec.ofNat 32 (16 * k)) := by
      funext k
      rw [Nat.mul_succ, Nat.add_comm, BitVec.ofNat_add, BitVec.add_assoc]
    rw [flatMap_range_succ, e, Nat.mul_zero, BitVec.add_zero]
    exact (gated_bgAffineEntry hc hp src dst).andThen (ih _ _)

theorem gated_objAffineEntries {s : State} (stride : Word) (n : Nat) : ∀ (src dst : Word) (t : State),
    t.cpsr = s.cpsr → t.pc = s.pc →
    Gated s ((List.range n).flatMap fun k => objAffineAddrs stride (dst + BitVec.ofNat 32 (4 * k * stride.toNat)))
      (objAffineEntries stride n src dst t) := by
  induction n with
  | zero => exact fun _ _ t => Gated.next
  | succ n ih =>
    intro src dst t hc hp
    have e : (fun k => objAffineAddrs stride (dst + BitVec.ofNat 32 (4 * (k + 1) * stride.toNat))) =
        fun k => objAffineAddrs stride (dst + stride * 4#32 + BitVec.ofNat 32 (4 * k * stride.toNat)) := by
      funext k
      rw [Nat.mul_succ, Nat.add_mul, Nat.add_comm, BitVec.ofNat_add, BitVec.add_assoc, Nat.mul_comm 4 stride.toNat,
        BitVec.ofNat_mul, BitVec.ofNat_toNat, BitVec.setWidth_eq]
    rw [flatMap_range_succ, e, Nat.mul_zero, Nat.zero_mul, BitVec.add_zero]
    exact (gated_objAffineEntry hc hp src dst stride).andThen (ih _ _)

/-- The unpacker's words from a state of it on, for `n` more units. -/
def unpackAddrs (dw : Nat) (u : Unpack) (n : Nat) : List (Width × Word) := unitAddrs .word u.dst ((u.bits + n * dw) / 32)

/-- A state of the unpacker whose word is not full, its lanes aligned. -/
def Unpack.Partial (dw : Nat) (u : Unpack) : Prop := u.bits < 32 ∧ u.bits % dw = 0

theorem gated_unpackUnit {s t : State} {sw dw : Nat} {bias : Word} {b : Byte} {pos : Nat} {u : Unpack} {m : Nat}
    {k : Unpack → State → Result} (hd : dw ∈ [1, 2, 4, 8, 16, 32]) (hu : u.Partial dw) (hc : t.cpsr = s.cpsr)
    (hp : t.pc = s.pc)
    (hk : ∀ (v : Unpack) (t : State), v.Partial dw → t.cpsr = s.cpsr → t.pc = s.pc → Gated s (unpackAddrs dw v m) (k v t)) :
    Gated s (unpackAddrs dw u (m + 1)) (unpackUnit sw dw bias b pos u t k) := by
  obtain ⟨h1, h2⟩ := hu
  have hf : u.bits + dw ≤ 32 ∧ (u.bits + dw = 32 → (u.bits + (m + 1) * dw) / 32 = (0 + m * dw) / 32 + 1) ∧
      (u.bits + dw) % dw = 0 ∧ 0 % dw = 0 ∧ u.bits + (m + 1) * dw = u.bits + dw + m * dw := by
    simp only [List.mem_cons, List.not_mem_nil, or_false] at hd
    rcases hd with rfl | rfl | rfl | rfl | rfl | rfl <;> omega
  obtain ⟨f1, f2, f3, f4, f5⟩ := hf
  unfold unpackUnit
  dsimp only
  split
  · next hb =>
    rw [unpackAddrs, f2 hb, unitAddrs_succ]
    exact (gated_cpuStore (by decide) hc hp u.dst _).andThen fun t => hk ⟨0#32, 0, u.dst + 4#32⟩ t ⟨Nat.succ_pos 31, f4⟩
  · next hb =>
    rw [unpackAddrs, f5]
    exact hk ⟨_, u.bits + dw, u.dst⟩ t ⟨by dsimp only; omega, f3⟩ hc hp

theorem gated_unpackByte {s : State} {sw dw : Nat} {bias : Word} {b : Byte} {m : Nat} {k : Unpack → State → Result}
    (hd : dw ∈ [1, 2, 4, 8, 16, 32])
    (hk : ∀ (v : Unpack) (t : State), v.Partial dw → t.cpsr = s.cpsr → t.pc = s.pc → Gated s (unpackAddrs dw v m) (k v t))
    (n : Nat) : ∀ (pos : Nat) (u : Unpack) (t : State), u.Partial dw → t.cpsr = s.cpsr → t.pc = s.pc →
      Gated s (unpackAddrs dw u (m + n)) (unpackByte sw dw bias b n pos u t k) := by
  induction n with
  | zero => exact fun _ u t hu => hk u t hu
  | succ n ih => exact fun pos u t hu hc hp => gated_unpackUnit hd hu hc hp fun v t => ih (pos + sw) v t

theorem gated_unpackBytes {s : State} {sw dw : Nat} {bias : Word} (hd : dw ∈ [1, 2, 4, 8, 16, 32]) (n : Nat) :
    ∀ (src : Word) (u : Unpack) (t : State), u.Partial dw → t.cpsr = s.cpsr → t.pc = s.pc →
      Gated s (unpackAddrs dw u (n * (8 / sw))) (unpackBytes sw dw bias n src u t) := by
  induction n with
  | zero =>
    intro src u t hu hc hp
    rw [Nat.zero_mul, unpackAddrs, Nat.zero_mul, Nat.add_zero, Nat.div_eq_of_lt hu.1]
    exact Gated.next hc hp
  | succ n ih =>
    intro src u t hu hc hp
    rw [Nat.succ_mul]
    exact gated_unpackByte hd (fun v t hv c p => ih (src + 1#32) v t hv c p) _ 0 u t.bump hu hc hp

end Sys2Proof.Machine
end

