-- ==== Sys2Proof/Laws/Exec.lean ====
section
/-! SUPPORT. Everything one instruction can do, said once: the work it does on registers, memory and devices, and how it
ends (`exec_ended`). Whole-machine statements follow from this by cases on the end, not on the instruction. -/

namespace Sys2Proof.Machine

/-! ### Work -/

/-- What an instruction may do before its end: write registers of the current or of the user view, use free values, and
write on the bus. -/
inductive Work (s : State) : State → Prop where
  | refl : Work s s
  | reg {u : State} (h : Work s u) {m : Mode} (hm : m = s.cpsr.mode ∨ m = .usr) (i : RegNum) (v : Word) :
      Work s (u.setXIn m i v)
  | bump {u : State} (h : Work s u) : Work s u.bump
  | write {u : State} (h : Work s u) (w : Width) (a v : Word) : Work s (busWrite u w a v)

namespace Work

variable {s u : State}

theorem cpsr (h : Work s u) : u.cpsr = s.cpsr := by
  induction h with
  | refl => rfl
  | reg _ _ _ _ ih => rw [setXIn_eq]; exact ih
  | bump _ ih => exact ih
  | write _ _ _ _ ih => rw [busWrite_cpsr]; exact ih

theorem pc (h : Work s u) : u.pc = s.pc := by
  induction h with
  | refl => rfl
  | reg _ _ _ _ ih => rw [setXIn_eq]; exact ih
  | bump _ ih => exact ih
  | write _ _ _ _ ih => rw [busWrite_pc]; exact ih

theorem core (h : Work s u) : SameCore s u := by
  induction h with
  | refl => exact .refl s
  | reg _ _ _ _ ih => exact ih.trans (registerFrame_setXIn ..).core
  | bump _ ih => exact ih.trans (registerFrame_bump _).core
  | write _ _ _ _ ih => exact ih.trans (cpuSame_busWrite ..).core

theorem memoryInv (h : Work s u) (hs : s.MemoryInv) : u.MemoryInv := by
  induction h with
  | refl => exact hs
  | reg _ _ _ _ ih => rw [setXIn_eq]; exact ⟨ih.mem, ih.io⟩
  | bump _ ih => exact ⟨ih.mem, ih.io⟩
  | write _ _ _ _ ih => exact memoryInv_busWrite ih ..

theorem trans {v : State} (h : Work s u) (g : Work u v) : Work s v := by
  induction g with
  | refl => exact h
  | reg _ hm i x ih => exact .reg ih (by rw [← h.cpsr]; exact hm) i x
  | bump _ ih => exact .bump ih
  | write _ w a x ih => exact .write ih w a x

theorem setX (h : Work s u) (i : RegNum) (v : Word) : Work s (u.setX i v) :=
  .reg h (.inl (by rw [h.cpsr])) i v

theorem ite {c : Prop} [Decidable c] {a b : State} (ha : Work s a) (hb : Work s b) : Work s (if c then a else b) := by
  split <;> assumption

/-- In USR mode the privileged banks stay. -/
theorem privileged (h : Work s u) (hm : s.cpsr.mode = .usr) {r : PReg} (hr : r ∈ privilegedBanks) : u.reg r = s.reg r := by
  induction h with
  | refl => rfl
  | reg _ hv i v ih =>
    refine (State.reg_setXIn_of_notMem _ ?_ v).trans ih
    have key : ∀ i : RegNum, ∀ r ∈ privilegedBanks, r ∉ (Mode.usr.view i).toList := by decide
    rcases hv with rfl | rfl
    · rw [hm]; exact key i r hr
    · exact key i r hr
  | bump _ ih => exact ih
  | write _ _ _ _ ih => rw [busWrite_reg]; exact ih

end Work

/-- A result that, if it goes on, is work on `s`. -/
def Works (s : State) (r : Result) : Prop := ∀ t, r = .next t → Work s t

theorem Works.next {s t : State} (h : Work s t) : Works s (.next t) := fun _ e => by cases e; exact h

theorem Works.fault {s : State} (e : Fault) : Works s (.fault e) := fun _ h => by cases h

theorem Works.andThen {s : State} {r : Result} {f : State → Result} (h : Works s r)
    (g : ∀ u, Work s u → Works s (f u)) : Works s (andThen r f) := fun t e => by
  obtain ⟨u, h1, h2⟩ := andThen_eq_next.mp e
  exact g u (h u h1) t h2

theorem works_cpuStore {s u : State} (h : Work s u) (w : Width) (a v : Word) : Works s (cpuStore w a v u) := fun t e => by
  obtain ⟨-, rfl⟩ := cpuStore_next.mp e
  exact .write h w a v

theorem works_storeWords {s : State} (l : List (Word × Word)) : ∀ u, Work s u → Works s (storeWords l u) := by
  induction l with
  | nil => exact fun u h => .next h
  | cons e rest ih => exact fun u h => .andThen (works_cpuStore h _ _ _) ih

theorem work_loadRegs {s : State} {m : Mode} (hm : m = s.cpsr.mode ∨ m = .usr) (l : List (RegNum × Word)) :
    ∀ p : State × Word, Work s p.1 → Work s (loadRegs m l p).1 := by
  induction l with
  | nil => exact fun p h => h
  | cons e rest ih =>
    intro p h
    simp only [loadRegs]
    split
    · exact ih _ (.bump h)
    · exact ih _ (.reg (.bump h) hm _ _)

/-! ### The emulated BIOS calls -/

theorem work_drawXs {s : State} (l : List RegNum) : ∀ u, Work s u → Work s (drawXs l u) := by
  induction l with
  | nil => exact fun u h => h
  | cons i rest ih => exact fun u h => ih _ (.bump (.setX h i _))

theorem work_hleReads {s : State} (l : List (Width × Word)) : ∀ u, Work s u → Work s (hleReads l u).2 := by
  induction l with
  | nil => exact fun u h => h
  | cons e rest ih => exact fun u h => ih _ (.bump h)

theorem works_hleWrites {s : State} (l : List (Width × Word × Word)) : ∀ u, Work s u → Works s (hleWrites l u) := by
  induction l with
  | nil => exact fun u h => .next h
  | cons e rest ih => exact fun u h => .andThen (works_cpuStore h _ _ _) ih

theorem works_copyUnits {s : State} (w : Width) (n : Nat) :
    ∀ src dst u, Work s u → Works s (copyUnits w n src dst u) := by
  induction n with
  | zero => exact fun _ _ _ h => .next h
  | succ n ih => exact fun src dst u h => .andThen (works_cpuStore (.bump h) _ _ _) (ih _ _)

theorem works_fillUnits {s : State} (w : Width) (v : Word) (n : Nat) :
    ∀ dst u, Work s u → Works s (fillUnits w v n dst u) := by
  induction n with
  | zero => exact fun _ _ h => .next h
  | succ n ih => exact fun dst u h => .andThen (works_cpuStore h _ _ _) (ih _)

theorem works_hleCopy (w : Width) (count : Nat) (fill : Bool) (s : State) : Works s (hleCopy w count fill s) := by
  refine .andThen ?_ fun u h => .next (work_drawXs _ u h)
  split
  · exact works_fillUnits _ _ _ _ _ (.bump .refl)
  · exact works_copyUnits _ _ _ _ _ .refl

theorem works_bgAffineEntries {s : State} (n : Nat) :
    ∀ src dst u, Work s u → Works s (bgAffineEntries n src dst u) := by
  induction n with
  | zero => exact fun _ _ _ h => .next h
  | succ n ih => exact fun src dst u h => .andThen (works_hleWrites _ _ (work_hleReads _ _ h)) (ih _ _)

theorem works_objAffineEntries {s : State} (stride : Word) (n : Nat) :
    ∀ src dst u, Work s u → Works s (objAffineEntries stride n src dst u) := by
  induction n with
  | zero => exact fun _ _ _ h => .next h
  | succ n ih => exact fun src dst u h => .andThen (works_hleWrites _ _ (work_hleReads _ _ h)) (ih _ _)

theorem works_unpackByte {s : State} (sw dw : Nat) (bias : Word) (b : Byte) (k : Unpack → State → Result)
    (hk : ∀ p u, Work s u → Works s (k p u)) (n : Nat) :
    ∀ j p u, Work s u → Works s (unpackByte sw dw bias b n j p u k) := by
  induction n with
  | zero => exact fun _ p u h => hk p u h
  | succ n ih =>
    intro j p u h
    simp only [unpackByte, unpackUnit]
    split
    · exact .andThen (works_cpuStore h _ _ _) fun v hv => ih _ _ v hv
    · exact ih _ _ u h

theorem works_unpackBytes {s : State} (sw dw : Nat) (bias : Word) (n : Nat) :
    ∀ src p u, Work s u → Works s (unpackBytes sw dw bias n src p u) := by
  induction n with
  | zero => exact fun _ _ _ h => .next h
  | succ n ih => exact fun src p u h => works_unpackByte _ _ _ _ _ (ih _) _ _ _ _ (.bump h)

theorem works_hleBitUnPack (s : State) : Works s (hleBitUnPack s) := by
  unfold hleBitUnPack
  dsimp only
  split
  · exact .andThen (works_unpackBytes _ _ _ _ _ _ _ (work_hleReads _ _ .refl)) fun u h => .next (work_drawXs _ u h)
  · exact .fault _

/-- Every emulated function but SoftReset is work. -/
theorem works_hleRun {f : Config.HleFn} (hf : f ≠ .softReset) (s : State) : Works s (hleRun f s) := by
  have scratch : ∀ {r : Result}, Works s r → Works s (andThen r drawAllScratch) :=
    fun h => .andThen h fun u hu => .next (work_drawXs _ u hu)
  cases f
  case softReset => exact absurd rfl hf
  case div => exact .next (work_drawXs _ _ (.setX (.setX (.setX .refl ..) ..) ..))
  case divArm => exact .next (work_drawXs _ _ (.setX (.setX (.setX .refl ..) ..) ..))
  case cpuSet => exact works_hleCopy _ _ _ s
  case cpuFastSet => exact works_hleCopy _ _ _ s
  case bgAffineSet => exact scratch (works_bgAffineEntries _ _ _ _ .refl)
  case objAffineSet => exact scratch (works_objAffineEntries _ _ _ _ _ .refl)
  case bitUnPack => exact works_hleBitUnPack s
  case midiKey2Freq => exact .next (work_drawXs _ _ (.bump (.setX (.bump .refl) ..)))
  all_goals exact .next (work_drawXs _ _ (.setX .refl ..))

/-! ### The end of an instruction -/

/-- Is the instruction a Thumb one? -/
def isThumb (i : Instr) : Bool :=
  match encode i with
  | .arm _ => false
  | .thumb _ => true

/-- Aligned for the instruction set T selects (10_state R120). -/
def alignedFor (thumb : Bool) (p : Word) : Prop := if thumb then p.getLsbD 0 = false else p.extractLsb' 0 2 = 0#2

theorem pcInv_iff {s : State} : s.PcInv ↔ alignedFor s.cpsr.t s.pc := Iff.rfl

theorem alignedFor_alignHalf (v : Word) : alignedFor true (alignHalf v) := by
  simp [alignedFor, alignHalf]

theorem alignedFor_alignWord (v : Word) (t : Bool) : alignedFor t (alignWord v) := by
  unfold alignedFor
  split
  · simp [alignWord]
  · apply BitVec.eq_of_getLsbD_eq
    intro i hi
    simp only [alignWord, BitVec.getLsbD_extractLsb', BitVec.getLsbD_and]
    interval_cases i <;> simp

theorem alignedFor_iff {t : Bool} {p : Word} : alignedFor t p ↔ p.toNat % (if t then 2 else 4) = 0 := by
  cases t
  · simp only [alignedFor, Bool.false_eq_true, if_false]
    rw [← BitVec.toNat_inj]
    simp only [BitVec.extractLsb'_toNat, Nat.shiftRight_zero]
    exact Iff.rfl
  · simp only [alignedFor, if_true]
    rw [← BitVec.testBit_toNat, Nat.testBit_zero, decide_eq_false_iff_not]
    omega

theorem alignedFor_add {t : Bool} {p q : Word} (hp : alignedFor t p) (hq : alignedFor t q) : alignedFor t (p + q) := by
  rw [alignedFor_iff] at *
  rw [BitVec.toNat_add]
  cases t <;> simp only [Bool.false_eq_true, if_false, if_true] at * <;> omega

/-- The next pc is aligned, if pc was and the instruction is one of the current instruction set. -/
def Lands (i : Instr) (s : State) (p : Word) : Prop := s.PcInv → isThumb i = s.cpsr.t → alignedFor s.cpsr.t p

/-- The instruction is a BX. -/
def IsBx (i : Instr) : Prop := (∃ cond rm, i = .armBx cond rm) ∨ ∃ rm sbz, i = .thumbBx rm sbz

/-- The instruction is an MSR to the control field of CPSR. -/
def IsControlMsr (i : Instr) : Prop :=
  (∃ cond mask rm, i = .armMsrReg cond false mask rm ∧ mask.getLsbD 0 = true) ∨
    ∃ cond mask rot imm8, i = .armMsrImm cond false mask rot imm8 ∧ mask.getLsbD 0 = true

/-- The instruction is the SoftReset call. -/
def IsSoftReset (i : Instr) (s : State) : Prop :=
  s.params.swiHandling = .hle ∧
    ((∃ cond comment, i = .armSwi cond comment ∧ armSwiNumber s comment = 0#8) ∨ i = .thumbSwi 0#8)

/-- How an instruction ends. -/
inductive Ended (i : Instr) (s : State) : State → Prop where
  /-- Work, then pc. -/
  | plain {u : State} (h : Work s u) {p : Word} (hp : Lands i s p) : Ended i s (u.setPc p)
  /-- Work, the flags, then pc. -/
  | flags {u : State} (h : Work s u) (hf : mayWriteFlags i = true) (n z c v : Bool) {p : Word} (hp : Lands i s p) :
      Ended i s ((u.setCpsr (s.cpsr.withFlags n z c v)).setPc p)
  /-- A branch with exchange. -/
  | exchange (hi : IsBx i) (v : Word) : Ended i s (branchExchange v s)
  /-- A write of the control field. -/
  | control (hi : IsControlMsr i) (hm : s.cpsr.mode ≠ .usr) {q : Cpsr} (ht : q.t = s.cpsr.t)
      (hf : SameFlags s (s.setCpsr q) ∨ mayWriteFlags i = true) : Ended i s (s.setCpsr q).advance
  /-- A write of the SPSR. -/
  | spsr (hm : s.cpsr.mode.hasSpsr = true) (p : Spsr) : Ended i s (s.setSpsrOf s.cpsr.mode p).advance
  /-- An exception. -/
  | enters {m : Mode} (hm : m = .und ∨ m = .svc) {vector : Word} (hv : alignedFor false vector) (link : Word) :
      Ended i s (enterException m vector link false s)
  /-- A return from an exception. -/
  | restores {u : State} (h : Work s u) (hf : mayWriteFlags i = true) {p : Spsr} {c : Cpsr}
      (hp : s.spsrOf s.cpsr.mode = some p) (hc : p.restored = some c) (target : Word) :
      Ended i s ((u.setCpsr c).setPc (if c.t then alignHalf target else alignWord target))
  /-- SoftReset. -/
  | softReset (hi : IsSoftReset i s) : Ended i s (hleSoftReset s)

/-- A result that, if it goes on, has ended so. -/
def Ends (i : Instr) (s : State) (r : Result) : Prop := ∀ t, r = .next t → Ended i s t

variable {i : Instr} {s : State}

theorem Ends.next {t : State} (h : Ended i s t) : Ends i s (.next t) := fun _ e => by cases e; exact h

theorem Ends.fault (e : Fault) : Ends i s (.fault e) := fun _ h => by cases h

theorem Ends.andThen {r : Result} {f : State → Result} (h : Works s r) (g : ∀ u, Work s u → Ends i s (f u)) :
    Ends i s (andThen r f) := fun t e => by
  obtain ⟨u, h1, h2⟩ := andThen_eq_next.mp e
  exact g u (h u h1) t h2

theorem Ends.unless {bad : Bool} {r : Result} (h : Ends i s r) : Ends i s (unlessUnpredictable bad r) :=
  fun t e => h t (unlessUnpredictable_eq_next.mp e).2

theorem lands_advance (i : Instr) (s : State) : Lands i s (s.pc + s.isize) := fun hs _ => by
  refine alignedFor_add (pcInv_iff.mp hs) ?_
  unfold State.isize alignedFor
  cases s.cpsr.t <;> decide

theorem lands_alignWord (i : Instr) (s : State) (v : Word) : Lands i s (alignWord v) := fun _ _ => alignedFor_alignWord ..

theorem lands_alignHalf (h : isThumb i = true) (v : Word) : Lands i s (alignHalf v) := fun _ e => by
  rw [← e, h]; exact alignedFor_alignHalf v

theorem ended_advance {u : State} (h : Work s u) : Ended i s u.advance := by
  have e : u.pc + u.isize = s.pc + s.isize := by rw [h.pc, State.isize, h.cpsr, State.isize]
  unfold State.advance
  rw [e]
  exact .plain h (lands_advance i s)

theorem ended_advance_flags {u : State} (h : Work s u) (hf : mayWriteFlags i = true) (n z c v : Bool) :
    Ended i s (u.setCpsr (s.cpsr.withFlags n z c v)).advance := by
  have e : (u.setCpsr (s.cpsr.withFlags n z c v)).pc + (u.setCpsr (s.cpsr.withFlags n z c v)).isize = s.pc + s.isize := by
    rw [State.setCpsr_pc, h.pc]; rfl
  unfold State.advance
  rw [e]
  exact .flags h hf n z c v (lands_advance i s)

theorem ends_nextInstr : Ends i s (nextInstr s) := .next (ended_advance .refl)

theorem ends_conditional {cond : Cond} {f : State → Result} (h : Ends i s (f s)) : Ends i s (conditional cond s f) := by
  unfold conditional
  split
  · exact h
  · exact ends_nextInstr

theorem ends_undefined : Ends i s (undefinedInstr s) := by
  unfold undefinedInstr
  split
  · exact .next (.enters (.inl rfl) (alignedFor_iff.mpr rfl) _)
  · exact ends_nextInstr

theorem ends_exceptionReturn {u : State} (h : Work s u) (hf : mayWriteFlags i = true) (target : Word) :
    Ends i s (exceptionReturn target u) := fun t e => by
  obtain ⟨p, c, h1, h2, rfl⟩ := exceptionReturn_next e
  refine .restores h hf ?_ h2 target
  rw [← h1, h.cpsr]
  have g := h.core
  cases s.cpsr.mode <;> simp [State.spsrOf, g.spsrFiq, g.spsrIrq, g.spsrSvc, g.spsrAbt, g.spsrUnd]

/-! ### The families -/

theorem ends_dataProcessing {op : DpOp} {sb : Bool} {rn rd : RegNum} {op2 : Operand2}
    (hf : sb = true → mayWriteFlags i = true) : Ends i s (dataProcessing op sb rn rd op2 s) := by
  refine .unless ?_
  dsimp only
  split
  · split
    · next h => exact ends_exceptionReturn .refl (hf h) _
    · exact .next (.plain .refl (lands_alignWord i s _))
  · refine .next ?_
    split
    · next h => exact ended_advance_flags (.setX .refl ..) (hf h) ..
    · exact ended_advance (.setX .refl ..)

theorem ends_comparison {op : DpOp} {rn : RegNum} {op2 : Operand2} (hf : mayWriteFlags i = true) :
    Ends i s (comparison op rn op2 s) :=
  .unless (.next (ended_advance_flags .refl hf ..))

theorem ended_advance_bump_flags {u : State} (h : Work s u) (hf : mayWriteFlags i = true) (n z c v : Bool) :
    Ended i s (u.setCpsr (s.cpsr.withFlags n z c v)).bump.advance :=
  ended_advance_flags (.bump h) hf n z c v

theorem ends_writeMul {bad sb : Bool} {rd : RegNum} {r : Word} (hf : sb = true → mayWriteFlags i = true) :
    Ends i s (unlessUnpredictable bad (.next (writeMul sb rd r s))) := by
  refine .unless (.next ?_)
  unfold writeMul
  dsimp only
  split
  · next h => exact ended_advance_bump_flags (.setX .refl ..) (hf h) ..
  · exact ended_advance (.setX .refl ..)

theorem ends_mulLong {sb : Bool} {hi lo rs rm : RegNum} {r : BitVec 64} (hf : sb = true → mayWriteFlags i = true) :
    Ends i s (mulLong sb hi lo rs rm r s) := by
  refine .unless (.next ?_)
  unfold writeMulLong
  dsimp only
  split
  · next h => exact ended_advance_bump_flags (.setX (.setX .refl ..) ..) (hf h) ..
  · exact ended_advance (.setX (.setX .refl ..) ..)

theorem work_writeBase {u : State} (h : Work s u) (p w : Bool) (rn : RegNum) (a : Word) : Work s (writeBase p w rn a u) :=
  .ite (.setX h ..) h

theorem ends_loadTransfer {load : State → Word → Word} {p u w : Bool} {rn rd : RegNum} {o : Word} :
    Ends i s (loadTransfer load p u w rn rd o s) := by
  refine .next ?_
  split
  · exact .plain (work_writeBase (.bump .refl) ..) (lands_alignWord i s _)
  · exact ended_advance (.setX (work_writeBase (.bump .refl) ..) ..)

theorem ends_storeTransfer {width : Width} {align : Word → Word} {v : Word} {p u w : Bool} {rn : RegNum} {o : Word} :
    Ends i s (storeTransfer width align v p u w rn o s) :=
  .andThen (works_cpuStore .refl _ _ _) fun _ h => .next (ended_advance (work_writeBase h ..))

theorem ends_swapForm {width : Width} {load : State → Word → Word} {align : Word → Word} {rn rd rm : RegNum} :
    Ends i s (swapForm width load align rn rd rm s) :=
  .unless (.andThen (works_cpuStore (.bump .refl) _ _ _) fun _ h => .next (ended_advance (.setX h ..)))

theorem ends_loadMultiple {p u sb w : Bool} {rn : RegNum} {list : BitVec 16}
    (hf : sb = true → list.getLsbD 15 = true → mayWriteFlags i = true) :
    Ends i s (loadMultiple p u sb w rn list s) := by
  refine .unless ?_
  dsimp only
  have hm : ∀ b : Bool, (if b = true then Mode.usr else s.cpsr.mode) = s.cpsr.mode ∨
      (if b = true then Mode.usr else s.cpsr.mode) = .usr := by
    intro b; cases b
    · exact .inl rfl
    · exact .inr rfl
  have hw : ∀ b l, Work s (loadRegs (if b = true then Mode.usr else s.cpsr.mode) l (s, 0#32)).1 :=
    fun b l => work_loadRegs (hm b) l _ .refl
  split
  · next h15 =>
    split
    · next hs => exact ends_exceptionReturn (.ite (.setX (hw _ _) ..) (hw _ _)) (hf hs h15) _
    · exact .next (.plain (.ite (.setX (hw _ _) ..) (hw _ _)) (lands_alignWord i s _))
  · exact .next (ended_advance (.ite (.setX (hw _ _) ..) (hw _ _)))

theorem ends_storeMultiple {p u sb w : Bool} {rn : RegNum} {list : BitVec 16} :
    Ends i s (storeMultiple p u sb w rn list s) :=
  .unless (.andThen (works_storeWords _ _ .refl) fun _ h => .next (ended_advance (.ite (.setX h ..) h)))

theorem ends_mrs {r : Bool} {rd : RegNum} : Ends i s (mrs r rd s) := by
  refine .unless ?_
  split
  · exact .fault _
  · exact .next (ended_advance (.setX .refl ..))

theorem ends_msr {r : Bool} {mask : BitVec 4} {v : Word} (hc : r = false → mask.getLsbD 0 = true → IsControlMsr i)
    (hf : r = false → mask.getLsbD 3 = true → mayWriteFlags i = true) : Ends i s (msr r mask v s) := by
  unfold msr
  split
  · unfold msrToSpsr
    split
    · exact .fault _
    · next p hp => exact .next (.spsr (by rw [← s.spsrOf_isSome, hp]; rfl) _)
  · next hr =>
    have hr' : r = false := by simpa using hr
    unfold msrToCpsr
    have h3 : (msrMask s.cpsr.mode mask).getLsbD 3 = mask.getLsbD 3 := by
      unfold msrMask
      split
      · rfl
      · rw [BitVec.getLsbD_and]; simp
    dsimp only
    split
    · next h0 =>
      have hm : s.cpsr.mode ≠ .usr := by
        intro e
        rw [msrMask, e, if_neg (by decide), BitVec.getLsbD_and] at h0
        simp at h0
      have h0' : mask.getLsbD 0 = true := by
        rw [msrMask, if_pos (by simpa [Mode.privileged] using hm)] at h0
        exact h0
      split
      · exact .fault _
      · refine .unless (.next (.control (hc hr' h0') hm ?_ ?_))
        · simp only [msrCpsr, h0, if_true]
          split <;> rfl
        · cases hb : mask.getLsbD 3
          · refine .inl ?_
            simp only [msrCpsr, h0, h3, hb, if_true, Bool.false_eq_true, if_false]
            exact ⟨rfl, rfl, rfl, rfl⟩
          · exact .inr (hf hr' hb)
    · next h0 =>
      refine .next ?_
      simp only [msrCpsr, h0, h3, Bool.false_eq_true, if_false]
      cases hb : mask.getLsbD 3
      · exact ended_advance (u := s.setCpsr s.cpsr) .refl
      · exact ended_advance_flags .refl (hf hr' hb) ..

theorem hleFunction_softReset {n : Byte} (h : hleFunction n = some .softReset) : n = 0#8 := by
  revert n; decide

theorem hleSelect_eq {n : Byte} {f : Config.HleFn} (h : hleSelect s n = some f) :
    hleFunction n = some f ∧ f ∈ s.params.hleSwiSet := by
  unfold hleSelect at h
  split at h
  · split at h
    · next hm => cases h; exact ⟨‹_›, hm⟩
    · cases h
  · cases h

theorem ends_softwareInterrupt {n : Byte} (hi : s.params.swiHandling = .hle → n = 0#8 → IsSoftReset i s) :
    Ends i s (softwareInterrupt n s) := by
  unfold softwareInterrupt
  split
  · exact .next (.enters (.inr rfl) (alignedFor_iff.mpr rfl) _)
  · next hle =>
    split
    · next f hsel =>
      unfold hleCall
      by_cases hf : f = .softReset
      · subst hf
        have e : andThen (hleRun .softReset s) (fun t => .next (if Config.HleFn.softReset = .softReset then t else t.advance)) =
            .next (hleSoftReset s) := by
          simp only [hleRun, andThen_next, if_true]
        rw [e]
        exact .next (.softReset (hi hle (hleFunction_softReset (hleSelect_eq hsel).1)))
      · refine .andThen (works_hleRun hf s) fun u h => .next ?_
        rw [if_neg hf]
        exact ended_advance h
    · exact ends_undefined

theorem ends_thumbLoad {load : State → Word → Word} {rd : LowReg} {a : Word} : Ends i s (thumbLoad load rd a s) :=
  .next (ended_advance (.setX (.bump .refl) ..))

theorem ends_thumbStore {width : Width} {rd : LowReg} {a : Word} : Ends i s (thumbStore width rd a s) :=
  .andThen (works_cpuStore .refl _ _ _) fun _ h => .next (ended_advance h)

theorem ends_thumbArith {rd : LowReg} {r : Sum} (hf : mayWriteFlags i = true) : Ends i s (thumbArith rd r s) :=
  .next (ended_advance_flags (.setX .refl ..) hf ..)

theorem ends_thumbCompare {r : Sum} (hf : mayWriteFlags i = true) : Ends i s (thumbCompare r s) :=
  .next (ended_advance_flags .refl hf ..)

theorem ends_thumbLogical {rd : LowReg} {r : Word} (hf : mayWriteFlags i = true) : Ends i s (thumbLogical rd r s) :=
  .next (ended_advance_flags (.setX .refl ..) hf ..)

theorem ends_thumbShift {rd : LowReg} {r : Shifted} (hf : mayWriteFlags i = true) : Ends i s (thumbShift rd r s) :=
  .next (ended_advance_flags (.setX .refl ..) hf ..)

theorem lands_offset {k d : Word} (hk : alignedFor (isThumb i) k) (hd : alignedFor (isThumb i) d) :
    Lands i s (s.pc + k + d) := fun hs e => by
  rw [e] at hk hd
  exact alignedFor_add (alignedFor_add (pcInv_iff.mp hs) hk) hd

theorem alignedFor_branchOffset (o : BitVec 24) : alignedFor false (branchOffset o) := by
  apply BitVec.eq_of_getLsbD_eq
  intro i hi
  simp only [branchOffset, BitVec.getLsbD_extractLsb', BitVec.getLsbD_signExtend, BitVec.getLsbD_append]
  interval_cases i <;> simp

theorem alignedFor_signExtend_append {n : Nat} (o : BitVec n) : alignedFor true ((o ++ 0#1).signExtend 32) := by
  unfold alignedFor
  rw [if_pos rfl, BitVec.getLsbD_signExtend]
  rw [BitVec.getLsbD_append]
  rfl

theorem ends_msrReg {cond : Cond} {r : Bool} {mask : BitVec 4} {rm : RegNum} :
    Ends (.armMsrReg cond r mask rm) s (unlessUnpredictable (rm == 15#4) (msr r mask (s.x rm) s)) := by
  refine .unless (ends_msr ?_ ?_)
  · rintro rfl h; exact .inl ⟨_, _, _, rfl, h⟩
  · rintro rfl h; exact h

theorem ends_msrImm {cond : Cond} {r : Bool} {mask rot : BitVec 4} {imm8 : BitVec 8} :
    Ends (.armMsrImm cond r mask rot imm8) s (msr r mask (rotatedImm rot imm8) s) := by
  refine ends_msr ?_ ?_
  · rintro rfl h; exact .inr ⟨_, _, _, _, rfl, h⟩
  · rintro rfl h; exact h

theorem ends_toRegister {rd : RegNum} {r : Word} (h : isThumb i = true) :
    Ends i s (.next (if rd = 15#4 then s.setPc (alignHalf r) else (s.setX rd r).advance)) := by
  refine .next ?_
  split
  · exact .plain .refl (lands_alignHalf h _)
  · exact ended_advance (.setX .refl ..)

theorem work_loadCurrent (l : List (RegNum × Word)) (v : Word) : Work s (loadRegs s.cpsr.mode l (s, v)).1 :=
  work_loadRegs (.inl rfl) l (s, v) .refl

theorem ends_pop {r : Bool} {list : BitVec 8} : Ends (.thumbPop r list) s (execThumbPop r list s) := by
  unfold execThumbPop
  dsimp only
  refine .unless (.next ?_)
  split
  · exact .plain (.setX (work_loadCurrent ..) ..) (lands_alignHalf (by rfl) _)
  · exact ended_advance (.setX (work_loadCurrent ..) ..)

theorem alignedFor_four : alignedFor true 4#32 := alignedFor_iff.mpr rfl

theorem ends_bCond {cond : Cond} {o : BitVec 8} : Ends (.thumbBCond cond o) s (execThumbBCond cond o s) := by
  unfold execThumbBCond
  split
  · exact .next (.plain .refl (lands_offset (i := .thumbBCond cond o) alignedFor_four (alignedFor_signExtend_append _)))
  · exact ends_nextInstr

theorem ended_armBranch {u : State} (h : Work s u) (hi : isThumb i = false) (o : BitVec 24) :
    Ended i s (u.setPc (s.pc + 8#32 + branchOffset o)) := by
  refine .plain h (lands_offset ?_ ?_) <;> rw [hi]
  · exact alignedFor_iff.mpr rfl
  · exact alignedFor_branchOffset o

/-- Everything an instruction can do. -/
theorem exec_ended (i : Instr) (s t : State) (h : exec i s = .next t) : Ended i s t := by
  revert h; revert t
  show Ends i s (exec i s)
  cases i with
  | armBx => simp only [exec, execArmBx]; refine ends_conditional ?_; exact .next (.exchange (.inl ⟨_, _, rfl⟩) _)
  | armMul => simp only [exec, execArmMul]; refine ends_conditional ?_; exact ends_writeMul id
  | armMla => simp only [exec, execArmMla]; refine ends_conditional ?_; exact ends_writeMul id
  | armUmull => simp only [exec, execArmUmull]; refine ends_conditional ?_; exact ends_mulLong id
  | armUmlal => simp only [exec, execArmUmlal]; refine ends_conditional ?_; exact ends_mulLong id
  | armSmull => simp only [exec, execArmSmull]; refine ends_conditional ?_; exact ends_mulLong id
  | armSmlal => simp only [exec, execArmSmlal]; refine ends_conditional ?_; exact ends_mulLong id
  | armUmaal => simp only [exec, execArmUmaal]; refine ends_conditional ?_; exact ends_nextInstr
  | armSwp => simp only [exec, execArmSwp]; refine ends_conditional ?_; exact ends_swapForm
  | armSwpb => simp only [exec, execArmSwpb]; refine ends_conditional ?_; exact ends_swapForm
  | armUnpredSwap => simp only [exec, execArmUnpredSwap]; refine ends_conditional ?_; exact .fault _
  | armUndefMultiply => simp only [exec, execArmUndefMultiply]; refine ends_conditional ?_; exact ends_undefined
  | armUnpredDoubleword => simp only [exec, execArmUnpredDoubleword]; refine ends_conditional ?_; exact .fault _
  | armStrhImm => simp only [exec, execArmStrhImm]; refine ends_conditional ?_; exact .unless ends_storeTransfer
  | armStrhReg => simp only [exec, execArmStrhReg]; refine ends_conditional ?_; exact .unless ends_storeTransfer
  | armLdrhImm => simp only [exec, execArmLdrhImm]; refine ends_conditional ?_; exact .unless ends_loadTransfer
  | armLdrhReg => simp only [exec, execArmLdrhReg]; refine ends_conditional ?_; exact .unless ends_loadTransfer
  | armLdrsbImm => simp only [exec, execArmLdrsbImm]; refine ends_conditional ?_; exact .unless ends_loadTransfer
  | armLdrsbReg => simp only [exec, execArmLdrsbReg]; refine ends_conditional ?_; exact .unless ends_loadTransfer
  | armLdrshImm => simp only [exec, execArmLdrshImm]; refine ends_conditional ?_; exact .unless ends_loadTransfer
  | armLdrshReg => simp only [exec, execArmLdrshReg]; refine ends_conditional ?_; exact .unless ends_loadTransfer
  | armUnpredHalfwordReg => simp only [exec, execArmUnpredHalfwordReg]; refine ends_conditional ?_; exact .fault _
  | armMrs => simp only [exec, execArmMrs]; refine ends_conditional ?_; exact ends_mrs
  | armMsrReg => simp only [exec, execArmMsrReg]; refine ends_conditional ?_; exact ends_msrReg
  | armUnpredMrs => simp only [exec, execArmUnpredMrs]; refine ends_conditional ?_; exact .fault _
  | armUnpredMsrReg => simp only [exec, execArmUnpredMsrReg]; refine ends_conditional ?_; exact .fault _
  | armUndefCompareReg => simp only [exec, execArmUndefCompareReg]; refine ends_conditional ?_; exact ends_undefined
  | armMsrImm => simp only [exec, execArmMsrImm]; refine ends_conditional ?_; exact ends_msrImm
  | armUnpredMsrImm => simp only [exec, execArmUnpredMsrImm]; refine ends_conditional ?_; exact .fault _
  | armUndefCompareImm => simp only [exec, execArmUndefCompareImm]; refine ends_conditional ?_; exact ends_undefined
  | armAnd => simp only [exec, execArmAnd]; refine ends_conditional ?_; exact ends_dataProcessing id
  | armEor => simp only [exec, execArmEor]; refine ends_conditional ?_; exact ends_dataProcessing id
  | armSub => simp only [exec, execArmSub]; refine ends_conditional ?_; exact ends_dataProcessing id
  | armRsb => simp only [exec, execArmRsb]; refine ends_conditional ?_; exact ends_dataProcessing id
  | armAdd => simp only [exec, execArmAdd]; refine ends_conditional ?_; exact ends_dataProcessing id
  | armAdc => simp only [exec, execArmAdc]; refine ends_conditional ?_; exact ends_dataProcessing id
  | armSbc => simp only [exec, execArmSbc]; refine ends_conditional ?_; exact ends_dataProcessing id
  | armRsc => simp only [exec, execArmRsc]; refine ends_conditional ?_; exact ends_dataProcessing id
  | armTst => simp only [exec, execArmTst]; refine ends_conditional ?_; exact ends_comparison rfl
  | armTeq => simp only [exec, execArmTeq]; refine ends_conditional ?_; exact ends_comparison rfl
  | armCmp => simp only [exec, execArmCmp]; refine ends_conditional ?_; exact ends_comparison rfl
  | armCmn => simp only [exec, execArmCmn]; refine ends_conditional ?_; exact ends_comparison rfl
  | armOrr => simp only [exec, execArmOrr]; refine ends_conditional ?_; exact ends_dataProcessing id
  | armMov => simp only [exec, execArmMov]; refine ends_conditional ?_; exact ends_dataProcessing id
  | armBic => simp only [exec, execArmBic]; refine ends_conditional ?_; exact ends_dataProcessing id
  | armMvn => simp only [exec, execArmMvn]; refine ends_conditional ?_; exact ends_dataProcessing id
  | armUndefA14 => simp only [exec, execArmUndefA14]; refine ends_conditional ?_; exact ends_undefined
  | armLdrt => simp only [exec, execArmLdrt]; refine ends_conditional ?_; exact .unless ends_loadTransfer
  | armStrt => simp only [exec, execArmStrt]; refine ends_conditional ?_; exact .unless ends_storeTransfer
  | armLdrbt => simp only [exec, execArmLdrbt]; refine ends_conditional ?_; exact .unless ends_loadTransfer
  | armStrbt => simp only [exec, execArmStrbt]; refine ends_conditional ?_; exact .unless ends_storeTransfer
  | armLdr => simp only [exec, execArmLdr]; refine ends_conditional ?_; exact .unless ends_loadTransfer
  | armStr => simp only [exec, execArmStr]; refine ends_conditional ?_; exact .unless ends_storeTransfer
  | armLdrb => simp only [exec, execArmLdrb]; refine ends_conditional ?_; exact .unless ends_loadTransfer
  | armStrb => simp only [exec, execArmStrb]; refine ends_conditional ?_; exact .unless ends_storeTransfer
  | armLdm => simp only [exec, execArmLdm]; refine ends_conditional ?_; exact ends_loadMultiple fun h1 h2 => Bool.and_eq_true_iff.mpr ⟨h1, h2⟩
  | armStm => simp only [exec, execArmStm]; refine ends_conditional ?_; exact ends_storeMultiple
  | armB => simp only [exec, execArmB]; refine ends_conditional ?_; exact .next (ended_armBranch .refl (by rfl) _)
  | armBl => simp only [exec, execArmBl]; refine ends_conditional ?_; exact .next (ended_armBranch (.setX .refl ..) (by rfl) _)
  | armLdcStc => simp only [exec, execArmLdcStc]; refine ends_conditional ?_; exact ends_undefined
  | armCdp => simp only [exec, execArmCdp]; refine ends_conditional ?_; exact ends_undefined
  | armMcr => simp only [exec, execArmMcr]; refine ends_conditional ?_; exact ends_undefined
  | armMrc => simp only [exec, execArmMrc]; refine ends_conditional ?_; exact ends_undefined
  | armSwi => simp only [exec, execArmSwi]; refine ends_conditional ?_; exact ends_softwareInterrupt fun h1 h2 => ⟨h1, .inl ⟨_, _, rfl, h2⟩⟩
  | thumbAddReg => simp only [exec, execThumbAddReg]; exact ends_thumbArith rfl
  | thumbSubReg => simp only [exec, execThumbSubReg]; exact ends_thumbArith rfl
  | thumbAddImm3 => simp only [exec, execThumbAddImm3]; exact ends_thumbArith rfl
  | thumbSubImm3 => simp only [exec, execThumbSubImm3]; exact ends_thumbArith rfl
  | thumbLslImm => simp only [exec, execThumbLslImm]; exact ends_thumbShift rfl
  | thumbLsrImm => simp only [exec, execThumbLsrImm]; exact ends_thumbShift rfl
  | thumbAsrImm => simp only [exec, execThumbAsrImm]; exact ends_thumbShift rfl
  | thumbMovImm8 => simp only [exec, execThumbMovImm8]; exact ends_thumbLogical rfl
  | thumbCmpImm8 => simp only [exec, execThumbCmpImm8]; exact ends_thumbCompare rfl
  | thumbAddImm8 => simp only [exec, execThumbAddImm8]; exact ends_thumbArith rfl
  | thumbSubImm8 => simp only [exec, execThumbSubImm8]; exact ends_thumbArith rfl
  | thumbAnd => simp only [exec, execThumbAnd]; exact ends_thumbLogical rfl
  | thumbEor => simp only [exec, execThumbEor]; exact ends_thumbLogical rfl
  | thumbLsl => simp only [exec, execThumbLsl]; exact ends_thumbShift rfl
  | thumbLsr => simp only [exec, execThumbLsr]; exact ends_thumbShift rfl
  | thumbAsr => simp only [exec, execThumbAsr]; exact ends_thumbShift rfl
  | thumbAdc => simp only [exec, execThumbAdc]; exact ends_thumbArith rfl
  | thumbSbc => simp only [exec, execThumbSbc]; exact ends_thumbArith rfl
  | thumbRor => simp only [exec, execThumbRor]; exact ends_thumbShift rfl
  | thumbTst => simp only [exec, execThumbTst]; exact .next (ended_advance_flags .refl rfl ..)
  | thumbNeg => simp only [exec, execThumbNeg]; exact ends_thumbArith rfl
  | thumbCmp => simp only [exec, execThumbCmp]; exact ends_thumbCompare rfl
  | thumbCmn => simp only [exec, execThumbCmn]; exact ends_thumbCompare rfl
  | thumbOrr => simp only [exec, execThumbOrr]; exact ends_thumbLogical rfl
  | thumbMul => simp only [exec, execThumbMul]; exact .unless (.next (ended_advance_bump_flags (.setX .refl ..) rfl ..))
  | thumbBic => simp only [exec, execThumbBic]; exact ends_thumbLogical rfl
  | thumbMvn => simp only [exec, execThumbMvn]; exact ends_thumbLogical rfl
  | thumbUndefBlxReg => simp only [exec, execThumbUndefBlxReg]; exact ends_undefined
  | thumbBx => simp only [exec, execThumbBx]; exact .next (.exchange (.inr ⟨_, _, rfl⟩) _)
  | thumbAddHi => simp only [exec, execThumbAddHi]; exact ends_toRegister rfl
  | thumbCmpHi => simp only [exec, execThumbCmpHi]; exact ends_thumbCompare rfl
  | thumbMovHi => simp only [exec, execThumbMovHi]; exact ends_toRegister rfl
  | thumbLdrPc => simp only [exec, execThumbLdrPc]; exact ends_thumbLoad
  | thumbStrReg => simp only [exec, execThumbStrReg]; exact ends_thumbStore
  | thumbStrbReg => simp only [exec, execThumbStrbReg]; exact ends_thumbStore
  | thumbLdrReg => simp only [exec, execThumbLdrReg]; exact ends_thumbLoad
  | thumbLdrbReg => simp only [exec, execThumbLdrbReg]; exact ends_thumbLoad
  | thumbStrhReg => simp only [exec, execThumbStrhReg]; exact ends_thumbStore
  | thumbLdrhReg => simp only [exec, execThumbLdrhReg]; exact ends_thumbLoad
  | thumbLdsb => simp only [exec, execThumbLdsb]; exact ends_thumbLoad
  | thumbLdsh => simp only [exec, execThumbLdsh]; exact ends_thumbLoad
  | thumbStrImm => simp only [exec, execThumbStrImm]; exact ends_thumbStore
  | thumbLdrImm => simp only [exec, execThumbLdrImm]; exact ends_thumbLoad
  | thumbStrbImm => simp only [exec, execThumbStrbImm]; exact ends_thumbStore
  | thumbLdrbImm => simp only [exec, execThumbLdrbImm]; exact ends_thumbLoad
  | thumbStrhImm => simp only [exec, execThumbStrhImm]; exact ends_thumbStore
  | thumbLdrhImm => simp only [exec, execThumbLdrhImm]; exact ends_thumbLoad
  | thumbStrSp => simp only [exec, execThumbStrSp]; exact ends_thumbStore
  | thumbLdrSp => simp only [exec, execThumbLdrSp]; exact ends_thumbLoad
  | thumbAddPc => simp only [exec, execThumbAddPc]; exact .next (ended_advance (.setX .refl ..))
  | thumbAddSp => simp only [exec, execThumbAddSp]; exact .next (ended_advance (.setX .refl ..))
  | thumbAdjustSp => simp only [exec, execThumbAdjustSp]; exact .next (ended_advance (.setX .refl ..))
  | thumbPush => simp only [exec, execThumbPush]; exact .unless (.andThen (works_storeWords _ _ .refl) fun _ h => .next (ended_advance (.setX h ..)))
  | thumbPop => simp only [exec]; exact ends_pop
  | thumbUndef1011 => simp only [exec, execThumbUndef1011]; exact ends_undefined
  | thumbStmia => simp only [exec, execThumbStmia]; exact .unless (.andThen (works_storeWords _ _ .refl) fun _ h => .next (ended_advance (.setX h ..)))
  | thumbLdmia => simp only [exec, execThumbLdmia]; exact .unless (.next (ended_advance (.ite (work_loadCurrent ..) (.setX (work_loadCurrent ..) ..))))
  | thumbSwi => simp only [exec, execThumbSwi]; exact ends_softwareInterrupt fun h1 h2 => ⟨h1, .inr (by rw [h2])⟩
  | thumbUndefCond14 => simp only [exec, execThumbUndefCond14]; exact ends_undefined
  | thumbBCond => simp only [exec]; exact ends_bCond
  | thumbB => simp only [exec, execThumbB]; exact .next (.plain .refl (lands_offset (i := .thumbB _) alignedFor_four (alignedFor_signExtend_append _)))
  | thumbUndefBlxSuffix => simp only [exec, execThumbUndefBlxSuffix]; exact ends_undefined
  | thumbBlFirst => simp only [exec, execThumbBlFirst]; exact .next (ended_advance (.setX .refl ..))
  | thumbBlSecond => simp only [exec, execThumbBlSecond]; exact .next (.plain (.setX .refl ..) (lands_alignHalf rfl _))

end Sys2Proof.Machine
end

