-- ==== Sys2Proof/Laws/Devices.lean ====
section
/-! SUPPORT. The devices: what a tick leaves alone, and that writes, transfers and ticks keep the device ranges and the
canonical form of memory. -/

namespace Sys2Proof.Machine

/-! ### The device ranges -/

theorem bits_and_mask {n lo len : Nat} {x m : BitVec n} (h : m.extractLsb' lo len = 0#len) :
    (x &&& m).extractLsb' lo len = 0#len := by
  apply BitVec.eq_of_getLsbD_eq
  intro i hi
  have := congrArg (·.getLsbD i) h
  simp only [BitVec.getLsbD_extractLsb', BitVec.getLsbD_and, BitVec.getLsbD_zero] at this ⊢
  simp only [hi, decide_true, Bool.true_and] at this ⊢
  rw [this, Bool.and_false]

theorem bits_or {n lo len : Nat} {x y : BitVec n} (hx : x.extractLsb' lo len = 0#len) (hy : y.extractLsb' lo len = 0#len) :
    (x ||| y).extractLsb' lo len = 0#len := by
  apply BitVec.eq_of_getLsbD_eq
  intro i hi
  have h1 := congrArg (·.getLsbD i) hx
  have h2 := congrArg (·.getLsbD i) hy
  simp only [BitVec.getLsbD_extractLsb', BitVec.getLsbD_or, BitVec.getLsbD_zero, hi, decide_true, Bool.true_and] at h1 h2 ⊢
  rw [h1, h2]; rfl

theorem bits_and_left {n lo len : Nat} {x y : BitVec n} (hx : x.extractLsb' lo len = 0#len) :
    (x &&& y).extractLsb' lo len = 0#len := by
  rw [BitVec.and_comm]; exact bits_and_mask hx

namespace State

variable {s : State}

theorem DeviceInv.congr {t : State} (h : s.DeviceInv) (hp : t.ppu = s.ppu) (ha : t.fifoA = s.fifoA)
    (hb : t.fifoB = s.fifoB) (hi : t.irq = s.irq) (hw : t.waitcnt = s.waitcnt) (hk : t.keys = s.keys)
    (hd : t.dma = s.dma) : t.DeviceInv := by
  constructor <;> simp only [hp, ha, hb, hi, hw, hk, hd]
  · exact h.vcount
  · exact h.hcycle
  · exact h.fifoA
  · exact h.fifoB
  · exact h.dispcnt
  · exact h.ie
  · exact h.iff
  · exact h.waitcnt
  · exact h.keyinput
  · exact h.dmaControl

theorem DeviceInv.setPpu (h : s.DeviceInv) {p : Ppu} (hd : p.dispcnt.getLsbD 3 = false) (hv : p.vcount < 228)
    (hh : p.hcycle < 1232) : (s.setPpu p).DeviceInv :=
  ⟨hv, hh, h.fifoA, h.fifoB, hd, h.ie, h.iff, h.waitcnt, h.keyinput, h.dmaControl⟩

/-- A change of the PPU's other registers. -/
theorem DeviceInv.setPpu' (h : s.DeviceInv) {p : Ppu} (hd : p.dispcnt = s.ppu.dispcnt) (hv : p.vcount = s.ppu.vcount)
    (hh : p.hcycle = s.ppu.hcycle) : (s.setPpu p).DeviceInv :=
  h.setPpu (hd ▸ h.dispcnt) (hv ▸ h.vcount) (hh ▸ h.hcycle)

theorem DeviceInv.withDma (h : s.DeviceInv) {d : Vector DmaChannel 4}
    (hc : ∀ k : Fin 4, DmaControlBits k d[k].cntH) : ({ s with dma := d } : State).DeviceInv :=
  ⟨h.vcount, h.hcycle, h.fifoA, h.fifoB, h.dispcnt, h.ie, h.iff, h.waitcnt, h.keyinput, hc⟩

theorem DeviceInv.setDma (h : s.DeviceInv) (k : Fin 4) {c : DmaChannel}
    (hc : DmaControlBits k c.cntH) : (s.setDma k c).DeviceInv := by
  refine h.withDma fun j => ?_
  simp only [Fin.getElem_fin, Vector.getElem_set]
  split
  · next e => rw [show j = k from (Fin.ext e).symm]; exact hc
  · exact h.dmaControl j

theorem DeviceInv.setTimer (h : s.DeviceInv) (k : Fin 4) (t : Timer) : (s.setTimer k t).DeviceInv :=
  h.congr rfl rfl rfl rfl rfl rfl rfl

theorem DeviceInv.setIrq (h : s.DeviceInv) {q : Irq} (h1 : q.ie.extractLsb' 14 2 = 0#2) (h2 : q.iff.extractLsb' 14 2 = 0#2) :
    ({ s with irq := q } : State).DeviceInv :=
  ⟨h.vcount, h.hcycle, h.fifoA, h.fifoB, h.dispcnt, h1, h2, h.waitcnt, h.keyinput, h.dmaControl⟩

theorem DeviceInv.requestIrq (h : s.DeviceInv) {n : Nat} (hn : n < 14) : (s.requestIrq n).DeviceInv := by
  refine h.setIrq h.ie (bits_or h.iff ?_)
  interval_cases n <;> decide

theorem DeviceInv.requestIf (h : s.DeviceInv) (b : Bool) {n : Nat} (hn : n < 14) : (s.requestIf b n).DeviceInv := by
  unfold State.requestIf
  split
  · exact h.requestIrq hn
  · exact h

theorem DeviceInv.withFifos (h : s.DeviceInv) {a b : Nat} (ha : a ≤ 32) (hb : b ≤ 32) :
    ({ s with fifoA := a, fifoB := b } : State).DeviceInv :=
  ⟨h.vcount, h.hcycle, ha, hb, h.dispcnt, h.ie, h.iff, h.waitcnt, h.keyinput, h.dmaControl⟩

theorem DeviceInv.setKeys (h : s.DeviceInv) {k : Keys} (hk : k.keyinput.extractLsb' 10 6 = 0#6) :
    ({ s with keys := k } : State).DeviceInv :=
  ⟨h.vcount, h.hcycle, h.fifoA, h.fifoB, h.dispcnt, h.ie, h.iff, h.waitcnt, hk, h.dmaControl⟩

theorem DeviceInv.ite {c : Prop} [Decidable c] {t u : State} (ht : t.DeviceInv) (hu : u.DeviceInv) :
    (if c then t else u).DeviceInv := by split <;> assumption

theorem DeviceInv.keypadCheck (h : s.DeviceInv) : (keypadCheck s).DeviceInv := by
  unfold Machine.keypadCheck
  exact .ite (h.requestIrq (by decide)) h

end State

open State (DeviceInv)

theorem dmaControlBits_mask (k : Fin 4) (h : Half) : DmaControlBits k (h &&& if k = 3 then 0xFFE0#16 else 0xF7E0#16) := by
  split
  · next e => exact ⟨bits_and_mask (by decide), fun n => absurd e n⟩
  · exact ⟨bits_and_mask (by decide), fun _ => by rw [BitVec.getLsbD_and]; simp⟩

theorem dmaControlBits_and {k : Fin 4} {h : Half} (hb : DmaControlBits k h) (m : Half) : DmaControlBits k (h &&& m) :=
  ⟨bits_and_left hb.1, fun n => by rw [BitVec.getLsbD_and, hb.2 n, Bool.false_and]⟩

theorem writeControl_cntH (c : DmaChannel) (k : Fin 4) (i : Nat) (b : Byte) :
    (c.writeControl k i b).cntH = setHalfByte c.cntH i b &&& if k = 3 then 0xFFE0#16 else 0xF7E0#16 := by
  unfold DmaChannel.writeControl
  dsimp only
  repeat' split
  all_goals rfl

theorem writeControl_low (c : DmaChannel) (k : Fin 4) (i : Nat) (b : Byte) :
    DmaControlBits k (c.writeControl k i b).cntH := by
  rw [writeControl_cntH]; exact dmaControlBits_mask ..

theorem deviceInv_setAffine {s : State} (h : s.DeviceInv) (g : Bool) (a : Affine) : (s.setAffine g a).DeviceInv := by
  unfold State.setAffine
  exact .ite (h.setPpu' rfl rfl rfl) (h.setPpu' rfl rfl rfl)

theorem deviceInv_setBg {s : State} (h : s.DeviceInv) (k : Fin 4) (b : Background) : (s.setBg k b).DeviceInv :=
  h.setPpu' rfl rfl rfl

theorem deviceInv_ioWriteByte {s : State} (h : s.DeviceInv) (off : Nat) (b : Byte) : (ioWriteByte s off b).DeviceInv := by
  have hand : ∀ x : Half, (x &&& 0x5FFF#16) &&& 0xA000#16 = 0#16 := by
    intro x; rw [BitVec.and_assoc]; simp
  unfold ioWriteByte
  dsimp only
  split
  case h_1 => refine h.setPpu ?_ h.vcount h.hcycle; rw [BitVec.getLsbD_and]; simp
  case h_2 => exact .ite (h.setPpu' rfl rfl rfl) (h.setPpu' rfl rfl rfl)
  case h_3 => exact h
  case h_4 => exact deviceInv_setBg h ..
  case h_5 => exact deviceInv_setBg h ..
  case h_6 => exact deviceInv_setBg h ..
  case h_7 => exact deviceInv_setAffine h ..
  case h_8 => exact deviceInv_setAffine h ..
  case h_9 => exact deviceInv_setAffine h ..
  case h_10 => exact h.setPpu' rfl rfl rfl
  case h_11 => exact h.setPpu' rfl rfl rfl
  case h_12 => exact h.setPpu' rfl rfl rfl
  case h_13 => exact h.setPpu' rfl rfl rfl
  case h_14 => exact h.setPpu' rfl rfl rfl
  case h_15 => exact h.setPpu' rfl rfl rfl
  case h_16 => exact h.setPpu' rfl rfl rfl
  case h_17 => exact h.setPpu' rfl rfl rfl
  case h_18 => exact h.setPpu' rfl rfl rfl
  case h_19 => exact .ite (h.setPpu' rfl rfl rfl) h
  case h_20 => exact h.withFifos (Nat.min_le_left ..) h.fifoB
  case h_21 => exact h.withFifos h.fifoA (Nat.min_le_left ..)
  case h_22 => exact h.setDma _ (h.dmaControl _)
  case h_23 => exact h.setDma _ (h.dmaControl _)
  case h_24 => exact h.setDma _ (h.dmaControl _)
  case h_25 => exact h.setDma _ (writeControl_low ..)
  case h_26 => exact h.setTimer ..
  case h_27 => exact h.setTimer ..
  case h_28 => exact h
  case h_29 => exact DeviceInv.keypadCheck (h.setKeys h.keyinput)
  case h_30 => exact h.setIrq (bits_and_mask (by decide)) h.iff
  case h_31 => exact h.setIrq h.ie (bits_and_left h.iff)
  case h_32 => exact ⟨h.vcount, h.hcycle, h.fifoA, h.fifoB, h.dispcnt, h.ie, h.iff, hand _, h.keyinput, h.dmaControl⟩
  case h_33 => exact .ite (h.setIrq h.ie h.iff) h
  case h_34 => exact h.setIrq h.ie h.iff
  case h_35 => exact h.congr rfl rfl rfl rfl rfl rfl rfl
  case h_36 =>
    have h1 : ({ s with ioStore := Cells.put (fun _ => some 0#8) s.ioStore off b } : State).DeviceInv :=
      h.congr rfl rfl rfl rfl rfl rfl rfl
    refine .ite ?_ h1
    unfold soundControlWrite
    refine h1.withFifos ?_ ?_
    · split
      · exact Nat.zero_le _
      · exact h.fifoA
    · split
      · exact Nat.zero_le _
      · exact h.fifoB

theorem deviceInv_ioWrite {s : State} (h : s.DeviceInv) (w : Width) (off : Nat) (v : Word) : (ioWrite s w off v).DeviceInv := by
  cases w
  · exact deviceInv_ioWriteByte h ..
  · exact deviceInv_ioWriteByte (deviceInv_ioWriteByte h ..) ..
  · exact deviceInv_ioWriteByte (deviceInv_ioWriteByte (deviceInv_ioWriteByte (deviceInv_ioWriteByte h ..) ..) ..) ..

/-- States with the same devices keep the ranges together. -/
theorem deviceInv_congr {s t : State} (h : s.DeviceInv) (d : SameDevices s t) : t.DeviceInv :=
  h.congr d.ppu d.fifoA d.fifoB d.irq d.waitcnt d.keys d.dma

/-- A bus write keeps the device ranges. -/
theorem deviceInv_busWrite {s : State} (h : s.DeviceInv) (w : Width) (a v : Word) : (busWrite s w a v).DeviceInv := by
  by_cases hr : regionOf a = .io
  · have : busWrite s w a v = ioWrite s w (ioOffset (w.align a)) v := by unfold busWrite; rw [hr]
    rw [this]
    exact deviceInv_ioWrite h ..
  · exact deviceInv_congr h (sameDevices_busWrite hr v)

theorem Work.deviceInv {s u : State} (h : Work s u) (hs : s.DeviceInv) : u.DeviceInv := by
  induction h with
  | refl => exact hs
  | reg _ _ _ _ ih => exact deviceInv_congr ih (registerFrame_setXIn ..).devices
  | bump _ ih => exact deviceInv_congr ih (registerFrame_bump _).devices
  | write _ _ _ _ ih => exact deviceInv_busWrite ih ..

/-! ### What a tick leaves alone -/

/-- The CPU, memory, the save control, the stored I/O bytes and the interrupt controller's settings: equal. -/
structure TickFrame (s t : State) : Prop where
  regs : t.regs = s.regs
  cpsr : t.cpsr = s.cpsr
  spsrFiq : t.spsrFiq = s.spsrFiq
  spsrIrq : t.spsrIrq = s.spsrIrq
  spsrSvc : t.spsrSvc = s.spsrSvc
  spsrAbt : t.spsrAbt = s.spsrAbt
  spsrUnd : t.spsrUnd = s.spsrUnd
  pc : t.pc = s.pc
  lastFetchAddr : t.lastFetchAddr = s.lastFetchAddr
  lastFetchWord : t.lastFetchWord = s.lastFetchWord
  halt : t.halt = s.halt
  mem : t.mem = s.mem
  save : t.save = s.save
  ioStore : t.ioStore = s.ioStore
  waitcnt : t.waitcnt = s.waitcnt
  ie : t.irq.ie = s.irq.ie
  ime : t.irq.ime = s.irq.ime
  postflg : t.irq.postflg = s.irq.postflg
  params : t.params = s.params
  draws : t.draws = s.draws
  refill : t.refill = s.refill

theorem TickFrame.refl (s : State) : TickFrame s s := by constructor <;> rfl

theorem TickFrame.trans {s t u : State} (h : TickFrame s t) (g : TickFrame t u) : TickFrame s u :=
  ⟨g.regs.trans h.regs, g.cpsr.trans h.cpsr, g.spsrFiq.trans h.spsrFiq, g.spsrIrq.trans h.spsrIrq,
   g.spsrSvc.trans h.spsrSvc, g.spsrAbt.trans h.spsrAbt, g.spsrUnd.trans h.spsrUnd, g.pc.trans h.pc,
   g.lastFetchAddr.trans h.lastFetchAddr, g.lastFetchWord.trans h.lastFetchWord, g.halt.trans h.halt,
   g.mem.trans h.mem, g.save.trans h.save, g.ioStore.trans h.ioStore, g.waitcnt.trans h.waitcnt, g.ie.trans h.ie,
   g.ime.trans h.ime, g.postflg.trans h.postflg, g.params.trans h.params, g.draws.trans h.draws, g.refill.trans h.refill⟩

/-- A change of what a tick may change: the requests, timers, FIFOs, DMA channels, keys, the PPU and the frames. -/
theorem tickFrame_mk {s t : State} (h : t = { s with
    irq := { s.irq with iff := t.irq.iff }, timers := t.timers, fifoA := t.fifoA, fifoB := t.fifoB, dma := t.dma,
    keys := t.keys, ppu := t.ppu, frame := t.frame, hostFrame := t.hostFrame }) : TickFrame s t := by
  rw [h]; constructor <;> rfl

/-- What one part of a tick does to a state that meets the device ranges. -/
structure Ticked (s t : State) : Prop where
  frame : TickFrame s t
  inv : s.DeviceInv → t.DeviceInv

theorem Ticked.refl (s : State) : Ticked s s := ⟨.refl s, id⟩

theorem Ticked.trans {s t u : State} (h : Ticked s t) (g : Ticked t u) : Ticked s u :=
  ⟨h.frame.trans g.frame, g.inv ∘ h.inv⟩

theorem Ticked.ite {c : Prop} [Decidable c] {s t u : State} (ht : Ticked s t) (hu : Ticked s u) :
    Ticked s (if c then t else u) := by split <;> assumption

theorem ticked_setTimer (s : State) (k : Fin 4) (t : Timer) : Ticked s (s.setTimer k t) :=
  ⟨tickFrame_mk rfl, fun h => h.setTimer k t⟩

theorem ticked_setPpu (s : State) {p : Ppu} (hd : p.dispcnt = s.ppu.dispcnt) (hv : p.vcount = s.ppu.vcount)
    (hh : p.hcycle = s.ppu.hcycle) : Ticked s (s.setPpu p) :=
  ⟨tickFrame_mk rfl, fun h => h.setPpu' hd hv hh⟩

theorem ticked_requestIrq (s : State) {n : Nat} (hn : n < 14) : Ticked s (s.requestIrq n) :=
  ⟨tickFrame_mk rfl, fun h => h.requestIrq hn⟩

theorem ticked_requestIf (s : State) (b : Bool) {n : Nat} (hn : n < 14) : Ticked s (s.requestIf b n) :=
  .ite (ticked_requestIrq s hn) (.refl s)

theorem ticked_withDma (s : State) {d : Vector DmaChannel 4} (hd : ∀ k : Fin 4, d[k].cntH = s.dma[k].cntH) :
    Ticked s { s with dma := d } :=
  ⟨tickFrame_mk rfl, fun h => h.withDma fun k => by rw [hd k]; exact h.dmaControl k⟩

theorem trigger_cntH (c : DmaChannel) (n : Nat) : (c.trigger n).cntH = c.cntH := by
  unfold DmaChannel.trigger; split <;> rfl

theorem fifoTrigger_cntH (c : DmaChannel) (k : Fin 4) (a : Word) : (c.fifoTrigger k a).cntH = c.cntH := by
  unfold DmaChannel.fifoTrigger; split <;> rfl

theorem ticked_triggerDma (n : Nat) (s : State) : Ticked s (triggerDma n s) :=
  ticked_withDma s fun k => by
    simp only [Fin.getElem_fin, Vector.getElem_map]
    exact trigger_cntH ..

theorem ticked_triggerFifo (a : Word) (s : State) : Ticked s (triggerFifo a s) :=
  ticked_withDma s fun k => by
    have h : ∀ k : Fin 4, k = 0 ∨ k = 1 ∨ k = 2 ∨ k = 3 := by decide
    rcases h k with rfl | rfl | rfl | rfl <;> simp [fifoTrigger_cntH]

theorem ticked_withFifos (s : State) {a b : Nat} (ha : a ≤ s.fifoA) (hb : b ≤ s.fifoB) :
    Ticked s { s with fifoA := a, fifoB := b } :=
  ⟨tickFrame_mk rfl, fun h => h.withFifos (ha.trans h.fifoA) (hb.trans h.fifoB)⟩

theorem ticked_clockFifoA (s : State) : Ticked s (clockFifoA s) := by
  have h : Ticked s { s with fifoA := s.fifoA - 1 } := ticked_withFifos s (Nat.sub_le ..) (Nat.le_refl _)
  unfold clockFifoA
  exact .ite (h.trans (ticked_triggerFifo ..)) h

theorem ticked_clockFifoB (s : State) : Ticked s (clockFifoB s) := by
  have h : Ticked s { s with fifoB := s.fifoB - 1 } := ticked_withFifos s (Nat.le_refl _) (Nat.sub_le ..)
  unfold clockFifoB
  exact .ite (h.trans (ticked_triggerFifo ..)) h

theorem ticked_clockFifos (x : Fin 4) (s : State) : Ticked s (clockFifos x s) := by
  have h : ∀ c : Prop, [Decidable c] → Ticked s (if c then clockFifoA s else s) := fun c _ =>
    .ite (ticked_clockFifoA s) (.refl s)
  unfold clockFifos
  exact .ite ((h _).trans (ticked_clockFifoB _)) (h _)

theorem ticked_timerOverflow (x : Fin 4) (s : State) : Ticked s (timerOverflow x s) := by
  have h : Ticked s (if s.timers[x].irq = true then s.requestIrq (3 + x.val) else s) :=
    .ite (ticked_requestIrq s (by omega)) (.refl s)
  unfold timerOverflow
  exact .ite (h.trans (ticked_clockFifos ..)) h

theorem ticked_timerIncrement (x : Fin 4) (p : State × Nat) : Ticked p.1 (timerIncrement x p).1 := by
  unfold timerIncrement
  dsimp only
  split
  · exact (ticked_setTimer ..).trans (ticked_timerOverflow ..)
  · exact ticked_setTimer ..

theorem ticked_timerIncrements (x : Fin 4) (n : Nat) : ∀ p : State × Nat, Ticked p.1 (timerIncrements x n p).1 := by
  induction n with
  | zero => exact fun p => .refl _
  | succ n ih => exact fun p => (ticked_timerIncrement x p).trans (ih _)

theorem ticked_timerStep (n : Nat) (x : Fin 4) (p : State × Nat) : Ticked p.1 (timerStep n x p).1 := by
  unfold timerStep
  dsimp only
  split
  · split
    · exact ticked_timerIncrements x p.2 (p.1, 0)
    · exact (ticked_setTimer p.1 x _).trans (ticked_timerIncrements x _ (_, 0))
  · exact .refl _

/-- The timers' tick. -/
theorem ticked_timerTick (n : Nat) (s : State) : Ticked s (timerTick n s) :=
  (((ticked_timerStep n 0 (s, 0)).trans (ticked_timerStep n 1 _)).trans (ticked_timerStep n 2 _)).trans
    (ticked_timerStep n 3 _)

theorem ticked_frames (s : State) (f : Frame) (g : Option Frame) : Ticked s { s with frame := f, hostFrame := g } :=
  ⟨tickFrame_mk rfl, fun h => h.congr rfl rfl rfl rfl rfl rfl rfl⟩

theorem ticked_sampleKeys (s : State) : Ticked s (sampleKeys s) := by
  have h : Ticked s { s with keys := { s.keys with keyinput := (~~~s.keys.hostKeys).setWidth 16 } } :=
    ⟨tickFrame_mk rfl, fun h => h.setKeys (by
      apply BitVec.eq_of_getLsbD_eq
      intro i hi
      simp only [BitVec.getLsbD_extractLsb', BitVec.getLsbD_setWidth, BitVec.getLsbD_zero]
      interval_cases i <;> simp)⟩
  unfold sampleKeys keypadCheck
  exact .ite (h.trans (ticked_requestIrq _ (by decide))) h

theorem ticked_hblankStart (v : Nat) (s : State) : Ticked s (hblankStart v s) := by
  have h1 : Ticked s (if v < 160 then affineAdvance (renderRow v s) else s) :=
    .ite ((ticked_frames s _ s.hostFrame).trans (ticked_setPpu _ rfl rfl rfl)) (.refl s)
  unfold hblankStart
  dsimp only
  generalize (if v < 160 then affineAdvance (renderRow v s) else s) = s1 at h1 ⊢
  have h2 : Ticked s ((s1.setPpu { s1.ppu with hblank := true }).requestIf s1.ppu.hblankIrq 1) :=
    (h1.trans (ticked_setPpu s1 (p := { s1.ppu with hblank := true }) rfl rfl rfl)).trans (ticked_requestIf _ _ (n := 1) (by decide))
  exact .ite (h2.trans (ticked_triggerDma ..)) h2

theorem ticked_vblankStart (s : State) : Ticked s (vblankStart s) := by
  have h1 : Ticked s ((s.setPpu { s.ppu with vblank := true }).requestIf s.ppu.vblankIrq 0) :=
    (ticked_setPpu s (p := { s.ppu with vblank := true }) rfl rfl rfl).trans (ticked_requestIf _ _ (n := 0) (by decide))
  have h2 := h1.trans (ticked_triggerDma 1 _)
  exact h2.trans (ticked_frames _ _ _)

theorem ticked_lineStart {v : Nat} (hv : v < 228) (s : State) : Ticked s (lineStart v s) := by
  have h1 : Ticked s (s.setPpu { s.ppu with vcount := v, hblank := false }) :=
    ⟨tickFrame_mk rfl, fun h => h.setPpu h.dispcnt hv h.hcycle⟩
  unfold lineStart
  dsimp only
  generalize s.setPpu _ = s1 at h1 ⊢
  have h2 := h1.trans (.ite (c := v = 160) (ticked_vblankStart s1) (.refl s1))
  generalize (if v = 160 then vblankStart s1 else s1) = s2 at h2 ⊢
  have h3 := h2.trans (.ite (c := v = 227) (ticked_setPpu s2 (p := { s2.ppu with vblank := false }) rfl rfl rfl) (.refl s2))
  generalize (if v = 227 then s2.setPpu { s2.ppu with vblank := false } else s2) = s3 at h3 ⊢
  have h4 := h3.trans (.ite (c := v = 0)
    ((ticked_setPpu s3 (p := (affineReload s3).ppu) rfl rfl rfl).trans (ticked_sampleKeys _)) (.refl s3))
  have h5 := h4.trans (ticked_setPpu _ (p := { (if v = 0 then sampleKeys (affineReload s3) else s3).ppu with
    vmatch := v == (if v = 0 then sampleKeys (affineReload s3) else s3).ppu.vcountSetting.toNat }) rfl rfl rfl)
  exact h5.trans (ticked_requestIf _ _ (by decide))

theorem ticked_videoCycle (s : State) : Ticked s (videoCycle s) := by
  unfold videoCycle
  dsimp only
  split
  · next h => exact Ticked.trans ⟨tickFrame_mk rfl, fun hi => hi.setPpu (p := { s.ppu with hcycle := s.ppu.hcycle + 1 }) hi.dispcnt hi.vcount (show s.ppu.hcycle + 1 < 1232 by omega)⟩ (ticked_hblankStart ..)
  · split
    · refine Ticked.trans ⟨tickFrame_mk rfl, fun hi => ?_⟩ (ticked_lineStart (Nat.mod_lt _ (by decide)) _)
      exact hi.setPpu (p := { s.ppu with hcycle := 0 }) hi.dispcnt hi.vcount (show 0 < 1232 by decide)
    · next h => exact ⟨tickFrame_mk rfl, fun hi => hi.setPpu hi.dispcnt hi.vcount (show s.ppu.hcycle + 1 < 1232 by have := hi.hcycle; omega)⟩

/-- The video's tick. -/
theorem ticked_videoTick (n : Nat) : ∀ s : State, Ticked s (videoTick n s) := by
  induction n with
  | zero => exact fun s => .refl s
  | succ n ih => exact fun s => (ticked_videoCycle s).trans (ih _)

theorem ticked_deviceTicks (n : Nat) (s : State) : Ticked s (deviceTicks n s) :=
  (ticked_timerTick n s).trans (ticked_videoTick n _)

/-! ### Frames, triggers and the keypad's condition -/

theorem Frame.row_setRow_same (f : Frame) (y : Nat) (r : List Pixel) : (f.setRow y r).row y = r := by
  induction f with
  | nil => simp [Frame.setRow, Frame.row]
  | cons e rest ih =>
    obtain ⟨z, q⟩ := e
    simp only [Frame.setRow]
    split
    · simp [Frame.row]
    · split
      · simp [Frame.row]
      · unfold Frame.row at ih ⊢
        rw [List.find?_cons_of_neg (by simp; omega)]
        exact ih

theorem Frame.row_setRow_ne (f : Frame) {x y : Nat} (h : x ≠ y) (r : List Pixel) : (f.setRow y r).row x = f.row x := by
  have key : (f.setRow y r).find? (fun e => e.1 == x) = f.find? (fun e => e.1 == x) := by
    induction f with
    | nil => simp [Frame.setRow]; omega
    | cons e rest ih =>
      obtain ⟨z, q⟩ := e
      simp only [Frame.setRow]
      split
      · rw [List.find?_cons_of_neg (by simp; omega)]
      · split
        · next h2 => subst h2; rw [List.find?_cons_of_neg (by simp; omega), List.find?_cons_of_neg (by simp; omega)]
        · simp only [List.find?_cons, ih]
  unfold Frame.row; rw [key]

/-- What a trigger leaves of a channel. -/
theorem triggerDma_get (timing : Nat) (s : State) (k : Fin 4) : (triggerDma timing s).dma[k] = s.dma[k].trigger timing := by
  simp only [triggerDma, Fin.getElem_fin, Vector.getElem_map]

theorem DmaChannel.trigger_eq (c : DmaChannel) (timing : Nat) :
    c.trigger timing = { c with pending := c.pending || (c.enabled && decide (c.timing = timing)) } := by
  unfold DmaChannel.trigger
  cases c.enabled <;> by_cases h : c.timing = timing <;> simp [h]

theorem ne_zero_iff_bit (x : BitVec 10) : x ≠ 0#10 ↔ ∃ i, i < 10 ∧ x.getLsbD i = true := by
  constructor
  · intro h
    by_contra hc
    refine h (BitVec.eq_of_getLsbD_eq fun i hi => ?_)
    simp only [not_exists, not_and, Bool.not_eq_true] at hc
    simp [hc i hi]
  · rintro ⟨i, -, h⟩ rfl
    simp at h

/-- The keypad interrupt's condition, bit by bit (61_timers R982). -/
theorem keypadCondition_iff (k : Keys) : keypadCondition k = true ↔ k.keycnt.getLsbD 14 = true ∧
    (∃ i, i < 10 ∧ k.keycnt.getLsbD i = true) ∧
    if k.keycnt.getLsbD 15 then ∀ i, i < 10 → k.keycnt.getLsbD i = true → k.keyinput.getLsbD i = false
    else ∃ i, i < 10 ∧ k.keycnt.getLsbD i = true ∧ k.keyinput.getLsbD i = false := by
  simp only [keypadCondition, Bool.and_eq_true]
  refine and_congr_right fun _ => ?_
  split
  · simp only [Bool.and_eq_true, bne_iff_ne, ne_zero_iff_bit, beq_iff_eq]
    refine and_congr (exists_congr fun i => and_congr_right fun hi => by simp [hi]) ⟨fun h i hi hc => ?_, fun h => ?_⟩
    · have := congrArg (fun x : BitVec 10 => x.getLsbD i) h
      simpa [hi, hc] using this
    · apply BitVec.eq_of_getLsbD_eq
      intro i hi
      cases hc : k.keycnt.getLsbD i
      · simp [hc]
      · simp [hi, hc, h i hi hc]
  · simp only [bne_iff_ne, ne_zero_iff_bit]
    constructor
    · rintro ⟨i, hi, h⟩
      simp [hi] at h
      exact ⟨⟨i, hi, h.2⟩, i, hi, h.2, h.1⟩
    · rintro ⟨-, i, hi, h1, h2⟩
      exact ⟨i, hi, by simp [hi, h1, h2]⟩

/-! ### What keeps the invariants -/

/-- Whatever happens, the step goes on to a state that keeps the three invariants. -/
structure Keeps (s t : State) : Prop where
  mem : s.MemoryInv → t.MemoryInv
  pc : s.PcInv → t.PcInv
  dev : s.DeviceInv → t.DeviceInv

theorem Keeps.refl (s : State) : Keeps s s := ⟨id, id, id⟩

theorem Keeps.trans {s t u : State} (h : Keeps s t) (g : Keeps t u) : Keeps s u :=
  ⟨g.mem ∘ h.mem, g.pc ∘ h.pc, g.dev ∘ h.dev⟩

theorem Ticked.keeps {s t : State} (h : Ticked s t) : Keeps s t where
  mem hm := ⟨by rw [h.frame.mem]; exact hm.mem, by rw [h.frame.ioStore]; exact hm.io⟩
  pc hp := by unfold State.PcInv at *; rwa [h.frame.cpsr, h.frame.pc]
  dev := h.inv

theorem keeps_bump (s : State) : Keeps s s.bump :=
  ⟨fun h => ⟨h.mem, h.io⟩, id, fun h => deviceInv_congr h (registerFrame_bump s).devices⟩

theorem keeps_deviceTick (cost : Nat) (s : State) : Keeps s (deviceTick cost s) := by
  unfold deviceTick
  split
  · exact (ticked_deviceTicks ..).keeps
  · exact (keeps_bump s).trans (ticked_deviceTicks ..).keeps

/-! ### DMA -/

theorem keeps_setDma (s : State) (k : Fin 4) {c : DmaChannel} (h : s.DeviceInv → DmaControlBits k c.cntH) :
    Keeps s (s.setDma k c) :=
  ⟨fun hm => ⟨hm.mem, hm.io⟩, id, fun hd => hd.setDma k (h hd)⟩

theorem keeps_busWrite (s : State) (w : Width) (a v : Word) : Keeps s (busWrite s w a v) where
  mem h := memoryInv_busWrite h ..
  pc h := by unfold State.PcInv at *; rwa [busWrite_cpsr, busWrite_pc]
  dev h := deviceInv_busWrite h ..

theorem keeps_dmaUnits (k : Fin 4) (w : Width) (n : Nat) : ∀ s : State, Keeps s (dmaUnits k w n s) := by
  induction n with
  | zero => exact fun s => .refl s
  | succ n ih =>
    intro s
    refine Keeps.trans ?_ (ih _)
    refine ((keeps_bump s).trans (keeps_busWrite _ _ _ _)).trans (keeps_setDma _ k fun h => h.dmaControl k)

theorem keeps_dmaComplete (k : Fin 4) (s : State) : Keeps s (dmaComplete k s) := by
  have h : Keeps s (if s.dma[k].irqEnabled = true then s.requestIrq (8 + k.val) else s) := by
    split
    · exact (ticked_requestIrq s (by omega)).keeps
    · exact .refl s
  have g : ∀ t : State, Keeps s t → ∀ c : DmaChannel, (s.DeviceInv → DmaControlBits k c.cntH) →
      Keeps s (t.setDma k c) := fun t ht c hc =>
    ⟨fun hm => ⟨(ht.mem hm).mem, (ht.mem hm).io⟩, ht.pc, fun hd => (ht.dev hd).setDma k (hc hd)⟩
  unfold dmaComplete
  dsimp only
  split
  · exact g _ h _ fun hd => dmaControlBits_and (hd.dmaControl k) _
  · exact g _ h _ fun hd => hd.dmaControl k

/-- What a transfer does not touch: the registers, CPSR, pc and the rest of the CPU. -/
structure CpuKept (s t : State) : Prop where
  regs : t.regs = s.regs
  cpsr : t.cpsr = s.cpsr
  pc : t.pc = s.pc
  core : SameCore s t

theorem CpuKept.refl (s : State) : CpuKept s s := ⟨rfl, rfl, rfl, .refl s⟩

theorem CpuKept.trans {s t u : State} (h : CpuKept s t) (g : CpuKept t u) : CpuKept s u :=
  ⟨g.regs.trans h.regs, g.cpsr.trans h.cpsr, g.pc.trans h.pc, h.core.trans g.core⟩

theorem CpuSame.kept {s t : State} (h : CpuSame s t) : CpuKept s t := ⟨h.regs, h.cpsr, h.pc, h.core⟩

theorem cpuKept_setDma (s : State) (k : Fin 4) (c : DmaChannel) : CpuKept s (s.setDma k c) := (cpuSame_mk rfl).kept

theorem cpuKept_requestIrq (s : State) (n : Nat) : CpuKept s (s.requestIrq n) := (cpuSame_mk rfl).kept

theorem cpuKept_dmaUnits (k : Fin 4) (w : Width) (n : Nat) : ∀ s : State, CpuKept s (dmaUnits k w n s) := by
  induction n with
  | zero => exact fun s => .refl s
  | succ n ih =>
    intro s
    have h1 : CpuKept s s.bump := ⟨rfl, rfl, rfl, (registerFrame_bump s).core⟩
    exact ((h1.trans (cpuSame_busWrite ..).kept).trans (cpuKept_setDma ..)).trans (ih _)

theorem cpuKept_dmaComplete (k : Fin 4) (s : State) : CpuKept s (dmaComplete k s) := by
  have h : CpuKept s (if s.dma[k].irqEnabled = true then s.requestIrq (8 + k.val) else s) := by
    split
    · exact cpuKept_requestIrq ..
    · exact .refl s
  unfold dmaComplete
  dsimp only
  split <;> exact h.trans (cpuKept_setDma ..)

theorem cpuKept_dmaTransfer {k : Fin 4} {s t : State} (h : dmaTransfer k s = .next t) : CpuKept s t := by
  unfold dmaTransfer at h
  dsimp only at h
  split at h
  · cases h
  · have e := Host.Outcome.next.inj h
    rw [← e]
    have h1 := cpuKept_setDma s k { s.dma[k] with pending := false }
    generalize s.setDma k { s.dma[k] with pending := false } = u at h1
    exact (h1.trans (cpuKept_dmaUnits k _ _ u)).trans (cpuKept_dmaComplete k _)

/-- A transfer keeps the invariants. -/
theorem keeps_dmaTransfer {k : Fin 4} {s t : State} (h : dmaTransfer k s = .next t) : Keeps s t := by
  unfold dmaTransfer at h
  dsimp only at h
  split at h
  · cases h
  · have e := Host.Outcome.next.inj h
    rw [← e]
    have h1 : Keeps s (s.setDma k { s.dma[k] with pending := false }) := keeps_setDma s k fun hd => hd.dmaControl k
    generalize s.setDma k { s.dma[k] with pending := false } = u at h1
    exact (h1.trans (keeps_dmaUnits k _ _ u)).trans (keeps_dmaComplete k _)

end Sys2Proof.Machine
end

