-- ==== Sys2Proof/Laws/Step.lean ====
section
/-! SUPPORT. What one step does, by the kinds of step; the parts around an instruction: the wake, the fetch, the tick. -/

namespace Sys2Proof.Machine

/-! ### The decoder answers the current instruction set -/

theorem isThumb_build_arm (p : ArmParts) (row : ArmRow) : isThumb (p.build row) = false := by
  have dp : ∀ (c : Cond) (o : DpOp) (b : Bool) (rn rd : RegNum) (op2 : Operand2), ∃ w, encDp c o b rn rd op2 = .arm w := by
    intro c o b rn rd op2
    cases op2 <;> exact ⟨_, rfl⟩
  have sdt : ∀ (c : Cond) (p u b w l : Bool) (rn rd : RegNum) (off : Offset), ∃ x, encSdt c p u b w l rn rd off = .arm x := by
    intro c p u b w l rn rd off
    cases off <;> exact ⟨_, rfl⟩
  cases row
  all_goals first
    | rfl
    | (simp only [ArmParts.build, isThumb, encode]
       first
         | (obtain ⟨w, h⟩ := dp _ _ _ _ _ _; rw [h])
         | (obtain ⟨w, h⟩ := sdt _ _ _ _ _ _ _ _ _; rw [h]))

theorem isThumb_build_thumb (p : ThumbParts) (row : ThumbRow) : isThumb (p.build row) = true := by
  cases row <;> rfl

theorem isThumb_decodeArm {w : Word} {i : Instr} (h : decodeArm w = .ok i) : isThumb i = false := by
  unfold decodeArm at h
  dsimp only at h
  split at h
  · cases h; exact isThumb_build_arm ..
  · cases h

theorem isThumb_decodeThumb {w : Half} {i : Instr} (h : decodeThumb w = .ok i) : isThumb i = true := by
  unfold decodeThumb at h
  dsimp only at h
  split at h
  · cases h; exact isThumb_build_thumb ..
  · cases h

theorem isThumb_decodeFetched {s : State} {v : Word} {i : Instr} (h : decodeFetched s v = .ok i) :
    isThumb i = s.cpsr.t := by
  unfold decodeFetched at h
  split at h
  · next ht => rw [isThumb_decodeThumb h, ht]
  · next ht => rw [isThumb_decodeArm h, Bool.eq_false_iff.mpr ht]

/-! ### The parts around an instruction -/

theorem wake_eq (s : State) : wake s = { s with halt := s.halt && !interruptPending s } := by
  unfold wake
  cases hh : s.halt <;> cases hp : interruptPending s <;> simp [← hh]

theorem keeps_wake (s : State) : Keeps s (wake s) := by
  rw [wake_eq]
  exact ⟨fun h => ⟨h.mem, h.io⟩, id, fun h => h.congr rfl rfl rfl rfl rfl rfl rfl⟩

theorem keeps_fetched (s : State) : Keeps s (fetched s) :=
  ⟨fun h => ⟨h.mem, h.io⟩, id, fun h => h.congr rfl rfl rfl rfl rfl rfl rfl⟩

@[simp] theorem fetched_cpsr (s : State) : (fetched s).cpsr = s.cpsr := rfl
@[simp] theorem fetched_pc (s : State) : (fetched s).pc = s.pc := rfl
@[simp] theorem fetched_regs (s : State) : (fetched s).regs = s.regs := rfl
@[simp] theorem fetched_params (s : State) : (fetched s).params = s.params := rfl

/-- What the end of a step keeps: every register, CPSR and SPSR, and pc. -/
structure CpuTicked (s t : State) : Prop where
  regs : t.regs = s.regs
  cpsr : t.cpsr = s.cpsr
  pc : t.pc = s.pc
  spsrs : ∀ m, t.spsrOf m = s.spsrOf m

theorem TickFrame.cpu {s t : State} (h : TickFrame s t) : CpuTicked s t :=
  ⟨h.regs, h.cpsr, h.pc,
   fun m => by cases m <;> simp only [State.spsrOf, h.spsrFiq, h.spsrIrq, h.spsrSvc, h.spsrAbt, h.spsrUnd]⟩

theorem CpuTicked.trans {s t u : State} (h : CpuTicked s t) (g : CpuTicked t u) : CpuTicked s u :=
  ⟨g.regs.trans h.regs, g.cpsr.trans h.cpsr, g.pc.trans h.pc, fun m => (g.spsrs m).trans (h.spsrs m)⟩

theorem CpuTicked.reg {s t : State} (h : CpuTicked s t) (r : PReg) : t.reg r = s.reg r := State.reg_of_regs h.regs r

theorem cpuTicked_bump (s : State) : CpuTicked s s.bump := ⟨rfl, rfl, rfl, fun m => by cases m <;> rfl⟩

theorem cpuTicked_withRefill (s : State) (r : Option Word) : CpuTicked s (s.withRefill r) :=
  ⟨rfl, rfl, rfl, fun m => by cases m <;> rfl⟩

theorem cpuTicked_deviceTick (c : Nat) (s : State) : CpuTicked s (deviceTick c s) := by
  unfold deviceTick
  split
  · exact (ticked_deviceTicks c s).frame.cpu
  · exact (cpuTicked_bump s).trans (ticked_deviceTicks _ s.bump).frame.cpu

theorem cpuTicked_endStep (c : StepCost) (s : State) : CpuTicked s (endStep c s) := by
  unfold endStep
  exact (cpuTicked_withRefill s _).trans (cpuTicked_deviceTick ..)

@[simp] theorem deviceTick_cpsr (c : Nat) (s : State) : (deviceTick c s).cpsr = s.cpsr := (cpuTicked_deviceTick c s).cpsr
@[simp] theorem deviceTick_pc (c : Nat) (s : State) : (deviceTick c s).pc = s.pc := (cpuTicked_deviceTick c s).pc
@[simp] theorem endStep_cpsr (c : StepCost) (s : State) : (endStep c s).cpsr = s.cpsr := (cpuTicked_endStep c s).cpsr
@[simp] theorem endStep_pc (c : StepCost) (s : State) : (endStep c s).pc = s.pc := (cpuTicked_endStep c s).pc

@[simp] theorem deviceTick_refill (c : Nat) (s : State) : (deviceTick c s).refill = s.refill := by
  unfold deviceTick
  split
  · exact (ticked_deviceTicks c s).frame.refill
  · exact (ticked_deviceTicks _ s.bump).frame.refill

@[simp] theorem endStep_refill (c : StepCost) (s : State) :
    (endStep c s).refill = if c.refill then some s.pc else none := by rw [endStep, deviceTick_refill]; rfl

theorem keeps_withRefill (s : State) (r : Option Word) : Keeps s (s.withRefill r) :=
  ⟨fun h => ⟨h.mem, h.io⟩, id, fun h => h.congr rfl rfl rfl rfl rfl rfl rfl⟩

theorem keeps_endStep (c : StepCost) (s : State) : Keeps s (endStep c s) := by
  unfold endStep
  exact (keeps_withRefill s _).trans (keeps_deviceTick ..)

/-! ### The kinds of step -/

/-- A step is a transfer, an interrupt, a cycle of the halt, or an instruction, and then the tick of its cost, the
interrupt and the instruction with the record of a refill before it (60_exceptions R850). -/
theorem step_cases {s t : State} (h : step s = .next t) :
    (∃ k u c, pendingChannel (wake s) = some k ∧ dmaTransfer k (wake s) = .next u ∧ t = deviceTick c u) ∨
    (∃ c, irqReady (wake s) = true ∧ t = endStep c (irqEntry (wake s))) ∨
    ((wake s).halt = true ∧ t = deviceTick 1 (wake s)) ∨
    ∃ i u c, decodeFetched (wake s) (fetchValue (wake s)) = .ok i ∧ exec i (fetched (wake s)) = .next u ∧
      t = endStep c u := by
  unfold step runStep boundaryStep at h
  split at h
  · next k hk =>
    obtain ⟨u, h1, h2⟩ := andThen_eq_next.mp h
    exact .inl ⟨k, u, _, hk, h1, (Host.Outcome.next.inj h2).symm⟩
  · split at h
    · next hi => exact .inr (.inl ⟨_, hi, (Host.Outcome.next.inj h).symm⟩)
    · split at h
      · next hh => exact .inr (.inr (.inl ⟨hh, (Host.Outcome.next.inj h).symm⟩))
      · unfold instructionStep at h
        split at h
        · cases h
        · next i hi =>
          obtain ⟨u, h1, h2⟩ := andThen_eq_next.mp h
          exact .inr (.inr (.inr ⟨i, u, _, hi, h1, (Host.Outcome.next.inj h2).symm⟩))

/-! ### The ends of an instruction keep the invariants -/

theorem keeps_of_work {s u : State} (h : Work s u) : Keeps s u :=
  ⟨h.memoryInv, fun hp => by unfold State.PcInv at *; rwa [h.cpsr, h.pc], h.deviceInv⟩

theorem memoryInv_congr {s t : State} (hm : t.mem = s.mem) (hi : t.ioStore = s.ioStore) (h : s.MemoryInv) : t.MemoryInv :=
  ⟨by rw [hm]; exact h.mem, by rw [hi]; exact h.io⟩

theorem enterException_devices (m : Mode) (vector link : Word) (s : State) :
    (enterException m vector link false s).mem = s.mem ∧ SameDevices s (enterException m vector link false s) := by
  cases m <;> exact ⟨rfl, ⟨rfl, rfl, rfl, rfl, rfl, rfl, rfl, rfl, rfl, rfl⟩⟩

theorem keeps_enterException (m : Mode) {vector : Word} (hv : alignedFor false vector) (link : Word) (s : State) :
    Keeps s (enterException m vector link false s) :=
  ⟨memoryInv_congr (enterException_devices ..).1 (enterException_devices ..).2.ioStore, fun _ => hv,
   fun h => deviceInv_congr h (enterException_devices ..).2⟩

theorem foldl_setReg (l : List (PReg × Word)) : ∀ s : State,
    l.foldl (fun t e => t.setReg e.1 e.2) s = { s with regs := (l.foldl (fun t e => t.setReg e.1 e.2) s).regs } := by
  induction l with
  | nil => exact fun s => rfl
  | cons e rest ih => exact fun s => ih (s.setReg e.1 e.2)

theorem hleSoftReset_devices (s : State) :
    (hleSoftReset s).mem = Cells.fill s.mem (iwramBase + 0x7E00) 512 0#8 ∧ SameDevices s (hleSoftReset s) ∧
      alignedFor (hleSoftReset s).cpsr.t (hleSoftReset s).pc := by
  unfold hleSoftReset
  dsimp only
  rw [foldl_setReg]
  generalize State.regs (List.foldl _ _ _) = r
  generalize Cells.fill s.mem (iwramBase + 0x7E00) 512 0#8 = m
  refine ⟨rfl, ⟨rfl, rfl, rfl, rfl, rfl, rfl, rfl, rfl, rfl, rfl⟩, ?_⟩
  rw [State.setPc_pc, State.setPc_cpsr, State.setCpsr_cpsr, alignedFor_iff]
  split <;> rfl

theorem keeps_hleSoftReset (s : State) : Keeps s (hleSoftReset s) := by
  obtain ⟨h1, h2, h3⟩ := hleSoftReset_devices s
  refine ⟨fun h => ⟨?_, ?_⟩, fun _ => h3, fun h => deviceInv_congr h h2⟩
  · rw [h1]
    refine Cells.wf_fill h.mem fun j h1 h2 => ?_
    rw [Memory.unlisted_eq_none (by simp only [iwramBase] at h1; omega) (.inl (by simp only [iwramBase, romBase] at *; omega))]
    simp
  · rw [h2.ioStore]; exact h.io

theorem sameDevices_setCpsr_setPc (u : State) (p : Cpsr) (v : Word) : SameDevices u ((u.setCpsr p).setPc v) :=
  ⟨rfl, rfl, rfl, rfl, rfl, rfl, rfl, rfl, rfl, rfl⟩

/-- A state with the same memory and devices and an aligned pc. -/
theorem Keeps.toPc {s u t : State} (h : Keeps s u) (hm : t.mem = u.mem) (hd : SameDevices u t)
    (hp : s.PcInv → alignedFor t.cpsr.t t.pc) : Keeps s t :=
  ⟨fun hs => memoryInv_congr hm hd.ioStore (h.mem hs), hp, fun hs => deviceInv_congr (h.dev hs) hd⟩

/-- Every end of an instruction of the current instruction set keeps the invariants. -/
theorem Ended.keeps {i : Instr} {s t : State} (h : Ended i s t) (hi : isThumb i = s.cpsr.t) : Keeps s t := by
  have align : ∀ (b : Bool) (v : Word), alignedFor b (if b = true then alignHalf v else alignWord v) := by
    intro b v
    cases b
    · exact alignedFor_alignWord v false
    · exact alignedFor_alignHalf v
  cases h with
  | plain h hp =>
    refine (keeps_of_work h).toPc rfl (registerFrame_setPc ..).devices fun hs => ?_
    rw [State.setPc_cpsr, h.cpsr]
    exact hp hs hi
  | flags h _ n z c v hp =>
    exact (keeps_of_work h).toPc rfl (sameDevices_setCpsr_setPc ..) fun hs => hp hs hi
  | exchange _ v =>
    exact (Keeps.refl s).toPc rfl (sameDevices_setCpsr_setPc ..) fun _ => align (v.getLsbD 0) v
  | control _ _ ht _ =>
    refine (Keeps.refl s).toPc rfl (sameDevices_setCpsr_setPc ..) fun hs => ?_
    have := lands_advance i s hs hi
    simpa only [State.advance, State.setPc_pc, State.setPc_cpsr, State.setCpsr_cpsr, State.setCpsr_pc, State.isize, ht]
      using this
  | spsr _ p =>
    refine (Keeps.refl s).toPc (by simp) (by constructor <;> simp) fun hs => ?_
    have := lands_advance i s hs hi
    simpa only [State.advance, State.setPc_pc, State.setPc_cpsr, State.setSpsrOf_cpsr, State.setSpsrOf_pc, State.isize]
      using this
  | enters _ hv link => exact keeps_enterException _ hv link s
  | restores h _ _ _ target =>
    exact (keeps_of_work h).toPc rfl (sameDevices_setCpsr_setPc ..) fun _ => align _ target
  | softReset _ => exact keeps_hleSoftReset s

end Sys2Proof.Machine
end

