-- ==== Sys2Proof/Tests/Slice0.lean ====
section
/-! SUPPORT. The model's own tests, every expected value from spec/: decoding, well-formedness, single steps, and a
concrete state that meets the hypotheses of each statement. A test on fixed values is a check of the model, not a
statement for the provers. -/

section

set_option Elab.async false

namespace Sys2Proof.Tests

open Sys2Proof.Machine

/-! ### Decoding: one word per format, written out bit by bit from 30_encoding R303 and R330 -/

/-- Does the decoder read each word as the instruction beside it? -/
def decodes (nbits : Nat) (rows : List (Nat × Instr)) : Bool := rows.all fun e => decodeTableWord nbits e.1 == some e.2

theorem test_decode_arm_data_and_multiply_formats : decodes 32
    [(0b1011_000_1110_1_0101_0011_10010_10_0_1001, .armBic .lt true 5 3 (.shiftImm .asr 18 9)),
     (0b0001_000_0011_0_1100_0111_1010_0_01_1_0110, .armRsb .ne false 12 7 (.shiftReg .lsr 10 6)),
     (0b1000_001_1000_1_0011_0000_0101_10000001, .armTst .hi 3 0 (.imm 5 0x81)),
     (0b0010_000_0001_1_0100_0011_0010_1001_0001, .armMla .cs true 4 3 2 1),
     (0b1110_000_0111_0_0100_0011_0010_1001_0001, .armSmlal .al false 4 3 2 1),
     (0b1110_000_1010_0_0010_0011_0000_1001_0100, .armSwpb .al 2 3 4)] = true := by decide +kernel

theorem test_decode_arm_transfer_formats : decodes 32
    [(0b0101_000_1001_0_1111_1111_1111_0_00_1_1010, .armBx .pl 10),
     (0b1110_000_1001_1_0110_0010_0000_1_10_1_0011, .armLdrsbReg .al true false true 6 2 3),
     (0b1110_000_0110_1_0111_0001_1010_1_11_1_0101, .armLdrshImm .al false true false 7 1 0xA5),
     (0b1110_011_1011_0_1000_0010_00111_11_0_0100, .armStrb .al true false true 8 2 (.reg .ror 7 4)),
     (0b1110_100_1100_1_1001_0100000000000110, .armLdm .al true true false false 9 0x4006)] = true := by decide +kernel

theorem test_decode_arm_system_formats : decodes 32
    [(0b1110_000_1010_0_1111_0101_0000_0000_0000, .armMrs .al true 5),
     (0b1110_000_1001_0_0001_1111_0000_0000_0111, .armMsrReg .al false 1 7),
     (0b1110_001_1011_0_1000_1111_0010_11110000, .armMsrImm .al true 8 2 0xF0),
     (0b1110_011_00000_0000_0000_0000_0001_0000, .armUndefA14 .al 0x6000010),
     (0b1110_101_1_111111111111111111111110, .armBl .al 0xFFFFFE),
     (0b1110_110_1_0_1_1_0_0011_0101_0110_10000001, .armLdcStc .al true false true true false 3 5 6 0x81),
     (0b1110_1110_1010_0001_0010_0011_101_0_0100, .armCdp .al 10 1 2 3 5 4),
     (0b1110_1110_011_0_0001_0010_0011_110_1_0100, .armMcr .al 3 1 2 3 6 4),
     (0b0000_1111_000001100000000000000001, .armSwi .eq 0x060001)] = true := by decide +kernel

theorem test_decode_thumb_formats_1_to_10 : decodes 16
    [(0b000_01_10010_011_101, .thumbLsrImm 18 3 5), (0b00011_1_1_110_011_101, .thumbSubImm3 6 3 5),
     (0b001_10_110_10000001, .thumbAddImm8 6 0x81), (0b010000_1101_011_101, .thumbMul 3 5),
     (0b010001_01_1_0_011_101, .thumbCmpHi 13 3), (0b01001_110_10000001, .thumbLdrPc 6 0x81),
     (0b0101_0_1_0_110_011_101, .thumbStrbReg 6 3 5), (0b0101_0_1_1_110_011_101, .thumbLdsb 6 3 5),
     (0b011_1_0_10010_011_101, .thumbStrbImm 18 3 5), (0b1000_1_10010_011_101, .thumbLdrhImm 18 3 5)] = true := by
  decide +kernel

theorem test_decode_thumb_formats_11_to_19 : decodes 16
    [(0b1001_0_110_10000001, .thumbStrSp 6 0x81), (0b1010_1_110_10000001, .thumbAddSp 6 0x81),
     (0b10110000_1_0000100, .thumbAdjustSp true 4), (0b1011_1_10_1_10000001, .thumbPop true 0x81),
     (0b1100_1_110_10000001, .thumbLdmia 6 0x81), (0b1101_1011_10000001, .thumbBCond .lt 0x81),
     (0b11011111_00000110, .thumbSwi 6), (0b11100_10000000001, .thumbB 0x401),
     (0b11110_10000000001, .thumbBlFirst 0x401), (0b11111_10000000001, .thumbBlSecond 0x401)] = true := by
  decide +kernel

/-! ### Decoding: the spec's own words (the examples of files 41 to 45, and 95 2.6 and 2.12), every constructor once -/

theorem test_decode_arm_words_1 : decodes 32
    [(0xE12FFF10, .armBx .al 0), (0xE0000291, .armMul .al false 0 0 2 1), (0xE0203291, .armMla .al false 0 3 2 1),
     (0xE0810392, .armUmull .al false 1 0 3 2), (0xE0A10392, .armUmlal .al false 1 0 3 2),
     (0xE0C10392, .armSmull .al false 1 0 3 2), (0xE0F10392, .armSmlal .al true 1 0 3 2),
     (0xE0410392, .armUmaal .al 1 0 3 2), (0xE1020091, .armSwp .al 2 0 1), (0xE1420091, .armSwpb .al 2 0 1),
     (0xE1020F91, .armUnpredSwap .al 0x1020F91), (0xE0600090, .armUndefMultiply .al 0x0600090),
     (0xE1C010D0, .armUnpredDoubleword .al 0x1C010D0), (0xE1C100B2, .armStrhImm .al true true false 1 0 2),
     (0xE00010B2, .armStrhReg .al false false false 0 1 2), (0xE1D100B0, .armLdrhImm .al true true false 1 0 0),
     (0xE13010B2, .armLdrhReg .al true false true 0 1 2), (0xE1D100D0, .armLdrsbImm .al true true false 1 0 0),
     (0xE19010D2, .armLdrsbReg .al true true false 0 1 2), (0xE1F100F2, .armLdrshImm .al true true true 1 0 2),
     (0xE19010F2, .armLdrshReg .al true true false 0 1 2), (0xE1801FB0, .armUnpredHalfwordReg .al 0x1801FB0)] = true := by
  decide +kernel

theorem test_decode_arm_words_2 : decodes 32
    [(0xE10F0000, .armMrs .al false 0), (0xE169F000, .armMsrReg .al true 9 0), (0xE1000000, .armUnpredMrs .al 0x1000000),
     (0xE1290000, .armUnpredMsrReg .al 0x1290000), (0xE1200070, .armUndefCompareReg .al 0x1200070),
     (0xE328F4F0, .armMsrImm .al false 8 4 0xF0), (0xE3280000, .armUnpredMsrImm .al 0x3280000),
     (0xE3000000, .armUndefCompareImm .al 0x3000000), (0xE0102001, .armAnd .al true 0 2 (.shiftImm .lsl 0 1)),
     (0xE0302001, .armEor .al true 0 2 (.shiftImm .lsl 0 1)), (0xE0502001, .armSub .al true 0 2 (.shiftImm .lsl 0 1)),
     (0xE2602000, .armRsb .al false 0 2 (.imm 0 0)), (0xE0902001, .armAdd .al true 0 2 (.shiftImm .lsl 0 1)),
     (0xE0B02001, .armAdc .al true 0 2 (.shiftImm .lsl 0 1)), (0xE0D02001, .armSbc .al true 0 2 (.shiftImm .lsl 0 1)),
     (0xE0F02001, .armRsc .al true 0 2 (.shiftImm .lsl 0 1)), (0xE3100080, .armTst .al 0 0 (.imm 0 0x80)),
     (0xE1300000, .armTeq .al 0 0 (.shiftImm .lsl 0 0)), (0xE1500001, .armCmp .al 0 0 (.shiftImm .lsl 0 1)),
     (0xE3700001, .armCmn .al 0 0 (.imm 0 1)), (0xE1802201, .armOrr .al false 0 2 (.shiftImm .lsl 4 1)),
     (0xE1B02371, .armMov .al true 0 2 (.shiftReg .ror 3 1)), (0xE3C000FF, .armBic .al false 0 0 (.imm 0 0xFF)),
     (0xE3F00000, .armMvn .al true 0 0 (.imm 0 0))] = true := by decide +kernel

theorem test_decode_arm_words_3 : decodes 32
    [(0xE7F000F0, .armUndefA14 .al 0x7F000F0), (0xE4B10004, .armLdrt .al true 1 0 (.imm 4)),
     (0xE4A10004, .armStrt .al true 1 0 (.imm 4)), (0xE4F10001, .armLdrbt .al true 1 0 (.imm 1)),
     (0xE4E10001, .armStrbt .al true 1 0 (.imm 1)), (0xE5910004, .armLdr .al true true false 1 0 (.imm 4)),
     (0xE5210004, .armStr .al true false true 1 0 (.imm 4)), (0xE4D10001, .armLdrb .al false true false 1 0 (.imm 1)),
     (0xE7C10002, .armStrb .al true true false 1 0 (.reg .lsl 0 2)),
     (0xE8FD8001, .armLdm .al false true true true 13 0x8001), (0xE92D4003, .armStm .al true false false true 13 0x4003),
     (0xEA000002, .armB .al 2), (0xEB000000, .armBl .al 0),
     (0xED900100, .armLdcStc .al true true false false true 0 0 1 0), (0xEE000100, .armCdp .al 0 0 0 1 0 0),
     (0xEE000110, .armMcr .al 0 0 0 1 0 0), (0xEE100F10, .armMrc .al 0 0 0 15 0 0),
     (0xEF060000, .armSwi .al 0x060000)] = true := by decide +kernel

theorem test_decode_thumb_words_1 : decodes 16
    [(0x0108, .thumbLslImm 4 1 0), (0x0808, .thumbLsrImm 0 1 0), (0x1048, .thumbAsrImm 1 1 0),
     (0x1888, .thumbAddReg 2 1 0), (0x1A88, .thumbSubReg 2 1 0), (0x1DC8, .thumbAddImm3 7 1 0),
     (0x1E48, .thumbSubImm3 1 1 0), (0x23FF, .thumbMovImm8 3 0xFF), (0x2805, .thumbCmpImm8 0 5),
     (0x3101, .thumbAddImm8 1 1), (0x3A01, .thumbSubImm8 2 1), (0x4008, .thumbAnd 1 0), (0x4048, .thumbEor 1 0),
     (0x4088, .thumbLsl 1 0), (0x40C8, .thumbLsr 1 0), (0x4108, .thumbAsr 1 0), (0x4148, .thumbAdc 1 0),
     (0x4188, .thumbSbc 1 0), (0x41C8, .thumbRor 1 0), (0x4208, .thumbTst 1 0), (0x4248, .thumbNeg 1 0),
     (0x4288, .thumbCmp 1 0), (0x42C8, .thumbCmn 1 0), (0x4308, .thumbOrr 1 0), (0x4348, .thumbMul 1 0),
     (0x4388, .thumbBic 1 0), (0x43C8, .thumbMvn 1 0)] = true := by decide +kernel

theorem test_decode_thumb_words_2 : decodes 16
    [(0x4780, .thumbUndefBlxReg 0), (0x4770, .thumbBx 14 0), (0x4440, .thumbAddHi 0 8), (0x4580, .thumbCmpHi 8 0),
     (0x46F7, .thumbMovHi 15 14), (0x4801, .thumbLdrPc 0 1), (0x5088, .thumbStrReg 2 1 0), (0x5488, .thumbStrbReg 2 1 0),
     (0x5888, .thumbLdrReg 2 1 0), (0x5C88, .thumbLdrbReg 2 1 0), (0x5288, .thumbStrhReg 2 1 0),
     (0x5A88, .thumbLdrhReg 2 1 0), (0x5688, .thumbLdsb 2 1 0), (0x5E88, .thumbLdsh 2 1 0), (0x6048, .thumbStrImm 1 1 0),
     (0x6848, .thumbLdrImm 1 1 0), (0x7048, .thumbStrbImm 1 1 0), (0x7848, .thumbLdrbImm 1 1 0),
     (0x8048, .thumbStrhImm 1 1 0), (0x8848, .thumbLdrhImm 1 1 0), (0x9002, .thumbStrSp 0 2), (0x9802, .thumbLdrSp 0 2),
     (0xA002, .thumbAddPc 0 2), (0xA802, .thumbAddSp 0 2), (0xB084, .thumbAdjustSp true 4), (0xB503, .thumbPush true 3),
     (0xBD03, .thumbPop true 3), (0xB100, .thumbUndef1011 0x100), (0xC006, .thumbStmia 0 6), (0xC806, .thumbLdmia 0 6),
     (0xDF06, .thumbSwi 6), (0xDE00, .thumbUndefCond14 0), (0xD0FE, .thumbBCond .eq 0xFE), (0xE7FE, .thumbB 0x7FE),
     (0xE800, .thumbUndefBlxSuffix 0), (0xF000, .thumbBlFirst 0), (0xF802, .thumbBlSecond 2)] = true := by decide +kernel

/-- The chain's order decides: BX is no TEQ or MSR, SWP no multiply, TEQ with S no MSR (95 2.12 UD-11, UD-12, UD-14). -/
theorem test_decode_order : decodes 32
    [(0xE12FFF10, .armBx .al 0), (0xE1300001, .armTeq .al 0 0 (.shiftImm .lsl 0 1)), (0xE1000090, .armSwp .al 0 0 0)] = true :=
  by decide +kernel

theorem test_decode_short_input_is_rejected :
    (match decodeBytes false [0x91#8, 0x02#8, 0x00#8] with | .ok _ => false | .error _ => true) = true := by
  decide +kernel

/-! ### Well-formedness: for each check one term that it refuses -/

theorem test_wf_refuses_ill_formed_arm_terms :
    [Instr.armUnpredSwap .al 0x1020091, .armUndefMultiply .al 0x0000090, .armUnpredDoubleword .al 0x1C010B0,
     .armUnpredHalfwordReg .al 0x18010B0, .armUnpredMrs .al 0x10F0000, .armUnpredMsrReg .al 0x129F000,
     .armUndefCompareReg .al 0x12FFF10, .armUnpredMsrImm .al 0x328F000, .armUndefCompareImm .al 0x3100000,
     .armUndefA14 .al 0x6000000, .armLdr .al false true true 1 0 (.imm 4), .armStr .al false true true 1 0 (.imm 4),
     .armLdrb .al false true true 1 0 (.imm 4), .armStrb .al false true true 1 0 (.imm 4)].all (!·.wf) = true := by
  decide +kernel

theorem test_wf_refuses_ill_formed_thumb_terms :
    [Instr.thumbUndef1011 0x084, .thumbUndef1011 0x503, .thumbBCond .al 0, .thumbBCond .nv 0].all (!·.wf) = true := by
  decide +kernel

/-! ### Single steps: the vectors of spec/95_test_vectors.md, one row per instruction -/

/-- The start state of 95's conventions: power-on, with R0.. as listed, the flags, and pc in cartridge ROM. -/
def start (pc : Word) (thumb : Bool) (nzcv : BitVec 4) (regs : List (RegNum × Word)) : State :=
  let s := regs.foldl (fun s e => s.setX e.1 e.2) State.reset
  (s.setCpsr { s.cpsr with t := thumb, n := nzcv.getLsbD 3, z := nzcv.getLsbD 2, c := nzcv.getLsbD 1,
                           v := nzcv.getLsbD 0 }).setPc pc

/-- Words stored in memory. -/
def stored (words : List (Word × Word)) (s : State) : State := words.foldl (fun s e => busWrite s .word e.1 e.2) s

/-- The memory image `M0` of 95's conventions. -/
def m0 (s : State) : State := stored [(0x03000000#32, 0x11223344#32), (0x03000004#32, 0xAABBCCDD#32)] s

/-- The four flags as NZCV. -/
def nzcv (s : State) : BitVec 4 :=
  BitVec.ofBool s.cpsr.n ++ BitVec.ofBool s.cpsr.z ++ BitVec.ofBool s.cpsr.c ++ BitVec.ofBool s.cpsr.v

/-- The bytes of a word in memory, where they are known. -/
def wordIn (s : State) (a : Word) : Option Word := do
  let b0 ← peek s a
  let b1 ← peek s (a + 1#32)
  let b2 ← peek s (a + 2#32)
  let b3 ← peek s (a + 3#32)
  pure (wordOfBytes b0 b1 b2 b3)

/-- The step answers a next state of which the check holds. -/
def goes (s : State) (nbits w : Nat) (check : State → Bool) : Bool :=
  match step (s.withFetchWord nbits w) with
  | .next t => check t
  | _ => false

/-- The step stops with the fault. -/
def stops (s : State) (nbits w : Nat) (f : Fault) : Bool :=
  match step (s.withFetchWord nbits w) with
  | .fault g => f == g
  | _ => false

/-- The registers hold the values. -/
def has (t : State) (regs : List (RegNum × Word)) : Bool := regs.all fun e => t.x e.1 == e.2

/-- An ARM instruction at 0x08000100: `w`, the flags and registers before, the registers and flags after. -/
def arm (w : Nat) (before : BitVec 4) (regs : List (RegNum × Word)) (after : List (RegNum × Word)) (flags : BitVec 4) : Bool :=
  goes (start 0x08000100#32 false before regs) 32 w fun t => has t after && nzcv t == flags && t.pc == 0x08000104#32

/-- A Thumb instruction at 0x08000102, likewise. -/
def thumb (w : Nat) (before : BitVec 4) (regs : List (RegNum × Word)) (after : List (RegNum × Word)) (flags : BitVec 4) :
    Bool :=
  goes (start 0x08000102#32 true before regs) 16 w fun t => has t after && nzcv t == flags && t.pc == 0x08000104#32

/-- A load or store at 0x08000100 over `M0`: `bits` and `w`, the registers before, the registers and a word of memory after. -/
def access (nbits w : Nat) (regs : List (RegNum × Word)) (after : List (RegNum × Word)) (mem : List (Word × Word)) : Bool :=
  goes (m0 (start 0x08000100#32 (nbits == 16) 2#4 regs)) nbits w fun t =>
    has t after && mem.all (fun e => wordIn t e.1 == some e.2) && nzcv t == 2#4 &&
      t.pc == 0x08000100#32 + BitVec.ofNat 32 (nbits / 8)

/-! ARM data processing (95 2.3; 2.2 S-20 and S-25 for the shifter's forms). -/

theorem test_and : arm 0xE0102001 0 [(0, 0xF0F0F0F0), (1, 0x0FF00FF0)] [(2, 0x00F000F0)] 0 = true := by decide +kernel
theorem test_eor : arm 0xE0302001 2 [(0, 0xFFFF0000), (1, 0xFFFFFFFF)] [(2, 0x0000FFFF)] 2 = true := by decide +kernel
theorem test_sub : arm 0xE0502001 0 [(0, 0x80000000), (1, 1)] [(2, 0x7FFFFFFF)] 3 = true := by decide +kernel
theorem test_rsb : arm 0xE0702001 0 [(0, 5), (1, 3)] [(2, 0xFFFFFFFE)] 8 = true := by decide +kernel
theorem test_add : arm 0xE0902001 0 [(0, 0x7FFFFFFF), (1, 1)] [(2, 0x80000000)] 9 = true := by decide +kernel
theorem test_adc : arm 0xE0B02001 2 [(0, 0xFFFFFFFE), (1, 1)] [(2, 0)] 6 = true := by decide +kernel
theorem test_sbc : arm 0xE0D02001 0 [(0, 5), (1, 3)] [(2, 1)] 2 = true := by decide +kernel
theorem test_rsc : arm 0xE0F02001 0 [(0, 3), (1, 5)] [(2, 1)] 2 = true := by decide +kernel
theorem test_tst : arm 0xE1100001 0 [(0, 0xF0), (1, 0x0F)] [(0, 0xF0)] 4 = true := by decide +kernel
theorem test_teq : arm 0xE1300001 0 [(0, 0x80000000), (1, 0x80000000)] [] 4 = true := by decide +kernel
theorem test_cmp : arm 0xE1500001 0 [(0, 0x7FFFFFFF), (1, 0xFFFFFFFF)] [] 9 = true := by decide +kernel
theorem test_cmn : arm 0xE1700001 0 [(0, 0xFFFFFFFF), (1, 1)] [] 6 = true := by decide +kernel
theorem test_orr : arm 0xE1902001 0 [(0, 0xFF00), (1, 0xFF0000)] [(2, 0xFFFF00)] 0 = true := by decide +kernel
theorem test_mov_rrx : arm 0xE1B02061 2 [(1, 3)] [(2, 0x80000001)] 0xA = true := by decide +kernel
theorem test_mov_ror_register_32 : arm 0xE1B02371 0 [(1, 0x80000001), (3, 0x20)] [(2, 0x80000001)] 0xA = true := by
  decide +kernel
theorem test_bic : arm 0xE1D02001 0 [(0, 0xFFFFFFFF), (1, 0xFFFF)] [(2, 0xFFFF0000)] 8 = true := by decide +kernel
theorem test_mvn : arm 0xE1F02001 0 [(1, 0)] [(2, 0xFFFFFFFF)] 8 = true := by decide +kernel
theorem test_add_reads_pc_12_ahead : arm 0xE08F0211 0 [(1, 0), (2, 0)] [(0, 0x0800010C)] 0 = true := by decide +kernel
theorem test_shift_amount_in_pc_stops : stops State.reset 32 0xE1B02F11 .unpredictable = true := by decide +kernel
theorem test_add_condition_fails : arm 0x02800001 0 [(0, 7)] [(0, 7)] 0 = true := by decide +kernel

/-- 95 2.3 DP-29: the return from an exception. -/
theorem test_movs_pc_lr :
    goes (((start 0x08000100#32 false 0 []).setMode .svc |>.setX 14 0x08000201#32).setSpsrOf .svc
      (Spsr.ofImage 0x30#32)) 32 0xE1B0F00E (fun t => t.cpsr.toWord == 0x30#32 && t.pc == 0x08000200#32) = true := by
  decide +kernel

/-! ARM multiplies (95 2.4). A free C or V is not looked at. -/

/-- The registers after a multiply at 0x08000100. -/
def multiply (w : Nat) (regs after : List (RegNum × Word)) : Bool :=
  goes (start 0x08000100#32 false 0 regs) 32 w fun t => has t after && t.pc == 0x08000104#32

theorem test_mul : goes (start 0x08000100#32 false 1 [(1, 0x10000), (2, 0x10001)]) 32 0xE0100291 (fun t =>
    has t [(0, 0x10000)] && !t.cpsr.n && !t.cpsr.z && t.cpsr.v) = true := by decide +kernel
theorem test_mla : multiply 0xE0203291 [(1, 7), (2, 6), (3, 0xFFFFFFF0)] [(0, 0x1A)] = true := by decide +kernel
theorem test_umull : multiply 0xE0810392 [(2, 0xFFFFFFFF), (3, 0xFFFFFFFF)] [(0, 1), (1, 0xFFFFFFFE)] = true := by
  decide +kernel
theorem test_umlal : multiply 0xE0A10392 [(0, 5), (1, 1), (2, 0xFFFFFFFF), (3, 2)] [(0, 3), (1, 3)] = true := by
  decide +kernel
theorem test_smull : multiply 0xE0C10392 [(2, 0xFFFFFFFF), (3, 2)] [(0, 0xFFFFFFFE), (1, 0xFFFFFFFF)] = true := by
  decide +kernel
theorem test_smlal : multiply 0xE0F10392 [(0, 0xFFFFFFFF), (1, 0xFFFFFFFF), (2, 3), (3, 0xFFFFFFFC)]
    [(0, 0xFFFFFFF3), (1, 0xFFFFFFFF)] = true := by decide +kernel
theorem test_umaal_does_nothing : arm 0xE0410392 6 [(0, 5), (1, 6), (2, 7), (3, 8)] [(0, 5), (1, 6)] 6 = true := by
  decide +kernel
theorem test_mul_same_register_stops : stops State.reset 32 0xE0010291 .unpredictable = true := by decide +kernel

/-! ARM loads, stores and swaps (95 2.5 to 2.8). -/

theorem test_ldr_rotates : access 32 0xE5901001 [(0, 0x03000000)] [(1, 0x44112233), (0, 0x03000000)] [] = true := by
  decide +kernel
theorem test_ldr_pre_indexed : access 32 0xE5301004 [(0, 0x03000004)] [(1, 0x11223344), (0, 0x03000000)] [] = true := by
  decide +kernel
theorem test_str_aligns : access 32 0xE5801002 [(0, 0x03000000), (1, 0x01020304)] [] [(0x03000000, 0x01020304)] = true := by
  decide +kernel
theorem test_str_pc : access 32 0xE580F000 [(0, 0x03000000)] [] [(0x03000000, 0x0800010C)] = true := by decide +kernel
theorem test_ldrb : access 32 0xE5D01003 [(0, 0x03000000)] [(1, 0x11)] [] = true := by decide +kernel
theorem test_strb : access 32 0xE5C01005 [(0, 0x03000000), (1, 0x123456EE)] [] [(0x03000004, 0xAABBEEDD)] = true := by
  decide +kernel
theorem test_ldrt : access 32 0xE4B01004 [(0, 0x03000000)] [(1, 0x11223344), (0, 0x03000004)] [] = true := by
  decide +kernel
theorem test_strt : access 32 0xE4A01004 [(0, 0x03000000), (1, 0x55)] [(0, 0x03000004)] [(0x03000000, 0x55)] = true := by
  decide +kernel
theorem test_ldrbt : access 32 0xE4F01001 [(0, 0x03000000)] [(1, 0x44), (0, 0x03000001)] [] = true := by decide +kernel
theorem test_strbt : access 32 0xE4E01001 [(0, 0x03000000), (1, 0x99)] [(0, 0x03000001)] [(0x03000000, 0x11223399)] = true :=
  by decide +kernel
theorem test_ldrh_imm : access 32 0xE1D010B1 [(0, 0x03000000)] [(1, 0x44000033)] [] = true := by decide +kernel
theorem test_ldrh_reg : access 32 0xE13010B2 [(0, 0x03000004), (2, 2)] [(1, 0x1122), (0, 0x03000002)] [] = true := by
  decide +kernel
theorem test_ldrsb_imm : access 32 0xE1D010D0 [(0, 0x03000004)] [(1, 0xFFFFFFDD)] [] = true := by decide +kernel
theorem test_ldrsb_reg : access 32 0xE19010D2 [(0, 0x03000000), (2, 4)] [(1, 0xFFFFFFDD)] [] = true := by decide +kernel
theorem test_ldrsh_imm : access 32 0xE1D010F1 [(0, 0x03000004)] [(1, 0xFFFFFFCC)] [] = true := by decide +kernel
theorem test_ldrsh_reg : access 32 0xE19010F2 [(0, 0x03000000), (2, 6)] [(1, 0xFFFFAABB)] [] = true := by decide +kernel
theorem test_strh_imm : access 32 0xE1C010B2 [(0, 0x03000000), (1, 0xDEAD5678)] [] [(0x03000000, 0x56783344)] = true := by
  decide +kernel
theorem test_strh_reg : access 32 0xE00010B2 [(0, 0x03000004), (1, 0xBEEF), (2, 4)] [(0, 0x03000000)]
    [(0x03000004, 0xAABBBEEF)] = true := by decide +kernel
theorem test_ldrb_into_pc_stops : stops State.reset 32 0xE5D0F000 .unpredictable = true := by decide +kernel
theorem test_ldm : goes (stored [(0x03000100, 0xA), (0x03000104, 0xB), (0x03000108, 0xC)]
    (start 0x08000100#32 false 0 [(0, 0x03000100)])) 32 0xE8B0000E
    (fun t => has t [(1, 0xA), (2, 0xB), (3, 0xC), (0, 0x0300010C)]) = true := by decide +kernel
/-- 95 2.7 BT-16: LDM with S and R15 returns from an exception. -/
theorem test_ldm_return : goes (stored [(0x03007FD8, 5), (0x03007FDC, 0x08000201)]
    (((start 0x08000100#32 false 0 []).setMode .svc |>.setX 13 0x03007FD8#32).setSpsrOf .svc (Spsr.ofImage 0x3F#32)))
    32 0xE8FD8001 (fun t => has t [(0, 5)] && t.reg .r13Svc == 0x03007FE0#32 && t.cpsr.toWord == 0x3F#32 &&
      t.pc == 0x08000200#32) = true := by decide +kernel
theorem test_stm_descending : access 32 0xE9200006 [(0, 0x03000100), (1, 0x11), (2, 0x22)] [(0, 0x030000F8)]
    [(0x030000F8, 0x11), (0x030000FC, 0x22)] = true := by decide +kernel
theorem test_stm_base_in_list : access 32 0xE8A10003 [(0, 0xAA), (1, 0x03000200)] [(1, 0x03000208)]
    [(0x03000200, 0xAA), (0x03000204, 0x03000200)] = true := by decide +kernel
theorem test_swp : access 32 0xE1001092 [(0, 0x03000001), (2, 0x55)] [(1, 0x44112233)] [(0x03000000, 0x55)] = true := by
  decide +kernel
theorem test_swpb : access 32 0xE1401092 [(0, 0x03000000), (2, 0x12345655)] [(1, 0x44)] [(0x03000000, 0x11223355)] = true := by
  decide +kernel
theorem test_store_hazard_stops :
    stops { (start 0x03000000#32 false 0 [(0, 0x03000008)]) with halt := false } 32 0xE5801000 .pipelineHazard = true := by
  decide +kernel

/-! Branches, PSR transfer, exceptions (95 2.9 to 2.12). -/

/-- An ARM instruction at 0x08000100 in SYS mode; the registers, CPSR and pc after. -/
def armTo (w : Nat) (regs after : List (RegNum × Word)) (cpsr pc : Word) : Bool :=
  goes (start 0x08000100#32 false 0 regs) 32 w fun t => has t after && t.cpsr.toWord == cpsr && t.pc == pc

theorem test_b : armTo 0xEAFFFFBE [] [] 0x1F 0x08000000 = true := by decide +kernel
theorem test_bl : armTo 0xEB0003FE [] [(14, 0x08000104)] 0x1F 0x08001100 = true := by decide +kernel
theorem test_bx : armTo 0xE12FFF10 [(0, 0x08000203)] [] 0x3F 0x08000202 = true := by decide +kernel
theorem test_mrs : armTo 0xE10F0000 [] [(0, 0x1F)] 0x1F 0x08000104 = true := by decide +kernel
theorem test_msr_register : armTo 0xE129F000 [(0, 0x600000D3)] [(13, 0x03007FE0)] 0x600000D3 0x08000104 = true := by
  decide +kernel
theorem test_msr_immediate : armTo 0xE328F20F [] [] 0xF000001F 0x08000104 = true := by decide +kernel
theorem test_msr_illegal_mode_stops : stops State.reset 32 0xE321F015 .invalidMode = true := by decide +kernel
theorem test_mrs_without_spsr_stops : stops State.reset 32 0xE14F0000 .noSpsrInMode = true := by decide +kernel

/-- The Undefined entry of 95 2.12 UD-1 (or UD-7, from Thumb state). -/
def undefinedTaken (s : State) (nbits w : Nat) (spsr : Word) : Bool :=
  goes s nbits w fun t => t.cpsr.toWord == 0x9B#32 && t.spsrUnd.toWord == spsr && t.reg .r14Und == 0x08000104#32 &&
    t.pc == 0x00000004#32

theorem test_undefined_arm : ([0xE7F000F0, 0xEE000100, 0xEE000110, 0xEE100F10, 0xED900100, 0xE1200070, 0xE0600090, 0xE3000000,
    0xEF020000].all fun w => undefinedTaken (start 0x08000100#32 false 0 []) 32 w 0x1F) = true := by decide +kernel
theorem test_undefined_thumb : ([0xDE00, 0x4780, 0xE800, 0xB100].all fun w =>
    undefinedTaken (start 0x08000102#32 true 0 []) 16 w 0x3F) = true := by decide +kernel
theorem test_reserved_arm_words_stop : ([0xE1000000, 0xE1020F91, 0xE1C010D0, 0xE1801FB0, 0xE1290000, 0xE3280000].all fun w =>
    stops State.reset 32 w .unpredictable) = true := by decide +kernel
theorem test_swi_vector : goes { (start 0x08000100#32 false 0 []) with params := { swiHandling := .vector } } 32 0xEF060000
    (fun t => t.cpsr.toWord == 0x93#32 && t.spsrSvc.toWord == 0x1F#32 && t.reg .r14Svc == 0x08000104#32 &&
      t.pc == 0x00000008#32) = true := by decide +kernel
theorem test_swi_div : armTo 0xEF060000 [(0, 0xFFFFFFF9), (1, 2)] [(0, 0xFFFFFFFD), (1, 0xFFFFFFFF), (3, 3)] 0x1F 0x08000104 =
    true := by decide +kernel
theorem test_swi_sqrt : armTo 0xEF080000 [(0, 0x80000000)] [(0, 0xB504)] 0x1F 0x08000104 = true := by decide +kernel

/-! Thumb (95 2.13). -/

theorem test_thumb_lsl_imm : thumb 0x0008 2 [(1, 0x80000001)] [(0, 0x80000001)] 0xA = true := by decide +kernel
theorem test_thumb_lsr_imm : thumb 0x0808 0 [(1, 0x80000001)] [(0, 0)] 6 = true := by decide +kernel
theorem test_thumb_asr_imm : thumb 0x1048 0 [(1, 0x80000001)] [(0, 0xC0000000)] 0xA = true := by decide +kernel
theorem test_thumb_add_reg : thumb 0x1888 0 [(1, 0xFFFFFFFF), (2, 1)] [(0, 0)] 6 = true := by decide +kernel
theorem test_thumb_sub_reg : thumb 0x1A88 0 [(1, 3), (2, 5)] [(0, 0xFFFFFFFE)] 8 = true := by decide +kernel
theorem test_thumb_add_imm3 : thumb 0x1DC8 0 [(1, 0x7FFFFFFC)] [(0, 0x80000003)] 9 = true := by decide +kernel
theorem test_thumb_sub_imm3 : thumb 0x1E48 0 [(1, 0)] [(0, 0xFFFFFFFF)] 8 = true := by decide +kernel
theorem test_thumb_mov_imm8 : thumb 0x2000 3 [(0, 9)] [(0, 0)] 7 = true := by decide +kernel
theorem test_thumb_cmp_imm8 : thumb 0x2805 0 [(0, 5)] [(0, 5)] 6 = true := by decide +kernel
theorem test_thumb_add_imm8 : thumb 0x30FF 0 [(0, 0xFFFFFF01)] [(0, 0)] 6 = true := by decide +kernel
theorem test_thumb_sub_imm8 : thumb 0x3801 0 [(0, 0x80000000)] [(0, 0x7FFFFFFF)] 3 = true := by decide +kernel
theorem test_thumb_and : thumb 0x4008 0 [(0, 0xFF00FF00), (1, 0x0F0F0F0F)] [(0, 0x0F000F00)] 0 = true := by decide +kernel
theorem test_thumb_eor : thumb 0x4048 0 [(0, 0xFF00FF00), (1, 0xFF00FF00)] [(0, 0)] 4 = true := by decide +kernel
theorem test_thumb_lsl : thumb 0x4088 0 [(0, 1), (1, 0x20)] [(0, 0)] 6 = true := by decide +kernel
theorem test_thumb_lsr : thumb 0x40C8 0 [(0, 0x80000000), (1, 0x1F)] [(0, 1)] 0 = true := by decide +kernel
theorem test_thumb_asr : thumb 0x4108 0 [(0, 0x80000000), (1, 0x21)] [(0, 0xFFFFFFFF)] 0xA = true := by decide +kernel
theorem test_thumb_adc : thumb 0x4148 2 [(0, 0xFFFFFFFF), (1, 0)] [(0, 0)] 6 = true := by decide +kernel
theorem test_thumb_sbc : thumb 0x4188 0 [(0, 0), (1, 0)] [(0, 0xFFFFFFFF)] 8 = true := by decide +kernel
theorem test_thumb_ror : thumb 0x41C8 0 [(0, 0x80000001), (1, 0x20)] [(0, 0x80000001)] 0xA = true := by decide +kernel
theorem test_thumb_tst : thumb 0x4208 0 [(0, 1), (1, 2)] [(0, 1)] 4 = true := by decide +kernel
theorem test_thumb_neg : thumb 0x4248 0 [(1, 0x80000000)] [(0, 0x80000000)] 9 = true := by decide +kernel
theorem test_thumb_cmp : thumb 0x4288 0 [(0, 1), (1, 2)] [(0, 1)] 8 = true := by decide +kernel
theorem test_thumb_cmn : thumb 0x42C8 0 [(0, 0x80000000), (1, 0x80000000)] [] 7 = true := by decide +kernel
theorem test_thumb_orr : thumb 0x4308 0 [(0, 0), (1, 0)] [(0, 0)] 4 = true := by decide +kernel
theorem test_thumb_mul : goes (start 0x08000102#32 true 0 [(0, 6), (1, 7)]) 16 0x4348 (fun t =>
    has t [(0, 0x2A)] && !t.cpsr.n && !t.cpsr.z && !t.cpsr.v) = true := by decide +kernel
theorem test_thumb_bic : thumb 0x4388 0 [(0, 0xFFFFFFFF), (1, 0xFFFFFFFF)] [(0, 0)] 4 = true := by decide +kernel
theorem test_thumb_mvn : thumb 0x43C8 0 [(1, 0xFFFF)] [(0, 0xFFFF0000)] 8 = true := by decide +kernel
theorem test_thumb_add_hi : thumb 0x4440 0 [(0, 1), (8, 0xFFFFFFFF)] [(0, 0)] 0 = true := by decide +kernel
theorem test_thumb_cmp_hi : thumb 0x4580 0 [(8, 5), (0, 5)] [] 6 = true := by decide +kernel
theorem test_thumb_add_pc : thumb 0xA002 0 [] [(0, 0x0800010C)] 0 = true := by decide +kernel
theorem test_thumb_add_sp : thumb 0xA802 0 [] [(0, 0x03007F08)] 0 = true := by decide +kernel
theorem test_thumb_adjust_sp : thumb 0xB084 0 [] [(13, 0x03007EF0)] 0 = true := by decide +kernel

theorem test_thumb_str_reg : access 16 0x5088 [(0, 0x1234), (1, 0x03000000), (2, 4)] [] [(0x03000004, 0x1234)] = true := by
  decide +kernel
theorem test_thumb_strb_reg : access 16 0x5488 [(0, 0x1234), (1, 0x03000000), (2, 4)] [] [(0x03000004, 0xAABBCC34)] = true := by
  decide +kernel
theorem test_thumb_ldr_reg : access 16 0x5888 [(1, 0x03000000), (2, 1)] [(0, 0x44112233)] [] = true := by decide +kernel
theorem test_thumb_ldrb_reg : access 16 0x5C88 [(1, 0x03000000), (2, 7)] [(0, 0xAA)] [] = true := by decide +kernel
theorem test_thumb_strh_reg : access 16 0x5288 [(0, 0xFFFF8765), (1, 0x03000000), (2, 2)] [] [(0x03000000, 0x87653344)] = true :=
  by decide +kernel
theorem test_thumb_ldrh_reg : access 16 0x5A88 [(1, 0x03000000), (2, 6)] [(0, 0xAABB)] [] = true := by decide +kernel
theorem test_thumb_ldsb : access 16 0x5688 [(1, 0x03000000), (2, 5)] [(0, 0xFFFFFFCC)] [] = true := by decide +kernel
theorem test_thumb_ldsh : access 16 0x5E88 [(1, 0x03000000), (2, 6)] [(0, 0xFFFFAABB)] [] = true := by decide +kernel
theorem test_thumb_str_imm : access 16 0x6048 [(0, 7), (1, 0x03000000)] [] [(0x03000004, 7)] = true := by decide +kernel
theorem test_thumb_ldr_imm : access 16 0x6848 [(1, 0x03000000)] [(0, 0xAABBCCDD)] [] = true := by decide +kernel
theorem test_thumb_strb_imm : access 16 0x7048 [(0, 0x5A), (1, 0x03000000)] [] [(0x03000000, 0x11225A44)] = true := by
  decide +kernel
theorem test_thumb_ldrb_imm : access 16 0x7848 [(1, 0x03000000)] [(0, 0x33)] [] = true := by decide +kernel
theorem test_thumb_strh_imm : access 16 0x8048 [(0, 0xBEEF), (1, 0x03000000)] [] [(0x03000000, 0xBEEF3344)] = true := by
  decide +kernel
theorem test_thumb_ldrh_imm : access 16 0x8848 [(1, 0x03000000)] [(0, 0x1122)] [] = true := by decide +kernel
theorem test_thumb_str_sp : access 16 0x9002 [(0, 9)] [] [(0x03007F08, 9)] = true := by decide +kernel
theorem test_thumb_ldr_sp : access 16 0x9802 [(13, 0x02FFFFFC)] [(0, 0xAABBCCDD)] [] = true := by decide +kernel
theorem test_thumb_push : access 16 0xB503 [(0, 1), (1, 2), (14, 0x08000301)] [(13, 0x03007EF4)]
    [(0x03007EF4, 1), (0x03007EF8, 2), (0x03007EFC, 0x08000301)] = true := by decide +kernel
theorem test_thumb_pop : goes (stored [(0x03007EF4, 1), (0x03007EF8, 2), (0x03007EFC, 0x08000301)]
    (start 0x08000102#32 true 0 [(13, 0x03007EF4)])) 16 0xBD03 (fun t =>
      has t [(0, 1), (1, 2), (13, 0x03007F00)] && t.pc == 0x08000300#32 && t.cpsr.t) = true := by decide +kernel
theorem test_thumb_stmia : access 16 0xC203 [(0, 1), (1, 2), (2, 0x03000100)] [(2, 0x03000108)]
    [(0x03000100, 1), (0x03000104, 2)] = true := by decide +kernel
theorem test_thumb_ldmia_base_in_list : access 16 0xC803 [(0, 0x03000000)] [(0, 0x11223344), (1, 0xAABBCCDD)] [] = true := by
  decide +kernel

/-- R731's ascending order: a PUSH of R0-R2 to SAD, DAD and CNT of DMA channel 0 arms the channel with what it pushed. -/
theorem test_thumb_push_ascending :
    goes (start 0x08000100#32 true 0 [(0, 0x03000001), (1, 0x02000002), (2, 0x80000004), (13, 0x040000BC)]) 16 0xB407 (fun t =>
      (t.dma[0].isrc, t.dma[0].idst, t.dma[0].icount, t.dma[0].pending) == (0x03000001#32, 0x02000002#32, 4, true)) = true := by
  decide +kernel

/-- A Thumb instruction at 0x08000100; the registers, CPSR and pc after. -/
def thumbTo (w : Nat) (flags : BitVec 4) (regs after : List (RegNum × Word)) (cpsr pc : Word) : Bool :=
  goes (start 0x08000100#32 true flags regs) 16 w fun t => has t after && t.cpsr.toWord == cpsr && t.pc == pc

/-- 95 2.13 TH-40: the word at 0x08000108 of the image. -/
theorem test_thumb_ldr_pc : goes { (start 0x08000102#32 true 0 []) with
      params := { romLength := 0x200 }, mem := [(0x08000108, 0xEF), (0x08000109, 0xBE), (0x0800010A, 0xAD), (0x0800010B, 0xDE)] }
    16 0x4801 (fun t => has t [(0, 0xDEADBEEF)]) = true := by decide +kernel
theorem test_thumb_mov_pc : thumbTo 0x46F7 0 [(14, 0x08000201)] [] 0x3F 0x08000200 = true := by decide +kernel
theorem test_thumb_bx : thumbTo 0x4778 0 [] [] 0x1F 0x08000104 = true := by decide +kernel
theorem test_thumb_beq_taken : thumbTo 0xD002 4 [] [] 0x4000003F 0x08000108 = true := by decide +kernel
theorem test_thumb_beq_not_taken : thumbTo 0xD002 0 [] [] 0x3F 0x08000102 = true := by decide +kernel
theorem test_thumb_b : thumbTo 0xE07E 0 [] [] 0x3F 0x08000200 = true := by decide +kernel
theorem test_thumb_bl_first : thumbTo 0xF7FF 0 [] [(14, 0x08000104 - 0x1000)] 0x3F 0x08000102 = true := by decide +kernel
theorem test_thumb_bl_second : goes (start 0x08000102#32 true 0 [(14, 0x08000104)]) 16 0xF802 (fun t =>
    has t [(14, 0x08000105)] && t.pc == 0x08000108#32) = true := by decide +kernel
theorem test_thumb_swi : thumbTo 0xDF06 0 [(0, 10), (1, 3)] [(0, 3), (1, 1), (3, 3)] 0x3F 0x08000102 = true := by
  decide +kernel

/-! Interrupts, devices, memory (95 2.14 to 2.18). -/

/-- 95 2.14 EX-2: an IRQ from Thumb state. -/
theorem test_irq_from_thumb :
    (match step { (start 0x08000102#32 true 0 []) with irq := ⟨8, 8, true, true⟩ } with
      | .next t => t.cpsr.toWord == 0x92#32 && t.spsrIrq.toWord == 0x3F#32 && t.reg .r14Irq == 0x08000106#32 &&
          t.pc == 0x18#32 && t.irq.iff == 8#16
      | _ => false) = true := by decide +kernel

/-- 95 2.14 EX-7: writing 1 clears a bit of IF. -/
theorem test_if_write_one_clears :
    (busWrite { State.reset with irq := ⟨0, 9, false, true⟩ } .half 0x04000202#32 1#32).irq.iff = 8#16 := by decide +kernel

/-- 95 2.14 EX-12: a pending DMA channel goes before an IRQ. -/
theorem test_dma_before_irq :
    (match step { State.reset with irq := ⟨1, 1, true, true⟩, dma := State.reset.dma.set 0 ⟨0x03000000, 0x03000100, 1, 0x8000,
        0x03000000, 0x03000100, 1, true⟩ } with
      | .next t => t.cpsr.toWord == 0x1F#32 && t.dma[0].cntH == 0#16
      | _ => false) = true := by decide +kernel

/-- 95 2.15 ME-4: an 8-bit write to palette memory stores the byte twice. -/
theorem test_palette_byte_write :
    (let s := busWrite State.reset .byte 0x05000001#32 0xAB#32
     (peek s 0x05000000#32, peek s 0x05000001#32)) = (some 0xAB#8, some 0xAB#8) := by decide +kernel

/-- 95 2.15 ME-6: the VRAM mirror at offset 0x18000. -/
theorem test_vram_mirror : peek (busWrite State.reset .half 0x06018000#32 0x1234#32) 0x06010001#32 = some 0x12#8 := by
  decide +kernel

/-- 95 2.16 TM-2 and W6a: an overflow reloads and requests; a cascading timer counts overflows. -/
theorem test_timer_overflow :
    (let s := timerTick 16 (busWrite (busWrite State.reset .half 0x04000100#32 0xFFF0#32) .half 0x04000102#32 0xC0#32)
     (s.timers[0].count, s.irq.iff)) = (0xFFF0#16, 8#16) := by decide +kernel
theorem test_timer_cascade :
    (let t0 : Timer := ⟨0xFFFF, 0xFFFF, 0, false, false, true, 0⟩
     let t1 : Timer := ⟨0, 0, 3, true, false, true, 0⟩
     (timerTick 5 { State.reset with timers := (State.reset.timers.set 0 t0).set 1 t1 }).timers[1].count) = 5#16 := by
  decide +kernel

/-- 95 2.17 DM-1: source decrement. -/
theorem test_dma_source_decrement :
    (match step (busWrite (busWrite (busWrite (busWrite (stored [(0x0300000C, 0xBBBB0000), (0x03000010, 0x0000AAAA)] State.reset)
        .word 0x040000BC#32 0x03000010#32) .word 0x040000C0#32 0x03000100#32) .half 0x040000C4#32 2#32)
        .half 0x040000C6#32 0x8080#32) with
      | .next t => wordIn t 0x03000100#32 == some 0xBBBBAAAA#32 && t.dma[1].cntH == 0x0080#16
      | _ => false) = true := by decide +kernel

/-- 95 2.18 PP-12: the colour expansion. -/
theorem test_color_expand : [0x001F#16, 0x3DEF#16, 0x4210#16, 0x7FFF#16].map (colorExpand State.reset) =
    [⟨0xFF, 0, 0, 0xFF⟩, ⟨0x7B, 0x7B, 0x7B, 0xFF⟩, ⟨0x84, 0x84, 0x84, 0xFF⟩, ⟨0xFF, 0xFF, 0xFF, 0xFF⟩] := by decide +kernel

/-- 61_timers R932, R933, R936: arming a channel at VBlank loads the internal registers, count 0 as the maximum; line 160
makes it pending. -/
theorem test_dma_arming_and_vblank :
    (let s := busWrite (busWrite (busWrite State.reset .word 0x040000B0#32 0xF2000004#32) .word 0x040000B4#32 0xF3000008#32)
       .half 0x040000BA#32 0x9FFF#32
     let c := s.dma[0]
     let t := lineStart 160 s
     ((c.cntH, c.isrc, c.idst, c.icount), c.pending, t.dma[0].pending, t.ppu.vblank, t.hostFrame.isSome)) =
      ((0x97E0#16, 0x02000004#32, 0x03000008#32, 0x4000), false, true, true, true) := by decide +kernel

/-- 61_timers R980, R982: at line 0 the pressed buttons are sampled, active low; with both selected buttons pressed the
"all" condition requests the keypad interrupt, with one of them it does not. -/
theorem test_keypad_sampling :
    ([0x003#10, 0x001#10].map fun k =>
      let t := lineStart 0 (busWrite { State.reset with keys := ⟨0x3FF, 0, k⟩ } .half 0x04000132#32 0xC003#32)
      (t.keys.keyinput, t.irq.iff)) = [(0x3FC#16, 0x1000#16), (0x3FE#16, 0#16)] := by decide +kernel

/-- 62_ppu R1005, R1026: HBlank of a visible line advances the affine references by PB and PD; of line 160 it does not. -/
theorem test_affine_advance :
    ([159, 160].map fun v =>
      let a : Affine := ⟨0x100#16, 3#16, 0#16, 0xFFFE#16, 0, 0, 5, 7⟩
      let t := hblankStart v { State.reset with ppu := { State.reset.ppu with aff2 := a, vcount := v } }
      (t.ppu.aff2.refX, t.ppu.aff2.refY)) = [(8#28, 5#28), (5#28, 7#28)] := by decide +kernel

/-! Costs (20_memory R260-R262; 70_reset R1235, R1236; 43 R565, R576), with WAITCNT 0: a word of ROM wait group 0 costs 8
non-sequentially and 6 sequentially, of group 1 it costs 10 both ways. -/

/-- The fetch after reset is non-sequential; behind the previous fetch, and after a branch that refilled the pipeline, it
is sequential. -/
theorem test_cost_of_a_fetch :
    [State.reset, { State.reset with lastFetchAddr := 0x07FFFFFC }, { State.reset with refill := some 0x08000000 }].map
      costFs = [8, 6, 6] := by decide +kernel

/-- After a taken branch the record of the refill is at its target; after the emulated SoftReset there is none, and the
fetch is non-sequential. -/
theorem test_cost_refill_record :
    (goes (start 0x08000100#32 false 0 []) 32 0xEAFFFFBE fun t => t.refill == some 0x08000000#32 && costFs t == 6) = true ∧
    (goes (stored [(0x03007FF8, 0)] (start 0x08000100#32 false 0 [])) 32 0xEF000000 fun t => t.refill == none && costFs t == 8) = true := by decide +kernel

/-- `LDMDB R0, ...` of two words with R0 = 0x0A000004: the upper word, in group 1, is the first access (10), the lower one,
in group 0, follows sequentially (6). The same words upward: 8 and 10. -/
theorem test_cost_of_a_block :
    (costBlock State.reset false 2 0x09FFFFFC#32, costBlock State.reset true 2 0x09FFFFFC#32) = (16, 18) := by decide +kernel

/-! ### Witnesses: for each statement with hypotheses, concrete states and operands that meet them, at the boundary of each
clause -/

theorem exists_next (r : Result) (p : State → Bool)
    (h : (match r with | .next t => p t | _ => false) = true) : ∃ t, r = .next t ∧ p t = true := by
  cases r with
  | next t => exact ⟨t, rfl, h⟩
  | fault e => simp at h
  | refused e => simp at h

/-- SYS mode, ARM state, pc in ROM. -/
def sys : State := start 0x08000100#32 false 0 []

/-- Thumb state. -/
def sysThumb : State := start 0x08000102#32 true 0 []

/-- SVC mode with SPSR 0x30 (USR, Thumb). -/
def svc : State := (sys.setMode .svc).setSpsrOf .svc (Spsr.ofImage 0x30#32)

/-- SVC mode with an SPSR that holds no mode. -/
def svcBad : State := sys.setMode .svc

/-- USR mode at power-on, with `B .` placed at pc. -/
def usr : State := (State.reset.setMode .usr).withFetchWord 32 0xEAFFFFFE

/-- The code runs in IWRAM at 0x03000000; R0 = 0x03001000, R13 = 0x03007F00, `M0` in memory. -/
def inRam : State := m0 (start 0x03000000#32 false 0 [(0, 0x03001000)])

/-- The next two slots of `inRam` are 0x03000004 to 0x0300000B; R1 points to the last byte, R2 behind it. -/
def nearRam : State := start 0x03000000#32 false 0 [(1, 0x0300000B), (2, 0x0300000C), (3, 0x03000000), (4, 0x03000004)]

theorem sys_memoryInv : sys.MemoryInv := ⟨by decide +kernel, by decide +kernel⟩
theorem inRam_memoryInv : inRam.MemoryInv := ⟨by decide +kernel, by decide +kernel⟩

theorem witness_DecodeOfEncode :
    [Instr.armUnpredSwap .nv 0x10FFF9F, .armUndefMultiply .eq 0x1F00090, .armStr .al false false false 15 15 (.imm 0xFFF),
     .armLdr .al true true true 15 15 (.reg .ror 31 15), .thumbUndef1011 0xFFF, .thumbBCond .le 0xFF].all (·.wf) = true := by decide +kernel

theorem witness_StepRunsTheFetchedInstruction :
    (let s := usr
     pendingChannel (wake s) = none ∧ irqReady (wake s) = false ∧ (wake s).halt = false ∧
      decodeFetched (wake s) (fetchValue (wake s)) = .ok (.armB .al 0xFFFFFE)) ∧
    (usr.PcInv ∧ regionOf usr.pc ≠ .save ∧
      (∀ k, ∀ h : k < [0xFE#8, 0xFF#8, 0xFF#8, 0xEA#8].length,
        peek usr (usr.pc + BitVec.ofNat 32 k) = some [0xFE#8, 0xFF#8, 0xFF#8, 0xEA#8][k]) ∧
      decodeBytes usr.cpsr.t [0xFE#8, 0xFF#8, 0xFF#8, 0xEA#8] = .ok (.armB .al 0xFFFFFE)) := by
  unfold State.PcInv
  refine ⟨⟨?_, ?_, ?_, ?_⟩, ?_, ?_, ?_, ?_⟩ <;> decide +kernel

/-- Channel 3 pending and an interrupt ready. -/
def pendingDma : State :=
  { sys with dma := sys.dma.set 3 { DmaChannel.reset with pending := true }, irq := ⟨0x2000, 0x2000, true, true⟩ }

/-- Halted, with an enabled source (woken), and without one. -/
def woken : State := { sys with halt := true, irq := ⟨1, 1, true, true⟩ }
def asleep : State := { sys with halt := true, irq := ⟨1, 2, true, true⟩ }

theorem witness_BoundaryOrder :
    pendingChannel (wake pendingDma) = some 3 ∧
    (pendingChannel (wake woken) = none ∧ irqReady (wake woken) = true ∧ (wake woken).halt = false) ∧
    (pendingChannel (wake asleep) = none ∧ irqReady (wake asleep) = false ∧ (wake asleep).halt = true) := by
  decide +kernel

theorem witness_ConditionFailed :
    conditionPassed sys.cpsr (instrCondition (.armUndefA14 .eq 0x7F000F0)) = false ∧
    conditionPassed sysThumb.cpsr .eq = false ∧ conditionPassed sys.cpsr .nv = false := by decide +kernel

/-- `STR R1, [R0]` placed at `inRam`'s pc, with the video at the last cycle of the last line. -/
def lastCycle : State :=
  { inRam.withFetchWord 32 0xE5801000 with ppu := { inRam.ppu with vcount := 227, hcycle := 1231 }, fifoA := 32, fifoB := 32 }

theorem lastCycle_deviceInv : lastCycle.DeviceInv := by
  constructor <;> (try unfold DmaControlBits) <;> decide +kernel

/-- For StepKeepsMemoryCanonical, StepKeepsPcAligned, StepKeepsDeviceRanges and ReturnUndoesEntry. -/
theorem witness_StepKeeps : lastCycle.MemoryInv ∧ lastCycle.PcInv ∧ lastCycle.DeviceInv ∧ ∃ t, step lastCycle = .next t := by
  refine ⟨⟨by decide +kernel, by decide +kernel⟩, by unfold State.PcInv; decide +kernel, lastCycle_deviceInv, ?_⟩
  obtain ⟨t, h, -⟩ := exists_next (step lastCycle) (fun _ => true) (by decide +kernel)
  exact ⟨t, h⟩

theorem witness_UserModeIsConfined :
    (usr.cpsr.mode = .usr ∧ ∃ t, step usr = .next t ∧ decide (t.cpsr.mode = .usr) = true) ∧
    (let s := (State.reset.setMode .usr).withFetchWord 32 0xE7F000F0
     s.cpsr.mode = .usr ∧ ∃ t, step s = .next t ∧ decide (t.cpsr.mode = .und) = true) ∧
    (let s := (State.reset.setMode .usr).withFetchWord 16 0xDF00
     s.cpsr.mode = .usr ∧ ∃ t, step s = .next t ∧ decide (t.cpsr.mode = .sys) = true) :=
  ⟨⟨by decide +kernel, exists_next _ _ (by decide +kernel)⟩, ⟨by decide +kernel, exists_next _ _ (by decide +kernel)⟩,
    by decide +kernel, exists_next _ _ (by decide +kernel)⟩

theorem witness_WritersOfTheStatusBits :
    (∃ t, exec (.armCmp .al 0 0 (.shiftImm .lsl 0 0)) sys = .next t ∧ decide (t.cpsr.z ≠ sys.cpsr.z) = true) ∧
    (∃ t, exec (.armBx .al 14) { sys with regs := Vector.replicate 30 1#32 } = .next t ∧ t.cpsr.t = true) ∧
    (∃ t, exec (.armMsrImm .al false 1 0 0xD3) sys = .next t ∧ decide (t.cpsr.mode = .svc) = true) ∧
    (∃ t, exec (.thumbUndefBlxReg 0) sysThumb = .next t ∧ decide (t.cpsr.mode = .und) = true) ∧
    (∃ t, exec (.armMov .al true 0 15 (.shiftImm .lsl 0 14)) svc = .next t ∧ decide (t.cpsr.mode = .usr) = true) ∧
    (∃ t, exec (.armSwi .al 0) svc = .next t ∧ decide (t.cpsr.mode = .sys) = true) := by
  refine ⟨?_, ?_, ?_, ?_, ?_, ?_⟩ <;> exact exists_next _ _ (by decide +kernel)

/-- For ArmLogicalOperations, ArmArithmeticOperations, ArmComparisons and ArmResultsToPc: each operand form, the
destinations R0 and R14, and R15 as an operand. -/
theorem witness_ArmDataProcessing :
    conditionPassed sys.cpsr .al = true ∧ (0#4 ≠ 15#4 ∧ 14#4 ≠ 15#4) ∧ ShiftUsable (.imm 15 0xFF) ∧
    ShiftUsable (.shiftImm .ror 0 15) ∧ ShiftUsable (.shiftReg .asr 14 15) := by
  refine ⟨by decide, by decide, ?_, ?_, ?_⟩ <;> intro ty rm h <;> simp at h

/-- For ArmResultsToPc and ArmLoadMultipleWithPc: a mode whose SPSR can be restored, one without an SPSR, one whose SPSR
cannot be restored. -/
theorem witness_ArmResultsToPc :
    (∃ p c, svc.spsrOf svc.cpsr.mode = some p ∧ p.restored = some c ∧ c.t = true) ∧
    sys.spsrOf sys.cpsr.mode = none ∧ (∃ p, svcBad.spsrOf svcBad.cpsr.mode = some p ∧ p.restored = none) :=
  ⟨⟨Spsr.ofImage 0x30#32, ⟨false, false, false, false, false, false, true, .usr⟩, by decide +kernel, by decide +kernel, rfl⟩,
    by decide +kernel, Spsr.zero, by decide +kernel, by decide +kernel⟩

/-- For ShifterSpecialCases and ShifterResults. -/
theorem witness_Shifter : (0 < 1 ∧ 1 < 32) ∧ (0 < 31 ∧ 31 < 32) ∧ 32 ≤ 32 ∧ 32 ≤ 255 := by decide

/-- For ArmMultiplies, ArmLongMultiplies and UmaalIsNoOperation. -/
theorem witness_ArmMultiplies :
    conditionPassed sys.cpsr .al = true ∧ 14#4 ≠ 15#4 ∧ 13#4 ≠ 15#4 ∧ 12#4 ≠ 15#4 ∧ 14#4 ≠ 12#4 ∧ 0#4 ≠ 15#4 ∧ 1#4 ≠ 15#4 ∧
    0#4 ≠ 1#4 ∧ 14#4 ≠ 13#4 ∧ 7#3 ≠ 0#3 ∧ sys.cpsr.t = false := by decide +kernel

/-- For the MUL, SWP, MRS and MSR clauses: R15 in each operand, and the equal operands each clause names, in a mode with an
SPSR and in modes without one. -/
theorem witness_ForbiddenOperandsStop_equal_operands :
    (conditionPassed sys.cpsr .al = true ∧ conditionPassed svc.cpsr .al = true ∧ conditionPassed usr.cpsr .al = true) ∧
    (15#4 = 15#4 ∧ 14#4 ≠ 15#4 ∧ 14#4 = 14#4) ∧
    svc.spsrOf svc.cpsr.mode ≠ none ∧ sys.spsrOf sys.cpsr.mode = none ∧ usr.spsrOf usr.cpsr.mode = none ∧
    [Instr.armMul .al true 14 0 1 14, .armMla .al false 0 15 1 2, .armUmull .al false 3 3 1 2, .armSmlal .al true 3 2 1 3,
     .armSwp .al 4 4 2, .armSwpb .al 4 3 4, .armMrs .al true 15, .armMrs .al false 15, .armMsrReg .al true 9 15,
     .thumbMul 7 7, .thumbPop false 0].all (fun i => [sys, svc, usr].all fun s =>
       match exec i s with | .fault f => f == .unpredictable | _ => false) = true := by
  refine ⟨?_, ?_, ?_, ?_, ?_, ?_⟩ <;> decide +kernel

theorem witness_ForbiddenOperandsStop :
    ¬ShiftUsable (.shiftReg .lsl 15 0) ∧ ¬OffsetUsable (.reg .lsl 0 15) ∧ ¬BaseUsable false false 15 0 ∧
    ¬BaseUsable true true 3 3 ∧ ¬BaseUsable false false 3 3 ∧ sys.cpsr.mode = .sys ∧ usr.cpsr.mode = .usr ∧
    (0x8001#16).getLsbD (0#4).toNat = true := by
  refine ⟨fun h => h _ _ rfl, fun h => h _ _ rfl, ?_, ?_, ?_, by decide +kernel, by decide +kernel, by decide⟩ <;>
    simp [BaseUsable, BaseWritten]

/-- For ArmWordAndByteLoads, ArmHalfwordAndSignedLoads, ArmStores and StoreHazardsStop. -/
theorem witness_ArmLoadsAndStores :
    conditionPassed sys.cpsr .al = true ∧ BaseUsable false false 14 13 ∧ BaseUsable true true 0 15 ∧ BaseUsable true false 15 15 ∧
    OffsetUsable (.imm 0xFFF) ∧ OffsetUsable (.reg .ror 0 14) ∧ ¬(true = false ∧ true = true) := by
  refine ⟨by decide, ?_, ?_, ?_, ?_, ?_, by decide⟩
  · simp [BaseUsable, BaseWritten]
  · simp [BaseUsable, BaseWritten]
  · simp [BaseUsable, BaseWritten]
  · intro ty n h; simp at h
  · intro ty n h; simp at h

theorem witness_LoadedValues :
    regionOf 0x03000003#32 ≠ .save ∧
    (∀ k, k < 4 → peek inRam (alignWord 0x03000003#32 + BitVec.ofNat 32 k) = some (byteOf 0x11223344#32 k)) ∧
    peek inRam (alignHalf 0x03000003#32) = some 0x22#8 ∧ peek inRam (alignHalf 0x03000003#32 + 1#32) = some 0x11#8 ∧
    peek inRam 0x03000003#32 = some 0x11#8 := by
  refine ⟨?_, ?_, ?_, ?_, ?_⟩ <;> decide +kernel

/-- For ArmStores, ArmSwaps, ThumbStores and StoreHazardsStop: just outside the two slots there is no hazard, on their
first and last byte there is. -/
theorem witness_store_hazard :
    inRam.MemoryInv ∧ storeHazard nearRam .word (alignWord (nearRam.x 3)) = false ∧
    storeHazard nearRam .word (alignWord (nearRam.x 2)) = false ∧ storeHazard nearRam .byte (nearRam.x 2) = false ∧
    storeHazard nearRam .half (alignHalf (nearRam.x 2)) = false ∧
    storeHazard nearRam .word (alignWord (nearRam.x 4)) = true ∧ storeHazard nearRam .byte (nearRam.x 1) = true ∧
    storeHazard nearRam .half (alignHalf (nearRam.x 1)) = true ∧ storeHazard nearRam .word (alignWord (nearRam.x 1)) = true :=
  ⟨inRam_memoryInv, by decide +kernel, by decide +kernel, by decide +kernel, by decide +kernel, by decide +kernel,
    by decide +kernel, by decide +kernel, by decide +kernel⟩

/-- For the emulated functions of StoreHazardsStop: the SWI stands in IWRAM, the last store of each is its next slot. -/
theorem witness_StoreHazardsStop_hle :
    let s := fun dst : Word => stored [(0x03000010, 0x08010004), (0x03000014, 0)]
      (start 0x03000100#32 false 0 [(0, 0x03000000), (1, dst), (2, 1), (3, 2)])
    let u := stored [(0x03000010, 0x08010004), (0x03000014, 0)]
      (start 0x03000100#32 false 0 [(0, 0x03000000), (1, 0x03000104), (2, 0x03000010)])
    SwiCall (.thumbSwi 0x0B#8) 0x0B#8 (s 0) ∧ (s 0).params.swiHandling = .hle ∧
    ([.cpuSet, .cpuFastSet, .bgAffineSet, .objAffineSet, .bitUnPack].all fun f => f ∈ (s 0).params.hleSwiSet) = true ∧
    ((s 0).x 2).toNat % 2 ^ 21 = 1 ∧ storeHazard (s 0x03000105) .half (Width.half.align ((s 0x03000105).x 1)) = true ∧
    storeHazard (s 0x030000E8) .word (Width.word.align ((s 0x030000E8).x 1) + BitVec.ofNat 32 (4 * 7)) = true ∧
    storeHazard (s 0x030000F8) .word ((s 0x030000F8).x 1 + BitVec.ofNat 32 (16 * 0 + 12)) = true ∧
    storeHazard (s 0x030000FE) .half ((s 0x030000FE).x 1 + BitVec.ofNat 32 ((4 * 0 + 3) * ((s 0x030000FE).x 3).toNat)) = true ∧
    (ReadsAs u .half (u.x 2) 4#32 ∧ ReadsAs u .byte (u.x 2 + BitVec.ofNat 32 2) 1#32 ∧
      ReadsAs u .byte (u.x 2 + BitVec.ofNat 32 3) 8#32) ∧
    0 < 4 * (8 / 1) * 8 / 32 ∧ storeHazard u .word (u.x 1 + BitVec.ofNat 32 (4 * 0)) = true := by
  refine ⟨.inr rfl, ?_, ?_, ?_, ?_, ?_, ?_, ?_, ⟨?_, ?_, ?_⟩, ?_, ?_⟩
  case refine_8 | refine_9 | refine_10 => exact readsAs_of_lanes (by decide +kernel) rfl (by decide +kernel)
  all_goals decide +kernel

/-- For ArmLoadMultiple, ArmLoadMultipleWithPc, ArmStoreMultiple and StoreHazardsStop. -/
theorem witness_ArmBlockTransfers :
    (0x7FFF#16 ≠ 0#16 ∧ (0x7FFF#16).getLsbD 15 = false ∧ (0x7FFE#16).getLsbD (0#4).toNat = false) ∧
    ((0x8000#16).getLsbD 15 = true ∧ (0x8000#16).getLsbD (14#4).toNat = false ∧ (0x8001#16).getLsbD (14#4).toNat = false) ∧
    (svc.cpsr.mode ≠ .usr ∧ svc.cpsr.mode ≠ .sys) ∧
    NoBlockHazard false true (inRam.x 0) 0xFFFF#16 inRam ∧ NoBlockHazard true false (inRam.x 0) 1#16 inRam ∧
    ¬NoBlockHazard false true 0x02FFFFFC#32 0x000F#16 inRam := by
  unfold NoBlockHazard
  refine ⟨?_, ?_, ?_, ?_, ?_, ?_⟩ <;> decide +kernel

/-- The word read for R15 by an LDM of {R15} alone is known. -/
theorem witness_ArmLoadMultipleWithPc :
    WordAt inRam (blockAddr false true 0x03000000#32 (lowerCount 0x8000#16 16) (lowerCount 0x8000#16 16 - 1)) 0x11223344#32 := by
  refine ⟨by decide +kernel, by decide +kernel⟩

/-- For MrsReadsStatus and MsrWritesStatus: an illegal mode, a value that would change T, a legal one; modes with and
without an SPSR. -/
theorem witness_MsrWritesStatus :
    [0x15#32, 0x3F#32, 0xD3#32].map (fun v => v.getLsbD 5) = [false, true, false] ∧
    (Mode.ofBits ((0x15#32).extractLsb' 0 5)).isSome = false ∧ (Mode.ofBits ((0x3F#32).extractLsb' 0 5)).isSome = true ∧
    (Mode.ofBits ((0xD3#32).extractLsb' 0 5)).isSome = true ∧ (1#4).getLsbD 0 = true ∧ sys.cpsr.mode ≠ .usr ∧
    sys.spsrOf sys.cpsr.mode = none ∧ (svc.spsrOf svc.cpsr.mode).isSome = true := by
  refine ⟨?_, ?_, ?_, ?_, ?_, ?_, ?_, ?_⟩ <;> decide +kernel

/-- For Branches, LinkAndExchange and ReservedEncodings. -/
theorem witness_Branches :
    conditionPassed sysThumb.cpsr .ne = true ∧ conditionPassed sysThumb.cpsr .eq = false ∧ sysThumb.cpsr.t = true := by
  decide +kernel

/-- For HleArithmetic and HleCorners. -/
theorem witness_SwiCall :
    SwiCall (.armSwi .al 0x06FFFF) 0x06#8 sys ∧
    SwiCall (.armSwi .al 0xFFFF06) 0x06#8 { sys with params := { armSwiNumberField := .bits7to0 } } ∧
    SwiCall (.thumbSwi 0x1F#8) 0x1F#8 sysThumb ∧ sys.params.swiHandling = .hle ∧
    (∀ f ∈ [Config.HleFn.softReset, .div, .divArm, .sqrt, .arcTan, .arcTan2, .cpuSet, .getBiosChecksum],
      f ∈ sys.params.hleSwiSet) ∧
    sys.params.arcTanFn = .standard ∧ sys.params.arcTan2Fn = .standard :=
  ⟨.inl ⟨_, _, rfl, by decide, by
      have h : sys.params.armSwiNumberField = .bits23to16 := by decide +kernel
      rw [h]; decide⟩, .inl ⟨_, _, rfl, by decide, by decide⟩, .inr rfl, by decide +kernel, by decide +kernel,
    by decide +kernel, by decide +kernel⟩

/-- For HleArithmetic and HleCorners: R0 / R1 = 1 / -1, and the overflow -2^31 / -1; the arctangent's ends. -/
theorem witness_HleArithmetic :
    ((0xFFFFFFFF#32).toInt ≠ 0 ∧ ¬((1#32).toInt = -2147483648 ∧ (0xFFFFFFFF#32).toInt = -1)) ∧
    ((0x80000000#32).toInt = -2147483648 ∧ (0xFFFFFFFF#32).toInt = -1) ∧
    (-16384 ≤ (0xFFFFC000#32).toInt ∧ (0x4000#32).toInt ≤ 16384) ∧
    (((0x10000#32).setWidth 16).toInt = 0 ∧ ((0x8000#32).setWidth 16).toInt ≠ 0) := by decide

/-- For HleArithmetic: key 180 with fine value 0 leaves the frequency 440 as it is; it is far below 2^32. -/
theorem witness_HleArithmetic_midi :
    (let s := stored [(0x03000004, 440)] (start 0x08000100#32 false 0 [(0, 0x03000000), (1, 180), (2, 0)])
     SwiCall (.armSwi .al 0x1F0000) 0x1F#8 s ∧ .midiKey2Freq ∈ s.params.hleSwiSet ∧ s.params.midiFreqFn = .standard ∧
     ReadsAs s .word (s.x 0 + 4#32) 440#32 ∧ 46080 = 256 * (s.x 1).toNat + (s.x 2).toNat) ∧
    (440#32).toNat ^ 3072 * 2 ^ (46080 - 46080) < (2 ^ 32) ^ 3072 * 2 ^ (46080 - 46080) :=
  ⟨⟨.inl ⟨_, _, rfl, by decide, by
      have h : (stored [(0x03000004, 440)] (start 0x08000100#32 false 0 [(0, 0x03000000), (1, 180), (2, 0)])).params.armSwiNumberField
        = .bits23to16 := by decide +kernel
      rw [h]; decide⟩, by decide +kernel, by decide +kernel,
    readsAs_of_lanes (by decide +kernel) rfl (by decide +kernel), by decide +kernel⟩, by decide +kernel⟩

/-- CpuSet, fill, words, count 2, to the last two words of EWRAM. -/
def filling : State := m0 (start 0x08000100#32 false 0 [(0, 0x03000001), (1, 0x0203FFF8), (2, 0x05000002)])

/-- For the fill of HleMemoryFunctions. -/
theorem witness_HleMemoryFunctions :
    SwiCall (.thumbSwi 0x0B#8) 0x0B#8 filling ∧ filling.params.swiHandling = .hle ∧ .cpuSet ∈ filling.params.hleSwiSet ∧
    filling.MemoryInv ∧ (filling.x 2).getLsbD 24 = true ∧ (filling.x 2).getLsbD 26 = true ∧
    2 = (filling.x 2).toNat % 2 ^ 21 ∧ WordAt filling (alignWord (filling.x 0)) 0x11223344#32 ∧
    regionOf (alignWord (filling.x 1)) = .ewram ∧ (alignWord (filling.x 1)).toNat % 0x40000 + 4 * 2 ≤ 0x40000 ∧
    ∀ k, k < 2 → storeHazard filling .word (alignWord (filling.x 1) + BitVec.ofNat 32 (4 * k)) = false :=
  ⟨.inr rfl, by decide +kernel, by decide +kernel, ⟨by decide +kernel, by decide +kernel⟩, by decide +kernel, by decide +kernel,
    by decide +kernel, ⟨by decide +kernel, by decide +kernel⟩, by decide +kernel, by decide +kernel, by decide +kernel⟩

/-- For the copy of HleMemoryFunctions: CpuSet, words, count 2, to the DMA registers of channel 0 and behind. -/
theorem witness_HleMemoryFunctions_copy :
    let s := m0 (start 0x08000100#32 false 0 [(0, 0x03000001), (1, 0x040000B3), (2, 0x04000002)])
    let writes := [(Width.word, 0x040000B0#32, 0x11223344#32), (.word, 0x040000B4#32, 0xAABBCCDD#32)]
    SwiCall (.thumbSwi 0x0B#8) 0x0B#8 s ∧ (∀ e ∈ writes, storeHazard s e.1 e.2.1 = false) ∧
    (s.x 2).getLsbD 26 = true ∧ (s.x 2).getLsbD 24 = false ∧ 2 = (s.x 2).toNat % 2 ^ 21 ∧
    Width.word.align (s.x 0) = 0x03000000#32 ∧ Width.word.align (s.x 1) = 0x040000B0#32 ∧
    ReadsAs (busWrites (writes.take 0) s) .word (0x03000000#32 + BitVec.ofNat 32 (4 * 0)) 0x11223344#32 ∧
    ReadsAs (busWrites (writes.take 1) s) .word (0x03000000#32 + BitVec.ofNat 32 (4 * 1)) 0xAABBCCDD#32 :=
  ⟨.inr rfl, by decide +kernel, by decide +kernel, by decide +kernel, by decide +kernel, by decide +kernel, by decide +kernel,
    readsAs_of_lanes (by decide +kernel) rfl (by decide +kernel), readsAs_of_lanes (by decide +kernel) rfl (by decide +kernel)⟩

/-- For BgAffineSet and ObjAffineSet: one entry at 0x03000000, scale 1, angle 0; the stride of ObjAffineSet is 8. The
entry's bytes 8 to 19 are the centre (0, 0), the scales (0x100, 0x100) and the angle. -/
def affineSet : State :=
  stored [(0x03000000, 0x01000100), (0x03000004, 0), (0x03000008, 0), (0x0300000C, 0x01000100), (0x03000010, 0)]
    (start 0x08000100#32 false 0 [(0, 0x03000000), (1, 0x02000000), (2, 1), (3, 8)])

theorem witness_HleMemoryFunctions_affine :
    SwiCall (.thumbSwi 0x0E#8) 0x0E#8 affineSet ∧ .bgAffineSet ∈ affineSet.params.hleSwiSet ∧
    .objAffineSet ∈ affineSet.params.hleSwiSet ∧ (affineSet.x 2).toNat = 1 ∧
    (∀ e ∈ [(Width.word, 0, 0x01000100#32), (.word, 4, 0#32), (.half, 8, 0#32), (.half, 10, 0#32), (.half, 12, 0x100#32),
      (.half, 14, 0x100#32), (.half, 16, 0#32)], ReadsAs affineSet e.1 (affineSet.x 0 + BitVec.ofNat 32 e.2.1) e.2.2) ∧
    (∀ e ∈ [(0, 0x100#32), (2, 0x100#32), (4, 0#32)],
      ReadsAs affineSet .half (affineSet.x 0 + BitVec.ofNat 32 e.1) e.2) ∧
    ∀ o ∈ [0, 2, 4, 6, 8, 12, 16, 24], storeHazard affineSet .half (affineSet.x 1 + BitVec.ofNat 32 o) = false ∧
      storeHazard affineSet .word (affineSet.x 1 + BitVec.ofNat 32 o) = false := by
  refine ⟨.inr rfl, by decide +kernel, by decide +kernel, by decide +kernel, ?_, ?_, by decide +kernel⟩
  · intro e he
    simp only [List.mem_cons, List.not_mem_nil, or_false] at he
    rcases he with rfl | rfl | rfl | rfl | rfl | rfl | rfl <;>
      exact readsAs_of_lanes (by decide +kernel) rfl (by decide +kernel)
  · intro e he
    simp only [List.mem_cons, List.not_mem_nil, or_false] at he
    rcases he with rfl | rfl | rfl <;> exact readsAs_of_lanes (by decide +kernel) rfl (by decide +kernel)

/-- For BitUnPack: one byte 0xA5 of 1-bit units to 4-bit units makes one word; and a source width of 3 bits. -/
theorem witness_HleMemoryFunctions_unpack :
    let s := fun sw : Word => stored [(0x03000000, 0xA5), (0x03000010, 0x04000001 ||| sw <<< 16), (0x03000014, 0)]
      (start 0x08000100#32 false 0 [(0, 0x03000000), (1, 0x02000000), (2, 0x03000010)])
    let v := 0x10100101#32
    (ReadsAs (s 1) .half ((s 1).x 2) 1#32 ∧ ReadsAs (s 1) .byte ((s 1).x 2 + BitVec.ofNat 32 2) 1#32 ∧
      ReadsAs (s 1) .byte ((s 1).x 2 + BitVec.ofNat 32 3) 4#32 ∧ ReadsAs (s 1) .word ((s 1).x 2 + BitVec.ofNat 32 4) 0#32) ∧
    ReadsAs (s 1) .byte ((s 1).x 0 + BitVec.ofNat 32 0) 0xA5#32 ∧ 1 * (8 / 1) * 4 / 32 = 1 ∧
    (∀ j, j < 32 / 4 → v.toNat / 2 ^ (4 * j) % 2 ^ 4 = 0xA5 / 2 ^ (j * 1 % 8) % 2 ^ 1 % 2 ^ 4) ∧
    storeHazard (s 1) .word ((s 1).x 1 + BitVec.ofNat 32 (4 * 0)) = false ∧
    ReadsAs (s 3) .byte ((s 3).x 2 + BitVec.ofNat 32 2) 3#32 ∧ (3#32).toNat ∉ [1, 2, 4, 8] := by
  refine ⟨⟨?_, ?_, ?_, ?_⟩, ?_, by decide, by decide, by decide +kernel, ?_, by decide⟩ <;>
    exact readsAs_of_lanes (by decide +kernel) rfl (by decide +kernel)

theorem witness_HleSoftReset :
    SwiCall (.thumbSwi 0x00#8) 0x00#8 (stored [(0x03007FF8, 0)] sys) ∧ (stored [(0x03007FF8, 0)] sys).MemoryInv ∧
    peek (stored [(0x03007FF8, 0)] sys) 0x03007FFA#32 = some 0#8 ∧
    peek (stored [(0x03007FF8, 0x00010000)] sys) 0x03007FFA#32 = some 1#8 :=
  ⟨.inr rfl, ⟨by decide +kernel, by decide +kernel⟩, by decide +kernel, by decide +kernel⟩

theorem witness_SwiExceptions :
    SwiCall (.thumbSwi 0x02#8) 0x02#8 sysThumb ∧ hleFunction 0x02#8 = none ∧ hleFunction 0x1F#8 = some .midiKey2Freq ∧
    Config.HleFn.midiKey2Freq ∉ ({ hleSwiSet := [] } : Config.Params).hleSwiSet ∧
    ({ swiHandling := .vector } : Config.Params).swiHandling = .vector ∧
    sys.params.invalidOpcode = .undefinedException ∧ ({ invalidOpcode := .noOp } : Config.Params).invalidOpcode = .noOp :=
  ⟨.inr rfl, by decide, by decide, by decide, rfl, by decide +kernel, rfl⟩

/-- For ThumbHiRegistersAndAddresses and MrsReadsStatus. -/
theorem witness_ThumbHiRegisters : 14#4 ≠ 15#4 ∧ (15#4 = 15#4) := by decide

theorem witness_ThumbBlockTransfers :
    (pushList 0x00#8 true 14 ≠ 0#16 ∧ NoBlockHazard false true (inRam.x 13 - 36#32) (pushList 0xFF#8 true 14) inRam) ∧
    (pushList 0x01#8 false 15 ≠ 0#16 ∧ pushList 0x00#8 true 15 ≠ 0#16) ∧
    WordAt inRam (blockAddr false true 0x03000000#32 (lowerCount (pushList 0x01#8 true 15) 16)
      (lowerCount (pushList 0x01#8 true 15) 16 - 1)) 0xAABBCCDD#32 ∧
    NoBlockHazard false true (inRam.x (lowReg 0)) ((0xFF#8).setWidth 16) inRam ∧ (0x80#8).getLsbD (0#3).toNat = false := by
  unfold NoBlockHazard WordAt
  refine ⟨⟨?_, ?_⟩, ⟨?_, ?_⟩, ⟨?_, ?_⟩, ?_, ?_⟩ <;> decide +kernel

theorem witness_InterruptIsTaken :
    ((∀ k : Fin 4, (wake woken).dma[k].pending = false) ∧ (wake woken).irq.ime = true ∧
      ((wake woken).irq.ie &&& (wake woken).irq.iff).extractLsb' 0 14 ≠ 0#14 ∧ (wake woken).cpsr.i = false) ∧
    ((∀ k : Fin 4, (wake asleep).dma[k].pending = false) ∧
      ((wake asleep).irq.ie &&& (wake asleep).irq.iff).extractLsb' 0 14 = 0#14 ∧ (wake asleep).halt = true) ∧
    ((∀ k : Fin 4, (wake usr).dma[k].pending = false) ∧ (wake usr).irq.ime = false ∧ (wake usr).halt = false ∧
      decodeFetched (wake usr) (fetchValue (wake usr)) = .ok (.armB .al 0xFFFFFE)) := by
  refine ⟨⟨?_, ?_, ?_, ?_⟩, ⟨?_, ?_, ?_⟩, ?_, ?_, ?_, ?_⟩ <;> decide +kernel

theorem witness_ReturnUndoesEntry :
    sysThumb.PcInv ∧ sys.PcInv ∧
    (let h := undefinedEntry sysThumb
     h.cpsr.mode = .und ∧ h.spsrOf .und = some sysThumb.cpsr.saved ∧ h.x 14#4 = sysThumb.pc + sysThumb.isize) ∧
    (let h := irqEntry sys
     h.cpsr.mode = .irq ∧ h.spsrOf .irq = some sys.cpsr.saved ∧ h.x 14#4 = sys.pc + 4#32) := by
  unfold State.PcInv
  refine ⟨?_, ?_, ⟨?_, ?_, ?_⟩, ?_, ?_, ?_⟩ <;> decide +kernel

/-- Below R8, at both ends of R8 to R12, and R13 and R14, in FIQ against USR and in SYS against USR. -/
theorem witness_BankedRegisters :
    ((7#4).toNat < 8 ∧ 8 ≤ (8#4).toNat ∧ (12#4).toNat < 13 ∧ 14#4 ≠ 15#4) ∧ Mode.fiq.view 8#4 ≠ Mode.usr.view 8#4 ∧
    Mode.fiq.view 12#4 ≠ Mode.usr.view 12#4 ∧ Mode.irq.view 12#4 = Mode.usr.view 12#4 ∧
    Mode.irq.view 13#4 ≠ Mode.usr.view 13#4 ∧ Mode.sys.view 14#4 = Mode.usr.view 14#4 := by decide

theorem witness_MemoryMap :
    sys.MemoryInv ∧ StoresPlainly sys .byte 0x03FFFFFF#32 ∧ StoresPlainly sys .half 0x05000000#32 ∧
    StoresPlainly { sys with params := { narrowVideoWrites := .plain } } .byte 0x07000000#32 ∧
    (regionOf 0x02000000#32 = .ewram ∧ regionOf 0x02FC0000#32 = .ewram ∧
      (0x02000000#32).toNat % 0x40000 = (0x02FC0000#32).toNat % 0x40000) ∧
    (regionOf 0x06018000#32 = .vram ∧ 0x18000 ≤ (0x06018000#32).toNat % 0x20000) ∧
    (regionOf 0x08000000#32 = .rom 0 ∧ regionOf 0x0C000000#32 = .rom 2 ∧ sys.params.romLength.val ≤ 0 ∧
      sys.params.openBus = .draw) ∧
    0x10000000 ≤ (0x10000000#32).toNat ∧ regionOf 0x00003FFF#32 = .bios ∧ regionOf 0x00004000#32 = .unmapped := by
  refine ⟨sys_memoryInv, .inl (.inr ?_), .inr ⟨.inl ?_, ?_⟩, .inr ⟨.inr (.inr ?_), fun _ => rfl⟩, ?_, ?_, ?_, ?_, ?_, ?_⟩
  all_goals decide +kernel

/-- 8-bit writes on both sides of the border, in modes 0 and 3, and the 8-bit save bus. -/
theorem witness_EightBitBuses :
    sys.params.narrowVideoWrites = .quirk ∧ sys.ppu.dispcnt.toNat % 8 = 0 ∧
    ({ sys.ppu with dispcnt := 3 }).dispcnt.toNat % 8 = 3 ∧
    [0x0600FFFF#32, 0x06010000#32, 0x06013FFF#32, 0x06014000#32].map (fun a => (decide (regionOf a = .vram), a.toNat % 0x20000)) =
      [(true, 0xFFFF), (true, 0x10000), (true, 0x13FFF), (true, 0x14000)] ∧
    regionOf 0x05000001#32 = .palette ∧ regionOf 0x07000000#32 = .oam ∧
    (regionOf 0x0E000003#32 = .save ∧ peek (busWrite sys .byte 0x0E000003#32 0x5A#32) 0x0E000003#32 = some 0x5A#8) := by
  refine ⟨?_, ?_, ?_, ?_, ?_, ?_, ?_, ?_⟩ <;> decide +kernel

theorem witness_SaveMemoryCommands :
    sys.MemoryInv ∧ sys.save.kind = .sram ∧ 0xFFFF < 0x10000 ∧
    (let s := { sys with save := { sys.save with kind := .flash } }
     s.save.kind = .flash ∧ s.save.flashState = .ready ∧ s.save.idMode = false ∧ regionOf 0x0F00FFFF#32 = .save) :=
  ⟨sys_memoryInv, by decide +kernel, by decide, by decide +kernel⟩

/-- For InterruptRegisters and TimerTick: the keypad clause with a pressed button selected, in both modes of KEYCNT; a FIFO
at 17 that the timer clocks below its limit. The other clauses have no hypothesis. -/
theorem witness_InterruptRegisters_and_TimerTick :
    (let s := { sys with keys := ⟨0x3FE, 0, 1⟩ }
     s.params.keypadIrq = true ∧ s.keys.keyinput.getLsbD 0 = false ∧
     ([0x4001#32, 0xC001#32, 0xC003#32, 0x0001#32].map fun v => (busWrite s .half 0x04000132#32 v).irq.iff.getLsbD 12) =
       [true, true, false, false]) ∧
    sys.MemoryInv ∧
    (let c : DmaChannel := { DmaChannel.reset with cntH := 0xB600, dad := 0x040000A0 }
     let s := { sys with fifoA := 17, dma := sys.dma.set 1 c, timers := sys.timers.set 0 ⟨0xFFFF, 0xFFFF, 0, false, false, true, 0⟩ }
     (timerTick 1 s).fifoA = 16 ∧ (timerTick 1 s).dma[1].pending = true) :=
  ⟨by decide +kernel, sys_memoryInv, by decide +kernel⟩

/-- Channel 0, two words from the end of EWRAM to the end of IWRAM. -/
def copying : State :=
  { sys with dma := sys.dma.set 0 ⟨0x0203FFF8, 0x03007FF8, 2, 0x8400, 0x0203FFF8, 0x03007FF8, 2, true⟩ }

theorem witness_DmaTransfer :
    ({ DmaChannel.reset with cntH := 0x8180 }).srcControl = 3 ∧ copying.MemoryInv ∧
    (let c := copying.dma[(0 : Fin 4)]
     c.timing ≠ 3 ∧ c.wide = true ∧ c.icount * 4 = 8 ∧ c.srcControl = 0 ∧ c.dstControl = 0 ∧ c.repeats = false ∧
     regionOf (alignWord c.isrc) = .ewram ∧ (alignWord c.isrc).toNat % 0x40000 + 8 ≤ 0x40000 ∧
     regionOf (alignWord c.idst) = .iwram ∧ (alignWord c.idst).toNat % 0x8000 + 8 ≤ 0x8000) := by
  refine ⟨?_, ⟨?_, ?_⟩, ?_, ?_, ?_, ?_, ?_, ?_, ?_, ?_, ?_, ?_⟩ <;> decide +kernel

theorem witness_VideoTiming :
    lastCycle.DeviceInv ∧ lastCycle.ppu.hcycle = 1231 ∧ ({ lastCycle.ppu with hcycle := 959, vcount := 159 }).hcycle = 959 ∧
    159 < 160 ∧ sys.ppu.dispcnt.getLsbD 7 = true ∧ sys.params.colorExpand = .standard ∧
    (let p := { sys.ppu with dispcnt := 0x0007 }
     p.dispcnt.getLsbD 7 = false ∧ p.dispcnt.extractLsb' 8 5 = 0#5 ∧ p.bldcnt.extractLsb' 6 2 = 0#2) := by
  refine ⟨lastCycle_deviceInv, ?_, ?_, ?_, ?_, ?_, ?_, ?_, ?_⟩ <;> decide +kernel

end Sys2Proof.Tests

end
end

section
/-! PROOFS. What every step keeps, the writers of CPSR, the banked registers, and the state after reset. -/

namespace Sys2Proof.Machine

/-! ### What a step keeps -/

/-- Every step, of each kind, keeps the invariants of memory, of pc and of the devices. -/
theorem step_keeps {s t : State} (h : step s = .next t) : Keeps s t := by
  refine (keeps_wake s).trans ?_
  obtain ⟨k, u, c, -, hu, rfl⟩ | ⟨c, -, rfl⟩ | ⟨-, rfl⟩ | ⟨i, u, c, hi, hu, rfl⟩ := step_cases h
  · exact (keeps_dmaTransfer hu).trans (keeps_deviceTick ..)
  · exact (keeps_enterException .irq (alignedFor_iff.mpr rfl) _ _).trans (keeps_endStep ..)
  · exact keeps_deviceTick ..
  · have hset : isThumb i = (fetched (wake s)).cpsr.t := isThumb_decodeFetched hi
    exact ((keeps_fetched _).trans ((exec_ended i _ u hu).keeps hset)).trans (keeps_endStep ..)

/-- Settles O8: every kind of step keeps the alignment of pc (`step_keeps`). -/
theorem stepKeepsPcAligned : Obligations.StepKeepsPcAligned := fun _ _ hs h => (step_keeps h).pc hs

/-! ### The status register after an instruction -/

theorem enterException_cpsr (m : Mode) (vector link : Word) (s : State) :
    (enterException m vector link false s).cpsr = { s.cpsr with t := false, i := true, mode := m } := by
  simp [enterException]

theorem spsrOf_enterException {m : Mode} (h : m.hasSpsr = true) (vector link : Word) (s : State) :
    (enterException m vector link false s).spsrOf m = some s.cpsr.saved := by
  have hset := (s.setMode m).spsrOf_setSpsrOf_same h s.cpsr.saved
  cases m <;> exact hset

@[simp] theorem hleSoftReset_cpsr (s : State) :
    (hleSoftReset s).cpsr = ⟨false, false, false, false, false, false, false, .sys⟩ := rfl

theorem mayWriteFlags_of_isSoftReset {i : Instr} {s : State} (h : IsSoftReset i s) : mayWriteFlags i = true := by
  obtain ⟨-, ⟨cond, comment, rfl, -⟩ | rfl⟩ := h <;> rfl

/-- Every end leaves the flags, or is one of an instruction that R111 lists as a writer of them. -/
theorem Ended.sameFlags_or_mayWriteFlags {i : Instr} {s t : State} (h : Ended i s t) :
    SameFlags s t ∨ mayWriteFlags i = true := by
  cases h with
  | plain h _ => exact .inl (sameFlags_of_cpsr h.cpsr)
  | flags _ hf => exact .inr hf
  | exchange _ v => exact .inl ⟨rfl, rfl, rfl, rfl⟩
  | control _ _ _ hf => exact hf.imp_left fun ⟨n, z, c, v⟩ => ⟨n, z, c, v⟩
  | spsr _ p => exact .inl (sameFlags_of_cpsr (by simp))
  | @enters m _ vector _ link =>
    have e := enterException_cpsr m vector link s
    exact .inl ⟨by rw [e], by rw [e], by rw [e], by rw [e]⟩
  | restores _ hf => exact .inr hf
  | softReset hi => exact .inr (mayWriteFlags_of_isSoftReset hi)

/-- Settles O12: by the ways an instruction can end (`exec_ended`). -/
theorem writersOfTheStatusBits : Obligations.WritersOfTheStatusBits := by
  intro i s t hx
  have hend := exec_ended i s t hx
  refine ⟨fun hne => hend.sameFlags_or_mayWriteFlags.resolve_left hne, fun hne => ?_⟩
  cases hend with
  | plain h _ => exact (hne (sameControl_of_cpsr h.cpsr)).elim
  | flags _ _ n z c v => exact (hne ⟨rfl, rfl, rfl, rfl⟩).elim
  | exchange hi v => exact .inl ⟨hi, v.getLsbD 0, rfl⟩
  | control hi hm ht _ => exact .inr (.inl ⟨hi, hm, ht⟩)
  | spsr _ p => exact (hne (sameControl_of_cpsr (by simp))).elim
  | enters hm _ link =>
    refine .inr (.inr (.inl ⟨_, hm, enterException_cpsr .., spsrOf_enterException ?_ ..⟩))
    rcases hm with rfl | rfl <;> rfl
  | restores _ _ hp hc target => exact .inr (.inr (.inr (.inl ⟨_, _, hp, hc, rfl⟩)))
  | softReset hi => exact .inr (.inr (.inr (.inr ⟨hi.1, hi.2, hleSoftReset_cpsr s⟩)))

/-! ### The banked registers -/

/-- The number under which every mode that sees a physical register sees it (10_state R103). -/
def PReg.number : PReg → RegNum
  | .r0 => 0 | .r1 => 1 | .r2 => 2 | .r3 => 3 | .r4 => 4 | .r5 => 5 | .r6 => 6 | .r7 => 7
  | .r8 | .r8Fiq => 8
  | .r9 | .r9Fiq => 9
  | .r10 | .r10Fiq => 10
  | .r11 | .r11Fiq => 11
  | .r12 | .r12Fiq => 12
  | .r13 | .r13Fiq | .r13Irq | .r13Svc | .r13Abt | .r13Und => 13
  | .r14 | .r14Fiq | .r14Irq | .r14Svc | .r14Abt | .r14Und => 14

theorem Mode.number_of_view {m : Mode} {i : RegNum} {r : PReg} (h : m.view i = some r) : r.number = i := by
  have key : ∀ i : RegNum, ∀ r ∈ m.view i, r.number = i := by cases m <;> decide
  exact key i r h

/-- Views of two modes that name one register have its number. -/
theorem Mode.eq_of_view_eq {m n : Mode} {i j : RegNum} (hi : i ≠ 15#4) (h : m.view i = n.view j) : i = j := by
  obtain ⟨r, hr⟩ := Mode.view_isSome (m := m) hi
  exact (Mode.number_of_view hr).symm.trans (Mode.number_of_view (h ▸ hr))

/-- The registers of a mode's view in the order of their numbers: the table of 10_state R104. -/
def Mode.viewTable (m : Mode) : List PReg :=
  [.r0, .r1, .r2, .r3, .r4, .r5, .r6, .r7] ++
    (if m = .fiq then [.r8Fiq, .r9Fiq, .r10Fiq, .r11Fiq, .r12Fiq] else [.r8, .r9, .r10, .r11, .r12]) ++ [m.sp, m.lr]

theorem Mode.view_eq_viewTable (m : Mode) (i : RegNum) : m.view i = m.viewTable[i.toNat]? := by
  revert i; cases m <;> decide

/-- R0 to R7 are the same register in every mode. -/
theorem Mode.view_low (m : Mode) {i : RegNum} (h : i.toNat < 8) : m.view i = Mode.usr.view i := by
  revert i; cases m <;> decide

/-- R8 to R12 are FIQ's own in FIQ and the user copies in every other mode. -/
theorem Mode.view_middle (m : Mode) {i : RegNum} (h1 : 8 ≤ i.toNat) (h2 : i.toNat < 13) :
    m.view i = if m = .fiq then Mode.fiq.view i else Mode.usr.view i := by
  revert i; cases m <;> decide

theorem Mode.view_fiq_ne_usr {i : RegNum} (h1 : 8 ≤ i.toNat) (h2 : i.toNat < 13) : Mode.fiq.view i ≠ Mode.usr.view i := by
  revert i; decide

theorem Mode.view_middle_eq_iff (m n : Mode) {i : RegNum} (h1 : 8 ≤ i.toNat) (h2 : i.toNat < 13) :
    m.view i = n.view i ↔ (m = .fiq ↔ n = .fiq) := by
  have hne := Mode.view_fiq_ne_usr h1 h2
  rw [m.view_middle h1 h2, n.view_middle h1 h2]
  by_cases hm : m = .fiq <;> by_cases hn : n = .fiq <;> simp [hm, hn, hne, hne.symm]

/-- Two modes share R13, and R14, exactly if they are one mode, or are USR and SYS. -/
theorem Mode.view_high_eq_iff (m n : Mode) {i : RegNum} (h : i = 13#4 ∨ i = 14#4) :
    m.view i = n.view i ↔ m = n ∨ ((m = .usr ∨ m = .sys) ∧ (n = .usr ∨ n = .sys)) := by
  rcases h with rfl | rfl <;> cases m <;> cases n <;> decide

theorem State.x_of_view {s : State} {i : RegNum} {r : PReg} (h : s.cpsr.mode.view i = some r) : s.x i = s.reg r := by
  simp only [State.x, State.xIn, h]

theorem State.setX_of_view {s : State} {i : RegNum} {r : PReg} (h : s.cpsr.mode.view i = some r) (v : Word) :
    s.setX i v = s.setReg r v := by
  simp only [State.setX, State.setXIn, h]

/-- Settles O51: the table of the views, who shares a register with whom, and reads after writes. -/
theorem bankedRegisters : Obligations.BankedRegisters := by
  refine ⟨fun m n i j => ⟨?_, Mode.view_eq_none, Mode.eq_of_view_eq, fun h => (m.view_low h).trans (n.view_low h).symm,
    m.view_middle_eq_iff n, m.view_high_eq_iff n⟩, fun s m i v => ⟨?_, ?_, ?_, rfl, s.x_r15⟩⟩
  · rw [m.view_eq_viewTable]
    cases m <;> rfl
  · exact fun hi => ⟨s.x_setX_same hi v, fun r hr => s.reg_setX_of_notMem hr v⟩
  · exact fun r hr => ⟨State.x_of_view hr, by rw [State.setX_of_view hr, State.reg_setReg_same]⟩
  · exact regsSameBut_of_regs rfl

/-! ### The I/O block at reset -/

theorem State.reset_eq_powerOnBase : State.reset = State.powerOnBase {} := rfl

/-- The registers whose value at reset is not 0. -/
def nonzeroAtReset : List IoReg := [.dispcnt, .keyinput, .postflg]

/-- Every other register that reads at all reads 0. -/
theorem ioValue_reset {r : IoReg} (h : r ∉ nonzeroAtReset) : ∀ v ∈ ioValue State.reset r, v = 0#16 := by
  rw [State.reset_eq_powerOnBase]
  cases r
  case dispcnt | keyinput | postflg => exact absurd (by decide) h
  all_goals simp [ioValue, State.powerOnBase, Ppu.reset, Ppu.dispstat, Timer.control, DmaChannel.reset, Timer.reset]

theorem affRegAt_notMem (bg3 : Bool) (o : Nat) : (affRegAt bg3 o).1 ∉ nonzeroAtReset := by
  fun_cases affRegAt bg3 o <;> simp [nonzeroAtReset]

theorem dmaRegAt_notMem (k : Fin 4) (o : Nat) : (dmaRegAt k o).1 ∉ nonzeroAtReset := by
  fun_cases dmaRegAt k o <;> simp [nonzeroAtReset]

/-- The offsets of these registers, by the rows of R235's table: DISPCNT's (the first), KEYINPUT's and POSTFLG's; an affine
or a DMA block holds none of them. -/
theorem offset_of_nonzeroAtReset {o : Nat} (h : (ioRegAt o).1 ∈ nonzeroAtReset) :
    o < 2 ∨ o = 0x130 ∨ o = 0x131 ∨ o = 0x300 := by
  revert h
  fun_cases ioRegAt o
  case case1 | case30 | case38 => omega
  case case8 | case9 => exact fun h => absurd h (affRegAt_notMem _ _)
  case case25 => exact fun h => absurd h (dmaRegAt_notMem _ _)
  all_goals simp [nonzeroAtReset]

theorem ioReadByte_reset {o : Nat} (h : o ∉ [0x000, 0x130, 0x131, 0x300]) :
    (ioReadByte State.reset o).getD 0#8 = 0#8 := by
  simp only [List.mem_cons, List.not_mem_nil, or_false, not_or] at h
  by_cases hr : (ioRegAt o).1 ∈ nonzeroAtReset
  · obtain rfl : o = 1 := by have := offset_of_nonzeroAtReset hr; omega
    rfl
  · cases hv : ioValue State.reset (ioRegAt o).1 with
    | none => simp [ioReadByte, hv]
    | some v => simp [ioReadByte, hv, ioValue_reset hr v hv, halfByte]

theorem peek_ioBlock (s : State) {o : Nat} (h : o < 0x400) :
    peek s (0x04000000#32 + BitVec.ofNat 32 o) = ioReadByte s o := by
  have e : (0x04000000#32 + BitVec.ofNat 32 o).toNat = 0x04000000 + o := by
    rw [BitVec.toNat_add, BitVec.toNat_ofNat, BitVec.toNat_ofNat]; omega
  have e24 : ((0x04000000#32 + BitVec.ofNat 32 o) >>> 24).toNat = 4 := by rw [shiftRight24_toNat, e]; omega
  have hreg : regionOf (0x04000000#32 + BitVec.ofNat 32 o) = .io := by
    simp only [regionOf, e24, e]
    rw [if_pos (by omega)]
  have hoff : ioOffset (0x04000000#32 + BitVec.ofNat 32 o) = o := by
    have m := toNat_and_mask (0x04000000#32 + BitVec.ofNat 32 o) (n := 10) (by omega)
    rw [e] at m
    exact m.trans (by omega)
  simp only [peek, hreg, hoff]

/-! ### The BIOS image at reset -/

theorem regionOf_bios {a : Word} (h : a.toNat < 0x4000) : regionOf a = .bios := by
  have e : (a >>> 24).toNat = 0 := by rw [shiftRight24_toNat]; omega
  simp only [regionOf, e, if_pos h]

theorem peek_bios (s : State) {a : Word} (h : a.toNat < 0x4000) : peek s a = some (Memory.get s.mem a.toNat) := by
  simp only [peek, locationOf, regionOf_bios h]

/-- A location of the BIOS that no cell lists holds the default image's byte. -/
theorem Memory.get_nil_bios {k : Nat} (h : k < 0x4000) : Memory.get [] k = biosStubByte k := by
  simp only [Memory.get, Cells.lookup, Memory.unlisted, if_pos h]

theorem lookup_eq_find? {β : Type} (k : Nat) (l : List (Nat × β)) :
    l.lookup k = (l.find? fun e => e.1 == k).map (·.2) := by
  induction l with
  | nil => rfl
  | cons e l ih =>
    rw [List.lookup_cons, List.find?_cons, BEq.comm]
    cases e.1 == k
    · exact ih
    · rfl

/-- The default image byte by byte is its table word by word. -/
theorem biosStubByte_eq (n : Nat) {k : Nat} (hk : k < 4) :
    biosStubByte (4 * n + k) = byteOf ((biosStubWords.lookup (4 * n)).getD 0#32) k := by
  have hdiv : (4 * n + k) / 4 * 4 = 4 * n := by omega
  have hmod : (4 * n + k) % 4 = k := by omega
  rw [biosStubByte, hdiv, hmod, lookup_eq_find?]
  cases biosStubWords.find? fun e => e.1 == 4 * n with
  | none => simp [byteOf]
  | some e => rfl

/-- A word of the BIOS while no cell lists one of its bytes. -/
theorem wordAt_bios {s : State} (hm : s.mem = []) {n : Nat} (hn : n < 0x1000) :
    WordAt s (BitVec.ofNat 32 (4 * n)) ((biosStubWords.lookup (4 * n)).getD 0#32) := by
  have ha : (BitVec.ofNat 32 (4 * n)).toNat = 4 * n := by rw [BitVec.toNat_ofNat]; omega
  refine ⟨by rw [regionOf_bios (by omega)]; decide, fun k hk => ?_⟩
  have hlane : (alignWord (BitVec.ofNat 32 (4 * n)) + BitVec.ofNat 32 k).toNat = 4 * n + k := by
    have h := lane_toNat .word (BitVec.ofNat 32 (4 * n)) hk
    rw [ha] at h
    exact h.trans (by simp only [Width.bytes]; omega)
  rw [peek_bios s (by omega), hlane, hm, Memory.get_nil_bios (by omega), biosStubByte_eq n hk]

/-- Settles O52: each field of the reset state, the I/O block register by register, and the BIOS image word by word. -/
theorem resetValues : Obligations.ResetValues := by
  unfold Obligations.ResetValues
  dsimp only
  refine ⟨rfl, rfl, rfl, rfl, rfl, rfl, ?regs, ?spsrs, ?dispcnt, ?keyinputLow, ?keyinputHigh, ?postflg, ?io,
    rfl, rfl, rfl, rfl, rfl, rfl, ?dma, fun n hn => wordAt_bios rfl hn⟩
  case regs =>
    intro r hr
    cases r
    case r13 | r13Irq | r13Svc => exact absurd (by decide) hr
    all_goals rfl
  case spsrs =>
    intro m h1 h2
    cases m
    case usr => exact absurd rfl h1
    case sys => exact absurd rfl h2
    all_goals rfl
  case dispcnt | keyinputLow | keyinputHigh | postflg => decide
  case io => exact fun o ho hne => by rw [peek_ioBlock _ ho]; exact ioReadByte_reset hne
  case dma =>
    intro k
    rw [show State.reset.dma = Vector.replicate 4 DmaChannel.reset from rfl]
    simp [DmaChannel.reset]

end Sys2Proof.Machine
end

section
/-! PROOFS. Memory and the bus: the canonical form, the address map with its mirrors, the 8-bit buses, and the save
memory's commands. -/

namespace Sys2Proof.Machine

/-- Settles O7: every kind of step keeps memory canonical (`step_keeps`). -/
theorem stepKeepsMemoryCanonical : Obligations.StepKeepsMemoryCanonical := fun _ _ hs h => (step_keeps h).mem hs

/-! ### The address map and its mirrors -/

/-- Nothing is mapped from 0x10000000 on (20_memory R201). -/
theorem regionOf_high {a : Word} (h : 0x10000000 ≤ a.toNat) : regionOf a = .unmapped := by
  have h24 := shiftRight24_toNat a
  unfold regionOf
  split
  case h_16 => rfl
  all_goals omega

theorem regionOf_vram {a : Word} : regionOf a = .vram ↔ a.toNat / 2 ^ 24 = 6 := by
  rw [← shiftRight24_toNat]
  constructor
  · intro h
    unfold regionOf at h
    split at h
    case h_6 hv => exact hv
    case h_1 | h_4 => split at h <;> cases h
    all_goals cases h
  · intro h
    simp only [regionOf, h]

/-- The size of the block that a region's mirrors repeat (20_memory R206-R211, R213); 0 for a region without such
mirrors. -/
def Region.mirrorSize : Region → Nat
  | .ewram => 2 ^ 18
  | .iwram => 2 ^ 15
  | .palette | .oam => 2 ^ 10
  | .vram => 0x20000
  | .save => 0x10000
  | .bios | .io | .rom _ | .unmapped => 0

theorem bytes_dvd_mirrorSize (w : Width) (r : Region) : w.bytes ∣ r.mirrorSize := by
  cases r with
  | bios | io | rom _ | unmapped => exact dvd_zero _
  | ewram | iwram | palette | vram | oam | save => cases w <;> decide

theorem memoryLocation_mirror {r : Region} (hr : r.isMemory = true) {m n : Nat} (h : m ≡ n [MOD r.mirrorSize]) :
    memoryLocation r m = memoryLocation r n := by
  cases r with
  | bios | io | rom _ | save | unmapped => cases hr
  | ewram | iwram | palette | oam | vram => simp only [memoryLocation, Nat.ModEq, Region.mirrorSize] at h ⊢; rw [h]

/-- Aligning two addresses keeps them mirrors of each other. -/
theorem modEq_align {w : Width} {size m n : Nat} (hd : w.bytes ∣ size) (h : m ≡ n [MOD size]) :
    m / w.bytes * w.bytes ≡ n / w.bytes * w.bytes [MOD size] := by
  have hlow : m % w.bytes = n % w.bytes := h.of_dvd hd
  refine Nat.ModEq.add_right_cancel' (m % w.bytes) ?_
  rw [Nat.div_add_mod']
  rw [hlow, Nat.div_add_mod']
  exact h

section
variable {a b : Word}

theorem locationOf_mirror (s : State) (w : Width) (ha : (regionOf a).isMemory = true) (hr : regionOf b = regionOf a)
    (h : a.toNat ≡ b.toNat [MOD (regionOf a).mirrorSize]) : locationOf s (w.align b) = locationOf s (w.align a) := by
  rw [locationOf_align s w ha, locationOf_align s w (hr ▸ ha), hr,
    memoryLocation_mirror ha (modEq_align (bytes_dvd_mirrorSize w _) h)]

theorem narrowDoubles_mirror (s : State) (hr : regionOf b = regionOf a)
    (h : a.toNat ≡ b.toNat [MOD (regionOf a).mirrorSize]) : narrowDoubles s b = narrowDoubles s a := by
  unfold narrowDoubles
  rw [hr]
  split
  · rfl
  · next hv =>
    rw [hv] at h
    rw [vramOffset_toNat, vramOffset_toNat, show a.toNat % 0x20000 = b.toNat % 0x20000 from h]
  · rfl

theorem saveOffset_toNat (a : Word) : saveOffset a = a.toNat % 0x10000 := toNat_and_mask a (n := 16) (by omega)

/-- A save-memory write stores the byte lane of its address (20_memory R223). -/
theorem saveLane_eq (w : Width) (a v : Word) : saveLane w a v = byteOf v (a.toNat % w.bytes) := by
  cases w
  · exact congrArg (byteOf v) (Nat.mod_one _).symm
  · exact congrArg (byteOf v) (toNat_and_mask a (n := 1) (by omega))
  · exact congrArg (byteOf v) (toNat_and_mask a (n := 2) (by omega))

theorem busWrite_save (s : State) (w : Width) (h : regionOf a = .save) (v : Word) :
    busWrite s w a v = saveWrite s (a.toNat % 0x10000) (byteOf v (a.toNat % w.bytes)) := by
  simp only [busWrite, h, saveOffset_toNat, saveLane_eq]

theorem peek_save (s : State) (h : regionOf a = .save) : peek s a = some (saveRead s (a.toNat % 0x10000)) := by
  simp only [peek, h, saveOffset_toNat]

/-- Two names of one byte of memory, or of save memory, read it. -/
theorem peek_mirror (s : State) (hm : (regionOf a).isMemory = true ∨ regionOf a = .save) (hr : regionOf b = regionOf a)
    (h : a.toNat ≡ b.toNat [MOD (regionOf a).mirrorSize]) : peek s a = peek s b := by
  rcases hm with hm | hm
  · have hl := locationOf_memory s hm
    have hl' : locationOf s b = locationOf s a := locationOf_mirror s .byte hm hr h
    rw [peek_of_location s hm hl, peek_of_location s (hr ▸ hm) (hl'.trans hl)]
  · rw [peek_save s hm, peek_save s (hr.trans hm)]
    rw [hm] at h
    rw [show a.toNat % 0x10000 = b.toNat % 0x10000 from h]

/-- A write through either name does the same. -/
theorem busWrite_mirror (s : State) (w : Width) (v : Word) (hm : (regionOf a).isMemory = true ∨ regionOf a = .save)
    (hr : regionOf b = regionOf a) (h : a.toNat ≡ b.toNat [MOD (regionOf a).mirrorSize]) :
    busWrite s w a v = busWrite s w b v := by
  rcases hm with hm | hm
  · have hl := locationOf_mirror s w hm hr h
    have hd := narrowDoubles_mirror s hr h
    simp only [busWrite, videoWrite, hr, hl, hd]
    cases hra : regionOf a <;> rw [hra] at hm <;> first | rfl | cases hm
  · have hw : a.toNat % w.bytes = b.toNat % w.bytes := h.of_dvd (bytes_dvd_mirrorSize w _)
    rw [busWrite_save s w hm, busWrite_save s w (hr.trans hm), hw]
    rw [hm] at h
    rw [show a.toNat % 0x10000 = b.toNat % 0x10000 from h]

/-- The upper 32 KiB of a VRAM block mirror the 32 KiB below (20_memory R210). -/
theorem peek_vram_upper (s : State) (h : regionOf a = .vram) (hu : 0x18000 ≤ a.toNat % 0x20000) :
    peek s a = peek s (a - 0x8000#32) := by
  have hsub : (a - 0x8000#32).toNat = a.toNat - 0x8000 := BitVec.toNat_sub_of_le (by rw [BitVec.le_def]; simp; omega)
  have h6 := regionOf_vram.mp h
  have hb : regionOf (a - 0x8000#32) = .vram := regionOf_vram.mpr (by rw [hsub]; omega)
  have hloc : memoryLocation .vram a.toNat = memoryLocation .vram (a.toNat - 0x8000) := by
    unfold memoryLocation
    dsimp only
    rw [if_pos hu, if_neg (by omega)]
    omega
  have hl := locationOf_memory s (a := a) (by rw [h]; rfl)
  have hl' := locationOf_memory s (a := a - 0x8000#32) (by rw [hb]; rfl)
  rw [h, hloc] at hl
  rw [hb, hsub] at hl'
  rw [peek_of_location s (by rw [h]; rfl) hl, peek_of_location s (by rw [hb]; rfl) hl']

/-- The three ROM windows show one image, and open bus behind its length (20_memory R212). -/
theorem peek_rom (s : State) {g : Fin 3} (h : regionOf a = .rom g) :
    peek s a = if a.toNat % 0x2000000 < s.params.romLength.val then some (Memory.get s.mem (romBase + a.toNat % 0x2000000))
      else openBusByte s a := by
  have hmask : (a &&& 0x1FFFFFF#32).toNat = a.toNat % 0x2000000 := toNat_and_mask a (n := 25) (by omega)
  simp only [peek, locationOf, h, hmask]
  by_cases hl : a.toNat % 0x2000000 < s.params.romLength.val <;> simp only [hl, if_true, if_false]

theorem openBusByte_mirror (s : State) (h : a.toNat % 4 = b.toNat % 4) : openBusByte s a = openBusByte s b := by
  have hmask : ∀ c : Word, (c &&& 3#32).toNat = c.toNat % 4 := fun c => toNat_and_mask c (n := 2) (by omega)
  simp only [openBusByte, hmask, h]

theorem openBusByte_draw (s : State) (a : Word) (h : s.params.openBus = .draw) : openBusByte s a = none := by
  simp only [openBusByte, h]

end

/-! ### Plain writes -/

theorem byteOf_truncate (w : Width) (v : Word) {k : Nat} (hk : k < w.bytes) : byteOf (w.truncate v) k = byteOf v k := by
  apply BitVec.eq_of_getLsbD_eq
  intro i hi
  cases w <;> simp only [Width.bytes] at hk <;> interval_cases k <;> interval_cases i <;>
    simp [byteOf, Width.truncate]

theorem truncate_truncate (w : Width) (v : Word) : w.truncate (w.truncate v) = w.truncate v := by
  cases w <;> simp [Width.truncate, BitVec.and_assoc]

/-- Stored bytes read back at the width of the store. -/
theorem busRead_of_storedBytes {t : State} {w : Width} {a v : Word} (hr : regionOf a ≠ .save)
    (h : StoredBytes w a v t) : busRead t w a = w.truncate v :=
  (readsAs_of_lanes hr (truncate_truncate w v) fun k hk => by rw [byteOf_truncate w v hk]; exact h k hk).busRead
    (SameBus.refl t)

theorem isMemory_ne_save {r : Region} (h : r.isMemory = true) : r ≠ .save := by rintro rfl; cases h

/-- Settles O53: a plain write reads back by `storedBytes_busWrite`; mirrors have one location (`peek_mirror`,
`busWrite_mirror`); the ROM windows show one image (`peek_rom`). -/
theorem memoryMap : Obligations.MemoryMap := by
  intro s w a b v hs
  refine ⟨fun hp => ?plain, fun e he ha hb h => ?mirror, peek_vram_upper s, fun g k ha hb h => ?rom, regionOf_high, ?readOnly⟩
  case plain =>
    obtain ⟨hm, hn⟩ := storesPlainly_isMemory hp
    exact busRead_of_storedBytes (isMemory_ne_save hm) (storedBytes_busWrite hs w hm hn v)
  case mirror =>
    have he' : e.2 = e.1.mirrorSize ∧ (e.1.isMemory = true ∨ e.1 = .save) := by
      clear ha hb h
      revert e
      decide
    obtain ⟨hsize, hm⟩ := he'
    rw [← ha] at hm hb hsize
    rw [hsize] at h
    exact ⟨peek_mirror s hm hb h, busWrite_mirror s w v hm hb h⟩
  case rom =>
    rw [peek_rom s ha, peek_rom s hb, h, openBusByte_mirror s (a := a) (b := b) (by omega)]
    exact ⟨rfl, fun hlen hd => by rw [if_neg (by omega), openBusByte_draw s b hd]⟩
  case readOnly =>
    rintro (h | h | ⟨g, h⟩) <;> simp only [busWrite, h]

/-! ### The 8-bit buses -/

theorem displayMode_toNat (h : Half) : (h.extractLsb' 0 3).toNat = h.toNat % 8 := by
  rw [BitVec.extractLsb'_toNat, Nat.shiftRight_zero]

/-- The border of the object area by DISPCNT's mode, for the modes R222 names. -/
theorem narrowLimit_eq (s : State) :
    narrowLimit s = if 3 ≤ s.ppu.dispcnt.toNat % 8 ∧ s.ppu.dispcnt.toNat % 8 ≤ 5 then 0x14000 else 0x10000 := by
  simp only [narrowLimit, displayMode_toNat]

/-- An 8-bit write under the quirk, where it doubles the byte, is a 16-bit write of the byte twice (20_memory R222). -/
theorem busWrite_doubled {s : State} {a : Word} (hq : s.params.narrowVideoWrites = .quirk)
    (hd : narrowDoubles s a = true) (v : Word) :
    busWrite s .byte a v = busWrite s .half a (wordOfBytes (byteOf v 0) (byteOf v 0) 0 0) := by
  have hv : regionOf a = .palette ∨ regionOf a = .vram := by
    unfold narrowDoubles at hd
    split at hd
    · next h => exact .inl h
    · next h => exact .inr h
    · cases hd
  have hm : (regionOf a).isMemory = true := by rcases hv with h | h <;> rw [h] <;> rfl
  rw [busWrite_plain s .half hm (fun h => nomatch h), Width.bytes, ← memoryLocation_half _ hm]
  rcases hv with h | h <;>
    simp [busWrite, h, videoWrite, Width.align, locationOf_memory s hm, hq, hd]

/-- Elsewhere in video memory it does nothing. -/
theorem busWrite_ignored {s : State} {a : Word} (hv : regionOf a = .oam ∨ regionOf a = .vram)
    (hq : s.params.narrowVideoWrites = .quirk) (hd : narrowDoubles s a = false) (v : Word) : busWrite s .byte a v = s := by
  have hm : (regionOf a).isMemory = true := by rcases hv with h | h <;> rw [h] <;> rfl
  rcases hv with h | h <;>
    simp [busWrite, h, videoWrite, Width.align, locationOf_memory s hm, hq, hd]

theorem byteOf_ushiftRight (v : Word) (k : Nat) : byteOf (v >>> (8 * k)) 0 = byteOf v k := by
  apply BitVec.eq_of_getLsbD_eq
  intro i hi
  simp [byteOf, hi]

/-- The read of a save-memory byte repeats it at every width (20_memory R223). -/
theorem busRead_save {s : State} {a : Word} (h : regionOf a = .save) {b : Byte} (hb : peek s a = some b) (w : Width) :
    busRead s w a = w.truncate (b ++ b ++ b ++ b) := by
  rw [peek_save s h, Option.some.injEq, ← saveOffset_toNat] at hb
  simp only [busRead, h, hb, wordOfBytes]

/-- Settles O54: the two kinds of 8-bit video write by whether the byte is doubled, and the save bus. -/
theorem eightBitBuses : Obligations.EightBitBuses := by
  intro s w a v
  refine ⟨fun hs hq => ?video, fun hr b hb => ⟨busRead_save hr hb w, ?write⟩⟩
  case video =>
    dsimp only
    have hvram : regionOf a = .vram → narrowDoubles s a = decide (vramOffset a < narrowLimit s) := fun h => by
      simp only [narrowDoubles, h]
    rw [vramOffset_toNat, narrowLimit_eq] at hvram
    generalize s.ppu.dispcnt.toNat % 8 = mode at hvram ⊢
    generalize (if 0x18000 ≤ a.toNat % 0x20000 then _ else _ : Nat) = o at hvram ⊢
    refine ⟨?doubled, ?ignored⟩
    case doubled =>
      rintro hr t rfl
      have hm : (regionOf a).isMemory = true := by rcases hr with h | ⟨h, -⟩ <;> rw [h] <;> rfl
      have hd : narrowDoubles s a = true := by
        rcases hr with h | ⟨h, hb⟩
        · simp only [narrowDoubles, h]
        · rw [hvram h, decide_eq_true_eq]
          split <;> omega
      refine ⟨?_, storeFrame_busWrite hs .byte a v⟩
      rw [busWrite_doubled hq hd]
      exact storedBytes_busWrite hs .half hm (fun h => nomatch h) _
    case ignored =>
      intro hr
      refine busWrite_ignored (hr.imp_right And.left) hq ?_ v
      rcases hr with h | ⟨h, hb⟩
      · simp only [narrowDoubles, h]
      · rw [hvram h, decide_eq_false_iff_not]
        split <;> omega
  case write => rw [busWrite_save s w hr, busWrite_save s .byte hr, Width.bytes, Nat.mod_one, byteOf_ushiftRight]

/-! ### The save memory -/

/-- The address of offset `k` in the save window. -/
def saveAddr (k : Nat) : Word := 0x0E000000#32 + BitVec.ofNat 32 k

/-- An 8-bit write of a byte at an offset of the save window. -/
def savePut (t : State) (e : Nat × Byte) : State := busWrite t .byte (saveAddr e.1) (e.2.setWidth 32)

/-- The unlock sequence, the first two writes of every Flash command (20_memory R245, R251). -/
def flashUnlock : List (Nat × Byte) := [(0x5555, 0xAA#8), (0x2AAA, 0x55#8)]

/-- The writes before the last one of an erase command (20_memory R251). -/
def flashEraseUnlock : List (Nat × Byte) := flashUnlock ++ [(0x5555, 0x80#8)] ++ flashUnlock

section
variable {s : State} {o p : Nat} {a : Word} {b : Byte}

theorem saveAddr_toNat (h : o < 0x10000) : (saveAddr o).toNat = 0x0E000000 + o := by
  rw [saveAddr, BitVec.toNat_add, BitVec.toNat_ofNat, BitVec.toNat_ofNat]
  omega

theorem regionOf_saveAddr (h : o < 0x10000) : regionOf (saveAddr o) = .save := by
  have e : (saveAddr o >>> 24).toNat = 14 := by rw [shiftRight24_toNat, saveAddr_toNat h]; omega
  simp only [regionOf, e]

theorem peek_saveAddr (h : o < 0x10000) : peek s (saveAddr o) = some (saveRead s o) := by
  rw [peek_save s (regionOf_saveAddr h), saveAddr_toNat h, show (0x0E000000 + o) % 0x10000 = o by omega]

theorem savePut_eq (h : o < 0x10000) : savePut s (o, b) = saveWrite s o b := by
  have hb : byteOf (b.setWidth 32) 0 = b := by
    apply BitVec.eq_of_getLsbD_eq
    intro i hi
    simp [byteOf, hi]
    omega
  rw [savePut, busWrite_save s .byte (regionOf_saveAddr h), saveAddr_toNat h,
    show (0x0E000000 + o) % 0x10000 = o by omega, Width.bytes, Nat.mod_one, hb]

/-! #### Reads -/

/-- What a save-memory read depends on. -/
theorem saveRead_congr {t : State} (hm : t.mem = s.mem) (hk : t.save.kind = s.save.kind)
    (hb : t.save.bank = s.save.bank) (hi : t.save.idMode = s.save.idMode) (hp : t.params = s.params) (o : Nat) :
    saveRead t o = saveRead s o := by
  simp only [saveRead, saveLocation, hm, hk, hb, hi, hp]

/-- Outside the identity mode a read gives the byte of the buffer. -/
theorem saveRead_buffer (h : s.save.kind = .sram ∨ s.save.idMode = false) (o : Nat) :
    saveRead s o = Memory.get s.mem (saveLocation s.save o) := by
  rcases h with h | h
  · simp only [saveRead, h]
  · simp only [saveRead, h, Bool.false_and]
    split <;> rfl

theorem saveRead_saveStore (hs : s.MemoryInv) (h : s.save.kind = .sram ∨ s.save.idMode = false) :
    saveRead (saveStore s p b) o = if o = p then b else saveRead s o := by
  have hl : saveLocation (saveStore s p b).save o = saveLocation s.save o := rfl
  rw [saveRead_buffer h, saveRead_buffer (s := saveStore s p b) h, hl]
  exact (Memory.get_put hs.mem _ _ b).trans (if_congr saveLocation_inj rfl rfl)

theorem saveRead_flashErase (hk : s.save.kind = .flash) (hi : s.save.idMode = false) (lo n : Nat) :
    saveRead (flashErase s lo n) o =
      if lo ≤ (if s.save.bank then 0x10000 else 0) + o ∧ (if s.save.bank then 0x10000 else 0) + o < lo + n then 0xFF#8
      else saveRead s o := by
  rw [saveRead_buffer (.inr hi), saveRead_buffer (s := flashErase s lo n) (.inr hi)]
  refine (Memory.get_fill ..).trans ?_
  simp only [saveLocation, hk, flashErase]
  congr 1
  apply propext
  omega

/-! #### SRAM -/

theorem sramWrite_saveRequired : (sramWrite s o b).save.saveRequired = true := by
  unfold sramWrite
  dsimp only
  split <;> rfl

/-- Away from the unlock offset an SRAM write stores, and records the first unlock byte. -/
theorem sramWrite_of_ne (h : o ≠ 0x2AAA) : sramWrite s o b = { saveStore s o b with
    save := { (saveStore s o b).save with sawAA := o == 0x5555 && b == 0xAA#8 } } := by
  have h' : (o == 0x2AAA) = false := beq_eq_false_iff_ne.mpr h
  simp only [sramWrite, h', Bool.and_false, Bool.false_and, Bool.false_eq_true, if_false]

/-- An SRAM write stores its byte, and nothing else changes what the window reads. -/
theorem sram_write (hs : s.MemoryInv) (hk : s.save.kind = .sram) (ho : o < 0x10000) :
    (savePut s (o, b)).save.saveRequired = true ∧
      (o ≠ 0x2AAA → peek (savePut s (o, b)) (saveAddr o) = some b ∧ (savePut s (o, b)).save.kind = .sram ∧
        (regionOf a = .save → a.toNat % 0x10000 ≠ o → peek (savePut s (o, b)) a = peek s a)) := by
  have hput : savePut s (o, b) = sramWrite s o b := by rw [savePut_eq ho, saveWrite, hk]
  rw [hput]
  refine ⟨sramWrite_saveRequired, fun hne => ?_⟩
  have hread : ∀ p, saveRead (sramWrite s o b) p = if p = o then b else saveRead s p := fun p => by
    rw [sramWrite_of_ne hne]
    exact (saveRead_congr rfl rfl rfl rfl rfl p).trans (saveRead_saveStore hs (.inl hk))
  refine ⟨?_, ?_, fun ha hao => ?_⟩
  · rw [peek_saveAddr ho, hread, if_pos rfl]
  · rw [sramWrite_of_ne hne]; exact hk
  · rw [peek_save _ ha, hread, if_neg hao, peek_save _ ha]

theorem sram_unlock (hk : s.save.kind = .sram) : (flashUnlock.foldl savePut s).save =
    { s.save with kind := .flash, sawAA := false, flashState := .unlock2, saveRequired := true } := by
  simp [flashUnlock, savePut_eq, saveWrite, sramWrite, saveStore, hk]

/-! #### Flash commands: the state machine, one transition per lemma -/

@[simp] theorem setFlashState_setFlashState (f g : FlashState) :
    (s.setFlashState f).setFlashState g = s.setFlashState g := rfl

theorem setFlashState_self {f : FlashState} (h : s.save.flashState = f) : s.setFlashState f = s := by
  subst h; rfl

/-- In Flash a write is a step of the command state machine. -/
theorem savePut_flash (hk : s.save.kind = .flash) (ho : o < 0x10000) : savePut s (o, b) = flashWrite s o b := by
  rw [savePut_eq ho, saveWrite, hk]

theorem unlock_flash (hk : s.save.kind = .flash) (hr : s.save.flashState = .ready) :
    flashUnlock.foldl savePut s = s.setFlashState .unlock2 := by
  simp [flashUnlock, savePut_flash, flashWrite, hk, hr]

/-- The third write of a command. -/
theorem savePut_command (hk : s.save.kind = .flash) (c : Byte) :
    savePut (s.setFlashState .unlock2) (0x5555, c) = flashCommand (s.setFlashState .unlock2) 0x5555 c :=
  savePut_flash (s := s.setFlashState .unlock2) hk (by decide)

theorem eraseUnlock_flash (hk : s.save.kind = .flash) (hr : s.save.flashState = .ready) :
    flashEraseUnlock.foldl savePut s = s.setFlashState .eraseUnlock2 := by
  have h80 : savePut (s.setFlashState .unlock2) (0x5555, 0x80#8) = s.setFlashState .eraseReady := savePut_command hk _
  rw [flashEraseUnlock, List.foldl_append, List.foldl_append, unlock_flash hk hr, List.foldl_cons, List.foldl_nil, h80]
  simp [flashUnlock, savePut_flash, flashWrite, hk]

theorem program_flash (hk : s.save.kind = .flash) (hr : s.save.flashState = .ready) (ho : o < 0x10000) :
    (flashUnlock ++ [(0x5555, 0xA0#8), (o, b)]).foldl savePut s = saveStore s o b := by
  have hA0 : savePut (s.setFlashState .unlock2) (0x5555, 0xA0#8) = s.setFlashState .writeByte := savePut_command hk _
  have hput : savePut (s.setFlashState .writeByte) (o, b) = saveStore (s.setFlashState .ready) o b :=
    savePut_flash (s := s.setFlashState .writeByte) hk ho
  rw [List.foldl_append, unlock_flash hk hr, List.foldl_cons, hA0, List.foldl_cons, hput, List.foldl_nil,
    setFlashState_self hr]

theorem sectorErase_flash (hk : s.save.kind = .flash) (hr : s.save.flashState = .ready) (ho : o < 0x10000) :
    (flashEraseUnlock ++ [(o, 0x30#8)]).foldl savePut s =
      flashErase s ((if s.save.bank then 0x10000 else 0) + o / 0x1000 * 0x1000) 0x1000 := by
  rw [List.foldl_append, eraseUnlock_flash hk hr, List.foldl_cons, List.foldl_nil,
    savePut_flash (s := s.setFlashState .eraseUnlock2) hk ho]
  have hcmd : ¬(o == 0x5555 && 0x30#8 == 0x10#8) = true := by simp
  exact (if_neg hcmd).trans ((if_pos rfl).trans (by rw [setFlashState_setFlashState, setFlashState_self hr]; rfl))

theorem chipErase_flash (hk : s.save.kind = .flash) (hr : s.save.flashState = .ready) :
    (flashEraseUnlock ++ [(0x5555, 0x10#8)]).foldl savePut s = flashErase s 0 0x20000 := by
  rw [List.foldl_append, eraseUnlock_flash hk hr, List.foldl_cons, List.foldl_nil,
    savePut_flash (s := s.setFlashState .eraseUnlock2) hk (by decide)]
  simp [flashWrite, setFlashState_self hr]

theorem bankSwitch_flash (hk : s.save.kind = .flash) (hr : s.save.flashState = .ready) :
    (flashUnlock ++ [(0x5555, 0xB0#8), (0, b)]).foldl savePut s =
      { s with save := { s.save with bank := b.getLsbD 0 } } := by
  have hB0 : savePut (s.setFlashState .unlock2) (0x5555, 0xB0#8) = s.setFlashState .bankSelect := savePut_command hk _
  rw [List.foldl_append, unlock_flash hk hr, List.foldl_cons, hB0, List.foldl_cons, List.foldl_nil,
    savePut_flash (s := s.setFlashState .bankSelect) hk (by decide)]
  simp [flashWrite, setFlashState_self hr]

/-- Enter or leave the Flash identity mode. -/
def State.setIdMode (s : State) (m : Bool) : State := { s with save := { s.save with idMode := m } }

@[simp] theorem setIdMode_setIdMode (m n : Bool) : (s.setIdMode m).setIdMode n = s.setIdMode n := rfl

theorem setIdMode_self {m : Bool} (h : s.save.idMode = m) : s.setIdMode m = s := by
  subst h; rfl

/-- The identity command and its exit set and clear the identity mode. -/
theorem identity_flash (hk : s.save.kind = .flash) (hr : s.save.flashState = .ready) :
    (flashUnlock ++ [(0x5555, 0x90#8)]).foldl savePut s = s.setIdMode true ∧
    (flashUnlock ++ [(0x5555, 0xF0#8)]).foldl savePut s = s.setIdMode false := by
  have h90 : savePut (s.setFlashState .unlock2) (0x5555, 0x90#8) = (s.setFlashState .ready).setIdMode true :=
    savePut_command hk _
  have hF0 : savePut (s.setFlashState .unlock2) (0x5555, 0xF0#8) = (s.setFlashState .ready).setIdMode false :=
    savePut_command hk _
  rw [List.foldl_append, List.foldl_append, unlock_flash hk hr, List.foldl_cons, List.foldl_cons, h90, hF0,
    List.foldl_nil, List.foldl_nil, setFlashState_self hr]
  exact ⟨rfl, rfl⟩

end

/-- Settles O55: each command's writes are one operation on the save memory, and its reads follow from that. -/
theorem saveMemoryCommands : Obligations.SaveMemoryCommands := by
  intro s o b a hs ho
  dsimp only
  refine ⟨fun hk => ?sram, fun ⟨hk, hr⟩ ha hi => ?flash⟩
  case sram =>
    obtain ⟨hreq, hbyte⟩ := sram_write (a := a) (b := b) hs hk ho
    exact ⟨hreq, hbyte, sram_unlock hk⟩
  case flash =>
    refine ⟨fun t ht => ?program, fun t ht => ?sector, fun t ht => ?chip, fun t ht => ?bank, fun t ht => ?identity⟩
    case program =>
      obtain rfl : t = saveStore s o b := ht.trans (program_flash hk hr ho)
      refine ⟨?_, hk, hr⟩
      rw [peek_save _ ha, peek_save _ ha, saveRead_saveStore hs (.inr hi), apply_ite some]
    case sector =>
      obtain rfl := ht.trans (sectorErase_flash hk hr ho)
      refine ⟨?_, hk, hr⟩
      rw [peek_save _ ha, peek_save _ ha, saveRead_flashErase hk hi, apply_ite some]
      congr 1
      apply propext
      omega
    case chip =>
      obtain rfl := ht.trans (chipErase_flash hk hr)
      refine ⟨?_, hk, hr⟩
      rw [peek_save _ ha, saveRead_flashErase hk hi, if_pos (by split <;> omega)]
    case bank => exact ht.trans (bankSwitch_flash hk hr)
    case identity =>
      obtain rfl : t = s.setIdMode true := ht.trans (identity_flash hk hr).1
      have hexit : (flashUnlock ++ [(0x5555, 0xF0#8)]).foldl savePut (s.setIdMode true) = (s.setIdMode true).setIdMode false :=
        (identity_flash (s := s.setIdMode true) hk hr).2
      rw [setIdMode_setIdMode, setIdMode_self hi] at hexit
      refine ⟨(peek_saveAddr (by decide)).trans ?_, (peek_saveAddr (by decide)).trans ?_, hexit⟩
      all_goals simp [saveRead, State.setIdMode, hk]

end Sys2Proof.Machine
end

section
/-! PROOFS. Encoding: the first row of a table that fits, the fields of joined words, and the reserved ARM rows. -/

namespace Sys2Proof

/-! ### The first row that fits -/

/-- Where every entry has a row of its own, the first entry that fits is entry `i` exactly if `i` fits and none before it. -/
theorem map_find?_eq_row_iff {T R : Type} {row : T → R} {fits : T → Bool} {l : List T} (hl : (l.map row).Nodup) {i : Nat}
    (hi : i < l.length) :
    (l.find? fits).map row = some (row l[i]) ↔ fits l[i] = true ∧ ∀ u ∈ l.take i, fits u = false := by
  induction l generalizing i with
  | nil => cases hi
  | cons t l ih =>
    obtain ⟨ht, hl⟩ := List.nodup_cons.mp hl
    have hne : ∀ u ∈ l, row u ≠ row t := fun u hu h => ht (h ▸ List.mem_map_of_mem hu)
    cases hf : fits t with
    | true =>
      rw [List.find?_cons_of_pos hf]
      cases i with
      | zero => simp [hf]
      | succ i =>
        have hi' : i < l.length := Nat.lt_of_succ_lt_succ hi
        simp [hf, (hne _ (List.getElem_mem hi')).symm]
    | false =>
      rw [List.find?_cons_of_neg (by simp [hf])]
      cases i with
      | zero =>
        have : ∀ u, l.find? fits = some u → row u ≠ row t := fun u hu => hne u (List.mem_of_find?_eq_some hu)
        simpa [hf] using this
      | succ i => simpa [hf] using ih hl (Nat.lt_of_succ_lt_succ hi)

/-- A word that meets two masked values: the bits both masks fix agree. -/
theorem masked_agree {n : Nat} {x m v m' v' : BitVec n} (h : x &&& m = v) (h' : x &&& m' = v') :
    m &&& m' &&& (v ^^^ v') = 0#n := by
  subst h h'
  ext i
  simp
  grind

/-- A masked value whose mask and value lie in another's. -/
theorem masked_of_covers {n : Nat} {x m v m' v' : BitVec n} (h : x &&& m = v) (hm : m' &&& m = m') (hv : v &&& m' = v') :
    x &&& m' = v' := by
  rw [← hv, ← h, BitVec.and_assoc, BitVec.and_comm m, hm]

/-- The bits that a mask fixes. -/
theorem extract_of_masked {n k l : Nat} {x m v : BitVec n} (h : x &&& m = v) (hm : m.extractLsb' k l = BitVec.allOnes l) :
    v.extractLsb' k l = x.extractLsb' k l := by
  rw [← h, BitVec.extractLsb'_and, hm, BitVec.and_allOnes]

/-- Two ARM rows fix one of the bits 27:20 or 7:4 to different values. -/
def ArmPattern.clashes (t u : ArmPattern) : Bool :=
  t.mask.op &&& u.mask.op &&& (t.value.op ^^^ u.value.op) != 0#8 ||
    t.mask.lo &&& u.mask.lo &&& (t.value.lo ^^^ u.value.lo) != 0#4

theorem ArmRow.ctorIdx_lt (r : ArmRow) : r.ctorIdx < armTable.length := by cases r <;> decide

/-- The ARM row's entry in the table, which lists the rows in the order of their declaration. -/
def ArmRow.pattern (r : ArmRow) : ArmPattern := armTable[r.ctorIdx]'(ArmRow.ctorIdx_lt r)

/-- A word fits a row of the table. -/
def ArmRow.fits (r : ArmRow) (p : ArmParts) : Bool := r.pattern.fits p

/-- Every word of the second ARM row fits the first. -/
def ArmPattern.covers (t u : ArmPattern) : Bool :=
  t.mask.op &&& u.mask.op == t.mask.op && u.value.op &&& t.mask.op == t.value.op &&
    t.mask.lo &&& u.mask.lo == t.mask.lo && u.value.lo &&& t.mask.lo == t.value.lo &&
    t.mask.a &&& u.mask.a == t.mask.a && u.value.a &&& t.mask.a == t.value.a &&
    t.mask.b &&& u.mask.b == t.mask.b && u.value.b &&& t.mask.b == t.value.b &&
    t.mask.c &&& u.mask.c == t.mask.c && u.value.c &&& t.mask.c == t.value.c &&
    t.mask.d &&& u.mask.d == t.mask.d && u.value.d &&& t.mask.d == t.value.d &&
    t.mask.cond &&& u.mask.cond == t.mask.cond && u.value.cond &&& t.mask.cond == t.value.cond

/-- The listed rows stand before the row in the table and cover every earlier row that shares a word with it. -/
def ArmRow.firstUnless (r : ArmRow) (rivals : List ArmRow) : Bool :=
  rivals.all (fun q => q.ctorIdx < r.ctorIdx) &&
    (armTable.take r.ctorIdx).all fun u => u.clashes r.pattern || rivals.any (·.pattern.covers u)

theorem ArmRow.row_pattern (r : ArmRow) : r.pattern.row = r := by cases r <;> rfl

theorem ArmPattern.fits_iff (t : ArmPattern) (p : ArmParts) :
    t.fits p = true ↔ p.op &&& t.mask.op = t.value.op ∧ p.lo &&& t.mask.lo = t.value.lo ∧ p.a &&& t.mask.a = t.value.a ∧
      p.b &&& t.mask.b = t.value.b ∧ p.c &&& t.mask.c = t.value.c ∧ p.d &&& t.mask.d = t.value.d ∧
      p.cond &&& t.mask.cond = t.value.cond := by
  simp only [ArmPattern.fits, Bool.and_eq_true, beq_iff_eq, and_assoc]

theorem ArmPattern.fits_of_clashes {t u : ArmPattern} (h : u.clashes t = true) {p : ArmParts} (ht : t.fits p = true) :
    u.fits p = false := by
  by_contra hu
  obtain ⟨hop, hlo, -⟩ := (t.fits_iff p).mp ht
  obtain ⟨hop', hlo', -⟩ := (u.fits_iff p).mp (by simpa using hu)
  simp [ArmPattern.clashes, masked_agree hop' hop, masked_agree hlo' hlo] at h

theorem ArmPattern.fits_of_covers {t u : ArmPattern} (h : t.covers u = true) {p : ArmParts} (hu : u.fits p = true) :
    t.fits p = true := by
  rw [ArmPattern.fits_iff] at hu ⊢
  obtain ⟨hop, hlo, ha, hb, hc, hd, hcond⟩ := hu
  simp only [ArmPattern.covers, Bool.and_eq_true, beq_iff_eq, and_assoc] at h
  obtain ⟨op, op', lo, lo', a, a', b, b', c, c', d, d', cond, cond'⟩ := h
  exact ⟨masked_of_covers hop op op', masked_of_covers hlo lo lo', masked_of_covers ha a a', masked_of_covers hb b b',
    masked_of_covers hc c c', masked_of_covers hd d d', masked_of_covers hcond cond cond'⟩

/-- The row of an ARM word: the word fits it, and no entry before it. -/
theorem armRow_eq_some_iff_take {r : ArmRow} {p : ArmParts} :
    armRow p = some r ↔ r.fits p = true ∧ ∀ u ∈ armTable.take r.ctorIdx, u.fits p = false := by
  have h : armRow p = some r.pattern.row ↔ _ :=
    map_find?_eq_row_iff (row := ArmPattern.row) (fits := (·.fits p)) (by decide +kernel) r.ctorIdx_lt
  rwa [r.row_pattern] at h

/-- The row of an ARM word: the word fits it, and none of its rivals. -/
theorem armRow_eq_some_iff {r : ArmRow} {rivals : List ArmRow} (h : r.firstUnless rivals = true) {p : ArmParts} :
    armRow p = some r ↔ r.fits p = true ∧ ∀ q ∈ rivals, ¬q.fits p = true := by
  simp only [ArmRow.firstUnless, Bool.and_eq_true, List.all_eq_true, decide_eq_true_eq, Bool.or_eq_true,
    List.any_eq_true] at h
  obtain ⟨hbefore, hcovered⟩ := h
  rw [armRow_eq_some_iff_take]
  refine and_congr_right fun hfit => ⟨fun hnone q hq => ?_, fun hnone u hu => ?_⟩
  · exact Bool.eq_false_iff.mp
      (hnone _ (List.mem_take_iff_getElem.mpr ⟨q.ctorIdx, lt_min (hbefore q hq) q.ctorIdx_lt, rfl⟩))
  · rcases hcovered u hu with hclash | ⟨q, hq, hcov⟩
    · exact ArmPattern.fits_of_clashes hclash hfit
    · exact Bool.eq_false_iff.mpr fun hfu => hnone q hq (ArmPattern.fits_of_covers hcov hfu)

/-! ### Fields of joined words

The width of a joined field is a sum in these lemmas and a numeral where they are used: `no_index` lets `simp` match the two. -/

section
variable {v w k n : Nat} (x : BitVec v) (y : BitVec w)

@[simp] theorem extractLsb'_append_high (h : w ≤ k) :
    BitVec.extractLsb' (n := no_index (v + w)) k n (@HAppend.hAppend _ _ (no_index (BitVec (v + w))) _ x y) =
      x.extractLsb' (k - w) n :=
  BitVec.extractLsb'_append_eq_of_le h

@[simp] theorem extractLsb'_append_low (h : k + n ≤ w) :
    BitVec.extractLsb' (n := no_index (v + w)) k n (@HAppend.hAppend _ _ (no_index (BitVec (v + w))) _ x y) =
      y.extractLsb' k n :=
  BitVec.extractLsb'_append_eq_of_add_le h

@[simp] theorem getElem_append_high (h : w ≤ k) (hk : k < v + w) :
    (@HAppend.hAppend _ _ (no_index (BitVec (v + w))) _ x y)[k]'hk = x[k - w] := by
  rw [BitVec.getElem_append, dif_neg (Nat.not_lt.mpr h)]

@[simp] theorem getElem_append_low (h : k < w) (hk : k < v + w) :
    (@HAppend.hAppend _ _ (no_index (BitVec (v + w))) _ x y)[k]'hk = y[k] := by
  rw [BitVec.getElem_append, dif_pos h]

theorem append_eq_iff (z : BitVec (v + w)) :
    @Eq (no_index (BitVec (v + w))) (@HAppend.hAppend _ _ (no_index (BitVec (v + w))) _ x y) z ↔
      x = z.extractLsb' w v ∧ y = z.extractLsb' 0 w := by
  constructor
  · rintro rfl
    simp
  · rintro ⟨rfl, rfl⟩
    rw [BitVec.extractLsb'_append_extractLsb'_eq_extractLsb' (Nat.zero_add w).symm, BitVec.extractLsb'_eq_self]

@[simp] theorem append_adjacent {m i j : Nat} (z : BitVec m) (h : j = i + w) :
    @HAppend.hAppend _ _ (no_index (BitVec (v + w))) _ (z.extractLsb' j v) (z.extractLsb' i w) = z.extractLsb' i (v + w) :=
  BitVec.extractLsb'_append_extractLsb'_eq_extractLsb' h

@[simp] theorem extractLsb'_extractLsb' {m s l : Nat} (z : BitVec m) (h : k + l ≤ n) :
    (z.extractLsb' s n).extractLsb' k l = z.extractLsb' (s + k) l := by
  ext i hi
  simp only [BitVec.getElem_extractLsb', BitVec.getLsbD_extractLsb', Nat.add_assoc]
  simp [show k + i < n by omega]

theorem append_append {u : Nat} (z : BitVec u) :
    @HAppend.hAppend (no_index (BitVec (v + w))) _ (no_index (BitVec (v + w + u))) _
        (@HAppend.hAppend _ _ (no_index (BitVec (v + w))) _ x y) z =
      (x ++ (y ++ z)).cast (Nat.add_assoc ..).symm :=
  BitVec.append_assoc

end

theorem bit_getLsbD {n : Nat} (x : BitVec n) (k : Nat) : bit (x.getLsbD k) = x.extractLsb' k 1 := by
  ext i hi
  obtain rfl : i = 0 := by omega
  simp [bit]

@[simp] theorem bit_getElem {n : Nat} (x : BitVec n) {k : Nat} (h : k < n) : bit x[k] = x.extractLsb' k 1 := by
  rw [← BitVec.getLsbD_eq_getElem h, bit_getLsbD]

@[simp] theorem getElem_bit (b : Bool) : (bit b)[0] = b := by cases b <;> rfl

theorem and_15 (x : BitVec 4) : x &&& 15#4 = x := BitVec.and_allOnes

@[simp] theorem ArmParts.ofWord_toWord (p : ArmParts) : ArmParts.ofWord p.toWord = p := by
  simp [ArmParts.ofWord, ArmParts.toWord]

@[simp] theorem ArmParts.toWord_ofWord (w : Word) : (ArmParts.ofWord w).toWord = w := by
  simp [ArmParts.ofWord, ArmParts.toWord]

@[simp] theorem ThumbParts.ofHalf_toHalf (p : ThumbParts) : ThumbParts.ofHalf p.toHalf = p := by
  simp [ThumbParts.ofHalf, ThumbParts.toHalf]

@[simp] theorem ThumbParts.toHalf_ofHalf (h : Half) : (ThumbParts.ofHalf h).toHalf = h := by
  simp [ThumbParts.ofHalf, ThumbParts.toHalf]

@[simp] theorem Cond.ofBits_toBits (c : Cond) : Cond.ofBits c.toBits = c := by cases c <;> rfl

@[simp] theorem Cond.toBits_ofBits (b : BitVec 4) : (Cond.ofBits b).toBits = b := by revert b; decide

@[simp] theorem ShiftType.ofBits_toBits (t : ShiftType) : ShiftType.ofBits t.toBits = t := by cases t <;> rfl

/-- A value of one field that the row's mask and match allow. -/
abbrev ArmRow.Admits (r : ArmRow) {n : Nat} (field : ArmParts → BitVec n) (x : BitVec n) : Prop :=
  x &&& field r.pattern.mask = field r.pattern.value

/-- The row allows every field of the word. -/
structure ArmRow.Fits (r : ArmRow) (p : ArmParts) : Prop where
  op : r.Admits ArmParts.op p.op
  lo : r.Admits ArmParts.lo p.lo
  a : r.Admits ArmParts.a p.a
  b : r.Admits ArmParts.b p.b
  c : r.Admits ArmParts.c p.c
  d : r.Admits ArmParts.d p.d
  cond : r.Admits ArmParts.cond p.cond

theorem ArmRow.fits_iff {r : ArmRow} {p : ArmParts} : r.fits p = true ↔ r.Fits p :=
  (r.pattern.fits_iff p).trans
    ⟨fun ⟨hop, hlo, ha, hb, hc, hd, hcond⟩ => ⟨hop, hlo, ha, hb, hc, hd, hcond⟩,
      fun h => ⟨h.op, h.lo, h.a, h.b, h.c, h.d, h.cond⟩⟩

/-- The row reads no bit but 27:20 and 7:4. -/
def ArmRow.readsOpLo (r : ArmRow) : Bool :=
  r.pattern.mask == ⟨0#4, r.pattern.mask.op, 0#4, 0#4, 0#4, r.pattern.mask.lo, 0#4⟩ &&
    r.pattern.value == ⟨0#4, r.pattern.value.op, 0#4, 0#4, 0#4, r.pattern.value.lo, 0#4⟩

theorem ArmRow.fits_of_readsOpLo {r : ArmRow} {p : ArmParts} (h : r.readsOpLo = true)
    (hop : r.Admits ArmParts.op p.op) (hlo : r.Admits ArmParts.lo p.lo) : r.Fits p := by
  simp only [readsOpLo, Bool.and_eq_true, beq_iff_eq] at h
  obtain ⟨hm, hv⟩ := h
  constructor
  case op => exact hop
  case lo => exact hlo
  all_goals
    rw [ArmRow.Admits, hm, hv]
    exact BitVec.and_zero

/-! ### The reserved rows

A reserved row takes the words its listed rivals leave of its pattern. Both that and the predicate that `Instr.wf` asks
of the row's instruction are conditions on single bits, which `simp` writes out and `grind` compares. -/

/-- The rows that take the extension space of the data-processing forms: bits 27:25 clear, bits 7 and 4 set. -/
def extensionRows : List ArmRow :=
  [.undefMultiply, .unpredDoubleword, .strhImm, .ldrhImm, .ldrsbImm, .ldrshImm, .unpredHalfwordReg]

theorem eq_iff_bits {n : Nat} (x y : BitVec n) : x = y ↔ ∀ k : Fin n, x.getLsbD k = y.getLsbD k :=
  ⟨fun h _ => h ▸ rfl, fun h => BitVec.eq_of_getLsbD_eq fun i hi => h ⟨i, hi⟩⟩

theorem field_low12 (p : ArmParts) : Body.field p.body 0 12 = p.c ++ p.lo ++ p.d := by
  symm
  simp [append_eq_iff, Body.field, ArmParts.body]

variable {p : ArmParts}

theorem extension_iff : (∀ q ∈ extensionRows, ¬q.fits p = true) ↔
    ¬(p.op.extractLsb' 5 3 = 0#3 ∧ p.lo.getLsbD 3 = true ∧ p.lo.getLsbD 0 = true) := by
  simp [extensionRows, ArmRow.fits, ArmRow.pattern, ArmRow.ctorIdx, ArmPattern.fits_iff, armPattern, ArmParts.ofWord,
    armTable, armTable1, armTable2, armTable3, armTable4, armTable5, armTable6, armTable7, armTable8, eq_iff_bits,
    Fin.forall_fin_succ, -not_and, not_and_or]
  grind

theorem undefA14_fits_iff : ArmRow.undefA14.fits p = true ↔ p.op.extractLsb' 5 3 = 3#3 ∧ p.lo.getLsbD 0 = true := by
  simp [ArmRow.fits, ArmRow.pattern, ArmRow.ctorIdx, ArmPattern.fits_iff, armPattern, ArmParts.ofWord, armTable,
    armTable1, armTable2, armTable3, armTable4, armTable5, armTable6, armTable7, armTable8, eq_iff_bits,
    Fin.forall_fin_succ]

theorem armRow_unpredSwap : armRow p = some .unpredSwap ↔ Body.isUnpredSwap p.body = true := by
  rw [armRow_eq_some_iff (rivals := [.swp, .swpb]) (by decide)]
  simp only [Body.isUnpredSwap, Body.multiplySpace, Body.swapSpace, List.forall_mem_cons]
  simp [ArmRow.fits, ArmRow.pattern, ArmRow.ctorIdx, ArmPattern.fits_iff, armPattern, ArmParts.ofWord, armTable,
    armTable1, armTable2, armTable3, armTable4, armTable5, armTable6, armTable7, armTable8, Body.field, ArmParts.body,
    and_15, -not_and, not_and_or]
  simp [eq_iff_bits, Fin.forall_fin_succ, -not_and, not_and_or]
  grind

theorem armRow_undefMultiply : armRow p = some .undefMultiply ↔ Body.isUndefMultiply p.body = true := by
  rw [armRow_eq_some_iff (rivals := [.mul, .mla, .umull, .umlal, .smull, .smlal, .umaal, .unpredSwap]) (by decide)]
  simp only [Body.isUndefMultiply, Body.multiplySpace, Body.swapSpace, List.forall_mem_cons]
  simp [ArmRow.fits, ArmRow.pattern, ArmRow.ctorIdx, ArmPattern.fits_iff, armPattern, ArmParts.ofWord, armTable,
    armTable1, armTable2, armTable3, armTable4, armTable5, armTable6, armTable7, armTable8, Body.field, ArmParts.body,
    and_15, -not_and, not_and_or]
  simp [eq_iff_bits, Fin.forall_fin_succ, -not_and, not_and_or]
  grind

theorem armRow_unpredDoubleword : armRow p = some .unpredDoubleword ↔ Body.isUnpredDoubleword p.body = true := by
  rw [armRow_eq_some_iff (rivals := []) (by decide)]
  simp only [Body.isUnpredDoubleword, Body.halfwordSpace]
  simp [ArmRow.fits, ArmRow.pattern, ArmRow.ctorIdx, ArmPattern.fits_iff, armPattern, ArmParts.ofWord, armTable,
    armTable1, armTable2, armTable3, armTable4, armTable5, armTable6, armTable7, armTable8, Body.field, ArmParts.body,
    -not_and, not_and_or]
  simp [eq_iff_bits, Fin.forall_fin_succ, -not_and, not_and_or]
  grind

theorem armRow_unpredHalfwordReg : armRow p = some .unpredHalfwordReg ↔ Body.isUnpredHalfwordReg p.body = true := by
  rw [armRow_eq_some_iff
    (rivals := [.undefMultiply, .unpredDoubleword, .strhReg, .ldrhReg, .ldrsbReg, .ldrshReg]) (by decide)]
  simp only [Body.isUnpredHalfwordReg, Body.halfwordSpace, Body.isUnpredDoubleword, List.forall_mem_cons]
  simp [ArmRow.fits, ArmRow.pattern, ArmRow.ctorIdx, ArmPattern.fits_iff, armPattern, ArmParts.ofWord, armTable,
    armTable1, armTable2, armTable3, armTable4, armTable5, armTable6, armTable7, armTable8, Body.field, ArmParts.body,
    and_15, -not_and, not_and_or]
  simp [eq_iff_bits, Fin.forall_fin_succ, -not_and, not_and_or]
  grind

theorem armRow_unpredMrs : armRow p = some .unpredMrs ↔ Body.isUnpredMrs p.body = true := by
  rw [armRow_eq_some_iff (rivals := [.mrs]) (by decide)]
  simp only [Body.isUnpredMrs, Body.compareRegSpace, field_low12, List.forall_mem_cons]
  simp [ArmRow.fits, ArmRow.pattern, ArmRow.ctorIdx, ArmPattern.fits_iff, armPattern, ArmParts.ofWord, armTable,
    armTable1, armTable2, armTable3, armTable4, armTable5, armTable6, armTable7, armTable8, Body.field, ArmParts.body,
    append_eq_iff, and_15, -not_and, not_and_or]
  simp [eq_iff_bits, Fin.forall_fin_succ, -not_and, not_and_or]
  grind

theorem armRow_unpredMsrReg : armRow p = some .unpredMsrReg ↔ Body.isUnpredMsrReg p.body = true := by
  rw [armRow_eq_some_iff (rivals := [.msrReg]) (by decide)]
  simp only [Body.isUnpredMsrReg, Body.compareRegSpace, List.forall_mem_cons]
  simp [ArmRow.fits, ArmRow.pattern, ArmRow.ctorIdx, ArmPattern.fits_iff, armPattern, ArmParts.ofWord, armTable,
    armTable1, armTable2, armTable3, armTable4, armTable5, armTable6, armTable7, armTable8, Body.field, ArmParts.body,
    append_eq_iff, and_15, -not_and, not_and_or]
  simp [eq_iff_bits, Fin.forall_fin_succ, -not_and, not_and_or]
  grind

theorem armRow_undefCompareReg : armRow p = some .undefCompareReg ↔ Body.isUndefCompareReg p.body = true := by
  rw [armRow_eq_some_iff (rivals := .bx :: .unpredMrs :: .unpredMsrReg :: extensionRows) (by decide)]
  simp only [Body.isUndefCompareReg, Body.compareRegSpace, List.forall_mem_cons, extension_iff]
  simp [ArmRow.fits, ArmRow.pattern, ArmRow.ctorIdx, ArmPattern.fits_iff, armPattern, ArmParts.ofWord, armTable,
    armTable1, armTable2, armTable3, armTable4, armTable5, armTable6, armTable7, armTable8, Body.field, ArmParts.body,
    append_eq_iff, and_15, -not_and, not_and_or]
  simp [eq_iff_bits, Fin.forall_fin_succ, -not_and, not_and_or]
  grind

theorem armRow_unpredMsrImm : armRow p = some .unpredMsrImm ↔ Body.isUnpredMsrImm p.body = true := by
  rw [armRow_eq_some_iff (rivals := [.msrImm]) (by decide)]
  simp only [Body.isUnpredMsrImm, Body.compareImmSpace, List.forall_mem_cons]
  simp [ArmRow.fits, ArmRow.pattern, ArmRow.ctorIdx, ArmPattern.fits_iff, armPattern, ArmParts.ofWord, armTable,
    armTable1, armTable2, armTable3, armTable4, armTable5, armTable6, armTable7, armTable8, Body.field, ArmParts.body,
    and_15, -not_and, not_and_or]
  simp [eq_iff_bits, Fin.forall_fin_succ, -not_and, not_and_or]
  grind

theorem armRow_undefCompareImm : armRow p = some .undefCompareImm ↔ Body.isUndefCompareImm p.body = true := by
  rw [armRow_eq_some_iff (rivals := []) (by decide)]
  simp only [Body.isUndefCompareImm, Body.compareImmSpace]
  simp [ArmRow.fits, ArmRow.pattern, ArmRow.ctorIdx, ArmPattern.fits_iff, armPattern, ArmParts.ofWord, armTable,
    armTable1, armTable2, armTable3, armTable4, armTable5, armTable6, armTable7, armTable8, Body.field, ArmParts.body,
    -not_and, not_and_or]
  simp [eq_iff_bits, Fin.forall_fin_succ, -not_and]
  grind

theorem armRow_undefA14 : armRow p = some .undefA14 ↔ Body.isUndefA14 p.body = true := by
  rw [armRow_eq_some_iff (rivals := []) (by decide)]
  simp only [Body.isUndefA14]
  simp [ArmRow.fits, ArmRow.pattern, ArmRow.ctorIdx, ArmPattern.fits_iff, armPattern, ArmParts.ofWord, armTable,
    armTable1, armTable2, armTable3, armTable4, armTable5, armTable6, armTable7, armTable8, Body.field, ArmParts.body,
    -not_and, not_and_or]
  simp [eq_iff_bits, Fin.forall_fin_succ, -not_and]

end Sys2Proof
end

section
/-! PROOFS. Encoding: every ARM word and every Thumb halfword is the encoding of the instruction it decodes to. -/

namespace Sys2Proof

variable {p : ArmParts} {r : ArmRow}

theorem ArmRow.fits_of_armRow (h : armRow p = some r) : r.Fits p := ArmRow.fits_iff.mp (armRow_eq_some_iff_take.mp h).1

/-- No entry before a word's row fits it. -/
theorem ArmRow.not_fits_of_armRow {q : ArmRow} (h : armRow p = some r) (hq : q.ctorIdx < r.ctorIdx) : ¬q.fits p = true :=
  Bool.eq_false_iff.mp ((armRow_eq_some_iff_take.mp h).2 _
    (List.mem_take_iff_getElem.mpr ⟨q.ctorIdx, lt_min hq q.ctorIdx_lt, rfl⟩))

/-- The row fixes the bits `k + l - 1 : k` of a field. -/
abbrev ArmRow.Fixes (r : ArmRow) {n : Nat} (field : ArmParts → BitVec n) (k l : Nat) (y : BitVec l) : Prop :=
  (field r.pattern.mask).extractLsb' k l = BitVec.allOnes l ∧ (field r.pattern.value).extractLsb' k l = y

theorem ArmRow.Admits.eq_extract {n k l : Nat} {field : ArmParts → BitVec n} {x : BitVec n} {y : BitVec l}
    (h : r.Admits field x) (hy : r.Fixes field k l y) : y = x.extractLsb' k l :=
  hy.2.symm.trans (extract_of_masked h hy.1)

theorem ArmRow.Admits.eq_of_fixes {n : Nat} {field : ArmParts → BitVec n} {x y : BitVec n} (h : r.Admits field x)
    (hy : r.Fixes field 0 n y) : y = x := by
  rw [h.eq_extract hy, BitVec.extractLsb'_eq_self]

/-! ### The ARM formats -/

theorem encBody_eq (cond : Cond) (x : BitVec 28) :
    encBody cond x = encArm cond (x.extractLsb' 20 8) (x.extractLsb' 16 4) (x.extractLsb' 12 4) (x.extractLsb' 8 4)
      (x.extractLsb' 4 4) (x.extractLsb' 0 4) := by
  simp [encBody, encArm, ArmParts.toWord, append_append]

theorem encLow24_eq (cond : Cond) (top : BitVec 4) (x : BitVec 24) :
    encLow24 cond top x = encArm cond (top ++ x.extractLsb' 20 4) (x.extractLsb' 16 4) (x.extractLsb' 12 4)
      (x.extractLsb' 8 4) (x.extractLsb' 4 4) (x.extractLsb' 0 4) := by
  simp [encLow24, encArm, ArmParts.toWord, append_append]

theorem encArm_eq {op : BitVec 8} {a b c lo d : BitVec 4} (hop : op = p.op) (ha : a = p.a) (hb : b = p.b) (hc : c = p.c)
    (hlo : lo = p.lo) (hd : d = p.d) : encArm (Cond.ofBits p.cond) op a b c lo d = .arm p.toWord := by
  subst hop ha hb hc hlo hd
  rw [encArm, Cond.toBits_ofBits]

theorem encBody_body : encBody (Cond.ofBits p.cond) p.body = .arm p.toWord := by
  rw [encBody_eq]
  apply encArm_eq <;> simp [ArmParts.body]

theorem encLow24_low24 {top : BitVec 4} (h : r.Fits p) (hop : r.Fixes ArmParts.op 4 4 top) :
    encLow24 (Cond.ofBits p.cond) top p.low24 = .arm p.toWord := by
  rw [encLow24_eq, h.op.eq_extract hop]
  apply encArm_eq <;> simp [ArmParts.low24]

/-- The multiplies: bits 27:20 fixed but for S. -/
theorem encArm_multiply {top : BitVec 7} (h : r.Fits p) (hop : r.Fixes ArmParts.op 1 7 top)
    (hlo : r.Fixes ArmParts.lo 0 4 0b1001#4) :
    encArm (Cond.ofBits p.cond) (top ++ bit (p.opBit 0)) p.a p.b p.c 0b1001#4 p.d = .arm p.toWord :=
  encArm_eq (by rw [h.op.eq_extract hop]; simp [ArmParts.opBit]) rfl rfl rfl (h.lo.eq_of_fixes hlo) rfl

/-- Bits 27:20 of a halfword transfer: 000, P, U, the form `i`, W, L. -/
theorem halfword_op {i : BitVec 1} {l : Bool} (h : r.Fits p)
    (hop : r.Fixes ArmParts.op 5 3 0b000#3 ∧ r.Fixes ArmParts.op 2 1 i ∧ r.Fixes ArmParts.op 0 1 (bit l)) :
    0b000#3 ++ bit (p.opBit 4) ++ bit (p.opBit 3) ++ i ++ bit (p.opBit 1) ++ bit l = p.op := by
  obtain ⟨htop, hi, hl⟩ := hop
  rw [h.op.eq_extract htop, h.op.eq_extract hi, h.op.eq_extract hl]
  simp [ArmParts.opBit]

theorem encHalfImm_fields {l : Bool} {sh : BitVec 2} (h : r.Fits p)
    (hop : r.Fixes ArmParts.op 5 3 0b000#3 ∧ r.Fixes ArmParts.op 2 1 1#1 ∧ r.Fixes ArmParts.op 0 1 (bit l))
    (hlo : r.Fixes ArmParts.lo 0 4 (1#1 ++ sh ++ 1#1)) :
    encHalfImm (Cond.ofBits p.cond) (p.opBit 4) (p.opBit 3) (p.opBit 1) l sh p.a p.b (p.c ++ p.d) = .arm p.toWord :=
  encArm_eq (halfword_op h hop) rfl rfl (by simp) (h.lo.eq_of_fixes hlo) (by simp)

theorem encHalfReg_fields {l : Bool} {sh : BitVec 2} (h : r.Fits p)
    (hop : r.Fixes ArmParts.op 5 3 0b000#3 ∧ r.Fixes ArmParts.op 2 1 0#1 ∧ r.Fixes ArmParts.op 0 1 (bit l))
    (hc : r.Fixes ArmParts.c 0 4 0#4) (hlo : r.Fixes ArmParts.lo 0 4 (1#1 ++ sh ++ 1#1)) :
    encHalfReg (Cond.ofBits p.cond) (p.opBit 4) (p.opBit 3) (p.opBit 1) l sh p.a p.b p.d = .arm p.toWord :=
  encArm_eq (halfword_op h hop) rfl rfl (h.c.eq_of_fixes hc) (h.lo.eq_of_fixes hlo) rfl

/-- Bits 27:20 of a PSR transfer: the operation around R. -/
theorem psr_op {top : BitVec 5} {low : BitVec 2} (h : r.Fits p)
    (hop : r.Fixes ArmParts.op 3 5 top ∧ r.Fixes ArmParts.op 0 2 low) : top ++ bit (p.opBit 2) ++ low = p.op := by
  rw [h.op.eq_extract hop.1, h.op.eq_extract hop.2]
  simp [ArmParts.opBit]

/-- The shift byte of a register operand, by an immediate (bit 4 clear) and by a register. -/
theorem shift_lo_imm {lo : BitVec 4} (h0 : lo.getLsbD 0 = false) :
    lo.extractLsb' 3 1 ++ (ShiftType.ofBits (lo.extractLsb' 1 2)).toBits ++ 0#1 = lo := by
  revert lo; decide

theorem shift_lo_reg {lo : BitVec 4} (h0 : lo.getLsbD 0 = true) (h3 : lo.getLsbD 3 = false) :
    0#1 ++ (ShiftType.ofBits (lo.extractLsb' 1 2)).toBits ++ 1#1 = lo := by
  revert lo; decide

theorem encDp_operand2 {o : DpOp} {s : Bool} (h : armRow p = some r) (hr : ∀ q ∈ extensionRows, q.ctorIdx < r.ctorIdx)
    (hop : r.Fixes ArmParts.op 6 2 0b00#2 ∧ r.Fixes ArmParts.op 1 4 o.toBits) (hs : bit s = p.op.extractLsb' 0 1) :
    encDp (Cond.ofBits p.cond) o s p.a p.b p.operand2 = .arm p.toWord := by
  have hf := ArmRow.fits_of_armRow h
  have hspace := extension_iff.mp fun q hq => ArmRow.not_fits_of_armRow h (hr q hq)
  have hform : 0b00#2 ++ bit (p.op.getLsbD 5) ++ o.toBits ++ bit s = p.op := by
    rw [hf.op.eq_extract hop.1, hf.op.eq_extract hop.2, hs]
    simp
  unfold ArmParts.operand2 ArmParts.opBit
  cases h5 : p.op.getLsbD 5 with
  | true =>
    rw [h5] at hform
    exact encArm_eq hform rfl rfl rfl (by simp) (by simp)
  | false =>
    rw [h5] at hform
    have h57 : p.op.extractLsb' 5 3 = 0#3 := by rw [← hform]; simp; decide
    cases h0 : p.lo.getLsbD 0 with
    | true =>
      have h3 : p.lo.getLsbD 3 = false := by simpa [h57, h0] using hspace
      exact encArm_eq hform rfl rfl rfl (shift_lo_reg h0 h3) rfl
    | false =>
      exact encArm_eq hform rfl rfl (by simp [ArmParts.shiftAmount])
        (by simpa [ArmParts.shiftAmount, ArmParts.shiftType] using shift_lo_imm h0) rfl

theorem encSdt_offset {pre b w l : Bool} (h : armRow p = some r) (hr : ArmRow.undefA14.ctorIdx < r.ctorIdx)
    (hop : r.Fixes ArmParts.op 6 2 0b01#2 ∧ r.Fixes ArmParts.op 2 1 (bit b) ∧ r.Fixes ArmParts.op 0 1 (bit l))
    (hp : bit pre = p.op.extractLsb' 4 1) (hw : bit w = p.op.extractLsb' 1 1) :
    encSdt (Cond.ofBits p.cond) pre (p.opBit 3) b w l p.a p.b p.offset = .arm p.toWord := by
  have hf := ArmRow.fits_of_armRow h
  have hA14 := ArmRow.not_fits_of_armRow h hr
  have hform : 0b01#2 ++ bit (p.op.getLsbD 5) ++ bit pre ++ bit (p.op.getLsbD 3) ++ bit b ++ bit w ++ bit l = p.op := by
    obtain ⟨htop, hb, hl⟩ := hop
    rw [hf.op.eq_extract htop, hf.op.eq_extract hb, hf.op.eq_extract hl, hp, hw]
    simp
  unfold ArmParts.offset ArmParts.opBit
  cases h5 : p.op.getLsbD 5 with
  | false =>
    rw [h5] at hform
    exact encArm_eq hform rfl rfl (by simp) (by simp) (by simp)
  | true =>
    rw [h5] at hform
    have h57 : p.op.extractLsb' 5 3 = 3#3 := by rw [← hform]; simp; decide
    have h0 : p.lo.getLsbD 0 = false := by simpa [undefA14_fits_iff, h57] using hA14
    exact encArm_eq hform rfl rfl (by simp [ArmParts.shiftAmount])
      (by simpa [ArmParts.shiftAmount, ArmParts.shiftType] using shift_lo_imm h0) rfl

theorem encArm_block {l : Bool} (h : r.Fits p)
    (hop : r.Fixes ArmParts.op 5 3 0b100#3 ∧ r.Fixes ArmParts.op 0 1 (bit l)) :
    let list := p.b ++ p.c ++ p.lo ++ p.d
    encArm (Cond.ofBits p.cond)
      (0b100#3 ++ bit (p.opBit 4) ++ bit (p.opBit 3) ++ bit (p.opBit 2) ++ bit (p.opBit 1) ++ bit l) p.a
      (list.extractLsb' 12 4) (list.extractLsb' 8 4) (list.extractLsb' 4 4) (list.extractLsb' 0 4) = .arm p.toWord := by
  rw [h.op.eq_extract hop.1, h.op.eq_extract hop.2]
  apply encArm_eq <;> simp [ArmParts.opBit]

theorem encArm_coprocessorRegister {l : BitVec 1} (h : r.Fits p)
    (hop : r.Fixes ArmParts.op 4 4 0b1110#4 ∧ r.Fixes ArmParts.op 0 1 l) (hlo : r.Fixes ArmParts.lo 0 1 1#1) :
    encArm (Cond.ofBits p.cond) (0b1110#4 ++ p.op.extractLsb' 1 3 ++ l) p.a p.b p.c (p.lo.extractLsb' 1 3 ++ 1#1) p.d =
      .arm p.toWord := by
  rw [h.op.eq_extract hop.1, h.op.eq_extract hop.2, h.lo.eq_extract hlo]
  apply encArm_eq <;> simp

theorem encode_build (h : armRow p = some r) : encode (p.build r) = .arm p.toWord := by
  have hf := ArmRow.fits_of_armRow h
  cases r
  case unpredSwap | undefMultiply | unpredDoubleword | unpredHalfwordReg | unpredMrs | unpredMsrReg | undefCompareReg |
      unpredMsrImm | undefCompareImm | undefA14 => exact encBody_body
  case bx =>
    exact encArm_eq (hf.op.eq_of_fixes (by decide)) (hf.a.eq_of_fixes (by decide)) (hf.b.eq_of_fixes (by decide))
      (hf.c.eq_of_fixes (by decide)) (hf.lo.eq_of_fixes (by decide)) rfl
  case mul | mla | umull | umlal | smull | smlal => exact encArm_multiply hf (by decide) (by decide)
  case umaal => exact encArm_eq (hf.op.eq_of_fixes (by decide)) rfl rfl rfl (hf.lo.eq_of_fixes (by decide)) rfl
  case swp | swpb =>
    exact encArm_eq (hf.op.eq_of_fixes (by decide)) rfl rfl (hf.c.eq_of_fixes (by decide)) (hf.lo.eq_of_fixes (by decide)) rfl
  case strhImm | ldrhImm | ldrsbImm | ldrshImm => exact encHalfImm_fields hf (by decide) (by decide)
  case strhReg | ldrhReg | ldrsbReg | ldrshReg => exact encHalfReg_fields hf (by decide) (by decide) (by decide)
  case mrs =>
    exact encArm_eq (psr_op hf (by decide)) (hf.a.eq_of_fixes (by decide)) rfl (hf.c.eq_of_fixes (by decide))
      (hf.lo.eq_of_fixes (by decide)) (hf.d.eq_of_fixes (by decide))
  case msrReg =>
    exact encArm_eq (psr_op hf (by decide)) rfl (hf.b.eq_of_fixes (by decide)) (hf.c.eq_of_fixes (by decide))
      (hf.lo.eq_of_fixes (by decide)) rfl
  case msrImm =>
    exact encArm_eq (psr_op hf (by decide)) rfl (hf.b.eq_of_fixes (by decide)) rfl (by simp) (by simp)
  case and | eor | sub | rsb | add | adc | sbc | rsc | orr | mov | bic | mvn =>
    exact encDp_operand2 h (by decide) (by decide) (bit_getLsbD ..)
  case tst | teq | cmp | cmn => exact encDp_operand2 h (by decide) (by decide) (hf.op.eq_extract (by decide))
  case ldrt | strt | ldrbt | strbt =>
    exact encSdt_offset h (by decide) (by decide) (hf.op.eq_extract (by decide)) (hf.op.eq_extract (by decide))
  case ldr | str | ldrb | strb => exact encSdt_offset h (by decide) (by decide) (bit_getLsbD ..) (bit_getLsbD ..)
  case ldm | stm => exact encArm_block hf (by decide)
  case b | bl | swi => exact encLow24_low24 hf (by decide)
  case ldcStc =>
    have hop : 0b110#3 = p.op.extractLsb' 5 3 := hf.op.eq_extract (by decide)
    exact encArm_eq (by rw [hop]; simp [ArmParts.opBit]) rfl rfl rfl (by simp) (by simp)
  case cdp =>
    have hop : 0b1110#4 = p.op.extractLsb' 4 4 := hf.op.eq_extract (by decide)
    have hlo : 0#1 = p.lo.extractLsb' 0 1 := hf.lo.eq_extract (by decide)
    exact encArm_eq (by rw [hop]; simp) rfl rfl rfl (by rw [hlo]; simp) rfl
  case mcr | mrc => exact encArm_coprocessorRegister hf (by decide) (by decide)

/-- A transfer that is no T variant (30_encoding R320 line 8). -/
theorem p_or_not_w {t : ArmRow} (ht : ¬t.fits p = true) (h : r.Fits p)
    (hreads : t.readsOpLo = true ∧ ∀ x, t.Admits ArmParts.lo x)
    (hop : ∀ x, r.Admits ArmParts.op x → ¬t.Admits ArmParts.op x → (x.getLsbD 4 || !x.getLsbD 1) = true) :
    (p.opBit 4 || !p.opBit 1) = true :=
  hop _ h.op fun hadm => ht (ArmRow.fits_iff.mpr (ArmRow.fits_of_readsOpLo hreads.1 hadm (hreads.2 _)))

theorem wf_build (h : armRow p = some r) : (p.build r).wf = true := by
  have hf := ArmRow.fits_of_armRow h
  cases r
  case unpredSwap => exact armRow_unpredSwap.mp h
  case undefMultiply => exact armRow_undefMultiply.mp h
  case unpredDoubleword => exact armRow_unpredDoubleword.mp h
  case unpredHalfwordReg => exact armRow_unpredHalfwordReg.mp h
  case unpredMrs => exact armRow_unpredMrs.mp h
  case unpredMsrReg => exact armRow_unpredMsrReg.mp h
  case undefCompareReg => exact armRow_undefCompareReg.mp h
  case unpredMsrImm => exact armRow_unpredMsrImm.mp h
  case undefCompareImm => exact armRow_undefCompareImm.mp h
  case undefA14 => exact armRow_undefA14.mp h
  case ldr => exact p_or_not_w (ArmRow.not_fits_of_armRow (q := .ldrt) h (by decide)) hf (by decide) (by decide +kernel)
  case str => exact p_or_not_w (ArmRow.not_fits_of_armRow (q := .strt) h (by decide)) hf (by decide) (by decide +kernel)
  case ldrb => exact p_or_not_w (ArmRow.not_fits_of_armRow (q := .ldrbt) h (by decide)) hf (by decide) (by decide +kernel)
  case strb => exact p_or_not_w (ArmRow.not_fits_of_armRow (q := .strbt) h (by decide)) hf (by decide) (by decide +kernel)
  all_goals rfl

variable {p : ArmParts} {r : ArmRow}

theorem exists_armRow_of_fits (h : r.Fits p) : ∃ r', armRow p = some r' := by
  have hmem : r.pattern ∈ armTable := List.getElem_mem r.ctorIdx_lt
  have hsome : (armTable.find? (·.fits p)).isSome = true :=
    List.find?_isSome.mpr ⟨r.pattern, hmem, ArmRow.fits_iff.mpr h⟩
  obtain ⟨t, ht⟩ := Option.isSome_iff_exists.mp hsome
  exact ⟨t.row, by rw [armRow, ht]; rfl⟩

/-- The rows that read no bit but 27:20 and lie in no other such row. -/
def widestRows : List ArmRow :=
  [.undefCompareReg, .undefCompareImm, .unpredMsrImm, .and, .eor, .sub, .rsb, .add, .adc, .sbc, .rsc, .tst, .teq, .cmp, .cmn,
    .orr, .mov, .bic, .mvn, .ldr, .str, .ldrb, .strb, .ldm, .stm, .b, .bl, .ldcStc, .swi]

theorem widestRows_cover (op : BitVec 8) : op &&& 0xF0#8 = 0xE0#8 ∨ ∃ r ∈ widestRows, r.Admits ArmParts.op op := by
  simp only [widestRows, List.exists_mem_cons_iff, ArmRow.Admits, ArmRow.pattern, ArmRow.ctorIdx, armTable, armTable1,
    armTable2, armTable3, armTable4, armTable5, armTable6, armTable7, armTable8, armPattern, ArmParts.ofWord]
  revert op
  decide +kernel

/-- The coprocessor rows cover the operations 1110. -/
theorem coprocessorRows_cover (lo : BitVec 4) {op : BitVec 8} (h : op &&& 0xF0#8 = 0xE0#8) :
    ∃ r ∈ [ArmRow.cdp, .mcr, .mrc], r.Admits ArmParts.op op ∧ r.Admits ArmParts.lo lo := by
  have hop : ∀ x : BitVec 8, x &&& 0xF0#8 = 0xE0#8 →
      ArmRow.cdp.Admits ArmParts.op x ∧ (ArmRow.mcr.Admits ArmParts.op x ∨ ArmRow.mrc.Admits ArmParts.op x) := by
    decide +kernel
  have hlo : ∀ x : BitVec 4, ArmRow.cdp.Admits ArmParts.lo x ∨
      (ArmRow.mcr.Admits ArmParts.lo x ∧ ArmRow.mrc.Admits ArmParts.lo x) := by decide +kernel
  obtain ⟨hcdp, hmcr | hmrc⟩ := hop op h
  · rcases hlo lo with hl | ⟨hl, -⟩
    · exact ⟨_, by simp, hcdp, hl⟩
    · exact ⟨_, by simp, hmcr, hl⟩
  · rcases hlo lo with hl | ⟨-, hl⟩
    · exact ⟨_, by simp, hcdp, hl⟩
    · exact ⟨_, by simp, hmrc, hl⟩

theorem exists_armRow (p : ArmParts) : ∃ r, armRow p = some r := by
  have hwide : ∀ r ∈ widestRows, r.readsOpLo = true ∧ ∀ lo, r.Admits ArmParts.lo lo := by decide +kernel
  have hcop : ∀ r ∈ [ArmRow.cdp, .mcr, .mrc], r.readsOpLo = true := by decide
  rcases widestRows_cover p.op with h | ⟨r, hr, hop⟩
  · obtain ⟨r, hr, hop, hlo⟩ := coprocessorRows_cover p.lo h
    exact exists_armRow_of_fits (ArmRow.fits_of_readsOpLo (hcop r hr) hop hlo)
  · exact exists_armRow_of_fits (ArmRow.fits_of_readsOpLo (hwide r hr).1 hop ((hwide r hr).2 _))

theorem decodeArm_toWord (h : armRow p = some r) : decodeArm p.toWord = .ok (p.build r) := by
  simp only [decodeArm, ArmParts.ofWord_toWord, h]

theorem everyArmWord (w : Word) : ∃ i, decodeArm w = .ok i ∧ i.wf = true ∧ encode i = .arm w := by
  obtain ⟨r, h⟩ := exists_armRow (.ofWord w)
  have hd := decodeArm_toWord h
  have he := encode_build h
  rw [ArmParts.toWord_ofWord] at hd he
  exact ⟨_, hd, wf_build h, he⟩

/-! ### The Thumb rows -/

theorem ThumbRow.ctorIdx_lt (r : ThumbRow) : r.ctorIdx < thumbTable.length := by cases r <;> decide

/-- The Thumb row's entry in the table, which lists the rows in the order of their declaration. -/
def ThumbRow.pattern (r : ThumbRow) : ThumbPattern := thumbTable[r.ctorIdx]'(ThumbRow.ctorIdx_lt r)

theorem ThumbRow.row_pattern (r : ThumbRow) : r.pattern.row = r := by cases r <;> rfl

/-- A value of one field that the row's mask and match allow. -/
abbrev ThumbRow.Admits (r : ThumbRow) {n : Nat} (field : ThumbParts → BitVec n) (x : BitVec n) : Prop :=
  x &&& field r.pattern.mask = field r.pattern.value

/-- No Thumb row reads bits 5:0. -/
theorem thumbTable_reads : ∀ t ∈ thumbTable, t.mask.m = 0#3 ∧ t.value.m = 0#3 ∧ t.mask.l = 0#3 ∧ t.value.l = 0#3 := by
  decide +kernel

theorem ThumbPattern.fits_eq {t : ThumbPattern} (ht : t ∈ thumbTable) (p : ThumbParts) :
    t.fits p = (p.hi &&& t.mask.hi == t.value.hi && p.k &&& t.mask.k == t.value.k) := by
  obtain ⟨hm, hm', hl, hl'⟩ := thumbTable_reads t ht
  simp [ThumbPattern.fits, hm, hm', hl, hl']

theorem thumbRow_eq_of_hi_k (hi : BitVec 8) (k : BitVec 2) (m l : BitVec 3) :
    thumbRow ⟨hi, k, m, l⟩ = thumbRow ⟨hi, k, 0#3, 0#3⟩ := by
  have h : ∀ t ∈ thumbTable, t.fits ⟨hi, k, m, l⟩ = t.fits ⟨hi, k, 0#3, 0#3⟩ := fun t ht => by
    rw [ThumbPattern.fits_eq ht, ThumbPattern.fits_eq ht]
  rw [thumbRow, thumbRow, List.find?_congr h]

theorem thumbRow_eq_some_iff_take {r : ThumbRow} {p : ThumbParts} :
    thumbRow p = some r ↔ r.pattern.fits p = true ∧ ∀ u ∈ thumbTable.take r.ctorIdx, u.fits p = false := by
  have h : thumbRow p = some r.pattern.row ↔ _ :=
    map_find?_eq_row_iff (row := ThumbPattern.row) (fits := (·.fits p)) (by decide +kernel) r.ctorIdx_lt
  rwa [r.row_pattern] at h

theorem ThumbRow.fits_iff {r : ThumbRow} {p : ThumbParts} :
    r.pattern.fits p = true ↔ r.Admits ThumbParts.hi p.hi ∧ r.Admits ThumbParts.k p.k := by
  rw [ThumbPattern.fits_eq (t := r.pattern) (List.getElem_mem r.ctorIdx_lt), Bool.and_eq_true, beq_iff_eq, beq_iff_eq]

section
variable {p : ThumbParts} {r : ThumbRow}

/-- The row fixes the bits `k + l - 1 : k` of a field. -/
abbrev ThumbRow.Fixes (r : ThumbRow) {n : Nat} (field : ThumbParts → BitVec n) (k l : Nat) (y : BitVec l) : Prop :=
  (field r.pattern.mask).extractLsb' k l = BitVec.allOnes l ∧ (field r.pattern.value).extractLsb' k l = y

theorem ThumbRow.Admits.eq_extract {n k l : Nat} {field : ThumbParts → BitVec n} {x : BitVec n} {y : BitVec l}
    (h : r.Admits field x) (hy : r.Fixes field k l y) : y = x.extractLsb' k l :=
  hy.2.symm.trans (extract_of_masked h hy.1)

theorem ThumbRow.Admits.eq_of_fixes {n : Nat} {field : ThumbParts → BitVec n} {x y : BitVec n} (h : r.Admits field x)
    (hy : r.Fixes field 0 n y) : y = x := by
  rw [h.eq_extract hy, BitVec.extractLsb'_eq_self]

theorem ThumbRow.admits_of_thumbRow (h : thumbRow p = some r) : r.Admits ThumbParts.hi p.hi ∧ r.Admits ThumbParts.k p.k :=
  ThumbRow.fits_iff.mp (thumbRow_eq_some_iff_take.mp h).1

theorem ThumbRow.not_admits_hi {q : ThumbRow} (h : thumbRow p = some r) (hq : q.ctorIdx < r.ctorIdx)
    (hk : ∀ x, q.Admits ThumbParts.k x) : ¬q.Admits ThumbParts.hi p.hi := fun hhi =>
  Bool.eq_false_iff.mp ((thumbRow_eq_some_iff_take.mp h).2 _
    (List.mem_take_iff_getElem.mpr ⟨q.ctorIdx, lt_min hq q.ctorIdx_lt, rfl⟩)) (ThumbRow.fits_iff.mpr ⟨hhi, hk _⟩)

theorem encThumb_eq {hi : BitVec 8} {k : BitVec 2} {m l : BitVec 3} (hhi : hi = p.hi) (hk : k = p.k) (hm : m = p.m)
    (hl : l = p.l) : encThumb hi k m l = .thumb p.toHalf := by
  subst hhi hk hm hl
  rfl

/-! ### The Thumb formats -/

theorem encThree_high3 {top : BitVec 7} (h : r.Admits ThumbParts.hi p.hi) (htop : r.Fixes ThumbParts.hi 1 7 top) :
    encThree top p.high3 p.m p.l = .thumb p.toHalf :=
  encThumb_eq (by rw [h.eq_extract htop]; simp [ThumbParts.high3]) (by simp [ThumbParts.high3]) rfl rfl

theorem encImm5_imm5 {top : BitVec 5} (h : r.Admits ThumbParts.hi p.hi) (htop : r.Fixes ThumbParts.hi 3 5 top) :
    encImm5 top p.imm5 p.m p.l = .thumb p.toHalf :=
  encThumb_eq (by rw [h.eq_extract htop]; simp [ThumbParts.imm5]) (by simp [ThumbParts.imm5]) rfl rfl

theorem encLow11_low11 {top : BitVec 5} (h : r.Admits ThumbParts.hi p.hi) (htop : r.Fixes ThumbParts.hi 3 5 top) :
    encLow11 top p.low11 = .thumb p.toHalf := by
  rw [h.eq_extract htop]
  apply encThumb_eq <;> simp [ThumbParts.low11]

theorem encLow8_low8 {hi : BitVec 8} (h : hi = p.hi) : encLow8 hi p.low8 = .thumb p.toHalf :=
  encThumb_eq h (by simp [ThumbParts.low8]) (by simp [ThumbParts.low8]) (by simp [ThumbParts.low8])

theorem encLow8_reg {top : BitVec 5} (h : r.Admits ThumbParts.hi p.hi) (htop : r.Fixes ThumbParts.hi 3 5 top) :
    encLow8 (top ++ p.reg) p.low8 = .thumb p.toHalf :=
  encLow8_low8 (by rw [h.eq_extract htop]; simp [ThumbParts.reg])

theorem encLow8_bit {top : BitVec 7} (h : r.Admits ThumbParts.hi p.hi) (htop : r.Fixes ThumbParts.hi 1 7 top) :
    encLow8 (top ++ bit (p.hi.getLsbD 0)) p.low8 = .thumb p.toHalf :=
  encLow8_low8 (by rw [h.eq_extract htop]; simp)

theorem encHi_hiRd {op : BitVec 2} (h : r.Admits ThumbParts.hi p.hi) (hop : r.Fixes ThumbParts.hi 0 8 (0b010001#6 ++ op)) :
    encHi op p.hiRd p.hiRs = .thumb p.toHalf :=
  encThumb_eq (h.eq_of_fixes hop) (by simp [ThumbParts.hiRd, ThumbParts.hiRs]) (by simp [ThumbParts.hiRs])
    (by simp [ThumbParts.hiRd])

/-- Bits 7:0 with bit 7 apart. -/
theorem append_low7 {x : BitVec 1} (h : x = p.k.extractLsb' 1 1) : x ++ (p.k.extractLsb' 0 1 ++ p.m ++ p.l) = p.low8 := by
  rw [h, ThumbParts.low8]
  simp [append_append, append_eq_iff]

theorem encode_build_thumb (h : thumbRow p = some r) : encode (p.build r) = .thumb p.toHalf := by
  obtain ⟨hhi, hk⟩ := ThumbRow.admits_of_thumbRow h
  cases r
  case addReg | subReg | addImm3 | subImm3 | strReg | strbReg | ldrReg | ldrbReg | strhReg | ldrhReg | ldsb | ldsh =>
    exact encThree_high3 hhi (by decide)
  case lslImm | lsrImm | asrImm | strImm | ldrImm | strbImm | ldrbImm | strhImm | ldrhImm =>
    exact encImm5_imm5 hhi (by decide)
  case and | eor | lsl | lsr | asr | adc | sbc | ror | tst | neg | cmp | cmn | orr | mul | bic | mvn =>
    exact encThumb_eq (hhi.eq_of_fixes (by decide)) (hk.eq_of_fixes (by decide)) rfl rfl
  case b | undefBlxSuffix | blFirst | blSecond => exact encLow11_low11 hhi (by decide)
  case addHi | cmpHi | movHi => exact encHi_hiRd hhi (by decide)
  case movImm8 | cmpImm8 | addImm8 | subImm8 | ldrPc | strSp | ldrSp | addPc | addSp | stmia | ldmia =>
    exact encLow8_reg hhi (by decide)
  case push | pop => exact encLow8_bit hhi (by decide)
  case swi | undefCond14 => exact encLow8_low8 (hhi.eq_of_fixes (by decide))
  case bCond =>
    have htop : 0b1101#4 = p.hi.extractLsb' 4 4 := hhi.eq_extract (by decide)
    exact encLow8_low8 (by rw [htop]; simp)
  case undefBlxReg =>
    have hk1 : 1#1 = p.k.extractLsb' 1 1 := hk.eq_extract (by decide)
    rw [ThumbParts.build, encode, append_low7 hk1]
    exact encLow8_low8 (hhi.eq_of_fixes (by decide))
  case adjustSp =>
    rw [ThumbParts.build, encode, append_low7 (bit_getLsbD ..)]
    exact encLow8_low8 (hhi.eq_of_fixes (by decide))
  case bx =>
    have hk1 : 0#1 = p.k.extractLsb' 1 1 := hk.eq_extract (by decide)
    exact encThumb_eq (hhi.eq_of_fixes (by decide)) (by rw [hk1]; simp [ThumbParts.hiRs]) (by simp [ThumbParts.hiRs]) rfl
  case undef1011 =>
    have htop : 0b1011#4 = p.hi.extractLsb' 4 4 := hhi.eq_extract (by decide)
    have hlow8 : (p.hi.extractLsb' 0 4 ++ p.k ++ p.m ++ p.l).extractLsb' 0 8 = p.low8 := by
      simp [ThumbParts.low8, append_append]
    rw [ThumbParts.build, encode, hlow8]
    exact encLow8_low8 (by rw [htop]; simp)

theorem wf_build_thumb (h : thumbRow p = some r) : (p.build r).wf = true := by
  have hhi := (ThumbRow.admits_of_thumbRow h).1
  cases r
  case undef1011 =>
    have hadjust := ThumbRow.not_admits_hi (q := .adjustSp) h (by decide) (by decide)
    have hpush := ThumbRow.not_admits_hi (q := .push) h (by decide) (by decide)
    have hpop := ThumbRow.not_admits_hi (q := .pop) h (by decide) (by decide)
    have key : ∀ x : BitVec 8, ThumbRow.undef1011.Admits ThumbParts.hi x → ¬ThumbRow.adjustSp.Admits ThumbParts.hi x →
        ¬ThumbRow.push.Admits ThumbParts.hi x → ¬ThumbRow.pop.Admits ThumbParts.hi x →
        x.extractLsb' 0 4 ≠ 0#4 ∧ x.extractLsb' 1 2 ≠ 0b10#2 := by decide +kernel
    simpa [ThumbParts.build, Instr.wf, Thumb.isUndef1011] using key _ hhi hadjust hpush hpop
  case bCond =>
    have hswi := ThumbRow.not_admits_hi (q := .swi) h (by decide) (by decide)
    have hcond14 := ThumbRow.not_admits_hi (q := .undefCond14) h (by decide) (by decide)
    have key : ∀ x : BitVec 8, ThumbRow.bCond.Admits ThumbParts.hi x → ¬ThumbRow.swi.Admits ThumbParts.hi x →
        ¬ThumbRow.undefCond14.Admits ThumbParts.hi x →
        (Cond.ofBits (x.extractLsb' 0 4) != .al && Cond.ofBits (x.extractLsb' 0 4) != .nv) = true := by decide +kernel
    exact key _ hhi hswi hcond14
  all_goals rfl

theorem exists_thumbRow_of_admits (h : r.Admits ThumbParts.hi p.hi ∧ r.Admits ThumbParts.k p.k) :
    ∃ r', thumbRow p = some r' := by
  have hmem : r.pattern ∈ thumbTable := List.getElem_mem r.ctorIdx_lt
  have hsome : (thumbTable.find? (·.fits p)).isSome = true :=
    List.find?_isSome.mpr ⟨r.pattern, hmem, ThumbRow.fits_iff.mpr h⟩
  obtain ⟨t, ht⟩ := Option.isSome_iff_exists.mp hsome
  exact ⟨t.row, by rw [thumbRow, ht]; rfl⟩

end

/-- The rows of the T4 and T5 formats that read bits 7:6 too: they hold the words whose high byte no `highRows` row takes. -/
def fullRows : List ThumbRow :=
  [.and, .eor, .lsl, .lsr, .asr, .adc, .sbc, .ror, .tst, .neg, .cmp, .cmn, .orr, .mul, .bic, .mvn, .undefBlxReg, .bx]

/-- The rows that read bits 15:8 alone, but for those whose words another of them takes as well. -/
def highRows : List ThumbRow :=
  [.addReg, .subReg, .addImm3, .subImm3, .lslImm, .lsrImm, .asrImm, .movImm8, .cmpImm8, .addImm8, .subImm8,
    .addHi, .cmpHi, .movHi, .ldrPc, .strReg, .strbReg, .ldrReg,
    .ldrbReg, .strhReg, .ldrhReg, .ldsb, .ldsh, .strImm, .ldrImm, .strbImm, .ldrbImm, .strhImm, .ldrhImm,
    .strSp, .ldrSp, .addPc, .addSp, .undef1011, .stmia, .ldmia, .bCond, .b, .undefBlxSuffix, .blFirst, .blSecond]

theorem highRows_cover (hi : BitVec 8) :
    hi ∈ [0x40#8, 0x41#8, 0x42#8, 0x43#8, 0x47#8] ∨ ∃ r ∈ highRows, r.Admits ThumbParts.hi hi := by
  simp only [highRows, List.exists_mem_cons_iff, ThumbRow.Admits, ThumbRow.pattern, ThumbRow.ctorIdx, thumbTable, thumbTable1,
    thumbTable2, thumbTable3, thumbTable4, thumbTable5, thumbTable6, thumbTable7, thumbTable8, thumbPattern, ThumbParts.ofHalf]
  revert hi
  decide +kernel

theorem fullRows_cover : ∀ hi ∈ [0x40#8, 0x41#8, 0x42#8, 0x43#8, 0x47#8], ∀ k,
    ∃ r ∈ fullRows, r.Admits ThumbParts.hi hi ∧ r.Admits ThumbParts.k k := by decide +kernel

theorem exists_thumbRow (p : ThumbParts) : ∃ r, thumbRow p = some r := by
  have hk : ∀ r ∈ highRows, ∀ k, r.Admits ThumbParts.k k := by decide +kernel
  rcases highRows_cover p.hi with h | ⟨r, hr, hhi⟩
  · obtain ⟨r, -, hadm⟩ := fullRows_cover _ h p.k
    exact exists_thumbRow_of_admits hadm
  · exact exists_thumbRow_of_admits ⟨hhi, hk r hr _⟩

theorem decodeThumb_toHalf {p : ThumbParts} {r : ThumbRow} (h : thumbRow p = some r) :
    decodeThumb p.toHalf = .ok (p.build r) := by
  simp only [decodeThumb, ThumbParts.ofHalf_toHalf, h]

theorem everyHalf (w : Half) : ∃ i, decodeThumb w = .ok i ∧ i.wf = true ∧ encode i = .thumb w := by
  obtain ⟨r, h⟩ := exists_thumbRow (.ofHalf w)
  have hd := decodeThumb_toHalf h
  have he := encode_build_thumb h
  rw [ThumbParts.toHalf_ofHalf] at hd he
  exact ⟨_, hd, wf_build_thumb h, he⟩

/-- Settles O2: a word fits a row, whose instruction is well-formed and keeps every bit of it. -/
theorem everyWordIsAnInstruction : Obligations.EveryWordIsAnInstruction := ⟨everyArmWord, everyHalf⟩

end Sys2Proof
end

section
/-! PROOFS. Encoding: the ARM formats decode to the instruction they encode. -/

namespace Sys2Proof

variable {r : ArmRow} {cond : Cond} {op : BitVec 8} {a b c lo d : BitVec 4}

/-- The row leaves a field out. -/
abbrev ArmRow.Ignores (r : ArmRow) {n : Nat} (field : ArmParts → BitVec n) : Prop :=
  field r.pattern.mask = 0#n ∧ field r.pattern.value = 0#n

theorem ArmRow.Ignores.admits {n : Nat} {field : ArmParts → BitVec n} (h : r.Ignores field) (x : BitVec n) :
    r.Admits field x := by
  rw [ArmRow.Admits, h.1, h.2, BitVec.and_zero]

theorem armRow_of_fits {p : ArmParts} (hr : r.firstUnless [] = true) (h : r.Fits p) : armRow p = some r :=
  (armRow_eq_some_iff hr).mpr ⟨ArmRow.fits_iff.mpr h, fun _ hq => absurd hq List.not_mem_nil⟩

/-- A row that has no rivals and reads no bit but 27:20 and 7:4. -/
def ArmRow.plain (r : ArmRow) : Bool := r.firstUnless [] && r.readsOpLo

theorem armRow_of_plain {p : ArmParts} (hr : r.plain = true) (hop : r.Admits ArmParts.op p.op)
    (hlo : r.Admits ArmParts.lo p.lo) : armRow p = some r := by
  rw [ArmRow.plain, Bool.and_eq_true] at hr
  exact armRow_of_fits hr.1 (ArmRow.fits_of_readsOpLo hr.2 hop hlo)

theorem decode_encArm {i : Instr} (h : armRow ⟨cond.toBits, op, a, b, c, lo, d⟩ = some r)
    (hi : (ArmParts.mk cond.toBits op a b c lo d).build r = i) : decodeEncoded (encArm cond op a b c lo d) = .ok i := by
  rw [encArm, decodeEncoded, decodeArm_toWord h, hi]

theorem decode_fields {i : Instr} (hr : r.firstUnless [] = true ∧ r.Ignores ArmParts.cond) (hop : r.Admits ArmParts.op op)
    (ha : r.Admits ArmParts.a a) (hb : r.Admits ArmParts.b b) (hc : r.Admits ArmParts.c c) (hlo : r.Admits ArmParts.lo lo)
    (hd : r.Admits ArmParts.d d) (hi : (ArmParts.mk cond.toBits op a b c lo d).build r = i) :
    decodeEncoded (encArm cond op a b c lo d) = .ok i :=
  decode_encArm (armRow_of_fits hr.1 ⟨hop, hlo, ha, hb, hc, hd, hr.2.admits _⟩) hi

theorem decode_plain_fields {i : Instr} (hr : r.plain = true) (hop : r.Admits ArmParts.op op) (hlo : r.Admits ArmParts.lo lo)
    (hi : (ArmParts.mk cond.toBits op a b c lo d).build r = i) : decodeEncoded (encArm cond op a b c lo d) = .ok i :=
  decode_encArm (armRow_of_plain hr hop hlo) hi

theorem decode_multiply {C : Cond → Bool → RegNum → RegNum → RegNum → RegNum → Instr} {top : BitVec 7} {s : Bool}
    (hC : ∀ p : ArmParts, p.build r = C (.ofBits p.cond) (p.opBit 0) p.a p.b p.c p.d) (hr : r.plain = true)
    (hop : ∀ s, r.Admits ArmParts.op (top ++ bit s)) (hlo : r.Admits ArmParts.lo 0b1001#4) :
    decodeEncoded (encArm cond (top ++ bit s) a b c 0b1001#4 d) = .ok (C cond s a b c d) :=
  decode_plain_fields hr (hop s) hlo (by simp [hC, ArmParts.opBit])

theorem decode_encHalfImm {C : Cond → Bool → Bool → Bool → RegNum → RegNum → BitVec 8 → Instr}
    {l : Bool} {sh : BitVec 2} {pre u w : Bool} {rn rd : RegNum} {imm8 : BitVec 8}
    (hC : ∀ p : ArmParts, p.build r = C (.ofBits p.cond) (p.opBit 4) (p.opBit 3) (p.opBit 1) p.a p.b (p.c ++ p.d))
    (hr : r.plain = true) (hop : ∀ pre u w, r.Admits ArmParts.op (0b000#3 ++ bit pre ++ bit u ++ 1#1 ++ bit w ++ bit l))
    (hlo : r.Admits ArmParts.lo (1#1 ++ sh ++ 1#1)) :
    decodeEncoded (encHalfImm cond pre u w l sh rn rd imm8) = .ok (C cond pre u w rn rd imm8) :=
  decode_plain_fields hr (hop pre u w) hlo (by simp [hC, ArmParts.opBit])

theorem decode_encHalfReg {C : Cond → Bool → Bool → Bool → RegNum → RegNum → RegNum → Instr}
    {l : Bool} {sh : BitVec 2} {pre u w : Bool} {rn rd rm : RegNum}
    (hC : ∀ p : ArmParts, p.build r = C (.ofBits p.cond) (p.opBit 4) (p.opBit 3) (p.opBit 1) p.a p.b p.d)
    (hr : r.firstUnless [] = true ∧ r.Ignores ArmParts.cond)
    (hop : ∀ pre u w, r.Admits ArmParts.op (0b000#3 ++ bit pre ++ bit u ++ 0#1 ++ bit w ++ bit l))
    (hlo : r.Admits ArmParts.lo (1#1 ++ sh ++ 1#1)) (hc : r.Admits ArmParts.c 0#4)
    (hrest : r.Ignores ArmParts.a ∧ r.Ignores ArmParts.b ∧ r.Ignores ArmParts.d) :
    decodeEncoded (encHalfReg cond pre u w l sh rn rd rm) = .ok (C cond pre u w rn rd rm) := by
  obtain ⟨ha, hb, hd⟩ := hrest
  exact decode_fields hr (hop pre u w) (ha.admits _) (hb.admits _) hc hlo (hd.admits _) (by simp [hC, ArmParts.opBit])

theorem decode_swap {C : Cond → RegNum → RegNum → RegNum → Instr}
    (hC : ∀ p : ArmParts, p.build r = C (.ofBits p.cond) p.a p.b p.d)
    (hr : r.firstUnless [] = true ∧ r.Ignores ArmParts.cond) (hop : r.Admits ArmParts.op op)
    (hlo : r.Admits ArmParts.lo 0b1001#4) (hc : r.Admits ArmParts.c 0#4)
    (hrest : r.Ignores ArmParts.a ∧ r.Ignores ArmParts.b ∧ r.Ignores ArmParts.d) :
    decodeEncoded (encArm cond op a b 0#4 0b1001#4 d) = .ok (C cond a b d) := by
  obtain ⟨ha, hb, hd⟩ := hrest
  exact decode_fields hr hop (ha.admits _) (hb.admits _) hc hlo (hd.admits _) (by simp [hC])

theorem decode_encDp {C : Cond → Bool → RegNum → RegNum → Operand2 → Instr} {o : DpOp} {s : Bool}
    {rn rd : RegNum} {op2 : Operand2}
    (hC : ∀ p : ArmParts, p.build r = C (.ofBits p.cond) (p.opBit 0) p.a p.b p.operand2)
    (hr : r.firstUnless extensionRows = true ∧ r.readsOpLo = true ∧ r.Ignores ArmParts.lo)
    (hop : ∀ i, r.Admits ArmParts.op (0b00#2 ++ bit i ++ o.toBits ++ bit s)) :
    decodeEncoded (encDp cond o s rn rd op2) = .ok (C cond s rn rd op2) := by
  obtain ⟨hfirst, hreads, hlo⟩ := hr
  have hrow {p : ArmParts} (h : r.Admits ArmParts.op p.op)
      (hspace : ¬(p.op.extractLsb' 5 3 = 0#3 ∧ p.lo.getLsbD 3 = true ∧ p.lo.getLsbD 0 = true)) : armRow p = some r :=
    (armRow_eq_some_iff hfirst).mpr ⟨ArmRow.fits_iff.mpr (ArmRow.fits_of_readsOpLo hreads h (hlo.admits _)),
      extension_iff.mpr hspace⟩
  cases op2 with
  | imm rotate imm8 =>
    exact decode_encArm (hrow (hop true) (by simp)) (by simp [hC, ArmParts.opBit, ArmParts.operand2])
  | shiftImm ty amount rm =>
    exact decode_encArm (hrow (hop false) (by simp))
      (by simp [hC, ArmParts.opBit, ArmParts.operand2, ArmParts.shiftType, ArmParts.shiftAmount])
  | shiftReg ty rs rm =>
    exact decode_encArm (hrow (hop false) (by simp))
      (by simp [hC, ArmParts.opBit, ArmParts.operand2, ArmParts.shiftType])

theorem decode_encSdt {C : Cond → Bool → Bool → Bool → RegNum → RegNum → Offset → Instr} {rivals : List ArmRow}
    {pre u b w l : Bool} {rn rd : RegNum} {off : Offset}
    (hC : ∀ p : ArmParts, p.build r = C (.ofBits p.cond) (p.opBit 4) (p.opBit 3) (p.opBit 1) p.a p.b p.offset)
    (hr : r.firstUnless (.undefA14 :: rivals) = true ∧ r.readsOpLo = true ∧ r.Ignores ArmParts.lo)
    (hop : ∀ i, r.Admits ArmParts.op (0b01#2 ++ bit i ++ bit pre ++ bit u ++ bit b ++ bit w ++ bit l) ∧
      ∀ q ∈ rivals, ¬q.Admits ArmParts.op (0b01#2 ++ bit i ++ bit pre ++ bit u ++ bit b ++ bit w ++ bit l)) :
    decodeEncoded (encSdt cond pre u b w l rn rd off) = .ok (C cond pre u w rn rd off) := by
  obtain ⟨hfirst, hreads, hlo⟩ := hr
  have hrow {p : ArmParts} (h : r.Admits ArmParts.op p.op ∧ ∀ q ∈ rivals, ¬q.Admits ArmParts.op p.op)
      (hA14 : ¬(p.op.extractLsb' 5 3 = 3#3 ∧ p.lo.getLsbD 0 = true)) : armRow p = some r :=
    (armRow_eq_some_iff hfirst).mpr ⟨ArmRow.fits_iff.mpr (ArmRow.fits_of_readsOpLo hreads h.1 (hlo.admits _)),
      List.forall_mem_cons.mpr ⟨undefA14_fits_iff.not.mpr hA14, fun q hq hfit => h.2 q hq (ArmRow.fits_iff.mp hfit).op⟩⟩
  cases off with
  | imm imm12 => exact decode_encArm (hrow (hop false) (by simp)) (by simp [hC, ArmParts.opBit, ArmParts.offset])
  | reg ty amount rm =>
    exact decode_encArm (hrow (hop true) (by simp))
      (by simp [hC, ArmParts.opBit, ArmParts.offset, ArmParts.shiftType, ArmParts.shiftAmount])

/-- The comparisons: S is set. -/
theorem decode_compare {C : Cond → RegNum → RegNum → Operand2 → Instr} {o : DpOp} {rn sbz : RegNum} {op2 : Operand2}
    (hC : ∀ p : ArmParts, p.build r = C (.ofBits p.cond) p.a p.b p.operand2)
    (hr : r.firstUnless extensionRows = true ∧ r.readsOpLo = true ∧ r.Ignores ArmParts.lo)
    (hop : ∀ i, r.Admits ArmParts.op (0b00#2 ++ bit i ++ o.toBits ++ bit true)) :
    decodeEncoded (encDp cond o true rn sbz op2) = .ok (C cond rn sbz op2) :=
  decode_encDp (C := fun cond _ => C cond) hC hr hop

/-- The T variants: P = 0 and W = 1. -/
theorem decode_userTransfer {C : Cond → Bool → RegNum → RegNum → Offset → Instr} {u b l : Bool}
    {rn rd : RegNum} {off : Offset}
    (hC : ∀ p : ArmParts, p.build r = C (.ofBits p.cond) (p.opBit 3) p.a p.b p.offset)
    (hr : r.firstUnless [.undefA14] = true ∧ r.readsOpLo = true ∧ r.Ignores ArmParts.lo)
    (hop : ∀ u i, r.Admits ArmParts.op (0b01#2 ++ bit i ++ bit false ++ bit u ++ bit b ++ bit true ++ bit l)) :
    decodeEncoded (encSdt cond false u b true l rn rd off) = .ok (C cond u rn rd off) :=
  decode_encSdt (C := fun cond _ u _ => C cond u) hC hr fun i => ⟨hop u i, fun _ hq => absurd hq List.not_mem_nil⟩

/-- The other single transfers, whose rival is the row of their T variant. -/
theorem decode_transfer {C : Cond → Bool → Bool → Bool → RegNum → RegNum → Offset → Instr} {user : ArmRow}
    {pre u b w l : Bool} {rn rd : RegNum} {off : Offset}
    (hC : ∀ p : ArmParts, p.build r = C (.ofBits p.cond) (p.opBit 4) (p.opBit 3) (p.opBit 1) p.a p.b p.offset)
    (hr : r.firstUnless [.undefA14, user] = true ∧ r.readsOpLo = true ∧ r.Ignores ArmParts.lo)
    (hop : ∀ pre u w, (pre || !w) = true → ∀ i,
      r.Admits ArmParts.op (0b01#2 ++ bit i ++ bit pre ++ bit u ++ bit b ++ bit w ++ bit l) ∧
        ¬user.Admits ArmParts.op (0b01#2 ++ bit i ++ bit pre ++ bit u ++ bit b ++ bit w ++ bit l))
    (hw : (pre || !w) = true) :
    decodeEncoded (encSdt cond pre u b w l rn rd off) = .ok (C cond pre u w rn rd off) :=
  decode_encSdt hC hr fun i => ⟨(hop pre u w hw i).1, by simpa using (hop pre u w hw i).2⟩

theorem decode_encLow24 {C : Cond → BitVec 24 → Instr} {top : BitVec 4} {x : BitVec 24}
    (hC : ∀ p : ArmParts, p.build r = C (.ofBits p.cond) p.low24) (hr : r.plain = true ∧ r.Ignores ArmParts.lo)
    (hop : ∀ y : BitVec 4, r.Admits ArmParts.op (top ++ y)) : decodeEncoded (encLow24 cond top x) = .ok (C cond x) := by
  rw [encLow24_eq]
  exact decode_plain_fields hr.1 (hop _) (hr.2.admits _) (by simp [hC, ArmParts.low24])

theorem decode_encBody {C : Cond → BitVec 28 → Instr} {guard : BitVec 28 → Bool} {body : BitVec 28}
    (hC : ∀ p : ArmParts, p.build r = C (.ofBits p.cond) p.body)
    (hrow : ∀ {p : ArmParts}, armRow p = some r ↔ guard p.body = true) (hw : guard body = true) :
    decodeEncoded (encBody cond body) = .ok (C cond body) := by
  rw [encBody_eq]
  exact decode_encArm (hrow.mpr (by simpa [ArmParts.body] using hw)) (by simp [hC, ArmParts.body])

theorem decode_block {C : Cond → Bool → Bool → Bool → Bool → RegNum → BitVec 16 → Instr}
    {l pre u s w : Bool} {rn : RegNum} {list : BitVec 16}
    (hC : ∀ p : ArmParts, p.build r =
      C (.ofBits p.cond) (p.opBit 4) (p.opBit 3) (p.opBit 2) (p.opBit 1) p.a (p.b ++ p.c ++ p.lo ++ p.d))
    (hr : r.plain = true ∧ r.Ignores ArmParts.lo)
    (hop : ∀ pre u s w, r.Admits ArmParts.op (0b100#3 ++ bit pre ++ bit u ++ bit s ++ bit w ++ bit l)) :
    decodeEncoded (encArm cond (0b100#3 ++ bit pre ++ bit u ++ bit s ++ bit w ++ bit l) rn
      (list.extractLsb' 12 4) (list.extractLsb' 8 4) (list.extractLsb' 4 4) (list.extractLsb' 0 4)) =
      .ok (C cond pre u s w rn list) :=
  decode_plain_fields hr.1 (hop pre u s w) (hr.2.admits _) (by simp [hC, ArmParts.opBit])

theorem decode_coprocessorRegister {C : Cond → BitVec 3 → RegNum → RegNum → RegNum → BitVec 3 → RegNum → Instr}
    {l : BitVec 1} {op1 op2 : BitVec 3}
    (hC : ∀ p : ArmParts, p.build r =
      C (.ofBits p.cond) (p.op.extractLsb' 1 3) p.a p.b p.c (p.lo.extractLsb' 1 3) p.d)
    (hr : r.plain = true) (hop : ∀ x : BitVec 3, r.Admits ArmParts.op (0b1110#4 ++ x ++ l))
    (hlo : ∀ x : BitVec 3, r.Admits ArmParts.lo (x ++ 1#1)) :
    decodeEncoded (encArm cond (0b1110#4 ++ op1 ++ l) a b c (op2 ++ 1#1) d) = .ok (C cond op1 a b c op2 d) :=
  decode_plain_fields hr (hop _) (hlo _) (by simp [hC])

end Sys2Proof
end

section
/-! PROOFS. Encoding: the Thumb formats decode to the instruction they encode; every instruction. -/

namespace Sys2Proof

/-- Two Thumb rows fix one of the bits 15:6 to different values. -/
def ThumbPattern.clashes (t u : ThumbPattern) : Bool :=
  t.mask.hi &&& u.mask.hi &&& (t.value.hi ^^^ u.value.hi) != 0#8 ||
    t.mask.k &&& u.mask.k &&& (t.value.k ^^^ u.value.k) != 0#2

/-- Every earlier row that shares a halfword with the row is listed. -/
def ThumbRow.firstUnless (r : ThumbRow) (rivals : List ThumbRow) : Bool :=
  (thumbTable.take r.ctorIdx).all fun u => u.clashes r.pattern || rivals.any (·.pattern == u)

variable {r : ThumbRow} {hi : BitVec 8} {k : BitVec 2} {m l : BitVec 3} {i : Instr}

theorem thumbRow_of_admits {rivals : List ThumbRow} {p : ThumbParts} (hr : r.firstUnless rivals = true)
    (hhi : r.Admits ThumbParts.hi p.hi) (hk : r.Admits ThumbParts.k p.k)
    (hrivals : ∀ q ∈ rivals, ¬q.Admits ThumbParts.hi p.hi) : thumbRow p = some r := by
  simp only [ThumbRow.firstUnless, List.all_eq_true, Bool.or_eq_true, List.any_eq_true, beq_iff_eq] at hr
  refine thumbRow_eq_some_iff_take.mpr
    ⟨ThumbRow.fits_iff.mpr ⟨hhi, hk⟩, fun u hu => Bool.eq_false_iff.mpr fun hfit => ?_⟩
  rcases hr u hu with hclash | ⟨q, hq, rfl⟩
  · rw [ThumbPattern.fits_eq (List.mem_of_mem_take hu), Bool.and_eq_true, beq_iff_eq, beq_iff_eq] at hfit
    simp [ThumbPattern.clashes, masked_agree hfit.1 hhi, masked_agree hfit.2 hk] at hclash
  · exact hrivals q hq (ThumbRow.fits_iff.mp hfit).1

theorem decode_encThumb {rivals : List ThumbRow} (hr : r.firstUnless rivals = true) (hhi : r.Admits ThumbParts.hi hi)
    (hk : r.Admits ThumbParts.k k) (hrivals : ∀ q ∈ rivals, ¬q.Admits ThumbParts.hi hi)
    (hbuild : (ThumbParts.mk hi k m l).build r = i) : decodeEncoded (encThumb hi k m l) = .ok i := by
  rw [encThumb, decodeEncoded, decodeThumb_toHalf (thumbRow_of_admits hr hhi hk hrivals), hbuild]

/-- A row without rivals that reads no bit but 15:8. -/
def ThumbRow.plain (r : ThumbRow) : Bool := r.firstUnless [] && decide (∀ k, r.Admits ThumbParts.k k)

theorem decode_plain (hr : r.plain = true) (hhi : r.Admits ThumbParts.hi hi)
    (hbuild : (ThumbParts.mk hi k m l).build r = i) : decodeEncoded (encThumb hi k m l) = .ok i := by
  rw [ThumbRow.plain, Bool.and_eq_true, decide_eq_true_eq] at hr
  exact decode_encThumb hr.1 hhi (hr.2 _) (fun _ hq => absurd hq List.not_mem_nil) hbuild

theorem decode_encThree {C : BitVec 3 → LowReg → LowReg → Instr} {top : BitVec 7} {x : BitVec 3}
    (hC : ∀ p : ThumbParts, p.build r = C p.high3 p.m p.l) (hr : r.plain = true)
    (hhi : ∀ y : BitVec 1, r.Admits ThumbParts.hi (top ++ y)) : decodeEncoded (encThree top x m l) = .ok (C x m l) :=
  decode_plain hr (hhi _) (by simp [hC, ThumbParts.high3])

theorem decode_encImm5 {C : BitVec 5 → LowReg → LowReg → Instr} {top x : BitVec 5}
    (hC : ∀ p : ThumbParts, p.build r = C p.imm5 p.m p.l) (hr : r.plain = true)
    (hhi : ∀ y : BitVec 3, r.Admits ThumbParts.hi (top ++ y)) : decodeEncoded (encImm5 top x m l) = .ok (C x m l) :=
  decode_plain hr (hhi _) (by simp [hC, ThumbParts.imm5])

theorem decode_encLow11 {C : BitVec 11 → Instr} {top : BitVec 5} {x : BitVec 11}
    (hC : ∀ p : ThumbParts, p.build r = C p.low11) (hr : r.plain = true)
    (hhi : ∀ y : BitVec 3, r.Admits ThumbParts.hi (top ++ y)) : decodeEncoded (encLow11 top x) = .ok (C x) :=
  decode_plain hr (hhi _) (by simp [hC, ThumbParts.low11])

theorem decode_encLow8_reg {C : LowReg → BitVec 8 → Instr} {top : BitVec 5} {reg : LowReg} {x : BitVec 8}
    (hC : ∀ p : ThumbParts, p.build r = C p.reg p.low8) (hr : r.plain = true)
    (hhi : ∀ y : BitVec 3, r.Admits ThumbParts.hi (top ++ y)) :
    decodeEncoded (encLow8 (top ++ reg) x) = .ok (C reg x) :=
  decode_plain hr (hhi _) (by simp [hC, ThumbParts.reg, ThumbParts.low8])

theorem decode_encLow8_bit {C : Bool → BitVec 8 → Instr} {top : BitVec 7} {b : Bool} {x : BitVec 8}
    (hC : ∀ p : ThumbParts, p.build r = C (p.hi.getLsbD 0) p.low8) (hr : r.plain = true)
    (hhi : ∀ b, r.Admits ThumbParts.hi (top ++ bit b)) : decodeEncoded (encLow8 (top ++ bit b) x) = .ok (C b x) :=
  decode_plain hr (hhi _) (by simp [hC, ThumbParts.low8])

theorem decode_encLow8 {C : BitVec 8 → Instr} {x : BitVec 8} (hC : ∀ p : ThumbParts, p.build r = C p.low8)
    (hr : r.plain = true) (hhi : r.Admits ThumbParts.hi hi) : decodeEncoded (encLow8 hi x) = .ok (C x) :=
  decode_plain hr hhi (by simp [hC, ThumbParts.low8])

theorem decode_alu {C : LowReg → LowReg → Instr} (hC : ∀ p : ThumbParts, p.build r = C p.m p.l)
    (hr : r.firstUnless [] = true) (hhi : r.Admits ThumbParts.hi hi) (hk : r.Admits ThumbParts.k k) :
    decodeEncoded (encThumb hi k m l) = .ok (C m l) :=
  decode_encThumb hr hhi hk (fun _ hq => absurd hq List.not_mem_nil) (by simp [hC])

theorem decode_encHi {C : RegNum → RegNum → Instr} {op : BitVec 2} {rd rm : RegNum}
    (hC : ∀ p : ThumbParts, p.build r = C p.hiRd p.hiRs) (hr : r.plain = true)
    (hhi : r.Admits ThumbParts.hi (0b010001#6 ++ op)) : decodeEncoded (encHi op rd rm) = .ok (C rd rm) :=
  decode_plain hr hhi (by simp [hC, ThumbParts.hiRd, ThumbParts.hiRs])

theorem encLow8_append (hi : BitVec 8) (x : BitVec 1) (y : BitVec 7) :
    encLow8 hi (x ++ y) = encThumb hi (x ++ y.extractLsb' 6 1) (y.extractLsb' 3 3) (y.extractLsb' 0 3) := by
  have hk : x ++ y.extractLsb' 6 1 = (x ++ y).extractLsb' 6 2 := by simp [append_eq_iff]
  rw [hk, encLow8]
  simp

theorem undef1011_rivals {low12 : BitVec 12} (hw : Thumb.isUndef1011 low12 = true) :
    ∀ q ∈ [ThumbRow.adjustSp, .push, .pop], ¬q.Admits ThumbParts.hi (0b1011#4 ++ low12.extractLsb' 8 4) := by
  have key : ∀ x : BitVec 4, x ≠ 0#4 → x.extractLsb' 1 2 ≠ 0b10#2 →
      ∀ q ∈ [ThumbRow.adjustSp, .push, .pop], ¬q.Admits ThumbParts.hi (0b1011#4 ++ x) := by decide
  simp only [Thumb.isUndef1011, Bool.and_eq_true, Bool.not_eq_true', beq_eq_false_iff_ne] at hw
  exact key _ hw.1 (by simpa using hw.2)

theorem bCond_rivals {cond : Cond} (hw : (cond != .al && cond != .nv) = true) :
    ∀ q ∈ [ThumbRow.swi, .undefCond14], ¬q.Admits ThumbParts.hi (0b1101#4 ++ cond.toBits) := by
  cases cond
  case al | nv => cases hw
  all_goals decide

/-- Settles O1: each format's word fits the instruction's row and no row before it, and its fields are read back. -/
theorem decodeOfEncode : Obligations.DecodeOfEncode := by
  intro i hw
  cases i with
  | armBx =>
    exact decode_fields (r := .bx) (by decide) (by decide) (by decide) (by decide) (by decide) (by decide)
      ((by decide : ArmRow.bx.Ignores ArmParts.d).admits _) (by simp [ArmParts.build])
  | armMul => exact decode_multiply (r := .mul) (fun _ => rfl) (by decide) (by decide) (by decide)
  | armMla => exact decode_multiply (r := .mla) (fun _ => rfl) (by decide) (by decide) (by decide)
  | armUmull => exact decode_multiply (r := .umull) (fun _ => rfl) (by decide) (by decide) (by decide)
  | armUmlal => exact decode_multiply (r := .umlal) (fun _ => rfl) (by decide) (by decide) (by decide)
  | armSmull => exact decode_multiply (r := .smull) (fun _ => rfl) (by decide) (by decide) (by decide)
  | armSmlal => exact decode_multiply (r := .smlal) (fun _ => rfl) (by decide) (by decide) (by decide)
  | armUmaal => exact decode_plain_fields (r := .umaal) (by decide) (by decide) (by decide) (by simp [ArmParts.build])
  | armSwp => exact decode_swap (r := .swp) (fun _ => rfl) (by decide) (by decide) (by decide) (by decide) (by decide)
  | armSwpb => exact decode_swap (r := .swpb) (fun _ => rfl) (by decide) (by decide) (by decide) (by decide) (by decide)
  | armUnpredSwap => exact decode_encBody (fun _ => rfl) armRow_unpredSwap hw
  | armUndefMultiply => exact decode_encBody (fun _ => rfl) armRow_undefMultiply hw
  | armUnpredDoubleword => exact decode_encBody (fun _ => rfl) armRow_unpredDoubleword hw
  | armUnpredHalfwordReg => exact decode_encBody (fun _ => rfl) armRow_unpredHalfwordReg hw
  | armUnpredMrs => exact decode_encBody (fun _ => rfl) armRow_unpredMrs hw
  | armUnpredMsrReg => exact decode_encBody (fun _ => rfl) armRow_unpredMsrReg hw
  | armUndefCompareReg => exact decode_encBody (fun _ => rfl) armRow_undefCompareReg hw
  | armUnpredMsrImm => exact decode_encBody (fun _ => rfl) armRow_unpredMsrImm hw
  | armUndefCompareImm => exact decode_encBody (fun _ => rfl) armRow_undefCompareImm hw
  | armUndefA14 => exact decode_encBody (fun _ => rfl) armRow_undefA14 hw
  | armStrhImm => exact decode_encHalfImm (r := .strhImm) (fun _ => rfl) (by decide) (by decide) (by decide)
  | armStrhReg =>
    exact decode_encHalfReg (r := .strhReg) (fun _ => rfl) (by decide) (by decide) (by decide) (by decide) (by decide)
  | armLdrhImm => exact decode_encHalfImm (r := .ldrhImm) (fun _ => rfl) (by decide) (by decide) (by decide)
  | armLdrhReg =>
    exact decode_encHalfReg (r := .ldrhReg) (fun _ => rfl) (by decide) (by decide) (by decide) (by decide) (by decide)
  | armLdrsbImm => exact decode_encHalfImm (r := .ldrsbImm) (fun _ => rfl) (by decide) (by decide) (by decide)
  | armLdrsbReg =>
    exact decode_encHalfReg (r := .ldrsbReg) (fun _ => rfl) (by decide) (by decide) (by decide) (by decide) (by decide)
  | armLdrshImm => exact decode_encHalfImm (r := .ldrshImm) (fun _ => rfl) (by decide) (by decide) (by decide)
  | armLdrshReg =>
    exact decode_encHalfReg (r := .ldrshReg) (fun _ => rfl) (by decide) (by decide) (by decide) (by decide) (by decide)
  | armMrs _ r => 
    exact decode_fields (r := .mrs) (by decide) (by cases r <;> decide) (by decide)
      ((by decide : ArmRow.mrs.Ignores ArmParts.b).admits _) (by decide) (by decide) (by decide)
      (by simp [ArmParts.build, ArmParts.opBit])
  | armMsrReg _ r => 
    exact decode_fields (r := .msrReg) (by decide) (by cases r <;> decide)
      ((by decide : ArmRow.msrReg.Ignores ArmParts.a).admits _) (by decide) (by decide) (by decide)
      ((by decide : ArmRow.msrReg.Ignores ArmParts.d).admits _) (by simp [ArmParts.build, ArmParts.opBit])
  | armMsrImm _ r => 
    exact decode_fields (r := .msrImm) (by decide) (by cases r <;> decide)
      ((by decide : ArmRow.msrImm.Ignores ArmParts.a).admits _) (by decide)
      ((by decide : ArmRow.msrImm.Ignores ArmParts.c).admits _) ((by decide : ArmRow.msrImm.Ignores ArmParts.lo).admits _)
      ((by decide : ArmRow.msrImm.Ignores ArmParts.d).admits _) (by simp [ArmParts.build, ArmParts.opBit])
  | armAnd _ s => exact decode_encDp (r := .and) (fun _ => rfl) (by decide) (by cases s <;> decide)
  | armEor _ s => exact decode_encDp (r := .eor) (fun _ => rfl) (by decide) (by cases s <;> decide)
  | armSub _ s => exact decode_encDp (r := .sub) (fun _ => rfl) (by decide) (by cases s <;> decide)
  | armRsb _ s => exact decode_encDp (r := .rsb) (fun _ => rfl) (by decide) (by cases s <;> decide)
  | armAdd _ s => exact decode_encDp (r := .add) (fun _ => rfl) (by decide) (by cases s <;> decide)
  | armAdc _ s => exact decode_encDp (r := .adc) (fun _ => rfl) (by decide) (by cases s <;> decide)
  | armSbc _ s => exact decode_encDp (r := .sbc) (fun _ => rfl) (by decide) (by cases s <;> decide)
  | armRsc _ s => exact decode_encDp (r := .rsc) (fun _ => rfl) (by decide) (by cases s <;> decide)
  | armOrr _ s => exact decode_encDp (r := .orr) (fun _ => rfl) (by decide) (by cases s <;> decide)
  | armMov _ s => exact decode_encDp (r := .mov) (fun _ => rfl) (by decide) (by cases s <;> decide)
  | armBic _ s => exact decode_encDp (r := .bic) (fun _ => rfl) (by decide) (by cases s <;> decide)
  | armMvn _ s => exact decode_encDp (r := .mvn) (fun _ => rfl) (by decide) (by cases s <;> decide)
  | armTst => exact decode_compare (r := .tst) (fun _ => rfl) (by decide) (by decide)
  | armTeq => exact decode_compare (r := .teq) (fun _ => rfl) (by decide) (by decide)
  | armCmp => exact decode_compare (r := .cmp) (fun _ => rfl) (by decide) (by decide)
  | armCmn => exact decode_compare (r := .cmn) (fun _ => rfl) (by decide) (by decide)
  | armLdrt => exact decode_userTransfer (r := .ldrt) (fun _ => rfl) (by decide) (by decide)
  | armStrt => exact decode_userTransfer (r := .strt) (fun _ => rfl) (by decide) (by decide)
  | armLdrbt => exact decode_userTransfer (r := .ldrbt) (fun _ => rfl) (by decide) (by decide)
  | armStrbt => exact decode_userTransfer (r := .strbt) (fun _ => rfl) (by decide) (by decide)
  | armLdr => exact decode_transfer (r := .ldr) (user := .ldrt) (fun _ => rfl) (by decide) (by decide) hw
  | armStr => exact decode_transfer (r := .str) (user := .strt) (fun _ => rfl) (by decide) (by decide) hw
  | armLdrb => exact decode_transfer (r := .ldrb) (user := .ldrbt) (fun _ => rfl) (by decide) (by decide) hw
  | armStrb => exact decode_transfer (r := .strb) (user := .strbt) (fun _ => rfl) (by decide) (by decide) hw
  | armLdm => exact decode_block (r := .ldm) (fun _ => rfl) (by decide) (by decide)
  | armStm => exact decode_block (r := .stm) (fun _ => rfl) (by decide) (by decide)
  | armB => exact decode_encLow24 (r := .b) (fun _ => rfl) (by decide) (by decide)
  | armBl => exact decode_encLow24 (r := .bl) (fun _ => rfl) (by decide) (by decide)
  | armSwi => exact decode_encLow24 (r := .swi) (fun _ => rfl) (by decide) (by decide)
  | armLdcStc _ p u n w l => 
    exact decode_plain_fields (r := .ldcStc) (by decide) ((by decide : ∀ p u n w l, ArmRow.ldcStc.Admits ArmParts.op
      (0b110#3 ++ bit p ++ bit u ++ bit n ++ bit w ++ bit l)) p u n w l)
      ((by decide : ArmRow.ldcStc.Ignores ArmParts.lo).admits _) (by simp [ArmParts.build, ArmParts.opBit])
  | armCdp => 
    exact decode_plain_fields (r := .cdp) (by decide)
      ((by decide : ∀ x : BitVec 4, ArmRow.cdp.Admits ArmParts.op (0b1110#4 ++ x)) _)
      ((by decide : ∀ x : BitVec 3, ArmRow.cdp.Admits ArmParts.lo (x ++ 0#1)) _) (by simp [ArmParts.build])
  | armMcr => exact decode_coprocessorRegister (r := .mcr) (fun _ => rfl) (by decide) (by decide) (by decide)
  | armMrc => exact decode_coprocessorRegister (r := .mrc) (fun _ => rfl) (by decide) (by decide) (by decide)
  | thumbAddReg => exact decode_encThree (r := .addReg) (fun _ => rfl) (by decide) (by decide)
  | thumbSubReg => exact decode_encThree (r := .subReg) (fun _ => rfl) (by decide) (by decide)
  | thumbAddImm3 => exact decode_encThree (r := .addImm3) (fun _ => rfl) (by decide) (by decide)
  | thumbSubImm3 => exact decode_encThree (r := .subImm3) (fun _ => rfl) (by decide) (by decide)
  | thumbStrReg => exact decode_encThree (r := .strReg) (fun _ => rfl) (by decide) (by decide)
  | thumbStrbReg => exact decode_encThree (r := .strbReg) (fun _ => rfl) (by decide) (by decide)
  | thumbLdrReg => exact decode_encThree (r := .ldrReg) (fun _ => rfl) (by decide) (by decide)
  | thumbLdrbReg => exact decode_encThree (r := .ldrbReg) (fun _ => rfl) (by decide) (by decide)
  | thumbStrhReg => exact decode_encThree (r := .strhReg) (fun _ => rfl) (by decide) (by decide)
  | thumbLdrhReg => exact decode_encThree (r := .ldrhReg) (fun _ => rfl) (by decide) (by decide)
  | thumbLdsb => exact decode_encThree (r := .ldsb) (fun _ => rfl) (by decide) (by decide)
  | thumbLdsh => exact decode_encThree (r := .ldsh) (fun _ => rfl) (by decide) (by decide)
  | thumbLslImm => exact decode_encImm5 (r := .lslImm) (fun _ => rfl) (by decide) (by decide)
  | thumbLsrImm => exact decode_encImm5 (r := .lsrImm) (fun _ => rfl) (by decide) (by decide)
  | thumbAsrImm => exact decode_encImm5 (r := .asrImm) (fun _ => rfl) (by decide) (by decide)
  | thumbStrImm => exact decode_encImm5 (r := .strImm) (fun _ => rfl) (by decide) (by decide)
  | thumbLdrImm => exact decode_encImm5 (r := .ldrImm) (fun _ => rfl) (by decide) (by decide)
  | thumbStrbImm => exact decode_encImm5 (r := .strbImm) (fun _ => rfl) (by decide) (by decide)
  | thumbLdrbImm => exact decode_encImm5 (r := .ldrbImm) (fun _ => rfl) (by decide) (by decide)
  | thumbStrhImm => exact decode_encImm5 (r := .strhImm) (fun _ => rfl) (by decide) (by decide)
  | thumbLdrhImm => exact decode_encImm5 (r := .ldrhImm) (fun _ => rfl) (by decide) (by decide)
  | thumbAnd => exact decode_alu (r := .and) (fun _ => rfl) (by decide) (by decide) (by decide)
  | thumbEor => exact decode_alu (r := .eor) (fun _ => rfl) (by decide) (by decide) (by decide)
  | thumbLsl => exact decode_alu (r := .lsl) (fun _ => rfl) (by decide) (by decide) (by decide)
  | thumbLsr => exact decode_alu (r := .lsr) (fun _ => rfl) (by decide) (by decide) (by decide)
  | thumbAsr => exact decode_alu (r := .asr) (fun _ => rfl) (by decide) (by decide) (by decide)
  | thumbAdc => exact decode_alu (r := .adc) (fun _ => rfl) (by decide) (by decide) (by decide)
  | thumbSbc => exact decode_alu (r := .sbc) (fun _ => rfl) (by decide) (by decide) (by decide)
  | thumbRor => exact decode_alu (r := .ror) (fun _ => rfl) (by decide) (by decide) (by decide)
  | thumbTst => exact decode_alu (r := .tst) (fun _ => rfl) (by decide) (by decide) (by decide)
  | thumbNeg => exact decode_alu (r := .neg) (fun _ => rfl) (by decide) (by decide) (by decide)
  | thumbCmp => exact decode_alu (r := .cmp) (fun _ => rfl) (by decide) (by decide) (by decide)
  | thumbCmn => exact decode_alu (r := .cmn) (fun _ => rfl) (by decide) (by decide) (by decide)
  | thumbOrr => exact decode_alu (r := .orr) (fun _ => rfl) (by decide) (by decide) (by decide)
  | thumbMul => exact decode_alu (r := .mul) (fun _ => rfl) (by decide) (by decide) (by decide)
  | thumbBic => exact decode_alu (r := .bic) (fun _ => rfl) (by decide) (by decide) (by decide)
  | thumbMvn => exact decode_alu (r := .mvn) (fun _ => rfl) (by decide) (by decide) (by decide)
  | thumbMovImm8 => exact decode_encLow8_reg (r := .movImm8) (fun _ => rfl) (by decide) (by decide)
  | thumbCmpImm8 => exact decode_encLow8_reg (r := .cmpImm8) (fun _ => rfl) (by decide) (by decide)
  | thumbAddImm8 => exact decode_encLow8_reg (r := .addImm8) (fun _ => rfl) (by decide) (by decide)
  | thumbSubImm8 => exact decode_encLow8_reg (r := .subImm8) (fun _ => rfl) (by decide) (by decide)
  | thumbLdrPc => exact decode_encLow8_reg (r := .ldrPc) (fun _ => rfl) (by decide) (by decide)
  | thumbStrSp => exact decode_encLow8_reg (r := .strSp) (fun _ => rfl) (by decide) (by decide)
  | thumbLdrSp => exact decode_encLow8_reg (r := .ldrSp) (fun _ => rfl) (by decide) (by decide)
  | thumbAddPc => exact decode_encLow8_reg (r := .addPc) (fun _ => rfl) (by decide) (by decide)
  | thumbAddSp => exact decode_encLow8_reg (r := .addSp) (fun _ => rfl) (by decide) (by decide)
  | thumbStmia => exact decode_encLow8_reg (r := .stmia) (fun _ => rfl) (by decide) (by decide)
  | thumbLdmia => exact decode_encLow8_reg (r := .ldmia) (fun _ => rfl) (by decide) (by decide)
  | thumbPush => exact decode_encLow8_bit (r := .push) (fun _ => rfl) (by decide) (by decide)
  | thumbPop => exact decode_encLow8_bit (r := .pop) (fun _ => rfl) (by decide) (by decide)
  | thumbSwi => exact decode_encLow8 (r := .swi) (fun _ => rfl) (by decide) (by decide)
  | thumbUndefCond14 => exact decode_encLow8 (r := .undefCond14) (fun _ => rfl) (by decide) (by decide)
  | thumbAddHi => exact decode_encHi (r := .addHi) (fun _ => rfl) (by decide) (by decide)
  | thumbCmpHi => exact decode_encHi (r := .cmpHi) (fun _ => rfl) (by decide) (by decide)
  | thumbMovHi => exact decode_encHi (r := .movHi) (fun _ => rfl) (by decide) (by decide)
  | thumbB => exact decode_encLow11 (r := .b) (fun _ => rfl) (by decide) (by decide)
  | thumbUndefBlxSuffix => exact decode_encLow11 (r := .undefBlxSuffix) (fun _ => rfl) (by decide) (by decide)
  | thumbBlFirst => exact decode_encLow11 (r := .blFirst) (fun _ => rfl) (by decide) (by decide)
  | thumbBlSecond => exact decode_encLow11 (r := .blSecond) (fun _ => rfl) (by decide) (by decide)
  | thumbUndefBlxReg low7 => 
    rw [encode, encLow8_append]
    exact decode_encThumb (r := .undefBlxReg) (rivals := []) (by decide) (by decide)
      ((by decide : ∀ x : BitVec 1, ThumbRow.undefBlxReg.Admits ThumbParts.k (1#1 ++ x)) _) (by simp)
      (by simp [ThumbParts.build])
  | thumbBx rm => 
    exact decode_encThumb (r := .bx) (rivals := []) (by decide) (by decide)
      ((by decide : ∀ x : BitVec 1, ThumbRow.bx.Admits ThumbParts.k (0#1 ++ x)) _) (by simp)
      (by simp [ThumbParts.build, ThumbParts.hiRs])
  | thumbAdjustSp s sword7 => 
    rw [encode, encLow8_append]
    exact decode_plain (r := .adjustSp) (by decide) (by decide) (by simp [ThumbParts.build])
  | thumbUndef1011 low12 => 
    exact decode_encThumb (r := .undef1011) (by decide)
      ((by decide : ∀ x : BitVec 4, ThumbRow.undef1011.Admits ThumbParts.hi (0b1011#4 ++ x)) _)
      ((by decide : ∀ x, ThumbRow.undef1011.Admits ThumbParts.k x) _) (undef1011_rivals hw) (by simp [ThumbParts.build])
  | thumbBCond cond => 
    exact decode_encThumb (r := .bCond) (by decide) (by cases cond <;> decide)
      ((by decide : ∀ x, ThumbRow.bCond.Admits ThumbParts.k x) _) (bCond_rivals hw)
      (by simp [ThumbParts.build, ThumbParts.low8])

end Sys2Proof
end

section
/-! PROOFS. What the undefined and the reserved encodings do. -/

namespace Sys2Proof.Machine

variable {s : State} {i : Instr}

/-- An undefined encoding enters UND, or only advances, by the parameter (60_exceptions R820, R821). -/
theorem runs_undefined (h : exec i s = undefinedInstr s) :
    (s.params.invalidOpcode = .undefinedException → Runs i s (Entered .und 0x00000004#32 (s.pc + s.isize) s)) ∧
    (s.params.invalidOpcode = .noOp → Runs i s fun t => t = s.advance) := by
  constructor
  · exact fun hp => ⟨undefinedEntry s, by rw [h, undefinedInstr, hp], entered_enterException rfl ..⟩
  · exact fun hp => ⟨s.advance, by rw [h, undefinedInstr, hp]; rfl, rfl⟩

/-- Settles O42: each encoding's meaning is the undefined instruction, or the stop, under its condition. -/
theorem reservedEncodings : Obligations.ReservedEncodings := by
  intro s cond body p u n w l op rn crd cp crm op3 op2 x7 x8 x11 x12 hpass
  have hcond : ∀ f, conditional cond s f = f s := conditional_passed hpass
  refine ⟨fun i hi => runs_undefined ?undef, fun i hi => ?unpred⟩
  case undef =>
    revert i
    simp only [List.forall_mem_cons]
    exact ⟨hcond _, hcond _, hcond _, hcond _, hcond _, hcond _, hcond _, hcond _, rfl, rfl, rfl, rfl,
      List.forall_mem_nil _⟩
  case unpred =>
    revert i
    simp only [List.forall_mem_cons]
    exact ⟨hcond _, hcond _, hcond _, hcond _, hcond _, hcond _, List.forall_mem_nil _⟩

end Sys2Proof.Machine
end

section
/-! PROOFS. The ALU: an instruction whose condition fails, the barrel shifter as arithmetic, and the flag laws of
addition. -/

namespace Sys2Proof.Machine

/-! ### A condition that fails -/

/-- Every ARM meaning stands under its own condition, and Thumb instructions have none (30_encoding R321, R341). -/
theorem exec_of_condition_failed {i : Instr} {s : State} (h : conditionPassed s.cpsr (instrCondition i) = false) :
    exec i s = .next s.advance := by
  cases i
  case armBx | armMul | armMla | armUmull | armUmlal | armSmull | armSmlal | armUmaal | armSwp | armSwpb | armUnpredSwap
      | armUndefMultiply | armUnpredDoubleword | armStrhImm | armStrhReg | armLdrhImm | armLdrhReg | armLdrsbImm
      | armLdrsbReg | armLdrshImm | armLdrshReg | armUnpredHalfwordReg | armMrs | armMsrReg | armUnpredMrs
      | armUnpredMsrReg | armUndefCompareReg | armMsrImm | armUnpredMsrImm | armUndefCompareImm | armAnd | armEor
      | armSub | armRsb | armAdd | armAdc | armSbc | armRsc | armTst | armTeq | armCmp | armCmn | armOrr | armMov
      | armBic | armMvn | armUndefA14 | armLdrt | armStrt | armLdrbt | armStrbt | armLdr | armStr | armLdrb | armStrb
      | armLdm | armStm | armB | armBl | armLdcStc | armCdp | armMcr | armMrc | armSwi =>
    simp only [exec]
    exact conditional_failed h _
  all_goals exact Bool.noConfusion h

theorem instrCost_of_condition_failed {i : Instr} {s : State} (h : conditionPassed s.cpsr (instrCondition i) = false)
    (t : State) : instrCost i s t = costFetch s := if_neg (by simp [h])

theorem exec_thumbBCond_failed {cond : Cond} {s : State} (h : conditionPassed s.cpsr cond = false) (off : BitVec 8) :
    exec (.thumbBCond cond off) s = .next s.advance := by
  simp only [exec, execThumbBCond, h]
  rfl

theorem instrCost_thumbBCond_failed {cond : Cond} {s : State} (h : conditionPassed s.cpsr cond = false)
    (off : BitVec 8) (t : State) : instrCost (.thumbBCond cond off) s t = costFetch s :=
  (if_pos rfl).trans (if_neg (by simp [h]))

/-- The previous fetch stands one instruction before pc, said as a subtraction (20_memory R260). -/
theorem fetchSequential_eq (s : State) :
    fetchSequential s = (decide (s.lastFetchAddr = s.pc - s.isize) || decide (s.refill = some s.pc)) := by
  simp only [fetchSequential, beq_eq_decide, BitVec.eq_sub_iff_add_eq]

/-- Settles O6: the meaning and the cost of a failed condition, the Thumb conditional branch with its own, and the
sequential fetch by its marker. -/
theorem conditionFailed : Obligations.ConditionFailed := by
  have hfetch : ∀ s : State, costFetch s = ⟨accessCost s (fetchWidth s) s.pc
      (decide (s.lastFetchAddr = s.pc - s.isize) || decide (s.refill = some s.pc)), false⟩ := fun s => by
    rw [costFetch, costFs, fetchSequential_eq]
  exact ⟨fun i s h => ⟨exec_of_condition_failed h, fun t => (instrCost_of_condition_failed h t).trans (hfetch s)⟩,
    fun cond off s h => ⟨exec_thumbBCond_failed h off, fun t => (instrCost_thumbBCond_failed h off t).trans (hfetch s)⟩⟩

/-! ### Bits of a word as arithmetic -/

theorem getLsbD_eq_decide_div_mod (v : Word) (i : Nat) : v.getLsbD i = decide (v.toNat / 2 ^ i % 2 = 1) := by
  rw [← BitVec.testBit_toNat, Nat.testBit_eq_decide_div_mod_eq]

theorem signBit_eq (w : Word) : w.getLsbD 31 = decide (2 ^ 31 ≤ w.toNat) := by
  rw [← BitVec.msb_eq_getLsbD_last w, BitVec.msb_eq_decide]

theorem toInt_neg_iff_signBit (w : Word) : w.toInt < 0 ↔ w.getLsbD 31 = true := by
  rw [BitVec.toInt_neg_iff, signBit_eq, decide_eq_true_iff]
  omega

theorem replicateBit_signBit (w : Word) :
    replicateBit (w.getLsbD 31) = if w.toInt < 0 then 0xFFFFFFFF#32 else 0#32 := by
  simp only [replicateBit, toInt_neg_iff_signBit]

/-! ### The shifts by 1 to 31 (40_alu R412) -/

theorem shiftImm_eq_shiftPlain {n : Nat} (h : 0 < n) (ty : ShiftType) (v : Word) (cin : Bool) :
    shiftImm ty v n cin = shiftPlain ty v n := if_neg h.ne'

theorem shiftReg_eq_shiftPlain {n : Nat} (h : 0 < n) (hn : n < 32) (ty : ShiftType) (v : Word) (cin : Bool) :
    shiftReg ty v n cin = shiftPlain ty v n := by
  rw [shiftReg.eq_def, if_neg h.ne', if_pos hn]

theorem shiftPlain_lsl_toNat (v : Word) (n : Nat) : (shiftPlain .lsl v n).value.toNat = v.toNat * 2 ^ n % 2 ^ 32 := by
  rw [shiftPlain, BitVec.toNat_shiftLeft, Nat.shiftLeft_eq]

theorem shiftPlain_lsr_toNat (v : Word) (n : Nat) : (shiftPlain .lsr v n).value.toNat = v.toNat / 2 ^ n := by
  rw [shiftPlain, BitVec.toNat_ushiftRight, Nat.shiftRight_eq_div_pow]

theorem shiftPlain_asr_toInt (v : Word) (n : Nat) : (shiftPlain .asr v n).value.toInt = v.toInt / 2 ^ n := by
  rw [shiftPlain, BitVec.toInt_sshiftRight, Int.shiftRight_eq_div_pow, Int.natCast_pow]
  rfl

/-- A rotation right puts the low `n` bits above the others. -/
theorem ror32_toNat (v : Word) {n : Nat} (hn : n < 32) :
    (ror32 v n).toNat = v.toNat / 2 ^ n + v.toNat % 2 ^ n * 2 ^ (32 - n) := by
  have hpow : 2 ^ n * 2 ^ (32 - n) = 2 ^ 32 := by rw [← Nat.pow_add, Nat.add_sub_cancel' hn.le]
  have hkept : v.toNat / 2 ^ n < 2 ^ (32 - n) := Nat.div_lt_of_lt_mul (by rw [hpow]; exact v.isLt)
  have hmoved : v.toNat <<< (32 - n) % 2 ^ 32 = (v.toNat % 2 ^ n) <<< (32 - n) := by
    rw [Nat.shiftLeft_eq, Nat.shiftLeft_eq, ← hpow, Nat.mul_mod_mul_right]
  rw [ror32, BitVec.toNat_rotateRight, Nat.mod_mod, Nat.mod_eq_of_lt hn, hmoved, Nat.shiftRight_eq_div_pow, Nat.lor_comm,
    ← Nat.shiftLeft_add_eq_or_of_lt hkept, Nat.shiftLeft_eq, Nat.add_comm]

/-- The last bit that leaves on the left. -/
theorem shiftPlain_lsl_carry (v : Word) (n : Nat) :
    (shiftPlain .lsl v n).carry = decide (v.toNat / 2 ^ (32 - n) % 2 = 1) := getLsbD_eq_decide_div_mod v (32 - n)

/-- The last bit that leaves on the right, for the three shifts to the right. -/
theorem shiftPlain_right_carry (v : Word) (n : Nat) {ty : ShiftType} (h : ty ∈ [ShiftType.lsr, .asr, .ror]) :
    (shiftPlain ty v n).carry = decide (v.toNat / 2 ^ (n - 1) % 2 = 1) := by
  rw [← getLsbD_eq_decide_div_mod]
  cases ty with
  | lsl => simp at h
  | lsr | asr | ror => rfl

/-! ### The register form by 32 and more (40_alu R424-R427) -/

theorem beq_and_eq_ite (n m : Nat) (b : Bool) : (n == m && b) = if n = m then b else false := by
  by_cases h : n = m <;> simp [h]

section
variable {n : Nat} (h : 32 ≤ n) (v : Word) (cin : Bool)
include h

theorem shiftReg_lsl_ge : shiftReg .lsl v n cin = ⟨0#32, if n = 32 then v.getLsbD 0 else false⟩ := by
  rw [shiftReg, if_neg (by omega), if_neg (by omega), ← beq_and_eq_ite]

theorem shiftReg_lsr_ge : shiftReg .lsr v n cin = ⟨0#32, if n = 32 then v.getLsbD 31 else false⟩ := by
  rw [shiftReg, if_neg (by omega), if_neg (by omega), ← beq_and_eq_ite]

theorem shiftReg_asr_ge : shiftReg .asr v n cin = ⟨if v.toInt < 0 then 0xFFFFFFFF#32 else 0#32, v.getLsbD 31⟩ := by
  rw [shiftReg, if_neg (by omega), if_neg (by omega), ← replicateBit_signBit]

theorem shiftReg_ror_ge :
    shiftReg .ror v n cin = if n % 32 = 0 then ⟨v, v.getLsbD 31⟩ else shiftReg .ror v (n % 32) cin := by
  rw [shiftReg, if_neg (by omega), if_neg (by omega)]
  refine ite_congr rfl (fun _ => rfl) fun hr => ?_
  rw [shiftReg_eq_shiftPlain (Nat.pos_of_ne_zero hr) (Nat.mod_lt _ (by decide))]

end

/-- Settles O17: the immediate shifts by 0 are their rows of the definition. -/
theorem shifterSpecialCases : Obligations.ShifterSpecialCases :=
  fun v cin => ⟨rfl, rfl, rfl, rfl, fun _ h => shiftReg_lsl_ge h v cin⟩

/-- Settles O18: by 1 to 31 both forms are `shiftPlain`, which is arithmetic. -/
theorem shifterResults : Obligations.ShifterResults := by
  intro v n cin
  refine ⟨fun h hn f hf => ?_, fun _ => rfl, fun h => ⟨shiftReg_lsr_ge h v cin, shiftReg_asr_ge h v cin,
    shiftReg_ror_ge h v cin⟩⟩
  have hplain : ∀ ty, f ty v n cin = shiftPlain ty v n := fun ty => by
    rcases List.mem_pair.mp hf with rfl | rfl
    · exact shiftImm_eq_shiftPlain h ty v cin
    · exact shiftReg_eq_shiftPlain h hn ty v cin
  simp only [hplain]
  exact ⟨shiftPlain_lsl_toNat v n, shiftPlain_lsr_toNat v n, shiftPlain_asr_toInt v n, ror32_toNat v hn,
    shiftPlain_lsl_carry v n, fun _ hty => shiftPlain_right_carry v n hty⟩

/-! ### Addition and subtraction (40_alu R430, R436) -/

theorem addWithCarry_value (a b : Word) (cin : Bool) :
    (addWithCarry a b cin).value = a + b + BitVec.ofNat 32 cin.toNat := by
  rw [addWithCarry, BitVec.ofNat_add, BitVec.ofNat_add, BitVec.ofNat_toNat, BitVec.ofNat_toNat, BitVec.setWidth_eq,
    BitVec.setWidth_eq]

theorem addWithCarry_false_value (a b : Word) : (addWithCarry a b false).value = a + b :=
  (addWithCarry_value a b false).trans (BitVec.add_zero _)

/-- Subtraction adds the complement and 1. -/
theorem addWithCarry_not_true_value (a b : Word) : (addWithCarry a (~~~b) true).value = a - b := by
  rw [addWithCarry_value, BitVec.sub_eq_add_neg, BitVec.neg_eq_not_add, BitVec.add_assoc]
  rfl

/-- Overflow is a sign that both operands have and the result has not. -/
theorem addWithCarry_overflow_iff (a b : Word) (cin : Bool) : (addWithCarry a b cin).overflow = true ↔
    a.getLsbD 31 = b.getLsbD 31 ∧ (addWithCarry a b cin).value.getLsbD 31 ≠ a.getLsbD 31 := by
  have hc := cin.toNat_le
  have hv : (addWithCarry a b cin).value.toNat = (a.toNat + b.toNat + cin.toNat) % 2 ^ 32 := BitVec.toNat_ofNat ..
  simp only [signBit_eq, hv, ne_eq, decide_eq_decide]
  simp only [addWithCarry, decide_eq_true_iff, BitVec.toInt_eq_toNat_cond]
  omega

/-- Settles O20: the sum's value and carry are exact, and both overflows are `addWithCarry_overflow_iff`. -/
theorem flagLaws : Obligations.FlagLaws := by
  intro a b
  refine ⟨?addSub, ?carry, addWithCarry_overflow_iff a b false, ?subOverflow⟩
  case addSub => rw [addWithCarry_not_true_value, addWithCarry_false_value, BitVec.add_sub_cancel]
  case carry => exact decide_eq_decide.mpr Nat.lt_iff_add_one_le.symm
  case subOverflow =>
    have hsign : (~~~b).getLsbD 31 = !b.getLsbD 31 := by simp
    rw [addWithCarry_overflow_iff, hsign, Bool.eq_not]

end Sys2Proof.Machine
end

section
/-! PROOFS. ARM data processing: the words of the spec, the operand forms, and what the sixteen operations write. -/

namespace Sys2Proof.Machine

/-- Settles O3: each word runs through the decoder's table. -/
theorem wordsOfTheSpecDecode : Obligations.WordsOfTheSpecDecode :=
  ⟨rfl, rfl, rfl, rfl, rfl, rfl, rfl, rfl, rfl, rfl, rfl⟩

/-! ### Operand forms (41 R450-R453) -/

/-- The rotate field turns by less than a whole word. -/
theorem rotatedImm_eq (rotate : BitVec 4) (imm8 : BitVec 8) :
    rotatedImm rotate imm8 = (imm8.setWidth 32).rotateRight (2 * rotate.toNat) := by
  rw [rotatedImm, ror32, Nat.mod_eq_of_lt (by omega)]

theorem dpRegister_true (s : State) (i : RegNum) :
    dpRegister s true i = if i = 15#4 then s.pc + 12#32 else s.x i := by
  simp only [dpRegister, Bool.true_and, beq_iff_eq]

theorem x_r15_eq (s : State) : s.x 15#4 = s.pc + if s.cpsr.t then 4#32 else 8#32 := by
  rw [State.x_r15, State.pcOperand, State.isize, BitVec.add_assoc]
  cases s.cpsr.t <;> rfl

/-- Settles O19: each form is its row of the definition. -/
theorem operandForms : Obligations.OperandForms := by
  intro s
  refine ⟨fun rot imm8 => ?imm, fun _ _ _ => rfl, fun ty rs rm => ?shiftReg, fun imm12 => ?offset, fun _ _ _ => rfl,
    fun rn _ _ _ => dpRegister_true s rn, fun _ _ _ _ _ _ => ⟨rfl, rfl⟩, x_r15_eq s⟩
  case imm =>
    rw [← rotatedImm_eq]
    exact ⟨rfl, rfl⟩
  case shiftReg =>
    rw [operand2Value, dpRegister_true, BitVec.extractLsb'_toNat, Nat.shiftRight_zero]
  case offset =>
    rw [offsetValue, BitVec.toNat_setWidth, Nat.mod_eq_of_lt (by omega)]

theorem badShiftAmount_iff {o : Operand2} : badShiftAmount o = true ↔ ¬ShiftUsable o := by
  cases o <;> simp [badShiftAmount, ShiftUsable]

theorem ShiftUsable.not_bad {o : Operand2} (h : ShiftUsable o) : badShiftAmount o = false :=
  Bool.eq_false_iff.mpr fun hb => badShiftAmount_iff.mp hb h

/-! ### The sums in exact numbers (40_alu R430, R431) -/

theorem addWithCarry_eq_sumOf (a b : Word) (c : Bool) : addWithCarry a b c = sumOf a b c := by
  rw [sumOf, ← addWithCarry_value]
  simp only [addWithCarry, Sum.mk.injEq, decide_eq_decide, true_and]
  omega

theorem toInt_not (b : Word) : (~~~b).toInt = -b.toInt - 1 := by
  rw [BitVec.toInt_eq_toNat_cond, BitVec.toInt_eq_toNat_cond, BitVec.toNat_not]
  omega

theorem addWithCarry_not_value (a b : Word) (c : Bool) :
    (addWithCarry a (~~~b) c).value = a - b - BitVec.ofNat 32 (1 - c.toNat) := by
  rw [addWithCarry_value]
  cases c <;> bv_omega

theorem addWithCarry_not_eq_differenceOf (a b : Word) (c : Bool) : addWithCarry a (~~~b) c = differenceOf a b c := by
  have hc := c.toNat_le
  have hb := b.isLt
  rw [differenceOf, ← addWithCarry_not_value]
  simp only [addWithCarry, Sum.mk.injEq, decide_eq_decide, true_and, toInt_not, BitVec.toNat_not]
  omega

/-! ### What the operations write (41 R454-R459) -/

section
variable {s : State} {op : DpOp} {rn rd : RegNum} {op2 : Operand2} {sb : Bool} (hop2 : ShiftUsable op2)
include hop2

theorem dataProcessing_reg (hrd : rd ≠ 15#4) : dataProcessing op sb rn rd op2 s =
    .next (if sb then (s.setX rd (dpResult op rn op2 s).value).setCpsr (flagsNZCV s.cpsr (dpResult op rn op2 s))
      else s.setX rd (dpResult op rn op2 s).value).advance := by
  rw [dataProcessing, hop2.not_bad, unlessUnpredictable_false, if_neg hrd]

theorem dataProcessing_r15 : dataProcessing op sb rn 15#4 op2 s =
    if sb then exceptionReturn (dpResult op rn op2 s).value s
    else .next (s.setPc (alignWord (dpResult op rn op2 s).value)) := by
  rw [dataProcessing, hop2.not_bad, unlessUnpredictable_false, if_pos rfl]

theorem comparison_eq : comparison op rn op2 s =
    .next (s.setCpsr (flagsNZCV s.cpsr (dpResult op rn op2 s))).advance := by
  rw [comparison, hop2.not_bad, unlessUnpredictable_false]

variable {cond : Cond} (hpass : conditionPassed s.cpsr cond = true) {i : Instr} {r : Sum}
include hpass

theorem runs_dataProcessing (hrd : rd ≠ 15#4) (hi : exec i s = conditional cond s (dataProcessing op sb rn rd op2))
    (hr : dpResult op rn op2 s = r) :
    Runs i s fun t => Writes rd r.value s t ∧ if sb then ArithmeticFlags r t else SameFlags s t := by
  rw [Runs, hi, conditional_passed hpass, dataProcessing_reg hop2 hrd, hr]
  cases sb with
  | false => exact ⟨_, rfl, writes_setX hrd _, sameFlags_of_cpsr (State.setX_cpsr ..)⟩
  | true => exact ⟨_, rfl, writes_setX_withFlags hrd _ .., rfl, rfl, rfl, rfl⟩

/-- A logical result carries the shifter's C and the old V (40_alu R433, R435). -/
theorem runs_logical (hrd : rd ≠ 15#4) (hi : exec i s = conditional cond s (dataProcessing op sb rn rd op2))
    {v : Word} {c : Bool} (hr : dpResult op rn op2 s = ⟨v, c, s.cpsr.v⟩) :
    Runs i s fun t => Writes rd v s t ∧ if sb then LogicalFlags v c s t else SameFlags s t :=
  runs_dataProcessing hop2 hpass (r := ⟨v, c, s.cpsr.v⟩) hrd hi hr

theorem runs_comparison (hi : exec i s = conditional cond s (comparison op rn op2)) (hr : dpResult op rn op2 s = r) :
    Runs i s fun t => OnlyFlags s t ∧ ArithmeticFlags r t := by
  rw [Runs, hi, conditional_passed hpass, comparison_eq hop2, hr]
  exact ⟨_, rfl, onlyFlags_withFlags s .., rfl, rfl, rfl, rfl⟩

theorem runs_logicalComparison (hi : exec i s = conditional cond s (comparison op rn op2)) {v : Word} {c : Bool}
    (hr : dpResult op rn op2 s = ⟨v, c, s.cpsr.v⟩) : Runs i s fun t => OnlyFlags s t ∧ LogicalFlags v c s t :=
  runs_comparison hop2 hpass (r := ⟨v, c, s.cpsr.v⟩) hi hr

end

/-- Settles O13: each operation's ALU row is its value, the shifter's carry and the old V. -/
theorem armLogicalOperations : Obligations.ArmLogicalOperations := by
  rintro s cond sb rn rd op2 _ _ hpass hrd hop2 rfl rfl
  simp only [List.forall_mem_cons]
  refine ⟨?_, ?_, ?_, ?_, ?_, ?_, List.forall_mem_nil _⟩ <;> exact runs_logical hop2 hpass hrd rfl rfl

/-- Settles O14: each operation's ALU row is an addition with carry, which is the exact sum or difference. -/
theorem armArithmeticOperations : Obligations.ArmArithmeticOperations := by
  rintro s cond sb rn rd op2 _ _ hpass hrd hop2 rfl rfl
  simp only [List.forall_mem_cons]
  exact ⟨runs_dataProcessing hop2 hpass hrd rfl (addWithCarry_not_eq_differenceOf ..),
    runs_dataProcessing hop2 hpass hrd rfl (addWithCarry_not_eq_differenceOf ..),
    runs_dataProcessing hop2 hpass hrd rfl (addWithCarry_eq_sumOf ..),
    runs_dataProcessing hop2 hpass hrd rfl (addWithCarry_eq_sumOf ..),
    runs_dataProcessing hop2 hpass hrd rfl (addWithCarry_not_eq_differenceOf ..),
    runs_dataProcessing hop2 hpass hrd rfl (addWithCarry_not_eq_differenceOf ..), List.forall_mem_nil _⟩

/-- Settles O15: the comparisons take the flags of AND, EOR, SUB and ADD. -/
theorem armComparisons : Obligations.ArmComparisons := by
  rintro s cond rn sbz op2 _ _ hpass hop2 rfl rfl
  exact ⟨runs_logicalComparison hop2 hpass rfl rfl, runs_logicalComparison hop2 hpass rfl rfl,
    runs_comparison hop2 hpass rfl (addWithCarry_not_eq_differenceOf ..),
    runs_comparison hop2 hpass rfl (addWithCarry_eq_sumOf ..)⟩

/-! ### Results to R15 (41 R455, R456) -/

theorem exceptionReturn_noSpsr {s : State} (h : s.spsrOf s.cpsr.mode = none) (target : Word) :
    exceptionReturn target s = .fault .noSpsrInMode := by
  rw [exceptionReturn, restoreFromSpsr_none h, andThen_fault]

theorem exceptionReturn_invalid {s : State} {p : Spsr} (h : s.spsrOf s.cpsr.mode = some p) (hc : p.restored = none)
    (target : Word) : exceptionReturn target s = .fault .invalidModeRestore := by
  rw [exceptionReturn, restoreFromSpsr_invalid h hc, andThen_fault]

/-- A result to R15 is a branch in the form `i` without S, and a return from an exception in the form `j` with S. -/
theorem runs_resultToPc {s : State} {cond : Cond} (hpass : conditionPassed s.cpsr cond = true) {op : DpOp} {rn : RegNum}
    {op2 : Operand2} (hop2 : ShiftUsable op2) {i j : Instr} {v : Word}
    (hi : exec i s = conditional cond s (dataProcessing op false rn 15#4 op2))
    (hj : exec j s = conditional cond s (dataProcessing op true rn 15#4 op2)) (hv : (dpResult op rn op2 s).value = v) :
    (Runs i s fun t => t.pc = alignWord v ∧ t.cpsr = s.cpsr ∧ RegisterFrame [] s t) ∧
    (∀ p c, s.spsrOf s.cpsr.mode = some p → p.restored = some c →
      Runs j s fun t => t.cpsr = c ∧ t.pc = (if c.t then alignHalf v else alignWord v) ∧ StatusFrame [] s t) ∧
    (s.spsrOf s.cpsr.mode = none → exec j s = .fault .noSpsrInMode) ∧
    (∀ p, s.spsrOf s.cpsr.mode = some p → p.restored = none → exec j s = .fault .invalidModeRestore) := by
  rw [conditional_passed hpass, dataProcessing_r15 hop2, hv] at hi hj
  refine ⟨⟨_, hi, rfl, rfl, registerFrame_setPc ..⟩, fun p c hp hc => ?_,
    fun h => hj.trans (exceptionReturn_noSpsr h v), fun p h hc => hj.trans (exceptionReturn_invalid h hc v)⟩
  exact ⟨_, hj.trans (exceptionReturn_eq hp hc v), rfl, rfl,
    (statusFrame_setCpsr s c).trans (registerFrame_setPc ..).toStatus⟩

/-- Settles O16: each operation's value, by its ALU row. -/
theorem armResultsToPc : Obligations.ArmResultsToPc := by
  rintro s cond rn op2 _ _ hpass hop2 rfl rfl
  simp only [List.forall_mem_cons]
  exact ⟨runs_resultToPc hpass hop2 rfl rfl rfl, runs_resultToPc hpass hop2 rfl rfl rfl,
    runs_resultToPc hpass hop2 rfl rfl (addWithCarry_not_true_value ..),
    runs_resultToPc hpass hop2 rfl rfl (addWithCarry_not_true_value ..),
    runs_resultToPc hpass hop2 rfl rfl (addWithCarry_false_value ..),
    runs_resultToPc hpass hop2 rfl rfl (addWithCarry_value ..),
    runs_resultToPc hpass hop2 rfl rfl (addWithCarry_not_value ..),
    runs_resultToPc hpass hop2 rfl rfl (addWithCarry_not_value ..),
    runs_resultToPc hpass hop2 rfl rfl rfl, runs_resultToPc hpass hop2 rfl rfl rfl,
    runs_resultToPc hpass hop2 rfl rfl rfl, runs_resultToPc hpass hop2 rfl rfl rfl, List.forall_mem_nil _⟩

end Sys2Proof.Machine
end

section
/-! PROOFS. The operand combinations that stop the machine: each restriction of the meanings as the statements say it,
and the stop. -/

namespace Sys2Proof.Machine

/-! ### The restrictions -/

theorem badOffset_iff {off : Offset} : badOffset off = true ↔ ¬OffsetUsable off := by
  cases off <;> simp [badOffset, OffsetUsable]

theorem badTransfer_iff {p w : Bool} {rn rd : RegNum} : badTransfer p w rn rd = true ↔ ¬BaseUsable p w rn rd := by
  cases p <;> cases w <;> simp [badTransfer, writesBack, BaseUsable, BaseWritten, or_iff_not_imp_left]

/-- The T variants are post-indexed, so that their base is always written back. -/
theorem not_baseUsable_postIndexed {w : Bool} {rn rd : RegNum} : ¬BaseUsable false w rn rd ↔ rn = 15#4 ∨ rd = rn := by
  rw [← badTransfer_iff]
  simp [badTransfer, writesBack]

theorem badSingle_word_iff {p w : Bool} {rn rd : RegNum} {off : Offset} : badSingle false p w rn rd off = true ↔
    ¬BaseUsable p w rn rd ∨ ¬OffsetUsable off := by
  simp [badSingle, badTransfer_iff, badOffset_iff]

theorem badSingle_byte_iff {p w : Bool} {rn rd : RegNum} {off : Offset} : badSingle true p w rn rd off = true ↔
    ¬BaseUsable p w rn rd ∨ ¬OffsetUsable off ∨ rd = 15#4 := by
  simp [badSingle, badTransfer_iff, badOffset_iff, or_assoc]

theorem badHalf_iff {p w : Bool} {rn rd rm : RegNum} : badHalf p w rn rd rm = true ↔
    ¬BaseUsable p w rn rd ∨ (p = false ∧ w = true) ∨ rd = 15#4 ∨ rm = 15#4 := by
  simp [badHalf, badTransfer_iff, or_assoc]

theorem badMul_iff {rd rn rs rm : RegNum} : badMul rd rn rs rm = true ↔
    rd = 15#4 ∨ rm = 15#4 ∨ rs = 15#4 ∨ rn = 15#4 ∨ rd = rm := by
  simp [badMul, or_assoc]

theorem badMulLong_iff {hi lo rs rm : RegNum} : badMulLong hi lo rs rm = true ↔
    hi = 15#4 ∨ lo = 15#4 ∨ rm = 15#4 ∨ rs = 15#4 ∨ hi = lo ∨ hi = rm ∨ lo = rm := by
  simp [badMulLong, or_assoc]

theorem badSwap_iff {rn rd rm : RegNum} : badSwap rn rd rm = true ↔
    rn = 15#4 ∨ rd = 15#4 ∨ rm = 15#4 ∨ rn = rd ∨ rn = rm := by
  simp [badSwap, or_assoc]

theorem Mode.hasSpsr_eq_false {m : Mode} : m.hasSpsr = false ↔ m = .usr ∨ m = .sys := by cases m <;> decide

theorem badLdm_iff {sb w : Bool} {rn : RegNum} {list : BitVec 16} {m : Mode} : badLdm sb w rn list m = true ↔
    list = 0#16 ∨ rn = 15#4 ∨ (w = true ∧ list.getLsbD rn.toNat = true) ∨
      (sb = true ∧ list.getLsbD 15 = false ∧ (w = true ∨ m = .usr ∨ m = .sys)) := by
  simp [badLdm, Mode.hasSpsr_eq_false, or_assoc, and_assoc]

theorem badStm_iff {sb w : Bool} {rn : RegNum} {list : BitVec 16} {m : Mode} : badStm sb w rn list m = true ↔
    list = 0#16 ∨ rn = 15#4 ∨ (sb = true ∧ (w = true ∨ m = .usr ∨ m = .sys)) := by
  simp [badStm, Mode.hasSpsr_eq_false, or_assoc]

/-! ### The empty lists of the Thumb block transfers (45_thumb R730) -/

theorem lowListRegs_zero : lowListRegs 0#8 = [] := by decide

theorem pushRegs_zero (extra : RegNum) : pushRegs 0#8 false extra = [] := by rw [pushRegs, lowListRegs_zero]; rfl

theorem thumbPush_empty (s : State) : exec (.thumbPush false 0#8) s = .fault .unpredictable := by
  simp only [exec, execThumbPush, pushRegs_zero, List.isEmpty_nil, unlessUnpredictable_true]

theorem thumbPop_empty (s : State) : exec (.thumbPop false 0#8) s = .fault .unpredictable := by
  simp only [exec, execThumbPop, pushRegs_zero, List.isEmpty_nil, unlessUnpredictable_true]

theorem thumbStmia_empty (s : State) (rb : LowReg) : exec (.thumbStmia rb 0#8) s = .fault .unpredictable := by
  simp only [exec, execThumbStmia, lowListRegs_zero, List.isEmpty_nil, unlessUnpredictable_true]

theorem thumbLdmia_empty (s : State) (rb : LowReg) : exec (.thumbLdmia rb 0#8) s = .fault .unpredictable := by
  simp only [exec, execThumbLdmia, lowListRegs_zero, List.isEmpty_nil, unlessUnpredictable_true]

/-! ### The stop -/

theorem unlessUnpredictable_of_bad {bad : Bool} (h : bad = true) (r : Result) :
    unlessUnpredictable bad r = .fault .unpredictable := by rw [h, unlessUnpredictable_true]

/-- Settles O24: each clause is the restriction its instructions' meanings begin with. -/
theorem forbiddenOperandsStop : Obligations.ForbiddenOperandsStop := by
  intro s cond sb p u w r rn rd rs rm hi lo op2 off imm8 mask list hpass
  have hcond : ∀ f, conditional cond s f = f s := conditional_passed hpass
  simp only [List.forall_mem_cons]
  refine ⟨fun h => ?shift, fun h => ?mul, fun h => ?mla, fun h => ?mulLong, fun h => ?word, fun h => ?byte,
    fun h => ?userWord, fun h => ?userByte, fun h => ?halfImm, fun h => ?halfReg, fun h => ?swap, fun h => ?ldm,
    fun h => ?stm, ?mrs, ?msr, fun x => ?thumbMul, fun x => ?emptyList⟩
  case shift =>
    have hstop := unlessUnpredictable_of_bad (badShiftAmount_iff.mpr h)
    refine ⟨?_, ?_, ?_, ?_, ?_, ?_, ?_, ?_, ?_, ?_, ?_, ?_, ?_, ?_, ?_, ?_, List.forall_mem_nil _⟩ <;>
      exact (hcond _).trans (hstop _)
  case mul =>
    have hbad : badMul rd rm rs rm = true := badMul_iff.mpr (by tauto)
    simp only [exec, execArmMul, hcond, hbad, unlessUnpredictable_true]
  case mla =>
    have hbad : badMul rd rn rs rm = true := badMul_iff.mpr (by tauto)
    simp only [exec, execArmMla, hcond, hbad, unlessUnpredictable_true]
  case mulLong =>
    have hbad : badMulLong hi lo rs rm = true := badMulLong_iff.mpr (by tauto)
    refine ⟨?_, ?_, ?_, ?_, List.forall_mem_nil _⟩ <;>
      simp only [exec, execArmUmull, execArmUmlal, execArmSmull, execArmSmlal, hcond, mulLong, hbad,
        unlessUnpredictable_true]
  case word =>
    have hstop := unlessUnpredictable_of_bad (badSingle_word_iff.mpr h)
    exact ⟨(hcond _).trans (hstop _), (hcond _).trans (hstop _), List.forall_mem_nil _⟩
  case byte =>
    have hstop := unlessUnpredictable_of_bad (badSingle_byte_iff.mpr h)
    exact ⟨(hcond _).trans (hstop _), (hcond _).trans (hstop _), List.forall_mem_nil _⟩
  case userWord =>
    rw [← or_assoc, ← not_baseUsable_postIndexed (w := true)] at h
    have hstop := unlessUnpredictable_of_bad (badSingle_word_iff.mpr h)
    exact ⟨(hcond _).trans (hstop _), (hcond _).trans (hstop _), List.forall_mem_nil _⟩
  case userByte =>
    rw [← or_assoc, ← not_baseUsable_postIndexed (w := true)] at h
    have hstop := unlessUnpredictable_of_bad (badSingle_byte_iff.mpr h)
    exact ⟨(hcond _).trans (hstop _), (hcond _).trans (hstop _), List.forall_mem_nil _⟩
  case halfImm =>
    have hbad : badHalf p w rn rd 0#4 = true := badHalf_iff.mpr (by tauto)
    refine ⟨?_, ?_, ?_, ?_, List.forall_mem_nil _⟩ <;>
      simp only [exec, execArmStrhImm, execArmLdrhImm, execArmLdrsbImm, execArmLdrshImm, hcond, storeHalfForm,
        loadHalfForm, hbad, unlessUnpredictable_true]
  case halfReg =>
    have hbad : badHalf p w rn rd rm = true := badHalf_iff.mpr h
    refine ⟨?_, ?_, ?_, ?_, List.forall_mem_nil _⟩ <;>
      simp only [exec, execArmStrhReg, execArmLdrhReg, execArmLdrsbReg, execArmLdrshReg, hcond, storeHalfForm,
        loadHalfForm, hbad, unlessUnpredictable_true]
  case swap =>
    have hstop := unlessUnpredictable_of_bad (badSwap_iff.mpr h)
    exact ⟨(hcond _).trans (hstop _), (hcond _).trans (hstop _), List.forall_mem_nil _⟩
  case ldm => exact (hcond _).trans (unlessUnpredictable_of_bad (badLdm_iff.mpr h) _)
  case stm => exact (hcond _).trans (unlessUnpredictable_of_bad (badStm_iff.mpr h) _)
  case mrs => exact (hcond _).trans (unlessUnpredictable_of_bad (beq_self_eq_true 15#4) _)
  case msr => simp only [exec, execArmMsrReg, hcond, beq_self_eq_true, unlessUnpredictable_true]
  case thumbMul => simp only [exec, execThumbMul, beq_self_eq_true, unlessUnpredictable_true]
  case emptyList =>
    exact ⟨thumbPush_empty s, thumbPop_empty s, thumbStmia_empty s x, thumbLdmia_empty s x, List.forall_mem_nil _⟩

end Sys2Proof.Machine
end

section
/-! PROOFS. The multiplies (42_arm_multiply; 45_thumb R683): what they write and leave unchanged, and their products and
sums as exact numbers. -/

namespace Sys2Proof.Machine

/-! ### A written register, and the others -/

/-- Drawing a free value changes nothing that a written register's frame speaks of. -/
theorem Writes.bump {i : RegNum} {v : Word} {s t : State} (h : Writes i v s t) (hi : i ≠ 15#4) :
    Writes i v s t.bump where
  value := (t.x_bump hi).trans h.value
  pc := h.pc
  frame := by
    have hframe := h.frame.trans (registerFrame_bump t)
    rwa [List.append_nil] at hframe

theorem Writes.x_ne {i j : RegNum} {v : Word} {s t : State} (h : Writes i v s t) (hj : j ≠ 15#4) (hne : j ≠ i) :
    t.x j = s.x j := by
  obtain ⟨r, hr⟩ := Mode.view_isSome (m := s.cpsr.mode) hj
  have hmem : r ∉ destOf s i := fun hm => hne (Mode.view_inj hr (Option.mem_toList.mp hm))
  simp only [State.x, State.xIn, h.frame.control.mode, hr, h.frame.regs r hmem]

theorem lowReg_ne_r15 (r : LowReg) : lowReg r ≠ 15#4 := by revert r; decide

/-! ### 32-bit results (42 R502, R503) -/

theorem writes_writeMul (sb : Bool) {rd : RegNum} (hrd : rd ≠ 15#4) (r : Word) (s : State) :
    Writes rd r s (writeMul sb rd r s) := by
  cases sb with
  | false => exact writes_setX hrd r
  | true => exact (writes_setX_withFlags hrd r ..).bump hrd

theorem flags_writeMul (sb : Bool) (rd : RegNum) (r : Word) (s : State) :
    if sb then (writeMul sb rd r s).cpsr.n = r.getLsbD 31 ∧ (writeMul sb rd r s).cpsr.z = (r == 0#32) ∧
        (writeMul sb rd r s).cpsr.v = s.cpsr.v
      else SameFlags s (writeMul sb rd r s) := by
  cases sb with
  | false => exact sameFlags_of_cpsr (s.setX_cpsr rd r)
  | true => exact ⟨rfl, rfl, rfl⟩

theorem badMul_eq_false {rd rn rs rm : RegNum} (hrd : rd ≠ 15#4) (hrn : rn ≠ 15#4) (hrs : rs ≠ 15#4) (hrm : rm ≠ 15#4)
    (hne : rd ≠ rm) : badMul rd rn rs rm = false := by
  simp [badMul, hrd, hrn, hrs, hrm, hne]

theorem thumbMul_eq {x y : LowReg} (h : x ≠ y) (s : State) : exec (.thumbMul y x) s =
    .next (writeMul true (lowReg x) (s.x (lowReg y) * s.x (lowReg x)) s) := by
  have hok : (x == y) = false := beq_false_of_ne h
  simp only [exec, execThumbMul, hok, unlessUnpredictable_false]
  rfl

/-- Settles O21: each form is the write of its product or sum, and those are exact modulo 2^32. -/
theorem armMultiplies : Obligations.ArmMultiplies := by
  intro s cond sb rd rn rs rm hpass hrd hrs hrm hne
  simp only [BitVec.ofNat_add, BitVec.ofNat_mul, BitVec.ofNat_toNat, BitVec.setWidth_eq]
  have hcond : ∀ f, conditional cond s f = f s := conditional_passed hpass
  refine ⟨⟨_, ?mul, writes_writeMul sb hrd _ s, flags_writeMul sb rd _ s⟩,
    fun hrn => ⟨_, ?mla, writes_writeMul sb hrd _ s, flags_writeMul sb rd _ s⟩, fun x y hxy hsb => ?thumb⟩
  case mul => simp only [exec, execArmMul, hcond, badMul_eq_false hrd hrm hrs hrm hne, unlessUnpredictable_false]
  case mla => simp only [exec, execArmMla, hcond, badMul_eq_false hrd hrn hrs hrm hne, unlessUnpredictable_false]
  case thumb =>
    subst hsb
    exact ⟨_, thumbMul_eq hxy s, writes_writeMul true (lowReg_ne_r15 x) _ s, flags_writeMul true (lowReg x) _ s⟩

/-! ### 64-bit results (42 R504-R509) -/

section
variable {hi : RegNum} (hhi : hi ≠ 15#4) (sb : Bool) (lo : RegNum) (r : BitVec 64) (s : State)

theorem flags_writeMulLong (hi : RegNum) :
    if sb then (writeMulLong sb hi lo r s).cpsr.n = r.getLsbD 63 ∧ (writeMulLong sb hi lo r s).cpsr.z = (r == 0#64)
      else SameFlags s (writeMulLong sb hi lo r s) := by
  cases sb with
  | false => exact sameFlags_of_cpsr ((State.setX_cpsr ..).trans (State.setX_cpsr ..))
  | true => exact ⟨rfl, rfl⟩

include hhi

/-- A long multiply writes RdHi in the state in which RdLo is written already. -/
theorem writes_writeMulLong :
    Writes hi (r.extractLsb' 32 32) (s.setX lo (r.extractLsb' 0 32)) (writeMulLong sb hi lo r s) := by
  cases sb with
  | false => exact writes_setX hhi _
  | true =>
    rw [writeMulLong, ← s.setX_cpsr lo (r.extractLsb' 0 32)]
    exact (writes_setX_withFlags hhi _ ..).bump hhi

theorem x_append_writeMulLong (hlo : lo ≠ 15#4) (hne : hi ≠ lo) :
    (writeMulLong sb hi lo r s).x hi ++ (writeMulLong sb hi lo r s).x lo = r := by
  have hw := writes_writeMulLong hhi sb lo r s
  rw [hw.value, hw.x_ne hlo hne.symm, s.x_setX_same hlo]
  exact BitVec.extractLsb'_append_extractLsb'

theorem advanced_writeMulLong : Advanced s (writeMulLong sb hi lo r s) := by
  have hpc := (writes_writeMulLong hhi sb lo r s).pc
  rwa [Advanced, State.setX_pc, State.isize_setX] at hpc

theorem registerFrame_writeMulLong : RegisterFrame (destOf s hi ++ destOf s lo) s (writeMulLong sb hi lo r s) := by
  have hframe := (registerFrame_setX s lo _).trans (writes_writeMulLong hhi sb lo r s).frame
  have hdest : destOf (s.setX lo (r.extractLsb' 0 32)) hi = destOf s hi := by rw [destOf, State.setX_cpsr, destOf]
  rw [hdest] at hframe
  exact hframe.mono (List.append_subset.mpr ⟨List.subset_append_right .., List.subset_append_left ..⟩)

end

theorem badMulLong_eq_false_iff {hi lo rs rm : RegNum} : badMulLong hi lo rs rm = false ↔
    hi ≠ 15#4 ∧ lo ≠ 15#4 ∧ rm ≠ 15#4 ∧ rs ≠ 15#4 ∧ hi ≠ lo ∧ hi ≠ rm ∧ lo ≠ rm := by
  rw [← Bool.not_eq_true, badMulLong_iff]
  simp only [not_or]

theorem accumulator_toNat (hi lo : RegNum) (s : State) :
    (accumulator hi lo s).toNat = (s.x hi).toNat * 2 ^ 32 + (s.x lo).toNat := by
  rw [accumulator, BitVec.toNat_append, ← Nat.shiftLeft_add_eq_or_of_lt (s.x lo).isLt, Nat.shiftLeft_eq]

/-- With legal operands a long multiply whose 64-bit result is `v` answers the state with `v` written. -/
theorem runs_mulLong {s : State} {sb : Bool} {hi lo rs rm : RegNum} {i : Instr} {v : BitVec 64}
    (hok : badMulLong hi lo rs rm = false) (hexec : exec i s = mulLong sb hi lo rs rm v s) :
    Runs i s fun t => t.x hi ++ t.x lo = v ∧ Advanced s t ∧ RegisterFrame (destOf s hi ++ destOf s lo) s t ∧
      if sb then t.cpsr.n = v.getLsbD 63 ∧ t.cpsr.z = (v == 0#64) else SameFlags s t := by
  obtain ⟨hhi, hlo, -, -, hne, -, -⟩ := badMulLong_eq_false_iff.mp hok
  rw [mulLong, hok, unlessUnpredictable_false] at hexec
  exact ⟨_, hexec, x_append_writeMulLong hhi sb lo v s hlo hne, advanced_writeMulLong hhi sb lo v s,
    registerFrame_writeMulLong hhi sb lo v s, flags_writeMulLong sb lo v s hi⟩

/-- Settles O22: each form writes its exact product, or its product and the accumulator, modulo 2^64. -/
theorem armLongMultiplies : Obligations.ArmLongMultiplies := by
  intro s cond sb hi lo rs rm hpass hhi hlo hrs hrm hne hhm hlm u i
  have hok := badMulLong_eq_false_iff.mpr ⟨hhi, hlo, hrm, hrs, hne, hhm, hlm⟩
  have hu : unsignedProduct (s.x rm) (s.x rs) + accumulator hi lo s =
      BitVec.ofNat 64 (u + ((s.x hi).toNat * 2 ^ 32 + (s.x lo).toNat)) := by
    rw [← accumulator_toNat, BitVec.ofNat_add, BitVec.ofNat_toNat, BitVec.setWidth_eq, unsignedProduct]
  have hs : signedProduct (s.x rm) (s.x rs) + accumulator hi lo s = BitVec.ofInt 64 (i + (s.x hi ++ s.x lo).toInt) := by
    rw [BitVec.ofInt_add, BitVec.ofInt_toInt, signedProduct, accumulator]
  simp only [List.forall_mem_cons]
  have hcond : ∀ f, conditional cond s f = f s := conditional_passed hpass
  refine ⟨runs_mulLong hok ?umull, runs_mulLong hok ?umlal, runs_mulLong hok ?smull, runs_mulLong hok ?smlal,
    List.forall_mem_nil _⟩
  case umull => simp only [exec, execArmUmull, hcond, unsignedProduct, u]
  case umlal => simp only [exec, execArmUmlal, hcond, hu]
  case smull => simp only [exec, execArmSmull, hcond, signedProduct, i]
  case smlal => simp only [exec, execArmSmlal, hcond, hs]

/-! ### UMAAL (42 R510) -/

/-- Settles O23: the encoding is the advance alone. -/
theorem umaalIsNoOperation : Obligations.UmaalIsNoOperation := by
  intro s cond hi lo rs rm hpass harm
  have hsize : s.isize = 4#32 := by rw [State.isize, harm]; rfl
  exact ⟨s.advance, conditional_passed hpass nextInstr, congrArg (s.pc + ·) hsize, sameFlags_of_cpsr rfl,
    registerFrame_advance s⟩

end Sys2Proof.Machine
end

section
/-! PROOFS. What the loads return, byte by byte (43_arm_load_store; 20_memory R216, R217). -/

namespace Sys2Proof.Machine

/-! ### Bytes and halfwords of a word -/

theorem align_align (w : Width) (a : Word) : w.align (w.align a) = w.align a := by
  cases w <;> simp only [Width.align, alignHalf, alignWord, BitVec.and_assoc, BitVec.and_self]

theorem byteOf_wordOfBytes (b : Nat → Byte) {k : Nat} (hk : k < 4) :
    byteOf (wordOfBytes (b 0) (b 1) (b 2) (b 3)) k = b k := by
  interval_cases k <;> simp [byteOf, wordOfBytes]

theorem wordOfBytes_byte (b : Byte) : wordOfBytes b 0#8 0#8 0#8 = b.setWidth 32 := by
  rw [BitVec.setWidth_eq_append (by decide)]
  rfl

theorem wordOfBytes_half (b0 b1 : Byte) : wordOfBytes b0 b1 0#8 0#8 = (b1 ++ b0).setWidth 32 := by
  rw [BitVec.setWidth_eq_append (by decide), wordOfBytes, BitVec.append_assoc]
  rfl

theorem setWidth_half (b0 b1 : Byte) : (b1 ++ b0).setWidth 32 = 0#16 ++ b1 ++ b0 := by
  rw [BitVec.setWidth_eq_append (by decide), BitVec.append_assoc]

/-- A rotation right by whole bytes moves each byte down, the lowest to the top. -/
theorem byteOf_ror32 (v : Word) {n k : Nat} (hn : n < 4) (hk : k < 4) :
    byteOf (ror32 v (8 * n)) k = byteOf v ((n + k) % 4) := by
  apply BitVec.eq_of_getLsbD_eq
  intro i hi
  rw [byteOf, byteOf, ror32, BitVec.getLsbD_extractLsb', BitVec.getLsbD_extractLsb', BitVec.getLsbD_rotateRight,
    Nat.mod_mod, Nat.mod_eq_of_lt (show 8 * n < 32 by omega)]
  by_cases h : n + k < 4
  · rw [decide_eq_true (show 8 * k + i < 32 - 8 * n by omega), cond_true, Nat.mod_eq_of_lt h, Nat.mul_add,
      Nat.add_assoc]
  · rw [decide_eq_false (show ¬8 * k + i < 32 - 8 * n by omega), cond_false,
      decide_eq_true (show 8 * k + i < 32 by omega), Bool.true_and,
      show 8 * k + i - (32 - 8 * n) = 8 * ((n + k) % 4) + i by omega]

/-- A halfword turned by one byte: its low byte goes to the top. -/
theorem ror32_half (b0 b1 : Byte) : ror32 (0#16 ++ b1 ++ b0) 8 = b0 ++ 0#16 ++ b1 := by
  apply BitVec.eq_of_getLsbD_eq
  intro i hi
  simp only [ror32, BitVec.getLsbD_rotateRight, BitVec.getLsbD_append]
  interval_cases i <;> simp

theorem alignHalf_add_one {a : Word} (h : a.toNat % 2 = 1) : alignHalf a + 1#32 = a := by
  have := alignHalf_toNat a
  bv_omega

theorem getLsbD_zero_eq (a : Word) : a.getLsbD 0 = decide (a.toNat % 2 = 1) := by
  rw [getLsbD_eq_decide_div_mod, Nat.pow_zero, Nat.div_one]

/-! ### Reads whose bytes are known, outside save memory -/

section
variable {s : State} {a : Word} (hr : regionOf a ≠ .save)
include hr

/-- The bus aligns by itself what an instruction has aligned before. -/
theorem busRead_align (w : Width) : busRead s w (w.align a) = busRead s w a := by
  have hra : regionOf (w.align a) ≠ .save := (regionOf_align w a).trans_ne hr
  simp only [busRead, align_align]

theorem byteOf_busRead_word {b : Nat → Byte} (h : ∀ k, k < 4 → peek s (alignWord a + BitVec.ofNat 32 k) = some (b k))
    {k : Nat} (hk : k < 4) : byteOf (busRead s .word a) k = b k := by
  have h0 := h 0 (by decide)
  rw [BitVec.add_zero] at h0
  rw [busRead_word hr h0 (h 1 (by decide)) (h 2 (by decide)) (h 3 (by decide)), byteOf_wordOfBytes b hk]

theorem busRead_half {b0 b1 : Byte} (h0 : peek s (alignHalf a) = some b0) (h1 : peek s (alignHalf a + 1#32) = some b1) :
    busRead s .half a = (b1 ++ b0).setWidth 32 := by
  unfold busRead
  split
  · contradiction
  · simp [laneOf, Width.align, h0, h1, ← wordOfBytes_half]

theorem busRead_byte {b : Byte} (h : peek s a = some b) : busRead s .byte a = b.setWidth 32 := by
  unfold busRead
  split
  · contradiction
  · simp [laneOf, Width.align, h, ← wordOfBytes_byte]

/-! ### The loads (43 R538, R543, R549, R551-R553) -/

theorem byteOf_loadWord {b : Nat → Byte} (h : ∀ k, k < 4 → peek s (alignWord a + BitVec.ofNat 32 k) = some (b k))
    {k : Nat} (hk : k < 4) :
    byteOf (loadWord s a) k = b (if s.params.misalignedLoadRotate then (a.toNat % 4 + k) % 4 else k) := by
  have hlow : (a &&& 3#32).toNat = a.toNat % 4 := toNat_and_mask a (n := 2) (by decide)
  have hword : busRead s .word (alignWord a) = busRead s .word a := busRead_align hr .word
  have hlt : a.toNat % 4 < 4 := Nat.mod_lt _ (by decide)
  rw [loadWord, hword, hlow]
  split
  · rw [byteOf_ror32 _ hlt hk, byteOf_busRead_word hr h (Nat.mod_lt _ (by decide))]
  · exact byteOf_busRead_word hr h hk

theorem loadHalf_eq {b0 b1 : Byte} (h0 : peek s (alignHalf a) = some b0) (h1 : peek s (alignHalf a + 1#32) = some b1) :
    loadHalf s a = if a.toNat % 2 = 1 ∧ s.params.misalignedLoadRotate = true then b0 ++ 0#16 ++ b1
      else 0#16 ++ b1 ++ b0 := by
  have hhalf : busRead s .half (alignHalf a) = busRead s .half a := busRead_align hr .half
  rw [loadHalf, hhalf, busRead_half hr h0 h1, getLsbD_zero_eq]
  by_cases hodd : a.toNat % 2 = 1 <;> simp [hodd, ror32_half, setWidth_half]

theorem loadByte_eq {b : Byte} (h : peek s a = some b) : loadByte s a = b.setWidth 32 := busRead_byte hr h

theorem loadSignedByte_eq {b : Byte} (h : peek s a = some b) : loadSignedByte s a = b.signExtend 32 := by
  rw [loadSignedByte, busRead_byte hr h, BitVec.setWidth_setWidth_of_le _ (by decide), BitVec.setWidth_eq]

theorem loadSignedHalf_eq {b0 b1 : Byte} (h0 : peek s (alignHalf a) = some b0)
    (h1 : peek s (alignHalf a + 1#32) = some b1) :
    loadSignedHalf s a = if a.toNat % 2 = 1 ∧ s.params.misalignedLoadRotate = true then b1.signExtend 32
      else (b1 ++ b0).signExtend 32 := by
  have hhalf : busRead s .half (alignHalf a) = busRead s .half a := busRead_align hr .half
  rw [loadSignedHalf, hhalf, busRead_half hr h0 h1, BitVec.setWidth_setWidth_of_le _ (by decide), BitVec.setWidth_eq,
    getLsbD_zero_eq]
  refine ite_congr (by rw [Bool.and_eq_true, decide_eq_true_iff]) (fun hodd => ?_) fun _ => rfl
  rw [alignHalf_add_one hodd.1] at h1
  exact loadSignedByte_eq hr h1

end

/-- Settles O27: each load's read gives its known bytes, and the rotation moves them. -/
theorem loadedValues : Obligations.LoadedValues := fun _ _ hr =>
  ⟨fun _ h _ hk => byteOf_loadWord hr h hk, fun _ _ h0 h1 => ⟨loadHalf_eq hr h0 h1, loadSignedHalf_eq hr h0 h1⟩,
    fun _ h => ⟨loadByte_eq hr h, loadSignedByte_eq hr h⟩⟩

end Sys2Proof.Machine
end

section
/-! PROOFS. ARM single, halfword and signed transfers, and the swaps (43_arm_load_store, sections 1-3 and 5): what they
write and leave unchanged. -/

namespace Sys2Proof.Machine

/-! ### The base written back (43 R531) -/

theorem writesBack_iff {p w : Bool} : writesBack p w = true ↔ BaseWritten p w := by
  cases p <;> simp [writesBack, BaseWritten]

theorem writeBase_eq_of_written {p w : Bool} (h : BaseWritten p w) (rn : RegNum) (v : Word) (s : State) :
    writeBase p w rn v s = s.setX rn v := if_pos (writesBack_iff.mpr h)

theorem baseDest_eq (p w : Bool) (s : State) (rn : RegNum) :
    baseDest p w s rn = if writesBack p w then destOf s rn else [] := by
  cases p <;> cases w <;> rfl

section
variable (p w : Bool) (rn : RegNum) (v : Word) (s : State)

@[simp] theorem writeBase_cpsr : (writeBase p w rn v s).cpsr = s.cpsr := by
  unfold writeBase; split <;> simp

@[simp] theorem writeBase_pc : (writeBase p w rn v s).pc = s.pc := by
  unfold writeBase; split <;> simp

theorem registerFrame_writeBase : RegisterFrame (baseDest p w s rn) s (writeBase p w rn v s) := by
  rw [baseDest_eq, writeBase]
  split
  · exact registerFrame_setX s rn v
  · exact .refl s

end

theorem isize_of_cpsr {s t : State} (h : t.cpsr = s.cpsr) : t.isize = s.isize := by rw [State.isize, h, State.isize]

theorem destOf_of_cpsr {s t : State} (h : t.cpsr = s.cpsr) (i : RegNum) : destOf t i = destOf s i := by
  rw [destOf, h, destOf]

theorem baseDest_of_cpsr {s t : State} (h : t.cpsr = s.cpsr) (p w : Bool) (i : RegNum) :
    baseDest p w t i = baseDest p w s i := by rw [baseDest, destOf_of_cpsr h, baseDest]

theorem x_writeBase {p w : Bool} (h : BaseWritten p w) {rn : RegNum} (hrn : rn ≠ 15#4) (v : Word) (s : State) :
    (writeBase p w rn v s).x rn = v := by
  rw [writeBase_eq_of_written h, s.x_setX_same hrn]

/-! ### Loads (43 R535, R540, R542) -/

section
variable {s : State} {i : Instr} {load : State → Word → Word} {p u w : Bool} {rn rd : RegNum} {o : Word}
  (hbase : BaseUsable p w rn rd) (hexec : exec i s = loadTransfer load p u w rn rd o s)
include hbase hexec

/-- A single load into a register: the read, the base, then Rd. -/
theorem runs_loadTransfer (hrd : rd ≠ 15#4) :
    Runs i s (Loaded p u w rn rd o (load s (accessAddr p u (s.x rn) o)) s) := by
  rw [loadTransfer, if_neg hrd] at hexec
  refine ⟨_, hexec, ?_⟩
  generalize hb : writeBase p w rn (offsetAddr u (s.x rn) o) s.bump = b
  have hcpsr : b.cpsr = s.cpsr := by rw [← hb, writeBase_cpsr, State.bump_cpsr]
  have hpc : b.pc = s.pc := by rw [← hb, writeBase_pc, State.bump_pc]
  have hframe : RegisterFrame (baseDest p w s rn) s b := by
    have h := (registerFrame_bump s).trans (registerFrame_writeBase p w rn (offsetAddr u (s.x rn) o) s.bump)
    rwa [hb, List.nil_append, baseDest_of_cpsr s.bump_cpsr] at h
  have hw := writes_setX (s := b) hrd (load s (accessAddr p u (s.x rn) o))
  refine ⟨hw.value, fun h => ?base, ?pc, (State.setX_cpsr ..).trans hcpsr, ?frame⟩
  case base =>
    obtain ⟨hrn, hne⟩ := hbase h
    exact (hw.x_ne hrn hne.symm).trans (hb ▸ x_writeBase h hrn _ _)
  case pc => exact hw.pc.trans (by rw [hpc, isize_of_cpsr hcpsr])
  case frame =>
    have h := hframe.trans hw.frame
    rw [destOf_of_cpsr hcpsr] at h
    exact h.mono (List.append_subset.mpr ⟨List.subset_append_right .., List.subset_append_left ..⟩)

/-- A word loaded into R15 is a branch (43 R540). -/
theorem runs_loadTransfer_r15 (hrd : rd = 15#4) :
    Runs i s fun t => t.pc = alignWord (load s (accessAddr p u (s.x rn) o)) ∧ t.cpsr = s.cpsr ∧
      (BaseWritten p w → t.x rn = offsetAddr u (s.x rn) o) ∧ RegisterFrame (baseDest p w s rn) s t := by
  rw [loadTransfer, if_pos hrd] at hexec
  refine ⟨_, hexec, rfl, writeBase_cpsr .., fun h => ?base, ?frame⟩
  case base => exact (State.x_setPc _ (hbase h).1 _).trans (x_writeBase h (hbase h).1 _ _)
  case frame =>
    have h := ((registerFrame_bump s).trans (registerFrame_writeBase p w rn (offsetAddr u (s.x rn) o) s.bump)).trans
      (registerFrame_setPc _ (alignWord (load s (accessAddr p u (s.x rn) o))))
    rwa [List.nil_append, List.append_nil, baseDest_of_cpsr s.bump_cpsr] at h

end

/-! ### The forms with usable operands -/

theorem badSingle_word_eq_false {p w : Bool} {rn rd : RegNum} {off : Offset} (hbase : BaseUsable p w rn rd)
    (hoff : OffsetUsable off) : badSingle false p w rn rd off = false := by
  rw [← Bool.not_eq_true, badSingle_word_iff]
  tauto

theorem badSingle_byte_eq_false {p w : Bool} {rn rd : RegNum} {off : Offset} (hbase : BaseUsable p w rn rd)
    (hoff : OffsetUsable off) (hrd : rd ≠ 15#4) : badSingle true p w rn rd off = false := by
  rw [← Bool.not_eq_true, badSingle_byte_iff]
  tauto

theorem badHalf_eq_false {p w : Bool} {rn rd rm : RegNum} (hbase : BaseUsable p w rn rd)
    (hpw : ¬(p = false ∧ w = true)) (hrd : rd ≠ 15#4) (hrm : rm ≠ 15#4) : badHalf p w rn rd rm = false := by
  rw [← Bool.not_eq_true, badHalf_iff]
  tauto

/-- Settles O25: each form is the load of its data, into a register or into R15. -/
theorem armWordAndByteLoads : Obligations.ArmWordAndByteLoads := by
  rintro s cond p u w rn rd off _ _ hpass hbase hoff rfl rfl
  have hcond : ∀ f, conditional cond s f = f s := conditional_passed hpass
  have hword : loadWordForm p u w rn rd off s = loadTransfer loadWord p u w rn rd (offsetValue s off) s := by
    rw [loadWordForm, badSingle_word_eq_false hbase hoff, unlessUnpredictable_false]
  refine ⟨fun hrd => ?reg, fun hrd i hi => runs_loadTransfer_r15 hbase ?r15 hrd⟩
  case reg =>
    have hbyte : loadByteForm p u w rn rd off s = loadTransfer loadByte p u w rn rd (offsetValue s off) s := by
      rw [loadByteForm, badSingle_byte_eq_false hbase hoff hrd, unlessUnpredictable_false]
    have hldr := fun i (hi : exec i s = conditional cond s (loadWordForm p u w rn rd off)) =>
      runs_loadTransfer hbase (hi.trans ((hcond _).trans hword)) hrd
    have hldrb := fun i (hi : exec i s = conditional cond s (loadByteForm p u w rn rd off)) =>
      runs_loadTransfer hbase (hi.trans ((hcond _).trans hbyte)) hrd
    refine ⟨hldr _ rfl, hldrb _ rfl, ?_⟩
    rintro rfl rfl
    exact ⟨hldr _ rfl, hldrb _ rfl⟩
  case r15 =>
    rcases hi with rfl | ⟨rfl, rfl, rfl⟩ <;> exact (hcond _).trans hword

/-- Settles O26: each form is the load of its data, at the offset of its form. -/
theorem armHalfwordAndSignedLoads : Obligations.ArmHalfwordAndSignedLoads := by
  intro s cond p u w rn rd rm imm8 hpass hrd hrm hbase hpw imm loads
  have hcond : ∀ f, conditional cond s f = f s := conditional_passed hpass
  have hform : ∀ (i : Instr) (load : State → Word → Word) (r : RegNum) (o : State → Word), r ≠ 15#4 →
      exec i s = conditional cond s (fun s1 => loadHalfForm load p u w rn rd r (o s1) s1) → loads i load (o s) := by
    intro i load r o hr hi
    rw [hcond, loadHalfForm, badHalf_eq_false hbase hpw hrd hr, unlessUnpredictable_false] at hi
    exact runs_loadTransfer hbase hi hrd
  have himm : (0#4 : RegNum) ≠ 15#4 := by decide
  exact ⟨hform _ loadHalf 0#4 (fun _ => imm) himm rfl, hform _ loadHalf rm (·.x rm) hrm rfl,
    hform _ loadSignedByte 0#4 (fun _ => imm) himm rfl, hform _ loadSignedByte rm (·.x rm) hrm rfl,
    hform _ loadSignedHalf 0#4 (fun _ => imm) himm rfl, hform _ loadSignedHalf rm (·.x rm) hrm rfl⟩

/-! ### Stores (43 R535, R541, R544, R550) -/

theorem RegisterFrame.busAs {written : List PReg} {s t : State} (h : RegisterFrame written s t) : BusAs s t :=
  ⟨h.devices, h.save, h.reads⟩

/-- After the bus write an instruction that writes registers alone makes the store's whole effect. -/
theorem storeDone_of_registerFrame {s t : State} {written : List PReg} {w : Width} {a v : Word} (hm : s.MemoryInv)
    (hframe : RegisterFrame written (busWrite s w a v) t) (hcpsr : t.cpsr = s.cpsr) (hpc : Advanced s t) :
    StoreDone written w a v s t where
  regs r hr := (hframe.regs r hr).trans (busWrite_reg s w a v r)
  cpsr := hcpsr
  core := (cpuSame_busWrite s w a v).core.trans hframe.core
  pc := hpc
  store := (storeFrame_busWrite hm w a v).then hframe.busAs
  bytes hp k hk := by
    obtain ⟨hmem, hnarrow⟩ := storesPlainly_isMemory hp
    exact (hframe.reads _).trans (storedBytes_busWrite hm w hmem hnarrow v k hk)

/-- A single store: the bus write, then the base. -/
theorem runs_storeTransfer {s : State} {i : Instr} {width : Width} {align : Word → Word} {v o a : Word} {p u w : Bool}
    {rn rd : RegNum} (hm : s.MemoryInv) (hbase : BaseUsable p w rn rd)
    (hexec : exec i s = storeTransfer width align v p u w rn o s) (ha : align (accessAddr p u (s.x rn) o) = a)
    (hz : storeHazard s width a = false) : Runs i s (Stored p u w rn o width a v s) := by
  subst ha
  rw [storeTransfer, transferAddr, cpuStore_eq hz, andThen_next] at hexec
  refine ⟨_, hexec, fun h => ?base, storeDone_of_registerFrame hm ?frame ?cpsr ?pc⟩
  case base =>
    have hrn := (hbase h).1
    exact (State.x_advance _ hrn).trans (x_writeBase h hrn _ _)
  case frame =>
    have h := (registerFrame_writeBase p w rn (offsetAddr u (s.x rn) o)
      (busWrite s width (align (accessAddr p u (s.x rn) o)) v)).trans (registerFrame_advance _)
    rwa [List.append_nil, baseDest_of_cpsr (busWrite_cpsr ..)] at h
  case cpsr => rw [State.advance_cpsr, writeBase_cpsr, busWrite_cpsr]
  case pc => rw [Advanced, State.advance_pc, isize_of_cpsr (s := s) (by simp), writeBase_pc, busWrite_pc]

theorem storedRegister_eq (s : State) (i : RegNum) : storedRegister s i = if i = 15#4 then storedPc s else s.x i := by
  by_cases h : i = 15#4
  · subst h; rfl
  · rw [storedRegister, if_neg (by simpa using h), if_neg h]

/-- Settles O28: each form is the store of its value at its address. -/
theorem armStores : Obligations.ArmStores := by
  rintro s cond p u w rn rd rm off _ _ _ imm8 hm hpass hbase rfl rfl rfl
  have hcond : ∀ f, conditional cond s f = f s := conditional_passed hpass
  refine ⟨fun hoff hz => ?word, fun hoff hrd hz => ?byte, fun hrd hpw => ?half⟩
  case word =>
    have hform : storeWordForm p u w rn rd off s = storeTransfer .word storeWordAddr
        (if rd = 15#4 then storedPc s else s.x rd) p u w rn (offsetValue s off) s := by
      rw [storeWordForm, badSingle_word_eq_false hbase hoff, unlessUnpredictable_false, storedRegister_eq]
    have hstr := fun i (hi : exec i s = conditional cond s (storeWordForm p u w rn rd off)) =>
      runs_storeTransfer hm hbase (hi.trans ((hcond _).trans hform)) rfl hz
    refine ⟨hstr _ rfl, ?_⟩
    rintro rfl rfl
    exact hstr _ rfl
  case byte =>
    have hform : storeByteForm p u w rn rd off s =
        storeTransfer .byte id (s.x rd) p u w rn (offsetValue s off) s := by
      rw [storeByteForm, badSingle_byte_eq_false hbase hoff hrd, unlessUnpredictable_false]
    have hstrb := fun i (hi : exec i s = conditional cond s (storeByteForm p u w rn rd off)) =>
      runs_storeTransfer hm hbase (hi.trans ((hcond _).trans hform)) rfl hz
    refine ⟨hstrb _ rfl, ?_⟩
    rintro rfl rfl
    exact hstrb _ rfl
  case half =>
    intro a
    have hform : ∀ (i : Instr) (r : RegNum) (o : State → Word), r ≠ 15#4 →
        exec i s = conditional cond s (fun s1 => storeHalfForm p u w rn rd r (o s1) s1) →
        storeHazard s .half (a (o s)) = false → Runs i s (Stored p u w rn (o s) .half (a (o s)) (s.x rd) s) := by
      intro i r o hr hi hz
      rw [hcond, storeHalfForm, badHalf_eq_false hbase hpw hrd hr, unlessUnpredictable_false] at hi
      exact runs_storeTransfer hm hbase hi rfl hz
    exact ⟨hform _ 0#4 (fun _ => imm8.setWidth 32) (by decide) rfl, fun hrm => hform _ rm (·.x rm) hrm rfl⟩

/-! ### Swaps (43 R580, R581) -/

/-- A free value drawn before a bus write may be drawn after it. -/
theorem busWrite_bump (s : State) (w : Width) (a v : Word) : busWrite s.bump w a v = (busWrite s w a v).bump := by
  have honto : busWrite s.bump w a v = (busWrite s w a v).onto s.bump :=
    busWrite_onto (s := s) (k := s.bump) rfl w a v
  rw [honto]
  obtain ⟨hregs, hcpsr, hpc, hdraws, h1, h2, h3, h4, h5, h6, h7, h8, h9, h10, h11⟩ := cpuSame_busWrite s w a v
  generalize busWrite s w a v = t at *
  cases s; cases t
  simp only at *
  subst_vars
  rfl

/-- A swap with legal operands: the store, and the loaded data in Rd. -/
theorem runs_swapForm {s : State} {i : Instr} {width : Width} {load : State → Word → Word} {align : Word → Word}
    {rn rd rm : RegNum} {a : Word} (hm : s.MemoryInv) (hok : badSwap rn rd rm = false)
    (hexec : exec i s = swapForm width load align rn rd rm s) (ha : align (s.x rn) = a)
    (hz : storeHazard s width a = false) :
    Runs i s fun t => t.x rd = load s (s.x rn) ∧ StoreDone (destOf s rd) width a (s.x rm) s t := by
  subst ha
  have hrd : rd ≠ 15#4 := fun h => by simp [badSwap, h] at hok
  have hzb : storeHazard s.bump width (align (s.x rn)) = false := hz
  rw [swapForm, hok, unlessUnpredictable_false, cpuStore_eq hzb, andThen_next, busWrite_bump] at hexec
  have hw := writes_setX (s := (busWrite s width (align (s.x rn)) (s.x rm)).bump) hrd (load s (s.x rn))
  refine ⟨_, hexec, hw.value, storeDone_of_registerFrame hm ?frame (by simp) ?pc⟩
  case frame =>
    have h := (registerFrame_bump _).trans hw.frame
    rwa [List.nil_append, destOf_of_cpsr (s := s) (by simp)] at h
  case pc => exact hw.pc.trans (by rw [State.bump_pc, busWrite_pc, isize_of_cpsr (s := s) (by simp)])

/-- Settles O29: each form is the swap of its width. -/
theorem armSwaps : Obligations.ArmSwaps := by
  intro s cond rn rd rm hm hpass hrn hrd hrm hnd hnm
  have hcond : ∀ f, conditional cond s f = f s := conditional_passed hpass
  have hok : badSwap rn rd rm = false := by
    rw [← Bool.not_eq_true, badSwap_iff]
    tauto
  exact ⟨fun hz => runs_swapForm hm hok (hcond _) rfl hz, fun hz => runs_swapForm hm hok (hcond _) rfl hz⟩

end Sys2Proof.Machine
end

section
/-! PROOFS. ARM block transfers (43_arm_load_store, section 4): what LDM and STM write and leave unchanged. -/

namespace Sys2Proof.Machine

/-! ### Registers and status in states that share them -/

theorem State.xIn_of_regs {s t : State} (h : t.regs = s.regs) {i : RegNum} (hi : i ≠ 15#4) (m : Mode) :
    t.xIn m i = s.xIn m i := by
  obtain ⟨r, hr⟩ := Mode.view_isSome (m := m) hi
  simp only [State.xIn, hr, State.reg_of_regs h r]

theorem State.x_of_cpsr {s t : State} (h : t.cpsr = s.cpsr) (i : RegNum) : t.x i = t.xIn s.cpsr.mode i := by
  rw [State.x, h]

theorem SameCore.spsrOf {s t : State} (h : SameCore s t) (m : Mode) : t.spsrOf m = s.spsrOf m := by
  cases m with
  | usr | sys => rfl
  | fiq => exact congrArg some h.spsrFiq
  | irq => exact congrArg some h.spsrIrq
  | svc => exact congrArg some h.spsrSvc
  | abt => exact congrArg some h.spsrAbt
  | und => exact congrArg some h.spsrUnd

/-! ### The places of a list's words (43 R560, R564) -/

theorem lowerCount_lt_lowerCount {list : BitVec 16} {i j : Nat} (hij : i < j) (h : list.getLsbD i = true) :
    lowerCount list i < lowerCount list j := by
  have hsucc : lowerCount list (i + 1) = lowerCount list i + 1 := by
    simp [lowerCount, List.range_succ, h]
  have hmono : lowerCount list (i + 1) ≤ lowerCount list j := (List.range_sublist.mpr hij).countP_le
  omega

theorem lowerCount_le (list : BitVec 16) (i : Nat) : lowerCount list i ≤ i :=
  List.countP_le_length.trans_eq List.length_range

/-- R15 is the last of its list. -/
theorem lowerCount_of_r15 {list : BitVec 16} (h : list.getLsbD 15 = true) :
    lowerCount list 15 = lowerCount list 16 - 1 := by
  simp [lowerCount, List.range_succ (n := 15), h]

theorem mem_accessOrder_blockPairs {u : Bool} {list : BitVec 16} {start : Word} {i : RegNum}
    (h : list.getLsbD i.toNat = true) :
    (i, alignWord start + BitVec.ofNat 32 (4 * lowerCount list i.toNat)) ∈
      accessOrder u (blockPairs (listRegs list) start) := mem_accessOrder.mpr (mem_blockPairs.mpr ⟨h, rfl⟩)

/-! ### LDM: the loads and the base -/

/-- What the loads of an LDM and the write-back of its base leave; `m` is the mode whose view is loaded. -/
structure BlockLoaded (m : Mode) (p u w : Bool) (rn : RegNum) (list : BitVec 16) (s t : State) : Prop where
  words : WordsLoaded m p u (s.x rn) list s t
  base : w = true → t.xIn s.cpsr.mode rn = blockBase u (s.x rn) (lowerCount list 16)
  cpsr : t.cpsr = s.cpsr
  pc : t.pc = s.pc
  frame : RegisterFrame (listedBy m list ++ if w then destOf s rn else []) s t

/-- The load loop of an LDM, from its base value. -/
def blockLoad (m : Mode) (p u : Bool) (base : Word) (list : BitVec 16) (s : State) : State × Word :=
  loadRegs m (accessOrder u (blockPairs (listRegs list) (blockStart p u base (listRegs list).length))) (s, 0#32)

/-- The whole effect of the load loop: the listed registers take the words of their addresses, and R15's word, the last
of the list, is carried beside the state. -/
theorem blockLoad_spec (m : Mode) (p u : Bool) (base : Word) (list : BitVec 16) (s : State) :
    RegisterFrame (listedBy m list) s (blockLoad m p u base list s).1 ∧
    (blockLoad m p u base list s).1.cpsr = s.cpsr ∧ (blockLoad m p u base list s).1.pc = s.pc ∧
    WordsLoaded m p u base list s (blockLoad m p u base list s).1 ∧
    (list.getLsbD 15 = true → ∀ v, WordAt s (blockAddr p u base (lowerCount list 16) (lowerCount list 16 - 1)) v →
      (blockLoad m p u base list s).2 = v) := by
  obtain ⟨hframe, hcpsr, hpc, hwords, hr15, -⟩ := loadRegs_spec m _ s 0#32 (nodup_accessOrder (u := u)
    (nodup_blockPairs list (blockStart p u base (listRegs list).length)))
  refine ⟨hframe.mono fun r hr => ?listed, hcpsr, hpc, fun i v hi hne hv => ?word, fun h v hv => ?r15⟩
  case listed =>
    obtain ⟨e, he, hre⟩ := List.mem_flatMap.mp hr
    have hlisted := (mem_blockPairs.mp (mem_accessOrder.mp he)).1
    refine List.mem_flatMap.mpr ⟨e.1.toNat, List.mem_range.mpr e.1.isLt, ?_⟩
    rwa [if_pos hlisted, BitVec.ofNat_toNat, BitVec.setWidth_eq]
  case word =>
    rw [blockAddr_eq, ← length_listRegs] at hv
    exact hwords _ (mem_accessOrder_blockPairs hi) v hne hv
  case r15 =>
    rw [blockAddr_eq, ← lowerCount_of_r15 h, ← length_listRegs] at hv
    exact hr15 _ (mem_accessOrder_blockPairs (i := 15#4) h) v rfl hv

theorem WordsLoaded.of_regs {m : Mode} {p u : Bool} {base : Word} {list : BitVec 16} {s t t' : State}
    (h : WordsLoaded m p u base list s t) (hr : t'.regs = t.regs) : WordsLoaded m p u base list s t' :=
  fun i v hi hne hv => (State.xIn_of_regs hr hne m).trans (h i v hi hne hv)

/-- The loads, and then the base where the form writes it: no listed register's word is lost. -/
theorem blockLoaded_blockLoad {m : Mode} (p u : Bool) {w : Bool} {rn : RegNum} {list : BitVec 16} {s : State}
    (hrn : rn ≠ 15#4) (hw : w = true → list.getLsbD rn.toNat = false ∧ m = s.cpsr.mode) :
    BlockLoaded m p u w rn list s (if w then
      (blockLoad m p u (s.x rn) list s).1.setX rn (blockWriteBack u (s.x rn) (listRegs list).length)
      else (blockLoad m p u (s.x rn) list s).1) := by
  obtain ⟨hframe, hcpsr, hpc, hwords, -⟩ := blockLoad_spec m p u (s.x rn) list s
  generalize (blockLoad m p u (s.x rn) list s).1 = b at *
  cases w with
  | false =>
    refine ⟨hwords, (nomatch ·), hcpsr, hpc, ?_⟩
    rwa [if_neg Bool.false_ne_true, List.append_nil]
  | true =>
    obtain ⟨hnot, rfl⟩ := hw rfl
    rw [if_pos rfl, blockWriteBack_eq, length_listRegs]
    refine ⟨fun i v hi hne hv => ?words, fun _ => ?back, (State.setX_cpsr ..).trans hcpsr,
      (State.setX_pc ..).trans hpc, ?frame⟩
    case words =>
      have hir : i ≠ rn := fun h => by rw [h, hnot] at hi; cases hi
      rw [State.setX, hcpsr, b.xIn_setXIn_ne hne hir]
      exact hwords i v hi hne hv
    case back => rw [State.setX, hcpsr, b.xIn_setXIn_same hrn]
    case frame =>
      have h := hframe.trans (registerFrame_setX b rn (blockBase u (s.x rn) (lowerCount list 16)))
      rwa [destOf_of_cpsr hcpsr] at h

theorem badLdm_eq_false {sb w : Bool} {rn : RegNum} {list : BitVec 16} {m : Mode} (hlist : list ≠ 0#16)
    (hrn : rn ≠ 15#4) (hw : w = true → list.getLsbD rn.toNat = false)
    (hsb : sb = true → list.getLsbD 15 = true ∨ (w = false ∧ m ≠ .usr ∧ m ≠ .sys)) : badLdm sb w rn list m = false := by
  rw [← Bool.not_eq_true, badLdm_iff]
  grind

/-- With legal operands an LDM loads and writes its base back; then it advances, branches to the word for R15, or
returns from an exception to it. -/
theorem loadMultiple_eq {p u sb w : Bool} {rn : RegNum} {list : BitVec 16} {s : State} {m : Mode}
    (hok : badLdm sb w rn list s.cpsr.mode = false) (hm : m = if sb && !list.getLsbD 15 then .usr else s.cpsr.mode)
    (hrn : rn ≠ 15#4) (hw : w = true → list.getLsbD rn.toNat = false ∧ m = s.cpsr.mode) :
    ∃ t, BlockLoaded m p u w rn list s t ∧ loadMultiple p u sb w rn list s =
      if list.getLsbD 15 then
        if sb then exceptionReturn (blockLoad m p u (s.x rn) list s).2 t
        else .next (t.setPc (alignWord (blockLoad m p u (s.x rn) list s).2))
      else .next t.advance := by
  refine ⟨_, blockLoaded_blockLoad p u hrn hw, ?_⟩
  rw [loadMultiple, hok, unlessUnpredictable_false, hm]
  rfl

/-- Settles O30: the loads and the base, then the advance. -/
theorem armLoadMultiple : Obligations.ArmLoadMultiple := by
  intro s cond p u sb w rn list m hpass hlist h15 hrn hw hsb hm
  have hok := badLdm_eq_false hlist hrn hw fun h => .inr (hsb h)
  have hmode : w = true → list.getLsbD rn.toNat = false ∧ m = s.cpsr.mode := fun h => by
    refine ⟨hw h, hm.trans (if_neg fun hs => ?_)⟩
    rw [(hsb hs).1] at h; cases h
  obtain ⟨t, ht, hexec⟩ := loadMultiple_eq (p := p) (u := u) hok (by rw [hm, h15]; simp) hrn hmode
  rw [h15, if_neg Bool.false_ne_true] at hexec
  refine ⟨t.advance, (conditional_passed hpass _).trans hexec, ht.words.of_regs rfl, fun h => ?back, ?pc, ht.cpsr,
    ?frame⟩
  case back => rw [State.x_advance _ hrn, State.x_of_cpsr ht.cpsr]; exact ht.base h
  case pc => rw [Advanced, State.advance_pc, ht.pc, isize_of_cpsr ht.cpsr]
  case frame =>
    have h := ht.frame.trans (registerFrame_advance t)
    rwa [List.append_nil] at h

/-- Settles O31: the loads and the base, then the branch or the exception return to R15's word. -/
theorem armLoadMultipleWithPc : Obligations.ArmLoadMultipleWithPc := by
  intro s cond p u w rn list hpass h15 hrn hw n regs written
  have hlist : list ≠ 0#16 := fun h => by rw [h] at h15; cases h15
  have hok : ∀ sb, badLdm sb w rn list s.cpsr.mode = false := fun sb =>
    badLdm_eq_false hlist hrn hw fun _ => .inl h15
  have hmode : ∀ sb, s.cpsr.mode = if sb && !list.getLsbD 15 then .usr else s.cpsr.mode := fun sb => by simp [h15]
  have hcond : ∀ f, conditional cond s f = f s := conditional_passed hpass
  obtain ⟨-, -, -, -, hpc⟩ := blockLoad_spec s.cpsr.mode p u (s.x rn) list s
  obtain ⟨t, ht, hbranch⟩ := loadMultiple_eq (p := p) (u := u) (hok false) (hmode false) hrn fun h => ⟨hw h, rfl⟩
  obtain ⟨t', ht', hreturn⟩ := loadMultiple_eq (p := p) (u := u) (hok true) (hmode true) hrn fun h => ⟨hw h, rfl⟩
  rw [if_pos h15, if_neg Bool.false_ne_true] at hbranch
  rw [if_pos h15, if_pos rfl] at hreturn
  have hspsr : t'.spsrOf t'.cpsr.mode = s.spsrOf s.cpsr.mode := by rw [ht'.cpsr, ht'.frame.core.spsrOf]
  have hreg : ∀ {t : State}, BlockLoaded s.cpsr.mode p u w rn list s t → ∀ {t'}, t'.regs = t.regs → regs t' :=
    fun ht _ hr => ⟨ht.words.of_regs hr, fun h => (State.xIn_of_regs hr hrn _).trans (ht.base h)⟩
  refine ⟨⟨_, (hcond _).trans hbranch, hreg ht rfl, fun v hv => congrArg alignWord (hpc h15 v hv), ht.cpsr, ?branch⟩,
    fun q c hq hc => ⟨_, (hcond _).trans (hreturn.trans (exceptionReturn_eq (hspsr.trans hq) hc _)), hreg ht' rfl,
      fun v hv => ?pc, rfl, ?restored⟩, fun h => ?noSpsr, fun q hq hc => ?invalid⟩
  case branch =>
    have h := ht.frame.trans (registerFrame_setPc t (alignWord (blockLoad s.cpsr.mode p u (s.x rn) list s).2))
    rwa [List.append_nil] at h
  case pc => rw [State.setPc_pc, hpc h15 v hv]
  case restored =>
    exact (ht'.frame.toStatus.trans ((statusFrame_setCpsr t' c).trans (registerFrame_setPc ..).toStatus)).mono
      (List.append_subset.mpr ⟨List.Subset.refl _, List.nil_subset _⟩)
  case noSpsr => exact (hcond _).trans (hreturn.trans (exceptionReturn_noSpsr (hspsr.trans h) _))
  case invalid => exact (hcond _).trans (hreturn.trans (exceptionReturn_invalid (hspsr.trans hq) hc _))

/-! ### STM: the words, in their order -/

/-- The number of a block transfer's word, modulo 256. -/
theorem blockAddr_div {p u : Bool} {base : Word} {n k : Nat} (hk : k < 16) :
    (blockAddr p u base n k).toNat / 4 % 256 = ((blockStart p u base n).toNat / 4 + k) % 256 := by
  have h := alignWord_toNat (blockStart p u base n)
  rw [blockAddr_eq, BitVec.toNat_add, BitVec.toNat_ofNat, h]
  omega

theorem wordsInOrder_eq (p u : Bool) (base : Word) (list : BitVec 16) (value : RegNum → Word) :
    wordsInOrder p u base list value =
      (accessOrder u (blockPairs (listRegs list) (blockStart p u base (listRegs list).length))).map
        fun e => (e.2, value e.1) := by
  unfold wordsInOrder accessOrder
  dsimp only
  rw [← pairWords_eq p u base list (f := value) fun _ _ => rfl]
  cases u
  · exact List.map_reverse.symm
  · rfl

theorem mem_wordsInOrder {p u : Bool} {base : Word} {list : BitVec 16} {value : RegNum → Word} {e : Word × Word} :
    e ∈ wordsInOrder p u base list value ↔ ∃ i : RegNum, list.getLsbD i.toNat = true ∧
      e = (blockAddr p u base (lowerCount list 16) (lowerCount list i.toNat), value i) := by
  simp only [wordsInOrder_eq, List.mem_map, mem_accessOrder, mem_blockPairs, blockAddr_eq, length_listRegs]
  constructor
  · rintro ⟨⟨i, a⟩, ⟨hi, ha⟩, rfl⟩
    exact ⟨i, hi, Prod.ext ha rfl⟩
  · rintro ⟨i, hi, rfl⟩
    exact ⟨(i, _), ⟨hi, rfl⟩, rfl⟩

theorem lowerCount_inj {list : BitVec 16} {i j : RegNum} (hi : list.getLsbD i.toNat = true)
    (hj : list.getLsbD j.toNat = true) (h : lowerCount list i.toNat = lowerCount list j.toNat) : i = j := by
  apply BitVec.eq_of_toNat_eq
  rcases Nat.lt_trichotomy i.toNat j.toNat with hlt | heq | hlt
  · exact absurd h (lowerCount_lt_lowerCount hlt hi).ne
  · exact heq
  · exact absurd h (lowerCount_lt_lowerCount hlt hj).ne'

/-- No two words of a block transfer share their number modulo 256. -/
theorem nodup_wordsInOrder (p u : Bool) (base : Word) (list : BitVec 16) (value : RegNum → Word) :
    ((wordsInOrder p u base list value).map fun e => e.1.toNat / 4 % 256).Nodup := by
  rw [wordsInOrder_eq, List.map_map]
  refine List.Nodup.map_on (fun e he f hf hef => ?_) (nodup_accessOrder (nodup_blockPairs ..)).of_map
  obtain ⟨hei, hea⟩ := mem_blockPairs.mp (mem_accessOrder.mp he)
  obtain ⟨hfi, hfa⟩ := mem_blockPairs.mp (mem_accessOrder.mp hf)
  have hnum : ∀ i : RegNum, lowerCount list i.toNat < 16 := fun i => (lowerCount_le list _).trans_lt i.isLt
  have hcount : lowerCount list e.1.toNat = lowerCount list f.1.toNat := by
    rw [← blockAddr_eq] at hea hfa
    simp only [Function.comp_apply, hea, hfa, blockAddr_div (hnum _)] at hef
    have := hnum e.1
    have := hnum f.1
    omega
  have hreg : e.1 = f.1 := lowerCount_inj hei hfi hcount
  exact Prod.ext hreg (by rw [hea, hfa, hcount])

theorem badStm_eq_false {sb w : Bool} {rn : RegNum} {list : BitVec 16} {m : Mode} (hlist : list ≠ 0#16)
    (hrn : rn ≠ 15#4) (hsb : sb = true → w = false ∧ m ≠ .usr ∧ m ≠ .sys) : badStm sb w rn list m = false := by
  rw [← Bool.not_eq_true, badStm_iff]
  grind

/-- With legal operands and no hazard an STM makes its bus writes, then writes the base back as a pre-indexed transfer
does. -/
theorem storeMultiple_eq {p u sb w : Bool} {rn : RegNum} {list : BitVec 16} {s t : State} {m : Mode}
    (hok : badStm sb w rn list s.cpsr.mode = false) (hm : m = if sb then .usr else s.cpsr.mode)
    (hstore : storeWords (wordsInOrder p u (s.x rn) list
      (blockValue s m rn w list (blockBase u (s.x rn) (lowerCount list 16)))) s = .next t) :
    storeMultiple p u sb w rn list s =
      .next (writeBase true w rn (blockBase u (s.x rn) (lowerCount list 16)) t).advance := by
  rw [storeMultiple, hok, unlessUnpredictable_false]
  dsimp only
  rw [← hm, blockWords_eq, blockWriteBack_eq, length_listRegs, hstore, andThen_next]
  rfl

/-- Settles O32: the words' bus writes in their order, then the base. -/
theorem armStoreMultiple : Obligations.ArmStoreMultiple := by
  rintro s cond p u sb w rn list m _ hm hpass hlist hrn hsb hmode rfl hz
  have hsafe : ∀ e ∈ wordsInOrder p u (s.x rn) list
      (blockValue s m rn w list (blockBase u (s.x rn) (lowerCount list 16))), storeHazard s .word e.1 = false := by
    intro e he
    obtain ⟨i, hi, rfl⟩ := mem_wordsInOrder.mp he
    exact hz _ (lowerCount_lt i.isLt hi)
  obtain ⟨t, hstore, hcpu, -, hblock, hbytes⟩ := storeWords_spec _ s hm hsafe
  have hexec := storeMultiple_eq (badStm_eq_false hlist hrn hsb) hmode hstore
  have hframe := (registerFrame_writeBase true w rn (blockBase u (s.x rn) (lowerCount list 16)) t).trans
    (registerFrame_advance _)
  have hdest : baseDest true w t rn = if w then destOf s rn else [] := by
    rw [baseDest_of_cpsr hcpu.cpsr, baseDest_eq]
    rfl
  rw [List.append_nil, hdest] at hframe
  refine ⟨_, (conditional_passed hpass _).trans hexec, fun h => ?back, fun i hi hp k hk => ?words, ?pc, ?cpsr,
    fun r hr => (hframe.regs r hr).trans (State.reg_of_regs hcpu.regs r), hcpu.core.trans hframe.core,
    hblock.then hframe.busAs⟩
  case back => exact (State.x_advance _ hrn).trans (x_writeBase (.inr h) hrn _ t)
  case words =>
    exact (hframe.reads _).trans
      (hbytes (nodup_wordsInOrder ..) _ (mem_wordsInOrder.mpr ⟨i, hi, rfl⟩) hp k hk)
  case pc => rw [Advanced, State.advance_pc, writeBase_pc, hcpu.pc, isize_of_cpsr ((writeBase_cpsr ..).trans hcpu.cpsr)]
  case cpsr => rw [State.advance_cpsr, writeBase_cpsr, hcpu.cpsr]

end Sys2Proof.Machine
end

section
/-! PROOFS. PSR transfer: MRS and MSR, and the bytes of a status word (44_arm_branch_psr_system R611-R616). -/

namespace Sys2Proof.Machine

/-! ### The bytes of a status word -/

/-- Bits 27:8 of a PSR read 0 (10_state R110, R115). -/
theorem Spsr.toWord_reserved (p : Spsr) : p.toWord.extractLsb' 8 20 = 0#20 := by
  simp [Spsr.toWord, psrWord]

/-- A word with bits 27:8 clear is the value of its PSR image. -/
theorem Spsr.toWord_ofImage {w : Word} (h : w.extractLsb' 8 20 = 0#20) : (Spsr.ofImage w).toWord = w := by
  have hbit : ∀ k, ∀ hk : k < 32, BitVec.ofBool w[k] = w.extractLsb' k 1 := fun k hk => bit_getElem w hk
  simp [Spsr.toWord, psrWord, Spsr.ofImage, append_eq_iff, h, hbit]

/-- The bits of a PSR that an MSR of the flags and of the control field replaces (44 R612). -/
def msrLanes (flags control : Bool) : Word :=
  (if flags then 0xF0000000#32 else 0#32) ||| if control then 0xFF#32 else 0#32

/-- A PSR's value with the lanes of an MSR replaced. -/
def msrMerge (flags control : Bool) (old new : Word) : Word :=
  (old &&& ~~~msrLanes flags control) ||| (new &&& msrLanes flags control)

/-- No lane of an MSR lies in bits 27:8. -/
theorem msrLanes_reserved (flags control : Bool) : (msrLanes flags control).extractLsb' 8 20 = 0#20 ∧
    (~~~msrLanes flags control).extractLsb' 8 20 = BitVec.allOnes 20 := by
  cases flags <;> cases control <;> decide

theorem msrMerge_reserved (flags control : Bool) (old new : Word) :
    (msrMerge flags control old new).extractLsb' 8 20 = old.extractLsb' 8 20 := by
  obtain ⟨hlanes, hothers⟩ := msrLanes_reserved flags control
  rw [msrMerge, BitVec.extractLsb'_or, BitVec.extractLsb'_and, BitVec.extractLsb'_and, hlanes, hothers,
    BitVec.and_allOnes, BitVec.and_zero, BitVec.or_zero]

/-- MSR's write of an SPSR, field by field, is the merge of its lanes. -/
theorem msrSpsr_ofImage (mask : BitVec 4) (v w : Word) :
    msrSpsr mask v (.ofImage w) = .ofImage (msrMerge (mask.getLsbD 3) (mask.getLsbD 0) w v) := by
  have hones : ∀ x : BitVec 5, x &&& 0x1F#5 = x := fun _ => BitVec.and_allOnes
  unfold msrSpsr msrMerge
  generalize mask.getLsbD 3 = flags
  generalize mask.getLsbD 0 = control
  cases flags <;> cases control <;>
    simp [Spsr.ofImage, msrLanes, BitVec.extractLsb'_or, BitVec.extractLsb'_and, hones]

/-- The fields that MSR writes are the lanes of the PSR's value. -/
theorem toWord_msrSpsr (mask : BitVec 4) (v : Word) (p : Spsr) :
    (msrSpsr mask v p).toWord = msrMerge (mask.getLsbD 3) (mask.getLsbD 0) p.toWord v := by
  have hreserved := (msrMerge_reserved (mask.getLsbD 3) (mask.getLsbD 0) p.toWord v).trans p.toWord_reserved
  rw [← Spsr.toWord_ofImage hreserved, ← msrSpsr_ofImage, Spsr.ofImage_toWord]

/-- A write of CPSR that names a mode and keeps T, where it writes the control field at all, is the write of its image. -/
theorem saved_msrCpsr {mask : BitVec 4} {v : Word} {m : Mode} {p : Cpsr}
    (h : mask.getLsbD 0 = true → Mode.ofBits (v.extractLsb' 0 5) = some m ∧ v.getLsbD 5 = p.t) :
    (msrCpsr mask v m p).saved = msrSpsr mask v p.saved := by
  unfold msrCpsr msrSpsr
  cases hcontrol : mask.getLsbD 0 with
  | false => cases mask.getLsbD 3 <;> rfl
  | true =>
    obtain ⟨hm, ht⟩ := h hcontrol
    rw [ht, ← Mode.toBits_of_ofBits hm]
    cases mask.getLsbD 3 <;> rfl

theorem msrCpsr_t (mask : BitVec 4) (v : Word) (m : Mode) (p : Cpsr) : (msrCpsr mask v m p).t = p.t := by
  unfold msrCpsr
  cases mask.getLsbD 0 <;> cases mask.getLsbD 3 <;> rfl

/-! ### MRS -/

section
variable {s : State} {r : Bool} {rd : RegNum} (hrd : rd ≠ 15#4)
include hrd

theorem mrs_next {v : Word} (hv : mrsValue r s = some v) : mrs r rd s = .next (s.setX rd v).advance := by
  simp only [mrs, beq_false_of_ne hrd, unlessUnpredictable_false, hv]

theorem mrs_noSpsr (hv : mrsValue r s = none) : mrs r rd s = .fault .noSpsrInMode := by
  simp only [mrs, beq_false_of_ne hrd, unlessUnpredictable_false, hv]

theorem runs_mrs {cond : Cond} (hpass : conditionPassed s.cpsr cond = true) {v : Word} (hv : mrsValue r s = some v) :
    Runs (.armMrs cond r rd) s fun t => Writes rd v s t ∧ SameFlags s t :=
  ⟨_, (conditional_passed hpass _).trans (mrs_next hrd hv), writes_setX hrd v, sameFlags_of_cpsr (State.setX_cpsr ..)⟩

end

/-- The value that MRS reads of the SPSR, if the mode has one. -/
theorem mrsValue_spsr {s : State} {o : Option Spsr} (h : s.spsrOf s.cpsr.mode = o) :
    mrsValue true s = o.map Spsr.toWord := by rw [← h]; rfl

/-- Settles O33: MRS writes the value it reads, or stops where there is none, and every PSR value has bits 27:8 clear. -/
theorem mrsReadsStatus : Obligations.MrsReadsStatus := by
  intro s cond rd hpass hrd
  refine ⟨runs_mrs hrd hpass rfl, fun p hp => runs_mrs hrd hpass (mrsValue_spsr hp), fun hnone => ?noSpsr,
    s.cpsr.saved.toWord_reserved, fun p _ => p.toWord_reserved⟩
  case noSpsr => exact (conditional_passed hpass _).trans (mrs_noSpsr hrd (mrsValue_spsr hnone))

/-! ### MSR to CPSR -/

/-- The control field counts in a privileged mode alone, the flags field always (44 R612). -/
theorem msrMask_control (m : Mode) (mask : BitVec 4) :
    (msrMask m mask).getLsbD 0 = (mask.getLsbD 0 && m != .usr) := by
  cases m <;> simp [msrMask, Mode.privileged]

theorem msrMask_flags (m : Mode) (mask : BitVec 4) : (msrMask m mask).getLsbD 3 = mask.getLsbD 3 := by
  cases m <;> simp [msrMask, Mode.privileged]

section
variable {mask : BitVec 4} {v : Word} {s : State}

theorem msrToCpsr_invalidMode (hcontrol : (msrMask s.cpsr.mode mask).getLsbD 0 = true)
    (hmode : Mode.ofBits (v.extractLsb' 0 5) = none) : msrToCpsr mask v s = .fault .invalidMode := by
  simp only [msrToCpsr, hcontrol, if_true, hmode]

theorem msrToCpsr_changesT (hcontrol : (msrMask s.cpsr.mode mask).getLsbD 0 = true) {m : Mode}
    (hmode : Mode.ofBits (v.extractLsb' 0 5) = some m) (ht : v.getLsbD 5 ≠ s.cpsr.t) :
    msrToCpsr mask v s = .fault .unpredictable := by
  simp only [msrToCpsr, hcontrol, if_true, hmode, bne_iff_ne.mpr ht, unlessUnpredictable_true]

/-- Where the control field is not written, or names a mode and keeps T, MSR writes CPSR: its image changes as an SPSR
would. -/
theorem msrToCpsr_next (h : (msrMask s.cpsr.mode mask).getLsbD 0 = true →
      (Mode.ofBits (v.extractLsb' 0 5)).isSome = true ∧ v.getLsbD 5 = s.cpsr.t) :
    ∃ q, msrToCpsr mask v s = .next (s.setCpsr q).advance ∧ q.t = s.cpsr.t ∧
      q.saved = msrSpsr (msrMask s.cpsr.mode mask) v s.cpsr.saved := by
  unfold msrToCpsr
  cases hcontrol : (msrMask s.cpsr.mode mask).getLsbD 0 with
  | false =>
    have hunwritten : ¬(msrMask s.cpsr.mode mask).getLsbD 0 = true := Bool.eq_false_iff.mp hcontrol
    exact ⟨_, if_neg hunwritten, msrCpsr_t .., saved_msrCpsr fun hc => absurd hc hunwritten⟩
  | true =>
    obtain ⟨hlegal, ht⟩ := h hcontrol
    obtain ⟨m, hm⟩ := Option.isSome_iff_exists.mp hlegal
    refine ⟨_, ?_, msrCpsr_t .., saved_msrCpsr fun _ => ⟨hm, ht⟩⟩
    simp only [hcontrol, if_true, hm, bne_eq_false_iff_eq.mpr ht, unlessUnpredictable_false]

end

theorem advanced_setCpsr {s : State} {q : Cpsr} (ht : q.t = s.cpsr.t) : Advanced s (s.setCpsr q).advance := by
  rw [Advanced, State.advance_pc, State.setCpsr_pc, State.isize, State.isize, State.setCpsr_cpsr, ht]

theorem statusFrame_setCpsr_advance (s : State) (q : Cpsr) : StatusFrame [] s (s.setCpsr q).advance :=
  (statusFrame_setCpsr s q).trans (registerFrame_advance _).toStatus

/-! ### MSR to the SPSR -/

theorem sameDevices_setSpsrOf (s : State) (m : Mode) (p : Spsr) : SameDevices s (s.setSpsrOf m p) := by
  cases m <;> constructor <;> rfl

theorem sameReads_setSpsrOf (s : State) (m : Mode) (p : Spsr) : SameReads s (s.setSpsrOf m p) := by
  intro a
  cases m <;> rfl

theorem msrToSpsr_eq {mask : BitVec 4} {v : Word} {s : State} {p : Spsr} (h : s.spsrOf s.cpsr.mode = some p) :
    msrToSpsr mask v s = .next (s.setSpsrOf s.cpsr.mode (msrSpsr mask v p)).advance := by
  simp only [msrToSpsr, h]

theorem msrToSpsr_none {mask : BitVec 4} {v : Word} {s : State} (h : s.spsrOf s.cpsr.mode = none) :
    msrToSpsr mask v s = .fault .noSpsrInMode := by
  simp only [msrToSpsr, h]

theorem advanced_setSpsrOf (s : State) (m : Mode) (p : Spsr) : Advanced s (s.setSpsrOf m p).advance := by
  rw [Advanced, State.advance_pc, State.setSpsrOf_pc, State.isize, State.isize, State.setSpsrOf_cpsr]

/-! ### Both forms -/

theorem exec_armMsrReg {s : State} {cond : Cond} (hpass : conditionPassed s.cpsr cond = true) {rm : RegNum}
    (hrm : rm ≠ 15#4) (r : Bool) (mask : BitVec 4) :
    exec (.armMsrReg cond r mask rm) s = msr r mask (s.x rm) s := by
  simp only [exec, execArmMsrReg, conditional_passed hpass, beq_false_of_ne hrm, unlessUnpredictable_false]

theorem exec_armMsrImm {s : State} {cond : Cond} (hpass : conditionPassed s.cpsr cond = true) (r : Bool)
    (mask rot : BitVec 4) (imm8 : BitVec 8) : exec (.armMsrImm cond r mask rot imm8) s =
      msr r mask ((imm8.setWidth 32).rotateRight (2 * rot.toNat)) s := by
  rw [← rotatedImm_eq]
  exact conditional_passed hpass _

/-- Settles O34: both forms are `msr` of their operand, and the fields it writes are lanes of the PSR's value. -/
theorem msrWritesStatus : Obligations.MsrWritesStatus := by
  intro s cond mask rot rm imm8 hpass hrm e he lanes control m ms legal
  have hform : ∀ r, exec (e.1 r) s = msr r mask e.2 s := by
    rcases List.mem_pair.mp he with rfl | rfl
    · exact fun r => exec_armMsrReg hpass hrm r mask
    · exact fun r => exec_armMsrImm hpass r mask rot imm8
  have hmask : (msrMask s.cpsr.mode mask).getLsbD 0 = control := msrMask_control s.cpsr.mode mask
  refine ⟨fun hcontrol hillegal => ?invalidMode, fun hcontrol hlegal ht => ?changesT, fun h => ?cpsr,
    fun hnone => (hform true).trans (msrToSpsr_none hnone), fun p hp => ?spsr⟩
  case invalidMode =>
    have hnone := Option.isNone_iff_eq_none.mp (Option.isSome_eq_false_iff.mp hillegal)
    exact (hform false).trans (msrToCpsr_invalidMode (hmask.trans hcontrol) hnone)
  case changesT =>
    obtain ⟨n, hn⟩ := Option.isSome_iff_exists.mp hlegal
    exact (hform false).trans (msrToCpsr_changesT (hmask.trans hcontrol) hn ht)
  case cpsr =>
    obtain ⟨q, hexec, ht, hsaved⟩ := msrToCpsr_next (v := e.2) fun hcontrol => h (hmask.symm.trans hcontrol)
    refine ⟨_, (hform false).trans hexec, ?_, advanced_setCpsr ht, statusFrame_setCpsr_advance ..⟩
    have hword := toWord_msrSpsr (msrMask s.cpsr.mode mask) e.2 s.cpsr.saved
    rwa [← hsaved, msrMask_flags, hmask] at hword
  case spsr =>
    have hmode : s.cpsr.mode.hasSpsr = true := by rw [← s.spsrOf_isSome, hp, Option.isSome_some]
    have hadvance := registerFrame_advance (s.setSpsrOf s.cpsr.mode (msrSpsr mask e.2 p))
    refine ⟨_, (hform true).trans (msrToSpsr_eq hp), ?word, fun n hn => s.spsrOf_setSpsrOf_ne hn _,
      advanced_setSpsrOf .., State.setSpsrOf_cpsr .., regsSameBut_of_regs (State.setSpsrOf_regs ..),
      (sameDevices_setSpsrOf ..).trans hadvance.devices, State.setSpsrOf_save ..,
      fun a => (hadvance.reads a).trans (sameReads_setSpsrOf _ _ _ a), State.setSpsrOf_lastFetchAddr ..,
      State.setSpsrOf_lastFetchWord .., State.setSpsrOf_params .., State.setSpsrOf_refill ..⟩
    case word =>
      refine (congrArg (Option.map Spsr.toWord) (s.spsrOf_setSpsrOf_same hmode _)).trans ?_
      rw [Option.map_some, toWord_msrSpsr]
      rfl

end Sys2Proof.Machine
end

section
/-! PROOFS. Branches, in ARM and in Thumb state (44_arm_branch_psr_system R600-R603; 45_thumb R713, R737-R742). -/

namespace Sys2Proof.Machine

/-! ### Offsets as numbers (30_encoding R325, R342) -/

theorem signExtend_append_zero {n : Nat} (x : BitVec n) (k : Nat) :
    (x ++ 0#k).signExtend 32 = BitVec.ofInt 32 (2 ^ k * x.toInt) := by
  rw [BitVec.signExtend, BitVec.toInt_append_zero]

theorem branchOffset_eq (o : BitVec 24) : branchOffset o = BitVec.ofInt 32 (4 * o.toInt) := signExtend_append_zero o 2

theorem soffset8Offset_eq (o : BitVec 8) : soffset8Offset o = BitVec.ofInt 32 (2 * o.toInt) := signExtend_append_zero o 1

theorem offset11Offset_eq (o : BitVec 11) : offset11Offset o = BitVec.ofInt 32 (2 * o.toInt) :=
  signExtend_append_zero o 1

/-- The high part of a Thumb BL's offset counts in units of 4096 bytes. -/
theorem signExtend_shiftLeft_12 (o : BitVec 11) : o.signExtend 32 <<< 12 = BitVec.ofInt 32 (4096 * o.toInt) := by
  rw [BitVec.shiftLeft_eq_mul_twoPow, BitVec.signExtend, BitVec.mul_comm, BitVec.ofInt_mul]
  rfl

theorem setWidth_shiftLeft_one (o : BitVec 11) : o.setWidth 32 <<< 1 = BitVec.ofNat 32 (2 * o.toNat) := by
  bv_omega

theorem add_ofInt_add (a : Word) (k d : Int) :
    a + BitVec.ofInt 32 (k + d) = a + BitVec.ofInt 32 k + BitVec.ofInt 32 d := by
  rw [BitVec.ofInt_add, BitVec.add_assoc]

/-! ### What a branch changes -/

section
variable {s : State} {i : Instr} {a v : Word}

theorem runs_jump (h : exec i s = .next (s.setPc a)) :
    Runs i s fun t => t.pc = a ∧ t.cpsr = s.cpsr ∧ RegisterFrame [] s t :=
  ⟨_, h, rfl, rfl, registerFrame_setPc ..⟩

theorem runs_jumpWithLink (h : exec i s = .next ((s.setX 14#4 v).setPc a)) :
    Runs i s fun t => t.x 14#4 = v ∧ t.pc = a ∧ t.cpsr = s.cpsr ∧ RegisterFrame (destOf s 14#4) s t := by
  have hframe := (registerFrame_setX s 14#4 v).trans (registerFrame_setPc _ a)
  rw [List.append_nil] at hframe
  exact ⟨_, h, (State.x_setPc _ (by decide) a).trans (s.x_setX_same (by decide) v), rfl, State.setX_cpsr .., hframe⟩

theorem runs_exchange (h : exec i s = .next (branchExchange v s)) : Runs i s fun t =>
    t.cpsr = { s.cpsr with t := v.getLsbD 0 } ∧ t.pc = (if v.getLsbD 0 then alignHalf v else alignWord v) ∧
      StatusFrame [] s t :=
  ⟨_, h, rfl, rfl, (statusFrame_setCpsr s _).trans (registerFrame_setPc ..).toStatus⟩

end

/-- Settles O35: each branch is a jump by its offset. -/
theorem branches : Obligations.Branches := by
  intro s cond offset24 soffset8 offset11 target
  refine ⟨fun hpass => runs_jump ?armB, fun hpass => runs_jump ?bCond, fun hfail ht => runs_jump ?failed,
    runs_jump ?thumbB, _, rfl, ?blFirst⟩
  case armB =>
    rw [add_ofInt_add, ← branchOffset_eq]
    simp only [exec, execArmB, conditional_passed hpass]
    rfl
  case bCond =>
    rw [add_ofInt_add, ← soffset8Offset_eq]
    exact if_pos hpass
  case failed =>
    have hsize : s.isize = BitVec.ofInt 32 2 := by rw [State.isize, ht]; rfl
    rw [← hsize]
    exact exec_thumbBCond_failed hfail soffset8
  case thumbB =>
    rw [add_ofInt_add, ← offset11Offset_eq]
    rfl
  case blFirst =>
    obtain ⟨hlink, hpc, hframe⟩ := writes_setX (s := s) (i := 14#4) (by decide)
      (s.pc + 4#32 + (offset11.signExtend 32 <<< 12))
    refine ⟨hlink.trans ?_, hpc, State.setX_cpsr .., hframe⟩
    rw [add_ofInt_add, signExtend_shiftLeft_12]
    rfl

/-- Settles O36: BL is a jump with a link, and BX the exchange, in both states. -/
theorem linkAndExchange : Obligations.LinkAndExchange := by
  intro s cond offset24 rm sbz offset11 exchange
  refine ⟨fun hpass => ⟨runs_jumpWithLink ?bl, runs_exchange ?bx⟩, runs_exchange rfl, runs_jumpWithLink ?blSecond⟩
  case bl =>
    rw [add_ofInt_add, ← branchOffset_eq]
    simp only [exec, execArmBl, conditional_passed hpass]
    rfl
  case bx => simp only [exec, execArmBx, conditional_passed hpass]
  case blSecond =>
    rw [← setWidth_shiftLeft_one]
    rfl

end Sys2Proof.Machine
end

section
/-! PROOFS. Software interrupts as exceptions (44_arm_branch_psr_system R620; 45_thumb R738; 46_bios_hle R751, R752). -/

namespace Sys2Proof.Machine

/-- The SWI numbers and their functions, as a table (46_bios_hle R751). -/
def swiTable : List (Byte × Config.HleFn) :=
  [(0x00#8, .softReset), (0x06#8, .div), (0x07#8, .divArm), (0x08#8, .sqrt), (0x09#8, .arcTan), (0x0A#8, .arcTan2),
    (0x0B#8, .cpuSet), (0x0C#8, .cpuFastSet), (0x0D#8, .getBiosChecksum), (0x0E#8, .bgAffineSet),
    (0x0F#8, .objAffineSet), (0x10#8, .bitUnPack), (0x1F#8, .midiKey2Freq)]

theorem hleFunction_eq_lookup (n : Byte) : hleFunction n = swiTable.lookup n := by
  revert n; decide

variable {s : State} {i : Instr} {n : Byte}

/-- A call in either state runs the software interrupt of its number. -/
theorem SwiCall.exec_eq (h : SwiCall i n s) : exec i s = softwareInterrupt n s := by
  rcases h with ⟨cond, comment, rfl, hpass, hnumber⟩ | rfl
  · have hn : armSwiNumber s comment = n := by
      unfold armSwiNumber
      apply BitVec.eq_of_toNat_eq
      cases hfield : s.params.armSwiNumberField with
      | bits23to16 | bits7to0 =>
        simp only [hfield] at hnumber ⊢
        rw [BitVec.extractLsb'_toNat, Nat.shiftRight_eq_div_pow]
        omega
    exact (conditional_passed hpass _).trans (by rw [hn])
  · rfl

/-- A number whose function is not selected is an undefined instruction (46_bios_hle R751). -/
theorem softwareInterrupt_unselected (hhle : s.params.swiHandling = .hle)
    (h : ∀ f, hleFunction n = some f → f ∉ s.params.hleSwiSet) : softwareInterrupt n s = undefinedInstr s := by
  have hnone : hleSelect s n = none := by
    rw [Option.eq_none_iff_forall_not_mem]
    intro f hf
    obtain ⟨hfn, hmem⟩ := hleSelect_eq hf
    exact h f hfn hmem
  simp only [softwareInterrupt, hhle, hnone]

/-- Settles O41: an SWI enters SVC under `Vector`, and is an undefined instruction for an unselected number. -/
theorem swiExceptions : Obligations.SwiExceptions := by
  intro s i n hcall
  refine ⟨hleFunction_eq_lookup n, fun hvector => ⟨swiEntry s, ?_, entered_enterException rfl ..⟩,
    fun hhle hunselected => ?_⟩
  · rw [hcall.exec_eq, softwareInterrupt, hvector]
  · obtain ⟨hraises, hadvances⟩ := runs_undefined (hcall.exec_eq.trans (softwareInterrupt_unselected hhle hunselected))
    refine ⟨hraises, fun hnoOp => ?_⟩
    obtain ⟨_, hexec, rfl⟩ := hadvances hnoOp
    exact hexec

end Sys2Proof.Machine
end

section
/-! PROOFS. Thumb data operations: T1 to T5, T12 and T13 (45_thumb, sections 2-5, 7 and 9). -/

namespace Sys2Proof.Machine

/-! ### What the shared operations write (45_thumb R701) -/

section
variable {s : State} {i : Instr} {rd : LowReg}

theorem runs_thumbArith {r v : Sum} (hexec : exec i s = thumbArith rd r s) (hr : r = v) :
    Runs i s fun t => Writes (lowReg rd) v.value s t ∧ ArithmeticFlags v t := by
  subst hr
  exact ⟨_, hexec, writes_setX_withFlags (lowReg_ne_r15 rd) _ .., rfl, rfl, rfl, rfl⟩

theorem runs_thumbCompare {r v : Sum} (hexec : exec i s = thumbCompare r s) (hr : r = v) :
    Runs i s fun t => OnlyFlags s t ∧ ArithmeticFlags v t := by
  subst hr
  exact ⟨_, hexec, onlyFlags_withFlags s .., rfl, rfl, rfl, rfl⟩

theorem runs_thumbShift {r : Shifted} (hexec : exec i s = thumbShift rd r s) :
    Runs i s fun t => Writes (lowReg rd) r.value s t ∧ LogicalFlags r.value r.carry s t :=
  ⟨_, hexec, writes_setX_withFlags (lowReg_ne_r15 rd) _ .., rfl, rfl, rfl, rfl⟩

/-- A logical result is that of a shift whose carry-out is the old C. -/
theorem thumbLogical_eq_thumbShift (rd : LowReg) (v : Word) (s : State) :
    thumbLogical rd v s = thumbShift rd ⟨v, s.cpsr.c⟩ s := rfl

/-- A shift amount is the low byte of Rs (45_thumb R672-R674, R677). -/
theorem thumbShiftReg_eq (ty : ShiftType) (rs rd : LowReg) (s : State) : thumbShiftReg ty rs rd s =
    thumbShift rd (shiftReg ty (s.x (lowReg rd)) ((s.x (lowReg rs)).toNat % 256) s.cpsr.c) s := by
  rw [thumbShiftReg, BitVec.extractLsb'_toNat, Nat.shiftRight_zero]

/-- A form that writes one register and no flag. -/
theorem runs_setX {d : RegNum} {r v : Word} (hd : d ≠ 15#4) (hexec : exec i s = .next (s.setX d r).advance)
    (hr : r = v) : Runs i s fun t => Writes d v s t ∧ SameFlags s t := by
  subst hr
  exact ⟨_, hexec, writes_setX hd r, sameFlags_of_cpsr (State.setX_cpsr ..)⟩

end

/-- Settles O43: each form is an addition with carry, which is the exact sum or difference. -/
theorem thumbArithmetic : Obligations.ThumbArithmetic := by
  rintro s rn rs rd hd hm imm3 imm8 _ _ _ _ _ _ rfl rfl rfl rfl rfl rfl
  simp only [List.forall_mem_cons]
  have hsum := addWithCarry_eq_sumOf
  have hdiff := addWithCarry_not_eq_differenceOf
  exact ⟨⟨runs_thumbArith rfl (hsum ..), runs_thumbArith rfl (hdiff ..), runs_thumbArith rfl (hsum ..),
      runs_thumbArith rfl (hdiff ..), runs_thumbArith rfl (hsum ..), runs_thumbArith rfl (hdiff ..),
      runs_thumbArith rfl (hsum ..), runs_thumbArith rfl (hdiff ..), runs_thumbArith rfl (hdiff ..),
      List.forall_mem_nil _⟩,
    runs_thumbCompare rfl (hdiff ..), runs_thumbCompare rfl (hdiff ..), runs_thumbCompare rfl (hsum ..),
    runs_thumbCompare rfl (hdiff ..), List.forall_mem_nil _⟩

/-- Settles O44: each form writes the shifter's value and carry; a move or a logical operation carries the old C. -/
theorem thumbLogicalAndShifts : Obligations.ThumbLogicalAndShifts := by
  rintro s rs rd imm8 imm5 _ _ _ _ _ rfl rfl rfl rfl rfl
  simp only [List.forall_mem_cons]
  have hlogical := fun i v (hi : exec i s = thumbLogical rd v s) =>
    runs_thumbShift (hi.trans (thumbLogical_eq_thumbShift rd v s))
  have hshift := fun i ty (hi : exec i s = thumbShiftReg ty rs rd s) =>
    runs_thumbShift (hi.trans (thumbShiftReg_eq ty rs rd s))
  exact ⟨⟨hlogical _ _ rfl, hlogical _ _ rfl, hlogical _ _ rfl, hlogical _ _ rfl, hlogical _ _ rfl, hlogical _ _ rfl,
      runs_thumbShift rfl, runs_thumbShift rfl, runs_thumbShift rfl,
      hshift _ .lsl rfl, hshift _ .lsr rfl, hshift _ .asr rfl, hshift _ .ror rfl, List.forall_mem_nil _⟩,
    _, rfl, onlyFlags_withFlags s .., rfl, rfl, rfl, rfl⟩

/-! ### High registers and addresses -/

/-- A field in units of `2 ^ k` bytes, as a number (30_encoding R342). -/
theorem setWidth_append_zero {n : Nat} (x : BitVec n) (k : Nat) :
    (x ++ 0#k).setWidth 32 = BitVec.ofNat 32 (2 ^ k * x.toNat) := by
  rw [← BitVec.ofNat_toNat, BitVec.toNat_append, BitVec.toNat_ofNat, Nat.zero_mod, Nat.or_zero, Nat.shiftLeft_eq,
    Nat.mul_comm]

theorem word8Offset_eq (word8 : BitVec 8) : word8Offset word8 = BitVec.ofNat 32 (4 * word8.toNat) :=
  setWidth_append_zero word8 2

/-- A result to a high register goes on; to R15 it is a branch. -/
theorem runs_toRegister {s : State} {i : Instr} {d : RegNum} {r : Word}
    (hexec : exec i s = .next (if d = 15#4 then s.setPc (alignHalf r) else (s.setX d r).advance)) :
    (d ≠ 15#4 → Runs i s fun t => Writes d r s t ∧ SameFlags s t) ∧
    (d = 15#4 → Runs i s fun t => t.pc = alignHalf r ∧ t.cpsr = s.cpsr ∧ RegisterFrame [] s t) :=
  ⟨fun hd => runs_setX hd (hexec.trans (by rw [if_neg hd])) rfl,
    fun hd => runs_jump (hexec.trans (by rw [if_pos hd]))⟩

/-- Settles O45: each form writes its sum, and ADD and MOV to R15 are jumps. -/
theorem thumbHiRegistersAndAddresses : Obligations.ThumbHiRegistersAndAddresses := by
  rintro s hd hm rd word8 sword7 _ _ rfl rfl
  simp only [List.forall_mem_cons]
  have himm7 : (sword7 ++ 0#2).setWidth 32 = BitVec.ofNat 32 (4 * sword7.toNat) := setWidth_append_zero sword7 2
  rw [← himm7, ← word8Offset_eq]
  exact ⟨⟨runs_toRegister rfl, runs_toRegister rfl, List.forall_mem_nil _⟩,
    runs_setX (lowReg_ne_r15 rd) rfl rfl, runs_setX (lowReg_ne_r15 rd) rfl rfl, runs_setX (by decide) rfl rfl,
    runs_setX (by decide) rfl rfl, List.forall_mem_nil _⟩

end Sys2Proof.Machine
end

section
/-! PROOFS. Thumb loads, stores and block transfers: T6 to T11, T14 and T15 (45_thumb, sections 6 and 8-10). -/

namespace Sys2Proof.Machine

/-! ### Single loads and stores (45_thumb R703) -/

theorem immOffsetAddr_eq (imm5 : BitVec 5) (unit : Nat) (rb : LowReg) (s : State) :
    immOffsetAddr imm5 unit rb s = s.x (lowReg rb) + BitVec.ofNat 32 (unit * imm5.toNat) := by
  rw [immOffsetAddr, imm5Offset, Nat.mul_comm]

theorem alignWord_eq_self {a : Word} (h : a.toNat % 4 = 0) : alignWord a = a := by
  have := alignWord_toNat a
  bv_omega

/-- A word load at a multiple of four is the bus read: nothing is rotated. -/
theorem loadWord_of_aligned (s : State) {a : Word} (h : a.toNat % 4 = 0) : loadWord s a = busRead s .word a := by
  have hlow : (a &&& 3#32).toNat = 0 := (toNat_and_mask a (n := 2) (by decide)).trans h
  have hror : ∀ v : Word, ror32 v (8 * 0) = v := fun v => by simp [ror32, BitVec.rotateRight_def]
  rw [loadWord, alignWord_eq_self h, hlow, hror, ite_self]

theorem pcRelative_aligned (s : State) (word8 : BitVec 8) : (pcRelative s word8).toNat % 4 = 0 := by
  have := alignWord_toNat (s.pc + 4#32)
  rw [pcRelative, word8Offset_eq, BitVec.toNat_add, BitVec.toNat_ofNat]
  omega

theorem runs_thumbLoad {s : State} {i : Instr} {rd : LowReg} {load : State → Word → Word} {a : Word}
    (hexec : exec i s = thumbLoad load rd a s) :
    Runs i s fun t => Writes (lowReg rd) (load s a) s t ∧ SameFlags s t := by
  obtain ⟨hvalue, hpc, hframe⟩ := writes_setX (s := s.bump) (lowReg_ne_r15 rd) (load s a)
  exact ⟨_, hexec, ⟨hvalue, hpc, (registerFrame_bump s).trans hframe⟩, sameFlags_of_cpsr (State.setX_cpsr ..)⟩

/-- The PC-relative address is a multiple of four, so this is a word load too (45_thumb R723). -/
theorem exec_thumbLdrPc (rd : LowReg) (word8 : BitVec 8) (s : State) :
    exec (.thumbLdrPc rd word8) s = thumbLoad loadWord rd (pcRelative s word8) s := by
  rw [thumbLoad, loadWord_of_aligned s (pcRelative_aligned s word8)]
  rfl

/-- Settles O46: each form is the load of its width at its address. -/
theorem thumbLoads : Obligations.ThumbLoads := by
  rintro s ro rb rd imm5 word8 _ _ _ rfl rfl rfl off words
  have hoff : ∀ k, off k = immOffsetAddr imm5 k rb s := fun k => (immOffsetAddr_eq imm5 k rb s).symm
  have hwords : words = word8Offset word8 := (word8Offset_eq word8).symm
  simp only [hoff, hwords, List.forall_mem_cons]
  exact ⟨runs_thumbLoad rfl, runs_thumbLoad rfl, runs_thumbLoad rfl, runs_thumbLoad rfl, runs_thumbLoad rfl,
    runs_thumbLoad rfl, runs_thumbLoad rfl, runs_thumbLoad rfl, runs_thumbLoad (exec_thumbLdrPc rd word8 s),
    runs_thumbLoad rfl, List.forall_mem_nil _⟩

theorem runs_thumbStore {s : State} {i : Instr} {rd : LowReg} {w : Width} {a : Word} (hm : s.MemoryInv)
    (hexec : exec i s = thumbStore w rd a s) (hz : storeHazard s w a = false) :
    Runs i s (StoreDone [] w a (s.x (lowReg rd)) s) := by
  rw [thumbStore, cpuStore_eq hz, andThen_next] at hexec
  refine ⟨_, hexec, storeDone_of_registerFrame hm (registerFrame_advance _) (busWrite_cpsr ..) ?pc⟩
  case pc => rw [Advanced, State.advance_pc, busWrite_pc, isize_of_cpsr (busWrite_cpsr ..)]

/-- Settles O47: each form is the store of its width at its address. -/
theorem thumbStores : Obligations.ThumbStores := by
  rintro s ro rb rd imm5 word8 _ _ hm rfl rfl off
  have hoff : ∀ k, off k = immOffsetAddr imm5 k rb s := fun k => (immOffsetAddr_eq imm5 k rb s).symm
  simp only [hoff, ← word8Offset_eq, List.forall_mem_cons]
  exact ⟨runs_thumbStore hm rfl, runs_thumbStore hm rfl, runs_thumbStore hm rfl, runs_thumbStore hm rfl,
    runs_thumbStore hm rfl, runs_thumbStore hm rfl, runs_thumbStore hm rfl, List.forall_mem_nil _⟩

/-! ### The lists of the block transfers (45_thumb R730) -/

theorem isEmpty_listRegs {list : BitVec 16} (h : list ≠ 0#16) : (listRegs list).isEmpty = false := by
  obtain ⟨i, hi⟩ : ∃ i, list.getLsbD i = true := by
    by_contra hnone
    exact h (BitVec.eq_of_getLsbD_eq fun i _ => by simpa using not_exists.mp hnone i)
  have hcount := lowerCount_lt (BitVec.lt_of_getLsbD hi) hi
  rw [← length_listRegs] at hcount
  exact List.isEmpty_eq_false_iff.mpr (List.ne_nil_of_length_pos (by omega))

theorem getLsbD_pushList (list : BitVec 8) (r : Bool) (extra : Nat) {i : Nat} (hi : i < 16) :
    (pushList list r extra).getLsbD i = (list.getLsbD i || (r && decide (i = extra))) := by
  cases r <;> simp [pushList, hi]

theorem setWidth_ne_zero {list : BitVec 8} (h : list ≠ 0#8) : list.setWidth 16 ≠ 0#16 := by
  bv_omega

theorem getLsbD_lowReg (list : BitVec 8) (rb : LowReg) :
    (list.setWidth 16).getLsbD (lowReg rb).toNat = list.getLsbD rb.toNat := by
  have hrb : (lowReg rb).toNat = rb.toNat := by rw [lowReg, BitVec.toNat_setWidth, Nat.mod_eq_of_lt (by omega)]
  rw [hrb, BitVec.getLsbD_setWidth, decide_eq_true (by omega), Bool.true_and]

/-- R15 is no general register: POP's list names the same ones with it and without it. -/
theorem listedBy_pop (m : Mode) (list : BitVec 8) (r : Bool) :
    listedBy m (pushList list r 15) = listedBy m (list.setWidth 16) := by
  refine List.flatMap_congr fun i hi => ?_
  have hlt := List.mem_range.mp hi
  rcases Nat.lt_or_eq_of_le (Nat.le_of_lt_succ hlt) with h | rfl
  · rw [getLsbD_pushList list r 15 hlt, decide_eq_false (by omega), Bool.and_false, Bool.or_false,
      BitVec.getLsbD_setWidth, decide_eq_true hlt, Bool.true_and]
  · have hnone : m.view (BitVec.ofNat 4 15) = none := Mode.view_eq_none.mpr rfl
    simp only [hnone, Option.toList_none, ite_self]

/-! ### PUSH and STMIA (45_thumb R731, R734) -/

/-- The words' bus writes in their order, then the base. -/
theorem runs_storeBlock {s : State} {i : Instr} {p u : Bool} {base v : Word} {list : BitVec 16} {value : RegNum → Word}
    {rn : RegNum} (hm : s.MemoryInv) (hrn : rn ≠ 15#4) (hz : NoBlockHazard p u base list s)
    (hexec : exec i s =
      andThen (storeWords (wordsInOrder p u base list value) s) fun t => .next (t.setX rn v).advance) :
    Runs i s fun t => t.x rn = v ∧ WordsStored (destOf s rn) p u base list value s t := by
  have hsafe : ∀ e ∈ wordsInOrder p u base list value, storeHazard s .word e.1 = false := by
    intro e he
    obtain ⟨j, hj, rfl⟩ := mem_wordsInOrder.mp he
    exact hz _ (lowerCount_lt j.isLt hj)
  obtain ⟨t, hstore, hcpu, -, hblock, hbytes⟩ := storeWords_spec _ s hm hsafe
  rw [hstore, andThen_next] at hexec
  obtain ⟨hvalue, hpc, hframe⟩ := writes_setX (s := t) hrn v
  rw [destOf_of_cpsr hcpu.cpsr] at hframe
  refine ⟨_, hexec, hvalue, fun j hj hp k hk => ?words, ?pc, (State.setX_cpsr ..).trans hcpu.cpsr,
    fun r hr => (hframe.regs r hr).trans (State.reg_of_regs hcpu.regs r), hcpu.core.trans hframe.core,
    hblock.then hframe.busAs⟩
  case words =>
    exact (hframe.reads _).trans
      (hbytes (nodup_wordsInOrder ..) _ (mem_wordsInOrder.mpr ⟨j, hj, rfl⟩) hp k hk)
  case pc => exact hpc.trans (by rw [hcpu.pc, isize_of_cpsr hcpu.cpsr])

theorem exec_thumbPush {r : Bool} {list : BitVec 8} {s : State} {push : BitVec 16} {start : Word}
    (hpush : push = pushList list r 14) (hne : push ≠ 0#16)
    (hstart : start = s.x 13#4 - BitVec.ofNat 32 (4 * lowerCount push 16)) :
    exec (.thumbPush r list) s = andThen (storeWords (wordsInOrder false true start push (s.xIn s.cpsr.mode)) s)
      fun t => .next (t.setX 13#4 start).advance := by
  have hregs : pushRegs list r 14#4 = listRegs push := hpush ▸ (pushRegs_eq list r).1
  rw [← length_listRegs] at hstart
  simp only [exec, execThumbPush, hregs, isEmpty_listRegs hne, unlessUnpredictable_false]
  rw [← hstart, ← pushWords_eq]
  rfl

theorem exec_thumbStmia {rb : LowReg} {list : BitVec 8} {s : State} {low : BitVec 16} {b wb : Word}
    (hlow : low = list.setWidth 16) (hne : list ≠ 0#8) (hb : b = s.x (lowReg rb))
    (hwb : wb = blockBase true b (lowerCount low 16)) : exec (.thumbStmia rb list) s =
      andThen (storeWords (wordsInOrder false true b low (blockValue s s.cpsr.mode (lowReg rb) true low wb)) s)
        fun t => .next (t.setX (lowReg rb) wb).advance := by
  have hregs : lowListRegs list = listRegs low := hlow ▸ rfl
  have hback : b + BitVec.ofNat 32 (4 * (listRegs low).length) = wb := by rw [hwb, length_listRegs]; rfl
  simp only [exec, execThumbStmia, hregs, isEmpty_listRegs (hlow ▸ setWidth_ne_zero hne), unlessUnpredictable_false,
    ← hb, hback]
  rw [← blockWords_eq]
  rfl

/-! ### POP and LDMIA (45_thumb R732, R735) -/

section
variable {m : Mode} {p u w : Bool} {rn : RegNum} {list : BitVec 16} {s t : State} (h : BlockLoaded m p u w rn list s t)
include h

theorem BlockLoaded.advance_eq : t.advance = t.setPc (s.pc + s.isize) := by
  rw [State.advance, h.pc, isize_of_cpsr h.cpsr]

theorem BlockLoaded.x_setPc (hw : w = true) (hrn : rn ≠ 15#4) (v : Word) :
    (t.setPc v).x rn = blockBase u (s.x rn) (lowerCount list 16) := by
  rw [State.x_setPc _ hrn, State.x_of_cpsr h.cpsr, h.base hw]

theorem BlockLoaded.frame_setPc (v : Word) : RegisterFrame (listedBy m list ++ destOf s rn) s (t.setPc v) := by
  refine (h.frame.trans (registerFrame_setPc t v)).mono ?_
  rw [List.append_nil]
  refine List.append_subset.mpr ⟨List.subset_append_left .., ?_⟩
  split
  · exact List.subset_append_right ..
  · exact List.nil_subset _

end

/-- POP is the loads of its list and the raise of SP, then the branch to PC's word or the advance. -/
theorem exec_thumbPop {r : Bool} {list : BitVec 8} {s : State} {pop : BitVec 16} (hpop : pop = pushList list r 15)
    (hne : pop ≠ 0#16) : ∃ t, BlockLoaded s.cpsr.mode false true true 13#4 pop s t ∧
      exec (.thumbPop r list) s = .next (t.setPc (if r
        then alignHalf (blockLoad s.cpsr.mode false true (s.x 13#4) pop s).2 else s.pc + s.isize)) := by
  have hregs : pushRegs list r 15#4 = listRegs pop := hpop ▸ (pushRegs_eq list r).2
  have hsp : pop.getLsbD 13 = false := by rw [hpop, getLsbD_pushList _ _ _ (by decide)]; simp
  have hloaded := blockLoaded_blockLoad (m := s.cpsr.mode) (s := s) (list := pop) (rn := 13#4) false true (w := true)
    (by decide) fun _ => ⟨hsp, rfl⟩
  refine ⟨_, hloaded, ?_⟩
  simp only [exec, execThumbPop, hregs, isEmpty_listRegs hne, unlessUnpredictable_false]
  cases r with
  | true => rfl
  | false => exact congrArg Host.Outcome.next hloaded.advance_eq

/-- LDMIA is the loads of its list, and the raise of a base that is not in it, then the advance. -/
theorem exec_thumbLdmia {rb : LowReg} {list : BitVec 8} {s : State} {low : BitVec 16} (hlow : low = list.setWidth 16)
    (hne : list ≠ 0#8) : ∃ t, BlockLoaded s.cpsr.mode false true (!list.getLsbD rb.toNat) (lowReg rb) low s t ∧
      exec (.thumbLdmia rb list) s = .next (t.setPc (s.pc + s.isize)) := by
  subst hlow
  have hregs : lowListRegs list = listRegs (list.setWidth 16) := rfl
  have hloaded := blockLoaded_blockLoad (m := s.cpsr.mode) (s := s) (list := list.setWidth 16) false true
    (w := !list.getLsbD rb.toNat) (lowReg_ne_r15 rb) fun h => ⟨(getLsbD_lowReg list rb).trans (by simpa using h), rfl⟩
  refine ⟨_, hloaded, ?_⟩
  rw [← hloaded.advance_eq]
  simp only [exec, execThumbLdmia, hregs, isEmpty_listRegs (setWidth_ne_zero hne), unlessUnpredictable_false]
  cases list.getLsbD rb.toNat <;> rfl

/-- Settles O48: the stores are the bus writes of their words and then the base, the loads those of their lists. -/
theorem thumbBlockTransfers : Obligations.ThumbBlockTransfers := by
  rintro s r rb list _ start _ low push pop n _ rfl rfl rfl hlow hpush hpop rfl hstart
  have hrb := lowReg_ne_r15 rb
  refine ⟨fun hm hne hz => runs_storeBlock hm (by decide) hz (exec_thumbPush hpush hne hstart), fun hne => ?pop,
    fun hm hne hz => runs_storeBlock hm hrb hz (exec_thumbStmia hlow hne rfl rfl), fun hne => ?ldmia⟩
  case pop =>
    obtain ⟨t, hloaded, hexec⟩ := exec_thumbPop (s := s) hpop hne
    obtain ⟨-, -, -, -, hword⟩ := blockLoad_spec s.cpsr.mode false true (s.x 13#4) pop s
    have hpc : pop.getLsbD 15 = r := by rw [hpop, getLsbD_pushList _ _ _ (by decide)]; simp
    have hlisted : listedBy s.cpsr.mode pop = listedBy s.cpsr.mode low := by rw [hpop, listedBy_pop, hlow]
    rw [← hlisted]
    exact ⟨_, hexec, hloaded.words.of_regs rfl, hloaded.x_setPc rfl (by decide) _, hloaded.cpsr,
      fun h => if_neg (Bool.eq_false_iff.mp h),
      fun h v hv => (if_pos h).trans (congrArg alignHalf (hword (hpc.trans h) v hv)), hloaded.frame_setPc _⟩
  case ldmia =>
    obtain ⟨t, hloaded, hexec⟩ := exec_thumbLdmia (s := s) (rb := rb) hlow hne
    exact ⟨_, hexec, hloaded.words.of_regs rfl, fun h => hloaded.x_setPc (by rw [h]; rfl) hrb _, rfl, hloaded.cpsr,
      hloaded.frame_setPc _⟩

end Sys2Proof.Machine
end

section
/-! PROOFS. The emulated BIOS calls: how a selected call runs, and the scratch registers it draws (46_bios_hle R750, R751,
R753). -/

namespace Sys2Proof.Machine

/-- The registers an emulated call may change: R0 to R3 and R12 of the current view (46_bios_hle R753). -/
def hleScratch (s : State) : List PReg := [.r0, .r1, .r2, .r3] ++ destOf s 12#4

section
variable {s : State} {i : Instr} {n : Byte} {f : Config.HleFn}

theorem hleSelect_of_mem (hfn : hleFunction n = some f) (hmem : f ∈ s.params.hleSwiSet) : hleSelect s n = some f := by
  simp only [hleSelect, hfn, if_pos hmem]

/-- A call of a selected function runs it. -/
theorem SwiCall.exec_hleCall (h : SwiCall i n s) (hhle : s.params.swiHandling = .hle) (hfn : hleFunction n = some f)
    (hmem : f ∈ s.params.hleSwiSet) : exec i s = hleCall f s := by
  rw [h.exec_eq, softwareInterrupt, hhle]
  simp only [hleSelect_of_mem hfn hmem]

/-- A function that goes on, with the advance behind it. -/
theorem SwiCall.exec_next {u : State} (h : SwiCall i n s) (hhle : s.params.swiHandling = .hle)
    (hfn : hleFunction n = some f) (hmem : f ∈ s.params.hleSwiSet) (hf : f ≠ .softReset) (hrun : hleRun f s = .next u) :
    exec i s = .next u.advance := by
  rw [h.exec_hleCall hhle hfn hmem, hleCall, hrun, andThen_next, if_neg hf]

end

/-! ### The scratch registers -/

theorem append_destOf_subset {A B : List PReg} (h : A ⊆ B) (s : State) :
    A ++ destOf s 12#4 ⊆ B ++ destOf s 12#4 :=
  List.append_subset.mpr ⟨List.subset_append_of_subset_left _ h, List.subset_append_right ..⟩

@[simp] theorem drawX_cpsr (i : RegNum) (s : State) : (drawX i s).cpsr = s.cpsr := s.setX_cpsr i s.drawn

@[simp] theorem drawX_pc (i : RegNum) (s : State) : (drawX i s).pc = s.pc := s.setX_pc i s.drawn

theorem registerFrame_drawX (i : RegNum) (s : State) : RegisterFrame (destOf s i) s (drawX i s) := by
  have h := (registerFrame_setX s i s.drawn).trans (registerFrame_bump _)
  rwa [List.append_nil] at h

theorem x_drawX_ne {i j : RegNum} (hj : j ≠ 15#4) (h : j ≠ i) (s : State) : (drawX i s).x j = s.x j :=
  (State.x_bump _ hj).trans (s.x_setX_ne hj h s.drawn)

theorem drawXs_cons (i : RegNum) (l : List RegNum) (s : State) : drawXs (i :: l) s = drawXs l (drawX i s) := rfl

@[simp] theorem drawXs_cpsr (l : List RegNum) (s : State) : (drawXs l s).cpsr = s.cpsr := by
  induction l generalizing s with
  | nil => rfl
  | cons i l ih => rw [drawXs_cons, ih, drawX_cpsr]

@[simp] theorem drawXs_pc (l : List RegNum) (s : State) : (drawXs l s).pc = s.pc := by
  induction l generalizing s with
  | nil => rfl
  | cons i l ih => rw [drawXs_cons, ih, drawX_pc]

theorem registerFrame_drawXs (l : List RegNum) (s : State) :
    RegisterFrame (l.flatMap (destOf s)) s (drawXs l s) := by
  induction l generalizing s with
  | nil => exact .refl s
  | cons i l ih =>
    have hdest : destOf (drawX i s) = destOf s := funext (destOf_of_cpsr (drawX_cpsr i s))
    have hrest := ih (drawX i s)
    rw [hdest] at hrest
    exact (registerFrame_drawX i s).trans hrest

theorem x_drawXs_of_notMem {l : List RegNum} {j : RegNum} (hj : j ≠ 15#4) (h : j ∉ l) (s : State) :
    (drawXs l s).x j = s.x j := by
  induction l generalizing s with
  | nil => rfl
  | cons i l ih =>
    rw [List.mem_cons, not_or] at h
    rw [drawXs_cons, ih h.2, x_drawX_ne hj h.1]

section
variable {s u : State} {A : List PReg}

/-- The end of a call whose work left the bus alone: the scratch registers are drawn, the results stay. -/
theorem hleReturns_drawXs {l : List RegNum} {results : List (RegNum × Word)} (hu : RegisterFrame A s u)
    (hcpsr : u.cpsr = s.cpsr) (hpc : u.pc = s.pc) (hscratch : A ++ l.flatMap (destOf s) ⊆ hleScratch s)
    (hresults : ∀ e ∈ results, e.1 ≠ 15#4 ∧ e.1 ∉ l ∧ u.x e.1 = e.2) :
    HleReturns results s (drawXs l u).advance where
  results e he := by
    obtain ⟨h15, hl, hx⟩ := hresults e he
    rw [State.x_advance _ h15, x_drawXs_of_notMem h15 hl, hx]
  pc := by rw [Advanced, State.advance_pc, drawXs_pc, hpc, isize_of_cpsr ((drawXs_cpsr l u).trans hcpsr)]
  cpsr := by rw [State.advance_cpsr, drawXs_cpsr, hcpsr]
  frame := by
    have hdest : destOf u = destOf s := funext (destOf_of_cpsr hcpsr)
    have hdraws := registerFrame_drawXs l u
    rw [hdest] at hdraws
    refine ((hu.trans hdraws).trans (registerFrame_advance _)).mono ?_
    rw [List.append_nil]
    exact hscratch

/-- The end of a call whose work was a list of bus writes: the scratch registers are drawn. -/
theorem hleStores_drawXs {l : List RegNum} {writes : List (Width × Word × Word)} (hu : Wrote writes s u)
    (hscratch : l.flatMap (destOf s) ⊆ A ++ destOf s 12#4) : HleStores A writes s (drawXs l u).advance := by
  have hdest : destOf u = destOf s := funext (destOf_of_cpsr hu.cpsr)
  have hframe := (registerFrame_drawXs l u).trans (registerFrame_advance _)
  rw [hdest, List.append_nil] at hframe
  refine ⟨?pc, ?cpsr, fun r hr => ?regs, hu.core.trans hframe.core, hu.bus.busAs.trans hframe.busAs⟩
  case pc => rw [Advanced, State.advance_pc, drawXs_pc, hu.pc, isize_of_cpsr ((drawXs_cpsr l u).trans hu.cpsr)]
  case cpsr => rw [State.advance_cpsr, drawXs_cpsr, hu.cpsr]
  case regs => exact (hframe.regs r fun h => hr (hscratch h)).trans (State.reg_of_regs hu.regs r)

end

end Sys2Proof.Machine
end

section
/-! PROOFS. The arithmetic functions of the emulated BIOS layer (46_bios_hle R755-R761, R764, R768). -/

namespace Sys2Proof.Machine

/-! ### Calls with results in registers -/

/-- A function that answers in R0 alone. -/
theorem hleReturns_r0 (v : Word) (s : State) :
    HleReturns [(0#4, v)] s (drawXs [1#4, 2#4, 3#4, 12#4] (s.setX 0#4 v)).advance := by
  refine hleReturns_drawXs (registerFrame_setX s 0#4 v) (s.setX_cpsr ..) (s.setX_pc ..) (fun r hr => hr) ?_
  simp only [List.forall_mem_singleton]
  exact ⟨by decide, by decide, s.x_setX_same (by decide) v⟩

/-- The result in R0, apart from the rest. -/
theorem HleReturns.r0 {s t : State} {v : Word} (h : HleReturns [(0#4, v)] s t) : HleReturns [] s t ∧ t.x 0#4 = v :=
  ⟨⟨List.forall_mem_nil _, h.pc, h.cpsr, h.frame⟩, h.results _ List.mem_cons_self⟩

/-! ### Division (46_bios_hle R755-R758) -/

theorem hleReturns_hleDiv (num den : Word) (s : State) :
    HleReturns [(0#4, (divResult s.params num den).1), (1#4, (divResult s.params num den).2.1),
      (3#4, (divResult s.params num den).2.2)] s (hleDiv num den s).advance := by
  unfold hleDiv
  generalize divResult s.params num den = r
  have hframe := ((registerFrame_setX s 0#4 r.1).trans (registerFrame_setX _ 1#4 r.2.1)).trans
    (registerFrame_setX _ 3#4 r.2.2)
  refine hleReturns_drawXs hframe (by simp) (by simp) ?scratch ?results
  case scratch =>
    rw [destOf_of_cpsr (s := s) (by simp), destOf_of_cpsr (s := s) (by simp)]
    show [PReg.r0, .r1, .r3, .r2] ++ destOf s 12#4 ⊆ [.r0, .r1, .r2, .r3] ++ destOf s 12#4
    exact append_destOf_subset (by decide) s
  case results =>
    simp only [List.forall_mem_cons]
    refine ⟨⟨by decide, by decide, ?r0⟩, ⟨by decide, by decide, ?r1⟩, ⟨by decide, by decide, ?r3⟩, List.forall_mem_nil _⟩
    case r0 => rw [State.x_setX_ne _ (by decide) (by decide), State.x_setX_ne _ (by decide) (by decide),
      State.x_setX_same _ (by decide)]
    case r1 => rw [State.x_setX_ne _ (by decide) (by decide), State.x_setX_same _ (by decide)]
    case r3 => rw [State.x_setX_same _ (by decide)]

theorem runs_hleDiv {s : State} {i : Instr} {num den q m a : Word} (hexec : exec i s = .next (hleDiv num den s).advance)
    (h : divResult s.params num den = (q, m, a)) : Runs i s (HleReturns [(0#4, q), (1#4, m), (3#4, a)] s) := by
  have hreturns := hleReturns_hleDiv num den s
  rw [h] at hreturns
  exact ⟨_, hexec, hreturns⟩

theorem divResult_zero (p : Config.Params) (num : Word) :
    divResult p num 0#32 = (if num.toInt < 0 then 0xFFFFFFFF#32 else 1#32, num, 1#32) := if_pos rfl

theorem divResult_overflow (p : Config.Params) :
    divResult p 0x80000000#32 0xFFFFFFFF#32 = p.divOverflowResult := by
  rw [divResult, if_neg (by decide), if_pos ⟨rfl, rfl⟩]

/-- The plain case, in terms of the signed values. -/
theorem divResult_tdiv (p : Config.Params) {num den : Word} (hden : den.toInt ≠ 0)
    (hover : ¬(num.toInt = -2147483648 ∧ den.toInt = -1)) :
    divResult p num den = (BitVec.ofInt 32 (num.toInt.tdiv den.toInt),
      BitVec.ofInt 32 (num.toInt - num.toInt.tdiv den.toInt * den.toInt),
      BitVec.ofNat 32 (num.toInt.tdiv den.toInt).natAbs) := by
  have hzero : den ≠ 0#32 := by rintro rfl; exact hden rfl
  have hedge : ¬(num = 0x80000000#32 ∧ den = 0xFFFFFFFF#32) := by rintro ⟨rfl, rfl⟩; exact hover ⟨rfl, rfl⟩
  rw [divResult, if_neg hzero, if_neg hedge]

/-! ### Searches for the largest value, bit by bit (46_bios_hle R759, R768) -/

/-- A search from `2 ^ (n - 1)` down that keeps each bit with which `P` holds ends at a value where `P` turns false. -/
theorem bitSearch_spec {P : Nat → Prop} [DecidablePred P] {f : Nat → Nat → Nat} (hzero : ∀ r, f 0 r = r)
    (hsucc : ∀ n r, f (n + 1) r = f n (if P (r + 2 ^ n) then r + 2 ^ n else r)) (n r : Nat) (hr : P r)
    (hn : ¬P (r + 2 ^ n)) : P (f n r) ∧ ¬P (f n r + 1) := by
  induction n generalizing r with
  | zero => rw [hzero]; exact ⟨hr, hn⟩
  | succ n ih =>
    rw [hsucc]
    by_cases hbit : P (r + 2 ^ n)
    · rw [if_pos hbit]
      refine ih _ hbit ?_
      rwa [Nat.add_assoc, ← Nat.two_mul, ← Nat.pow_succ']
    · rw [if_neg hbit]
      exact ih _ hr hbit

theorem sqrtWord_spec (v : Word) : (sqrtWord v).toNat ^ 2 ≤ v.toNat ∧ v.toNat < ((sqrtWord v).toNat + 1) ^ 2 := by
  have hv := v.isLt
  obtain ⟨hle, hlt⟩ := bitSearch_spec (P := fun r => r * r ≤ v.toNat) (f := sqrtBits v.toNat) (fun _ => rfl)
    (fun _ _ => rfl) 16 0 (Nat.zero_le _) (by omega)
  have hsmall : sqrtBits v.toNat 16 0 < 2 ^ 32 :=
    Nat.lt_of_le_of_lt (Nat.le_mul_self _) (Nat.lt_of_le_of_lt hle hv)
  rw [sqrtWord, BitVec.toNat_ofNat, Nat.mod_eq_of_lt hsmall, Nat.pow_two, Nat.pow_two]
  exact ⟨hle, Nat.lt_of_not_le hlt⟩

/-! ### Frequencies (46_bios_hle R768) -/

/-- The search for a frequency below the bound `2 ^ n` finds its floor. -/
theorem midiBits_spec {f up down e n : Nat} (he : e = 3072) (h : f ^ e * 2 ^ up < (2 ^ n) ^ e * 2 ^ down) :
    midiBits f up down n 0 ^ e * 2 ^ down ≤ f ^ e * 2 ^ up ∧
      f ^ e * 2 ^ up < (midiBits f up down n 0 + 1) ^ e * 2 ^ down := by
  obtain ⟨hle, hlt⟩ := bitSearch_spec (P := fun r => r ^ e * 2 ^ down ≤ f ^ e * 2 ^ up) (f := midiBits f up down)
    (fun _ => rfl) (fun _ _ => by subst he; rfl) n 0 (by rw [Nat.zero_pow (by omega), Nat.zero_mul]; exact Nat.zero_le _)
    (by rw [Nat.zero_add]; exact Nat.not_le_of_lt h)
  exact ⟨hle, Nat.lt_of_not_le hlt⟩

/-- A frequency below 2^32 is one of a key less than 32 octaves up. -/
theorem midiKey_lt {f e d : Nat} (hf : f ≠ 0) (h : f ^ e * 2 ^ (d - 46080) < (2 ^ 32) ^ e * 2 ^ (46080 - d)) :
    d < 46080 + 32 * e := by
  by_contra hge
  have hup : (2 ^ 32) ^ e ≤ 2 ^ (d - 46080) := by
    rw [← Nat.pow_mul]
    exact Nat.pow_le_pow_right (by omega) (by omega)
  have hscaled : 2 ^ (d - 46080) ≤ f ^ e * 2 ^ (d - 46080) := Nat.le_mul_of_pos_left _ (Nat.pow_pos (by omega))
  rw [show 46080 - d = 0 by omega, Nat.pow_zero, Nat.mul_one] at h
  omega

/-- Where the frequency is below 2^32, the default function is its floor. -/
theorem midiFreqDefault_spec {f : Word} {mk fp e d : Nat} (he : e = 3072) (hd : d = 256 * mk + fp)
    (h : f.toNat ^ e * 2 ^ (d - 46080) < (2 ^ 32) ^ e * 2 ^ (46080 - d)) : ∃ r : Word,
      midiFreqDefault f mk fp = some r ∧ r.toNat ^ e * 2 ^ (46080 - d) ≤ f.toNat ^ e * 2 ^ (d - 46080) ∧
      f.toNat ^ e * 2 ^ (d - 46080) < (r.toNat + 1) ^ e * 2 ^ (46080 - d) := by
  rw [midiFreqDefault, ← hd]
  by_cases hf : f = 0#32
  · subst hf
    refine ⟨0#32, if_pos rfl, ?_⟩
    simp [Nat.zero_pow (show 0 < e by omega)]
  · have hkey := midiKey_lt (fun h0 => hf (BitVec.eq_of_toNat_eq h0)) h
    have hbound : f.toNat ^ e * 2 ^ (d - 46080) < (2 ^ 33) ^ e * 2 ^ (46080 - d) :=
      h.trans_le (Nat.mul_le_mul_right _ (Nat.pow_le_pow_left (by omega) e))
    obtain ⟨hle, hlt⟩ := midiBits_spec he hbound
    rw [if_neg hf, if_neg (by omega)]
    dsimp only
    generalize midiBits f.toNat (d - 46080) (46080 - d) 33 0 = r at hle hlt ⊢
    have hr : r < 2 ^ 32 := lt_of_pow_lt_pow_left₀ e (Nat.zero_le _)
      (Nat.lt_of_mul_lt_mul_right (hle.trans_lt h))
    refine ⟨BitVec.ofNat 32 r, if_neg (by omega), ?_⟩
    rw [BitVec.toNat_ofNat, Nat.mod_eq_of_lt hr]
    exact ⟨hle, hlt⟩

theorem hleReturns_hleMidiKey2Freq (s : State) : HleReturns
    [(0#4, midiFreq s.bump (busRead s .word (s.x 0#4 + 4#32)) (s.x 1#4).toNat (s.x 2#4).toNat)] s
    (hleMidiKey2Freq s).advance := by
  generalize hv : midiFreq s.bump _ _ _ = v
  have hrun : hleMidiKey2Freq s = drawXs [1#4, 3#4, 12#4] (s.bump.setX 0#4 v).bump := by rw [← hv]; rfl
  rw [hrun]
  have hframe := ((registerFrame_bump s).trans (registerFrame_setX _ 0#4 v)).trans (registerFrame_bump _)
  refine hleReturns_drawXs hframe (s.bump.setX_cpsr ..) (s.bump.setX_pc ..) ?scratch ?results
  case scratch =>
    show [PReg.r0, .r1, .r3] ++ destOf s 12#4 ⊆ [.r0, .r1, .r2, .r3] ++ destOf s 12#4
    exact append_destOf_subset (by decide) s
  case results =>
    simp only [List.forall_mem_singleton]
    exact ⟨by decide, by decide, (State.x_bump _ (by decide)).trans (State.x_setX_same _ (by decide) v)⟩

/-- Settles O37: the results are the exact quotient, the ends of the two searches, and the parameter. -/
theorem hleArithmetic : Obligations.HleArithmetic := by
  intro s i n hcall hhle
  have hexec := fun f (hfn : hleFunction n = some f) hmem (hf : f ≠ .softReset) u (hrun : hleRun f s = .next u) =>
    hcall.exec_next hhle hfn hmem hf hrun
  refine ⟨?div, ?divArm, ?sqrt, ?checksum, ?midi⟩
  case div =>
    rintro rfl hmem hden hover
    exact runs_hleDiv (hexec .div rfl hmem (by decide) _ rfl) (divResult_tdiv _ hden hover)
  case divArm =>
    rintro rfl hmem hden hover
    exact runs_hleDiv (hexec .divArm rfl hmem (by decide) _ rfl) (divResult_tdiv _ hden hover)
  case sqrt =>
    rintro rfl hmem
    obtain ⟨hreturns, hx⟩ := (hleReturns_r0 (sqrtWord (s.x 0#4)) s).r0
    exact ⟨_, hexec .sqrt rfl hmem (by decide) _ rfl, hreturns, by rw [hx]; exact sqrtWord_spec _⟩
  case checksum =>
    rintro rfl hmem
    exact ⟨_, hexec .getBiosChecksum rfl hmem (by decide) _ rfl, hleReturns_r0 _ s⟩
  case midi =>
    intro hn hmem hstandard f e d hread he hd scaled power hbelow
    subst hn
    obtain ⟨r, hr, hfloor⟩ := midiFreqDefault_spec he hd hbelow
    have hv : midiFreq s.bump (busRead s .word (s.x 0#4 + 4#32)) (s.x 1#4).toNat (s.x 2#4).toNat = r := by
      have hstd : s.bump.params.midiFreqFn = .standard := hstandard
      rw [midiFreq, hstd, hread.busRead (.refl s)]
      simp only [hr, Option.getD_some]
    have hreturns := hleReturns_hleMidiKey2Freq s
    rw [hv] at hreturns
    obtain ⟨hreturns, hx⟩ := hreturns.r0
    exact ⟨_, hexec .midiKey2Freq rfl hmem (by decide) _ rfl, hreturns, by rw [hx]; exact hfloor⟩

/-! ### The arctangents (46_bios_hle R760, R761) -/

theorem ofInt_toInt_half (w : Word) : BitVec.ofInt 16 w.toInt = w.setWidth 16 := by
  apply BitVec.eq_of_toInt_eq
  rw [BitVec.toInt_ofInt, BitVec.toInt_setWidth, BitVec.toInt_eq_toNat_bmod, Int.bmod_bmod_of_dvd (by decide)]

/-- A product of signed values that fits a word, shifted right, is the floor of the quotient. -/
theorem toInt_mul_sshiftRight {a b : Word} (h : |a.toInt * b.toInt| < 2 ^ 31) (n : Nat) :
    ((a * b).sshiftRight n).toInt = a.toInt * b.toInt / 2 ^ n := by
  rw [abs_lt] at h
  rw [BitVec.toInt_sshiftRight, BitVec.toInt_mul, Int.shiftRight_eq_div_pow,
    Int.bmod_eq_of_le (by omega) (by omega), Int.natCast_pow]
  rfl

theorem toInt_add_of_bounds {a b : Word} (h : -2 ^ 31 ≤ a.toInt + b.toInt) (h' : a.toInt + b.toInt < 2 ^ 31) :
    (a + b).toInt = a.toInt + b.toInt := by
  rw [BitVec.toInt_add, Int.bmod_eq_of_le (by omega) (by omega)]

section
variable {a : Word} (hlow : -16384 ≤ a.toInt) (hhigh : a.toInt ≤ 0)
include hlow hhigh

/-- One term of the polynomial, on a coefficient that is at least the value so far. -/
theorem toInt_arcTanTerm {b c : Word} (hb : 0 ≤ b.toInt) (hbc : b.toInt ≤ c.toInt) (hc : c.toInt ≤ 65535) :
    (arcTanTerm a b c).toInt = b.toInt * a.toInt / 16384 + c.toInt ∧ 0 ≤ (arcTanTerm a b c).toInt ∧
      (arcTanTerm a b c).toInt ≤ c.toInt := by
  have hmin : -16384 * b.toInt ≤ b.toInt * a.toInt := by nlinarith
  have hmax : b.toInt * a.toInt ≤ 0 := mul_nonpos_of_nonneg_of_nonpos hb hhigh
  have hterm := toInt_mul_sshiftRight (a := b) (b := a) (abs_lt.mpr ⟨by omega, by omega⟩) 14
  have hsum : (arcTanTerm a b c).toInt = b.toInt * a.toInt / 16384 + c.toInt := by
    rw [arcTanTerm, toInt_add_of_bounds (by rw [hterm]; omega) (by rw [hterm]; omega), hterm]
    rfl
  exact ⟨hsum, by omega, by omega⟩

/-- The whole polynomial, on rising coefficients. -/
theorem toInt_foldl_arcTanTerm (l : List Word) (b : Word) (hb : 0 ≤ b.toInt)
    (hrise : (b :: l).Pairwise fun c d => c.toInt ≤ d.toInt) (hl : ∀ c ∈ b :: l, c.toInt ≤ 65535) :
    (l.foldl (arcTanTerm a) b).toInt = (l.map BitVec.toInt).foldl (fun b c => b * a.toInt / 16384 + c) b.toInt ∧
      0 ≤ (l.foldl (arcTanTerm a) b).toInt ∧ (l.foldl (arcTanTerm a) b).toInt ≤ 65535 := by
  induction l generalizing b with
  | nil => exact ⟨rfl, hb, hl b List.mem_cons_self⟩
  | cons c l ih =>
    obtain ⟨hbl, hcl⟩ := List.pairwise_cons.mp hrise
    have hcl' := List.pairwise_cons.mp hcl
    obtain ⟨hval, h0, hle⟩ := toInt_arcTanTerm hlow hhigh hb (hbl c List.mem_cons_self)
      (hl c (by simp))
    rw [List.map_cons, List.foldl_cons, List.foldl_cons, ← hval]
    refine ih _ h0 (List.pairwise_cons.mpr ⟨fun d hd => hle.trans (hcl'.1 d hd), hcl'.2⟩) fun d hd => ?_
    rcases List.mem_cons.mp hd with rfl | hd
    · exact hle.trans (hl c (by simp))
    · exact hl d (by simp [hd])

end

/-- The polynomial's coefficients behind the first (46_bios_hle R760). -/
def arcTanCoefficients : List Word :=
  [0x390#32, 0x91C#32, 0xFB6#32, 0x16AA#32, 0x2081#32, 0x3651#32, 0xA2F9#32]

theorem arcTanDefault_eq_foldl (i : Word) : arcTanDefault i =
    (((i * arcTanCoefficients.foldl (arcTanTerm (0#32 - (i * i).sshiftRight 14)) 0xA9#32).sshiftRight 16).setWidth
      16).setWidth 32 := rfl

/-- For a tangent from -1 to 1 the word arithmetic does not wrap. -/
theorem arcTanDefault_eq {i : Word} {v : Int} (hv : v = i.toInt) (hlow : -16384 ≤ v) (hhigh : v ≤ 16384) :
    arcTanDefault i = (BitVec.ofInt 16 (v * [0x390, 0x91C, 0xFB6, 0x16AA, 0x2081, 0x3651, 0xA2F9].foldl
      (fun b c => b * -(v * v / 16384) / 16384 + c) (0xA9 : Int) / 65536)).setWidth 32 := by
  subst hv
  have hsq0 : 0 ≤ i.toInt * i.toInt := mul_self_nonneg _
  have hsq1 : i.toInt * i.toInt ≤ 16384 * 16384 := by nlinarith
  have hsquare := toInt_mul_sshiftRight (a := i) (b := i) (abs_lt.mpr ⟨by omega, by omega⟩) 14
  have ha : (0#32 - (i * i).sshiftRight 14).toInt = -(i.toInt * i.toInt / 16384) := by
    rw [BitVec.zero_sub, BitVec.toInt_neg, hsquare, Int.bmod_eq_of_le (by omega) (by omega)]
    rfl
  obtain ⟨hpoly, h0, h1⟩ := toInt_foldl_arcTanTerm (a := 0#32 - (i * i).sshiftRight 14) (by omega) (by omega)
    arcTanCoefficients 0xA9#32 (by decide) (by simp [arcTanCoefficients]) (by simp [arcTanCoefficients])
  rw [ha] at hpoly
  have hmap : arcTanCoefficients.map BitVec.toInt = [0x390, 0x91C, 0xFB6, 0x16AA, 0x2081, 0x3651, 0xA2F9] := by decide
  rw [hmap, show (0xA9#32).toInt = 0xA9 from rfl] at hpoly
  rw [arcTanDefault_eq_foldl, ← hpoly]
  generalize arcTanCoefficients.foldl _ _ = p at h0 h1 ⊢
  have hbound : |i.toInt * p.toInt| < 2 ^ 31 := by
    have hi : |i.toInt| ≤ 16384 := abs_le.mpr ⟨hlow, hhigh⟩
    have hp : |p.toInt| ≤ 65535 := abs_le.mpr ⟨by omega, h1⟩
    have hmul := mul_le_mul hi hp (abs_nonneg _) (by decide)
    rw [abs_mul]
    omega
  rw [← ofInt_toInt_half, toInt_mul_sshiftRight hbound]
  rfl

theorem arcTan2_axis_x {p : Config.Params} (hp : p.arcTan2Fn = .standard) {r0 r1 : Word}
    (hy : (r1.setWidth 16).toInt = 0) :
    arcTan2 p r0 r1 = if 0 ≤ (r0.setWidth 16).toInt then 0#32 else 0x8000#32 := by
  simp only [arcTan2, hp, arcTan2Default, hy, if_true]
  split <;> rfl

theorem arcTan2_axis_y {p : Config.Params} (hp : p.arcTan2Fn = .standard) {r0 r1 : Word}
    (hx : (r0.setWidth 16).toInt = 0) (hy : (r1.setWidth 16).toInt ≠ 0) :
    arcTan2 p r0 r1 = if 0 ≤ (r1.setWidth 16).toInt then 0x4000#32 else 0xC000#32 := by
  simp only [arcTan2, hp, arcTan2Default, hx, if_neg hy, if_true]
  split <;> rfl

/-- Settles O38: the division corners by the branches of `divResult`, the arctangents without wrapping. -/
theorem hleCorners : Obligations.HleCorners := by
  intro s i n hcall hhle
  have hexec := fun f (hfn : hleFunction n = some f) hmem (hf : f ≠ .softReset) u (hrun : hleRun f s = .next u) =>
    hcall.exec_next hhle hfn hmem hf hrun
  refine ⟨?div, ?divArm, ?arcTan, ?arcTan2⟩
  case div =>
    rintro rfl hmem
    have hdiv := hexec .div rfl hmem (by decide) _ rfl
    refine ⟨fun hden => ?_, fun hnum hden => ?_⟩
    · rw [hden] at hdiv
      exact runs_hleDiv hdiv (divResult_zero ..)
    · rw [hnum, hden] at hdiv
      exact runs_hleDiv hdiv (divResult_overflow _)
  case divArm =>
    rintro rfl hmem
    have hdiv := hexec .divArm rfl hmem (by decide) _ rfl
    refine ⟨fun hden => ?_, fun hnum hden => ?_⟩
    · rw [hden] at hdiv
      exact runs_hleDiv hdiv (divResult_zero ..)
    · rw [hnum, hden] at hdiv
      exact runs_hleDiv hdiv (divResult_overflow _)
  case arcTan =>
    intro hn hmem hstandard hlow hhigh v a b
    subst hn
    have hv : arcTan s.params (s.x 0#4) = (BitVec.ofInt 16 (v * b / 65536)).setWidth 32 := by
      rw [arcTan, hstandard]
      exact arcTanDefault_eq rfl hlow hhigh
    exact ⟨_, hexec .arcTan rfl hmem (by decide) _ rfl, hv ▸ hleReturns_r0 _ s⟩
  case arcTan2 =>
    intro hn hmem hstandard x y
    subst hn
    have hrun := hexec .arcTan2 rfl hmem (by decide) _ rfl
    exact ⟨fun hy => ⟨_, hrun, arcTan2_axis_x hstandard hy ▸ hleReturns_r0 _ s⟩,
      fun hx hy => ⟨_, hrun, arcTan2_axis_y hstandard hx hy ▸ hleReturns_r0 _ s⟩⟩

end Sys2Proof.Machine
end

section
/-! PROOFS. SoftReset: what its fill of memory leaves, and the registers it sets (46_bios_hle R754). -/

namespace Sys2Proof.Machine

/-! ### Memory outside a fill (20_memory R206, R208) -/

section
variable {s : State} {a : Word}

/-- A change of memory that leaves a byte's location alone leaves the byte. -/
theorem peek_setMem {m : List Host.Cell}
    (h : ∀ j, locationOf s a = some j → Memory.get m j = Memory.get s.mem j) : peek (s.setMem m) a = peek s a := by
  have hloc : locationOf (s.setMem m) a = locationOf s a := rfl
  have hopen : openBusByte (s.setMem m) a = openBusByte s a := rfl
  unfold peek
  split
  · rfl
  · next hr =>
    have hget : Memory.get (s.setMem m).mem (saveLocation s.save (saveOffset a)) =
        Memory.get s.mem (saveLocation s.save (saveOffset a)) := h _ (by simp only [locationOf, hr])
    simp only [saveRead, State.setMem_save, State.setMem_params, hget]
  · rfl
  · rw [hloc, hopen]
    cases hl : locationOf s a with
    | none => rfl
    | some j => exact congrArg some (h j hl)

theorem regionOf_bios_lt (h : regionOf a = .bios) : a.toNat < 0x4000 := by
  unfold regionOf at h
  split at h
  case h_1 => split at h <;> [assumption; cases h]
  case h_4 => split at h <;> cases h
  all_goals cases h

/-- The locations from 0x02000000 and from 0x03000000 on are those of the two work RAMs. -/
theorem regionOf_of_locationOf {r : Region} {j : Nat} (hj : locationOf s a = some j)
    (h : r = .ewram ∧ j / 2 ^ 24 = 2 ∨ r = .iwram ∧ j / 2 ^ 24 = 3) :
    regionOf a = r ∧ j = memoryLocation r a.toNat := by
  have hmem : (regionOf a).isMemory = true → j = memoryLocation (regionOf a) a.toNat := fun hm => by
    rw [locationOf_memory s hm, Option.some.injEq] at hj
    exact hj.symm
  have hr : regionOf a = r := by
    cases hra : regionOf a with
    | ewram =>
      have hloc := hmem (by rw [hra]; rfl)
      simp only [hra, memoryLocation, ewramBase] at hloc
      rcases h with ⟨rfl, -⟩ | ⟨-, h⟩
      · rfl
      · omega
    | iwram =>
      have hloc := hmem (by rw [hra]; rfl)
      simp only [hra, memoryLocation, iwramBase] at hloc
      rcases h with ⟨-, h⟩ | ⟨rfl, -⟩
      · omega
      · rfl
    | palette | oam | vram =>
      have hloc := hmem (by rw [hra]; rfl)
      simp only [hra, memoryLocation, paletteBase, oamBase, vramBase] at hloc
      omega
    | bios =>
      have hlow := regionOf_bios_lt hra
      simp only [locationOf, hra, Option.some.injEq] at hj
      omega
    | rom g =>
      simp only [locationOf, hra, romBase, Option.ite_none_right_eq_some, Option.some.injEq] at hj
      omega
    | save =>
      have hsave := saveLocation_ge s.save (saveOffset a)
      simp only [locationOf, hra, Option.some.injEq] at hj
      simp only [sramBase] at hsave
      omega
    | io | unmapped => simp only [locationOf, hra] at hj; cases hj
  subst hr
  exact ⟨rfl, hmem (by rcases h with ⟨hr, -⟩ | ⟨hr, -⟩ <;> rw [hr] <;> rfl)⟩

end

/-! ### Registers set in order -/

theorem reg_foldl_setReg_of_notMem {l : List (PReg × Word)} {r : PReg} (h : r ∉ l.map Prod.fst) (s : State) :
    (l.foldl (fun t e => t.setReg e.1 e.2) s).reg r = s.reg r := by
  induction l generalizing s with
  | nil => rfl
  | cons e l ih =>
    rw [List.map_cons, List.mem_cons, not_or] at h
    rw [List.foldl_cons, ih h.2, State.reg_setReg_ne _ h.1]

theorem reg_foldl_setReg_of_mem {l : List (PReg × Word)} (hl : (l.map Prod.fst).Nodup) {r : PReg} {v : Word}
    (h : (r, v) ∈ l) (s : State) : (l.foldl (fun t e => t.setReg e.1 e.2) s).reg r = v := by
  induction l generalizing s with
  | nil => cases h
  | cons d l ih =>
    rw [List.map_cons, List.nodup_cons] at hl
    rw [List.foldl_cons]
    rcases List.mem_cons.mp h with rfl | h
    · rw [reg_foldl_setReg_of_notMem hl.1, State.reg_setReg_same]
    · exact ih hl.2 h _

/-! ### The state SoftReset leaves -/

section
variable (s : State)

theorem hleSoftReset_regs : (hleSoftReset s).regs = (softResetRegs.foldl (fun t e => t.setReg e.1 e.2)
    (s.bump.setMem (Cells.fill s.mem (iwramBase + 0x7E00) 512 0#8))).regs := by
  simp only [hleSoftReset, State.setPc_regs, State.setCpsr_regs, State.setSpsrOf_regs]

theorem hleSoftReset_pc : (hleSoftReset s).pc =
    if (busRead s .byte 0x03007FFA#32).setWidth 8 = 0#8 then 0x08000000#32 else 0x02000000#32 := rfl

/-- All that SoftReset changes. -/
theorem hleSoftReset_eq : ∃ r p, hleSoftReset s = { s.setMem (Cells.fill s.mem (iwramBase + 0x7E00) 512 0#8) with
    regs := r
    cpsr := ⟨false, false, false, false, false, false, false, .sys⟩
    spsrSvc := Spsr.zero
    spsrIrq := Spsr.zero
    pc := p
    draws := s.draws + 1 } := by
  unfold hleSoftReset
  dsimp only
  rw [foldl_setReg]
  generalize State.regs (List.foldl _ _ _) = r
  generalize Cells.fill s.mem (iwramBase + 0x7E00) 512 0#8 = m
  exact ⟨r, _, rfl⟩

/-- On the bus SoftReset is its fill. -/
theorem sameBus_hleSoftReset :
    SameBus (s.setMem (Cells.fill s.mem (iwramBase + 0x7E00) 512 0#8)) (hleSoftReset s) := by
  obtain ⟨r, p, h⟩ := hleSoftReset_eq s
  rw [h]
  exact sameBus_mk rfl

theorem Spsr.toWord_zero : Spsr.zero.toWord = 0#32 := by decide

theorem spsrOf_hleSoftReset (m : Mode) :
    (hleSoftReset s).spsrOf m = if m = .svc ∨ m = .irq then some Spsr.zero else s.spsrOf m := by
  obtain ⟨r, p, h⟩ := hleSoftReset_eq s
  rw [h]
  cases m <;> rfl

theorem reg_hleSoftReset_of_mem {r : PReg} {v : Word} (h : (r, v) ∈ softResetRegs) : (hleSoftReset s).reg r = v := by
  rw [State.reg_of_regs (hleSoftReset_regs s), reg_foldl_setReg_of_mem (by decide) h]

theorem reg_hleSoftReset_of_notMem {r : PReg} (h : r ∉ softResetRegs.map Prod.fst) :
    (hleSoftReset s).reg r = s.reg r := by
  rw [State.reg_of_regs (hleSoftReset_regs s), reg_foldl_setReg_of_notMem h, State.reg_setMem, State.reg_bump]

/-- The top of IWRAM reads 0. -/
theorem peek_hleSoftReset_top {a : Word} (hr : regionOf a = .iwram) (ha : 0x7E00 ≤ a.toNat % 0x8000) :
    peek (hleSoftReset s) a = some 0#8 := by
  have hmem : (regionOf a).isMemory = true := by rw [hr]; rfl
  have hloc := locationOf_memory (s.setMem (Cells.fill s.mem (iwramBase + 0x7E00) 512 0#8)) hmem
  rw [(sameBus_hleSoftReset s).peek, peek_of_location _ hmem hloc, hr, memoryLocation, State.setMem_mem,
    Memory.get_fill, if_pos (by omega)]

/-- Every other byte reads as before. -/
theorem peek_hleSoftReset_of_not {a : Word} (h : ¬(regionOf a = .iwram ∧ 0x7E00 ≤ a.toNat % 0x8000)) :
    peek (hleSoftReset s) a = peek s a := by
  rw [(sameBus_hleSoftReset s).peek]
  refine peek_setMem fun j hj => ?_
  rw [Memory.get_fill, if_neg]
  rintro ⟨hlow, hhigh⟩
  obtain ⟨hr, rfl⟩ := regionOf_of_locationOf hj (.inr ⟨rfl, by simp only [iwramBase] at hlow hhigh; omega⟩)
  exact h ⟨hr, Nat.le_of_add_le_add_left hlow⟩

end

/-- Settles O40: the fields of `hleSoftReset_eq`, the registers of `softResetRegs`, and its fill. -/
theorem hleSoftReset_spec : Obligations.HleSoftReset := by
  intro s i hcall hhle hmem _
  have hexec : exec i s = .next (hleSoftReset s) := by
    rw [hcall.exec_hleCall hhle rfl hmem, hleCall, hleRun, andThen_next, if_pos rfl]
  refine ⟨_, hexec, fun a => peek_hleSoftReset_top s, fun a => peek_hleSoftReset_of_not s, hleSoftReset_cpsr s,
    fun b hb => ?pc, reg_hleSoftReset_of_mem s (by decide), reg_hleSoftReset_of_mem s (by decide),
    reg_hleSoftReset_of_mem s (by decide), fun r hr => ?zeros, fun r hr => reg_hleSoftReset_of_notMem s hr,
    ?svc, ?irq, fun m hsvc hirq => ?spsrs, (hleSoftReset_devices s).2.1, (sameBus_hleSoftReset s).save,
    (sameBus_hleSoftReset s).params⟩
  case pc =>
    rw [hleSoftReset_pc, busRead_byte (by decide) hb, BitVec.setWidth_setWidth_of_le _ (by decide), BitVec.setWidth_eq]
  case zeros =>
    have hall : ∀ r ∈ [PReg.r14Svc, .r14Irq, .r14, .r0, .r1, .r2, .r3, .r4, .r5, .r6, .r7, .r8, .r9, .r10, .r11, .r12],
      (r, 0#32) ∈ softResetRegs := by decide
    exact reg_hleSoftReset_of_mem s (hall r hr)
  case svc => rw [spsrOf_hleSoftReset, if_pos (.inl rfl), Option.map_some, Spsr.toWord_zero]
  case irq => rw [spsrOf_hleSoftReset, if_pos (.inr rfl), Option.map_some, Spsr.toWord_zero]
  case spsrs => rw [spsrOf_hleSoftReset, if_neg (by rintro (h | h); exacts [hsvc h, hirq h])]

end Sys2Proof.Machine
end

section
/-! PROOFS. The emulated BIOS functions that write memory (46_bios_hle R762, R763, R765-R767). -/

namespace Sys2Proof.Machine

section
variable {s : State} {i : Instr} {n : Byte} {f : Config.HleFn} {writes : List (Width × Word × Word)}

/-- A function that makes its bus writes and then draws its scratch registers. -/
theorem runs_hleStores {r : Result} {l : List RegNum} {A : List PReg} (hexec : exec i s = hleCall f s)
    (hf : f ≠ .softReset) (hrun : hleRun f s = andThen r fun t => .next (drawXs l t))
    (hr : ∃ u, r = .next u ∧ Wrote writes s u) (hscratch : l.flatMap (destOf s) ⊆ A ++ destOf s 12#4) :
    Runs i s (HleStores A writes s) := by
  obtain ⟨u, rfl, hu⟩ := hr
  refine ⟨_, ?_, hleStores_drawXs hu hscratch⟩
  rw [hexec, hleCall, hrun, andThen_next, andThen_next, if_neg hf]

end

/-! ### Copy and fill (46_bios_hle R762, R763) -/

/-- The control word's count field. -/
theorem count_toNat (v : Word) : (v.extractLsb' 0 21).toNat = v.toNat % 2 ^ 21 := by
  rw [BitVec.extractLsb'_toNat, Nat.shiftRight_zero]

/-- The units of a fill or a copy, in order. -/
def hleUnits (w : Width) (count : Nat) (fill : Bool) (s : State) : Result :=
  if fill then fillUnits w (busRead s w (w.align (s.x 0#4))) count (w.align (s.x 1#4)) s.bump
  else copyUnits w count (w.align (s.x 0#4)) (w.align (s.x 1#4)) s

theorem hleCopy_eq (w : Width) (count : Nat) (fill : Bool) (s : State) : hleCopy w count fill s =
    andThen (hleUnits w count fill s) fun t => .next (drawXs [0#4, 1#4, 3#4, 12#4] t) := rfl

/-- A copy or fill does the writes of the values its reads give. -/
theorem hleUnits_spec {s : State} {w : Width} {count : Nat} {fill : Bool} {v : Nat → Word} (hw : w ≠ .byte)
    (hz : ∀ k, k < count → storeHazard s w (w.align (s.x 1#4) + BitVec.ofNat 32 (w.bytes * k)) = false)
    (hv : ∀ k, k < count → if fill then ReadsAs s w (w.align (s.x 0#4)) (v k)
      else ReadsAs (busWrites (unitWrites (copyWrite w (w.align (s.x 1#4)) v) k) s) w
        (w.align (s.x 0#4) + BitVec.ofNat 32 (w.bytes * k)) (v k)) :
    ∃ u, hleUnits w count fill s = .next u ∧ Wrote (unitWrites (copyWrite w (w.align (s.x 1#4)) v) count) s u := by
  cases fill with
  | true =>
    have hread : ∀ k, k < count → busRead s w (w.align (s.x 0#4)) = v k := fun k hk => (hv k hk).busRead (.refl s)
    have hsame : unitWrites (copyWrite w (w.align (s.x 1#4)) v) count =
        unitWrites (copyWrite w (w.align (s.x 1#4)) fun _ => busRead s w (w.align (s.x 0#4))) count :=
      List.map_congr_left fun k hk => by rw [copyWrite, copyWrite, hread k (List.mem_range.mp hk)]
    have h := fillUnits_spec hw (w.align (s.x 1#4)) (busRead s w (w.align (s.x 0#4))) count 0 s.bump
      (wrote_nil s).bump fun k hk => hz k (by omega)
    rw [Nat.mul_zero, BitVec.add_zero, Nat.zero_add, ← hsame] at h
    exact h
  | false =>
    have h := copyUnits_spec hw (w.align (s.x 0#4)) (w.align (s.x 1#4)) v count 0 s (wrote_nil s)
      fun k hk => ⟨hz k (by omega), hv k (by omega)⟩
    rwa [Nat.mul_zero, BitVec.add_zero, BitVec.add_zero, Nat.zero_add] at h

/-! ### Affine set-up (46_bios_hle R765, R766) -/

/-- A shift by an integer is one by the natural number. -/
theorem shiftRight_fourteen (m : Int) : m >>> (14 : Int) = m >>> (14 : Nat) := Int.shiftRight_natCast_right m 14

/-- The matrix by floors of quotients. -/
theorem affineMatrix_eq (p : Config.Params) (sx sy : Int) (theta : Word) : affineMatrix p sx sy theta =
    (sx * (sinCos p (theta.extractLsb' 8 8)).2 / 16384, -(sx * (sinCos p (theta.extractLsb' 8 8)).1 / 16384),
      sy * (sinCos p (theta.extractLsb' 8 8)).1 / 16384, sy * (sinCos p (theta.extractLsb' 8 8)).2 / 16384) := by
  simp only [affineMatrix, shiftRight_fourteen, Int.shiftRight_eq_div_pow]
  rfl

section
variable {s : State}

/-- BgAffineSet entry by entry, from what its reads give. -/
theorem bgAffineEntries_writes {n : Nat} {src dst : Word} {ox oy cx cy sx sy theta : Nat → Word}
    {f : Nat → List (Width × Word × Word)} (hf : ∀ k, f k = bgAffineWrites s.params (dst + BitVec.ofNat 32 (16 * k))
      (ox k) (oy k) (cx k) (cy k) (sx k) (sy k) (theta k))
    (hz : ∀ k, k < n → ∀ e ∈ f k, storeHazard s e.1 e.2.1 = false)
    (hr : ∀ k, k < n → ∀ e ∈ [(Width.word, 0, ox k), (.word, 4, oy k), (.half, 8, cx k), (.half, 10, cy k),
      (.half, 12, sx k), (.half, 14, sy k), (.half, 16, theta k)],
      ReadsAs (busWrites (entryWrites f k) s) e.1 (src + BitVec.ofNat 32 (20 * k + e.2.1)) e.2.2) :
    ∃ u, bgAffineEntries n src dst s = .next u ∧ Wrote (entryWrites f n) s u := by
  have hentries := bgAffineEntries_spec src dst f n 0 s (wrote_nil s) fun k hk t ht => by
    have hk' : k < n := by omega
    rw [hf k]
    refine bgAffineEntry_spec ht ?_ (hf k ▸ hz k hk')
    have hreads := hr k hk'
    simp only [List.forall_mem_cons, List.not_mem_nil, false_implies, implies_true, BitVec.ofNat_add, BitVec.add_zero,
      ← BitVec.add_assoc] at hreads ⊢
    exact hreads
  simpa only [Nat.mul_zero, BitVec.add_zero, Nat.zero_add] using hentries

/-- ObjAffineSet entry by entry, from what its reads give. -/
theorem objAffineEntries_writes {n : Nat} {src dst stride : Word} {sx sy theta : Nat → Word}
    {f : Nat → List (Width × Word × Word)} (hf : ∀ k, f k = objAffineWrites s.params
      (dst + BitVec.ofNat 32 (4 * k * stride.toNat)) stride (sx k) (sy k) (theta k))
    (hz : ∀ k, k < n → ∀ e ∈ f k, storeHazard s e.1 e.2.1 = false)
    (hr : ∀ k, k < n → ∀ e ∈ [(0, sx k), (2, sy k), (4, theta k)],
      ReadsAs (busWrites (entryWrites f k) s) .half (src + BitVec.ofNat 32 (8 * k + e.1)) e.2) :
    ∃ u, objAffineEntries stride n src dst s = .next u ∧ Wrote (entryWrites f n) s u := by
  have hentries := objAffineEntries_spec src dst stride f n 0 s (wrote_nil s) fun k hk t ht => by
    have hk' : k < n := by omega
    rw [hf k]
    refine objAffineEntry_spec ht ?_ (hf k ▸ hz k hk')
    have hreads := hr k hk'
    simp only [List.forall_mem_cons, List.not_mem_nil, false_implies, implies_true, BitVec.ofNat_add, BitVec.add_zero,
      ← BitVec.add_assoc] at hreads ⊢
    exact hreads
  simpa only [Nat.mul_zero, Nat.zero_mul, BitVec.add_zero, Nat.zero_add] using hentries

end

/-! ### BitUnPack (46_bios_hle R767) -/

/-- What the record read at R2 makes of the call. -/
theorem hleBitUnPack_eq {s : State} {len sw dw bias : Word} (hlen : ReadsAs s .half (s.x 2#4) len)
    (hsw : ReadsAs s .byte (s.x 2#4 + 2#32) sw) (hdw : ReadsAs s .byte (s.x 2#4 + 3#32) dw)
    (hbias : ReadsAs s .word (s.x 2#4 + 4#32) bias) : ∃ t, Wrote [] s t ∧ hleBitUnPack s =
      if [1, 2, 4, 8].contains sw.toNat && [1, 2, 4, 8, 16, 32].contains dw.toNat then
        andThen (unpackBytes sw.toNat dw.toNat bias len.toNat (s.x 0#4) ⟨0#32, 0, s.x 1#4⟩ t) drawAllScratch
      else .fault .badArgument := by
  obtain ⟨hvalues, hwrote⟩ := hleReads_spec [((.half, s.x 2#4), len), ((.byte, s.x 2#4 + 2#32), sw),
    ((.byte, s.x 2#4 + 3#32), dw), ((.word, s.x 2#4 + 4#32), bias)] (wrote_nil s)
    (by simp only [List.forall_mem_cons]; exact ⟨hlen, hsw, hdw, hbias, List.forall_mem_nil _⟩)
  simp only [List.map_cons, List.map_nil] at hvalues hwrote
  refine ⟨_, hwrote, ?_⟩
  rw [hleBitUnPack]
  simp only [hvalues]
  rfl

/-- The number in the stream of a unit of a destination word. -/
theorem unit_lane {dw j : Nat} (h : dw ∈ [1, 2, 4, 8, 16, 32]) :
    j * dw % 32 = dw * (j % (32 / dw)) ∧ j * dw / 32 * (32 / dw) + j % (32 / dw) = j ∧ j % (32 / dw) < 32 / dw := by
  simp only [List.mem_cons, List.not_mem_nil, or_false] at h
  rcases h with rfl | rfl | rfl | rfl | rfl | rfl <;> omega

/-- The loop, from what its reads give and the lanes of the words. -/
theorem unpackBytes_writes {s t : State} {sw dw len words : Nat} {bias src dst : Word} {b v : Nat → Word}
    (ht : Wrote [] s t) (hs : sw ∈ [1, 2, 4, 8]) (hd : dw ∈ [1, 2, 4, 8, 16, 32])
    (hw : words = len * (8 / sw) * dw / 32)
    (hz : ∀ q, q < words → storeHazard s .word (dst + BitVec.ofNat 32 (4 * q)) = false)
    (hr : ∀ m, m < len → ReadsAs (busWrites (unitWrites (copyWrite .word dst v) (m * (8 / sw) * dw / 32)) s) .byte
      (src + BitVec.ofNat 32 m) (b m))
    (hv : ∀ q j, q < words → j < 32 / dw → (v q).toNat / 2 ^ (dw * j) % 2 ^ dw =
      biasedUnit bias ((b ((q * (32 / dw) + j) * sw / 8)).toNat / 2 ^ ((q * (32 / dw) + j) * sw % 8) % 2 ^ sw) % 2 ^ dw) :
    ∃ u, unpackBytes sw dw bias len src ⟨0#32, 0, dst⟩ t = .next u ∧
      Wrote (unitWrites (copyWrite .word dst v) words) s u := by
  have hlanes : ∀ j, j * dw / 32 < words → (v (j * dw / 32)).toNat / 2 ^ (j * dw % 32) % 2 ^ dw =
      biasedUnit bias ((b (j * sw / 8)).toNat / 2 ^ (j * sw % 8) % 2 ^ sw) % 2 ^ dw := fun j hj => by
    obtain ⟨hbit, hnum, hlt⟩ := unit_lane (j := j) hd
    have h := hv _ _ hj hlt
    rwa [hnum, ← hbit] at h
  have hstart : Unpacked dw words dst v s (0 * (8 / sw)) ⟨0#32, 0, dst⟩ t := by
    rw [Nat.zero_mul]
    refine ⟨?_, ?_, ?_, fun _ => ?_⟩ <;> simp only [Nat.zero_mul, Nat.zero_div, Nat.zero_mod]
    · exact ht
    · exact (BitVec.add_zero dst).symm
    · exact (Nat.mod_one _).symm
  obtain ⟨_, u, hu, hend⟩ := unpackBytes_spec hs hd hw hz hr hlanes len 0 _ t (Nat.zero_add len) hstart
  rw [BitVec.add_zero] at hu
  have hwrote := hend.wrote
  rw [← hw] at hwrote
  exact ⟨u, hu, hwrote⟩

/-! ### A fill of EWRAM -/

/-- A word whose bytes are known reads so. -/
theorem WordAt.readsAs {s : State} {a v : Word} (h : WordAt s a v) : ReadsAs s .word a v :=
  readsAs_of_lanes h.1 rfl h.2

theorem sameDevices_setMem (s : State) (m : List Host.Cell) : SameDevices s (s.setMem m) :=
  ⟨rfl, rfl, rfl, rfl, rfl, rfl, rfl, rfl, rfl, rfl⟩

theorem regionOf_ewram {a : Word} : regionOf a = .ewram ↔ a.toNat / 2 ^ 24 = 2 := by
  rw [← shiftRight24_toNat]
  constructor
  · intro h
    unfold regionOf at h
    split at h
    case h_2 hv => exact hv
    case h_1 | h_4 => split at h <;> cases h
    all_goals cases h
  · intro h
    simp only [regionOf, h]

theorem busWrites_append (l l' : List (Width × Word × Word)) (s : State) :
    busWrites (l ++ l') s = busWrites l' (busWrites l s) := List.foldl_append

section
variable {s : State} {dst v : Word} {count : Nat} (hm : s.MemoryInv) (hr : regionOf dst = .ewram)
  (hal : dst.toNat % 4 = 0) (hfit : dst.toNat % 0x40000 + 4 * count ≤ 0x40000)

include hr hfit in
/-- The words of a fill lie in EWRAM, one behind the other. -/
theorem ewramWord_address {k : Nat} (hk : k < count) : (dst + BitVec.ofNat 32 (4 * k)).toNat = dst.toNat + 4 * k ∧
    regionOf (dst + BitVec.ofNat 32 (4 * k)) = .ewram := by
  have h2 := regionOf_ewram.mp hr
  have hn : (dst + BitVec.ofNat 32 (4 * k)).toNat = dst.toNat + 4 * k := by
    rw [BitVec.toNat_add, BitVec.toNat_ofNat]
    omega
  exact ⟨hn, regionOf_ewram.mpr (by omega)⟩

include hm hr hal hfit in
/-- Filling words of EWRAM changes memory alone: the bytes of the filled words. -/
theorem busWrites_ewramFill {n : Nat} (hn : n ≤ count) :
    ∃ m, busWrites (unitWrites (copyWrite .word dst fun _ => v) n) s = s.setMem m ∧ Memory.wf m ∧
      ∀ j, Memory.get m j = if ewramBase + dst.toNat % 0x40000 ≤ j ∧ j < ewramBase + dst.toNat % 0x40000 + 4 * n then
        byteOf v (j % 4) else Memory.get s.mem j := by
  induction n with
  | zero => exact ⟨s.mem, rfl, hm.mem, fun j => by rw [if_neg (by omega)]⟩
  | succ n ih =>
    obtain ⟨m, hbus, hwf, hget⟩ := ih (by omega)
    obtain ⟨hnum, hreg⟩ := ewramWord_address hr hfit (k := n) (by omega)
    have hmem : (regionOf (dst + BitVec.ofNat 32 (4 * n))).isMemory = true := by rw [hreg]; rfl
    have hloc : memoryLocation .ewram ((dst.toNat + 4 * n) / 4 * 4) = ewramBase + dst.toNat % 0x40000 + 4 * n := by
      simp only [memoryLocation]
      omega
    have hstore := busWrite_plain (s.setMem m) .word hmem (fun h => nomatch h) v
    rw [hreg, hnum, Width.bytes, hloc] at hstore
    refine ⟨Memory.putAll m (cellsOf .word (ewramBase + dst.toNat % 0x40000 + 4 * n) v), ?_, Memory.wf_putAll hwf _,
      fun j => ?_⟩
    · rw [unitWrites_succ, busWrites_append, hbus]
      exact hstore
    · have hmod : (ewramBase + dst.toNat % 0x40000) % 4 = 0 := by simp only [ewramBase]; omega
      generalize ewramBase + dst.toNat % 0x40000 = base at *
      have hlane := fun i => get_store_lane (s := s.setMem m) hwf .word (base + 4 * n) v (i := i)
      have hother := get_store_of_lt (s := s.setMem m) hwf .word (base + 4 * n) v (j := j)
      simp only [State.store, State.setMem_mem, Width.bytes] at hlane hother
      by_cases hj : base + 4 * n ≤ j ∧ j < base + 4 * n + 4
      · obtain ⟨i, rfl⟩ := Nat.exists_eq_add_of_le hj.1
        rw [hlane i (by omega), if_pos (by omega), show (base + 4 * n + i) % 4 = i by omega]
      · rw [hother (by omega), hget j]
        exact if_congr (by omega) rfl rfl

include hm hr hal hfit in
/-- What the bytes of memory read after the fill. -/
theorem peek_ewramFill : ∃ m, busWrites (unitWrites (copyWrite .word dst fun _ => v) count) s = s.setMem m ∧
    (∀ k, k < count → WordAt (s.setMem m) (dst + BitVec.ofNat 32 (4 * k)) v) ∧
    ∀ a, (regionOf a = .ewram → a.toNat % 0x40000 < dst.toNat % 0x40000 ∨
      dst.toNat % 0x40000 + 4 * count ≤ a.toNat % 0x40000) → peek (s.setMem m) a = peek s a := by
  obtain ⟨m, hbus, -, hget⟩ := busWrites_ewramFill (v := v) hm hr hal hfit (le_refl count)
  refine ⟨m, hbus, fun k hk => ?words, fun a ha => ?frame⟩
  case words =>
    obtain ⟨hnum, hreg⟩ := ewramWord_address hr hfit hk
    refine ⟨by rw [hreg]; decide, fun j hj => ?_⟩
    have hlane : (regionOf (alignWord (dst + BitVec.ofNat 32 (4 * k)) + BitVec.ofNat 32 j)) = .ewram :=
      (regionOf_lane .word _ hj).trans hreg
    have hmem : (regionOf (alignWord (dst + BitVec.ofNat 32 (4 * k)) + BitVec.ofNat 32 j)).isMemory = true := by
      rw [hlane]; rfl
    have hword : (regionOf (dst + BitVec.ofNat 32 (4 * k))).isMemory = true := by rw [hreg]; rfl
    have hloc := locationOf_lane (s.setMem m) .word hword hj
    have hbase : memoryLocation .ewram ((dst.toNat + 4 * k) / 4 * 4) = ewramBase + dst.toNat % 0x40000 + 4 * k := by
      simp only [memoryLocation]
      omega
    rw [hreg, hnum, Width.bytes, hbase] at hloc
    have hmod : (ewramBase + dst.toNat % 0x40000 + 4 * k + j) % 4 = j := by simp only [ewramBase]; omega
    refine (peek_of_location _ hmem hloc).trans ?_
    rw [State.setMem_mem, hget, if_pos (by omega), hmod]
  case frame =>
    refine peek_setMem fun j hj => ?_
    rw [hget, if_neg]
    rintro ⟨hlow, hhigh⟩
    obtain ⟨hra, rfl⟩ := regionOf_of_locationOf hj (.inl ⟨rfl, by simp only [ewramBase] at hlow hhigh; omega⟩)
    have h := ha hra
    simp only [memoryLocation] at hlow hhigh
    omega

end

/-! ### The calls -/

theorem runs_hleCopy {s : State} {i : Instr} {f : Config.HleFn} {w : Width} {count : Nat} {fill : Bool}
    {v : Nat → Word} (hexec : exec i s = hleCall f s) (hf : f ≠ .softReset) (hrun : hleRun f s = hleCopy w count fill s) (hw : w ≠ .byte)
    (hz : ∀ k, k < count → storeHazard s w (w.align (s.x 1#4) + BitVec.ofNat 32 (w.bytes * k)) = false)
    (hv : ∀ k, k < count → if fill then ReadsAs s w (w.align (s.x 0#4)) (v k)
      else ReadsAs (busWrites (unitWrites (copyWrite w (w.align (s.x 1#4)) v) k) s) w
        (w.align (s.x 0#4) + BitVec.ofNat 32 (w.bytes * k)) (v k)) :
    Runs i s (HleStores [.r0, .r1, .r3] (unitWrites (copyWrite w (w.align (s.x 1#4)) v) count) s) :=
  runs_hleStores hexec hf (hrun.trans (hleCopy_eq ..)) (hleUnits_spec hw hz hv) (fun _ h => h)

theorem hleRun_cpuSet (s : State) : hleRun .cpuSet s =
    hleCopy (if (s.x 2#4).getLsbD 26 then .word else .half) ((s.x 2#4).toNat % 2 ^ 21) ((s.x 2#4).getLsbD 24) s := by
  rw [hleRun, hleCpuSet, count_toNat]

theorem hleRun_cpuFastSet (s : State) : hleRun .cpuFastSet s =
    hleCopy .word (((s.x 2#4).toNat % 2 ^ 21 + 7) / 8 * 8) ((s.x 2#4).getLsbD 24) s := by
  rw [hleRun, hleCpuFastSet, count_toNat]

/-- Settles O39: the loops' bus writes (`hleUnits_spec`, `bgAffineEntries_writes`, `objAffineEntries_writes`,
`unpackBytes_writes`), and the memory a fill of EWRAM leaves. -/
theorem hleMemoryFunctions : Obligations.HleMemoryFunctions := by
  refine ⟨fun s i n writes hcall hhle hz => ⟨?copy, ?bg, ?obj, ?unpack⟩, ?fill⟩
  case copy =>
    rintro w count src dst v hfn rfl rfl rfl hv
    have hfind : ∃ f, hleFunction n = some f ∧ f ∈ s.params.hleSwiSet ∧ f ≠ .softReset ∧ w ≠ .byte ∧
        hleRun f s = hleCopy w count ((s.x 2#4).getLsbD 24) s := by
      rcases hfn with ⟨rfl, hmem, rfl, rfl⟩ | ⟨rfl, hmem, rfl, rfl⟩
      · exact ⟨.cpuSet, rfl, hmem, by decide, by split <;> decide, hleRun_cpuSet s⟩
      · exact ⟨.cpuFastSet, rfl, hmem, by decide, by decide, hleRun_cpuFastSet s⟩
    obtain ⟨f, hf, hmem, hne, hw, hrun⟩ := hfind
    have hsafe := fun k (hk : k < count) =>
      hz (copyWrite w (w.align (s.x 1#4)) v k) (List.mem_map.mpr ⟨k, List.mem_range.mpr hk, rfl⟩)
    refine runs_hleCopy (hcall.exec_hleCall hhle hf hmem) hne hrun hw hsafe fun k hk => ?_
    rw [← take_unitWrites _ hk.le]
    exact hv k hk
  case bg =>
    intro hn hmem ox oy cx cy sx sy theta hlist hv
    subst hn
    have hwrites : writes = entryWrites (fun k => bgAffineWrites s.params (s.x 1#4 + BitVec.ofNat 32 (16 * k)) (ox k)
        (oy k) (cx k) (cy k) (sx k) (sy k) (theta k)) (s.x 2#4).toNat := hlist.trans <| by
      simp only [entryWrites, bgAffineWrites, affineMatrix_eq, BitVec.ofNat_add, BitVec.add_zero, ← BitVec.add_assoc]
    subst hwrites
    have hloop := bgAffineEntries_writes (src := s.x 0#4) (fun _ => rfl)
      (fun k hk e he => hz e (List.mem_flatMap.mpr ⟨k, List.mem_range.mpr hk, he⟩)) fun k hk => by
        rw [← take_entryWrites (c := 6) _ (fun _ => rfl) hk.le]
        exact hv k hk
    exact runs_hleStores (hcall.exec_hleCall hhle rfl hmem) (by decide) rfl hloop (fun _ h => h)
  case obj =>
    intro hn hmem sx sy theta hlist hv
    subst hn
    have hwrites : writes = entryWrites (fun k => objAffineWrites s.params
        (s.x 1#4 + BitVec.ofNat 32 (4 * k * (s.x 3#4).toNat)) (s.x 3#4) (sx k) (sy k) (theta k)) (s.x 2#4).toNat :=
      hlist.trans <| by
        have hthree : ∀ n : Nat, 3 * n = n + n + n := fun n => by omega
        simp only [entryWrites, objAffineWrites, affineMatrix_eq, Nat.add_mul, Nat.zero_mul, Nat.one_mul, Nat.two_mul,
          hthree, BitVec.ofNat_add, BitVec.ofNat_toNat, BitVec.setWidth_eq, BitVec.add_zero, ← BitVec.add_assoc]
    subst hwrites
    have hloop := objAffineEntries_writes (src := s.x 0#4) (fun _ => rfl)
      (fun k hk e he => hz e (List.mem_flatMap.mpr ⟨k, List.mem_range.mpr hk, he⟩)) fun k hk => by
        rw [← take_entryWrites (c := 4) _ (fun _ => rfl) hk.le]
        exact hv k hk
    exact runs_hleStores (hcall.exec_hleCall hhle rfl hmem) (by decide) rfl hloop (fun _ h => h)
  case unpack =>
    intro hn hmem len sw dw bias b v hlen hsw hdw hbias legal words unit biased
    subst hn
    have hexec := hcall.exec_hleCall hhle rfl hmem
    obtain ⟨t, ht, hrun⟩ := hleBitUnPack_eq hlen hsw hdw hbias
    have hwidths : ([1, 2, 4, 8].contains sw.toNat && [1, 2, 4, 8, 16, 32].contains dw.toNat) = true ↔ legal := by
      rw [Bool.and_eq_true, List.contains_iff_mem, List.contains_iff_mem]
    refine ⟨fun hlegal hlist hr hv => ?_, fun hillegal => ?_⟩
    · rw [if_pos (hwidths.mpr hlegal)] at hrun
      subst hlist
      have hloop := unpackBytes_writes (dst := s.x 1#4) ht hlegal.1 hlegal.2 rfl
        (fun q hq => hz (copyWrite .word (s.x 1#4) v q) (List.mem_map.mpr ⟨q, List.mem_range.mpr hq, rfl⟩))
        (fun m hm => by
          have hle : words m ≤ words len.toNat :=
            Nat.div_le_div_right (Nat.mul_le_mul_right _ (Nat.mul_le_mul_right _ hm.le))
          rw [← take_unitWrites _ hle]
          exact hr m hm) hv
      exact runs_hleStores hexec (by decide) hrun hloop (fun _ h => h)
    · rw [if_neg fun h => hillegal (hwidths.mp h)] at hrun
      rw [hexec, hleCall, hleRun, hrun, andThen_fault]
  case fill =>
    rintro s i src dst v count hcall hhle hmem hm hfill hwide rfl rfl rfl hword hr hfit hz
    have hrun := hleRun_cpuSet s
    rw [hfill, hwide] at hrun
    obtain ⟨t, hnext, hpc, hcpsr, hregs, hcore, hbus⟩ := runs_hleCopy (v := fun _ => v)
      (hcall.exec_hleCall hhle rfl hmem) (by decide) hrun (by decide) hz fun k _ => hword.readsAs
    have hal : (alignWord (s.x 1#4)).toNat % 4 = 0 := by rw [alignWord_toNat]; omega
    obtain ⟨m, hwrites, hwords, hframe⟩ := peek_ewramFill (v := v) hm hr hal hfit
    obtain ⟨hdevices, hsave, hreads⟩ : BusAs (s.setMem m) t := hwrites ▸ hbus
    exact ⟨t, hnext, hpc, hcpsr, hregs, hcore, (sameDevices_setMem s m).trans hdevices, hsave,
      fun k hk => ⟨(hwords k hk).1, fun j hj => (hreads _).trans ((hwords k hk).2 j hj)⟩,
      fun a ha => (hreads a).trans (hframe a ha)⟩

end Sys2Proof.Machine
end

section
/-! PROOFS. Exceptions and the boundary of a step: which kind of step runs, the fetch, the IRQ, the return from an
exception, and the confinement of USR mode. -/

namespace Sys2Proof.Machine

/-! ### The order of the boundary (60_exceptions R841, R850; 61_timers R941) -/

theorem pendingChannel_eq_find? (s : State) : pendingChannel s = Fin.find? fun k : Fin 4 => s.dma[k].pending := by
  simp only [Fin.find?_succ, Fin.find?_zero, Option.map_none, apply_ite (Option.map Fin.succ), Option.map_some]
  rfl

theorem pendingChannel_eq_none_iff {s : State} : pendingChannel s = none ↔ ∀ k : Fin 4, s.dma[k].pending = false := by
  rw [pendingChannel_eq_find?, Fin.find?_eq_none_iff]

theorem pendingChannel_eq_some_iff {s : State} {k : Fin 4} : pendingChannel s = some k ↔
    s.dma[k].pending = true ∧ ∀ j : Fin 4, j < k → s.dma[j].pending = false := by
  rw [pendingChannel_eq_find?, Fin.find?_eq_some_iff]

section
variable {s : State}

theorem step_of_pendingChannel {k : Fin 4} (h : pendingChannel (wake s) = some k) :
    step s = andThen (dmaTransfer k (wake s)) fun t => .next (deviceTick (dmaCost (wake s) k) t) := by
  rw [step, runStep, boundaryStep, h]

variable (hdma : pendingChannel (wake s) = none)
include hdma

theorem step_of_irqReady (h : irqReady (wake s) = true) :
    step s = .next (endStep (irqCost (wake s) (irqEntry (wake s))) (irqEntry (wake s))) := by
  simp only [step, runStep, boundaryStep, hdma, h, if_true]

variable (hirq : irqReady (wake s) = false)
include hirq

theorem step_of_halt (h : (wake s).halt = true) : step s = .next (deviceTick 1 (wake s)) := by
  simp only [step, runStep, boundaryStep, hdma, hirq, h, Bool.false_eq_true, if_false, if_true]

theorem step_of_decodeFetched (h : (wake s).halt = false) {i : Instr}
    (hi : decodeFetched (wake s) (fetchValue (wake s)) = .ok i) :
    step s = andThen (exec i (fetched (wake s))) fun t => .next (endStep (instrCost i (wake s) t) t) := by
  simp only [step, runStep, boundaryStep, hdma, hirq, h, Bool.false_eq_true, if_false, instructionStep, hi]

end

/-- Settles O5: the boundary's four tests, one after the other. -/
theorem boundaryOrder : Obligations.BoundaryOrder := by
  rintro s _ rfl
  refine ⟨wake_eq s, fun k hk => ?_, fun hdma => ⟨pendingChannel_eq_none_iff.mp hdma, step_of_irqReady hdma,
    step_of_halt hdma⟩⟩
  obtain ⟨hpending, hlower⟩ := pendingChannel_eq_some_iff.mp hk
  exact ⟨hpending, hlower, step_of_pendingChannel hk⟩

/-! ### The fetched instruction (30_encoding R300, R301) -/

/-- An aligned address stays as it is under the alignment of its instruction set. -/
theorem align_of_alignedFor {b : Bool} {p : Word} (h : alignedFor b p) :
    (if b then alignHalf p else alignWord p) = p := by
  have hmod := alignedFor_iff.mp h
  apply BitVec.eq_of_toNat_eq
  cases b
  · exact (alignWord_toNat p).trans (by simp only [Bool.false_eq_true, if_false] at hmod; omega)
  · exact (alignHalf_toNat p).trans (by simp only [if_true] at hmod; omega)

/-- Outside save memory the fetch reads the bytes at pc, and the decoder is given them. -/
theorem decodeFetched_of_bytes {s : State} {bytes : List Byte} {i : Instr} (hs : s.PcInv) (hr : regionOf s.pc ≠ .save)
    (hpeek : ∀ k, ∀ h : k < bytes.length, peek s (s.pc + BitVec.ofNat 32 k) = some bytes[k])
    (hi : decodeBytes s.cpsr.t bytes = .ok i) : decodeFetched s (fetchValue s) = .ok i := by
  have halign := align_of_alignedFor (pcInv_iff.mp hs)
  unfold decodeBytes at hi
  split at hi
  case h_1 b0 b1 ht =>
    rw [ht, if_pos rfl] at halign
    have h0 : peek s s.pc = some b0 := by simpa using hpeek 0 (by simp)
    rw [decodeFetched, if_pos ht, fetchValue, fetchWidth, if_pos ht,
      busRead_half hr (halign.symm ▸ h0) (halign.symm ▸ hpeek 1 (by simp)),
      BitVec.extractLsb'_setWidth_of_le (by decide), BitVec.extractLsb'_eq_self]
    exact hi
  case h_2 b0 b1 b2 b3 ht =>
    rw [ht, if_neg Bool.false_ne_true] at halign
    have h0 : peek s s.pc = some b0 := by simpa using hpeek 0 (by simp)
    rw [decodeFetched, if_neg (by simp [ht]), fetchValue, fetchWidth, if_neg (by simp [ht]),
      busRead_word hr (halign.symm ▸ h0) (halign.symm ▸ hpeek 1 (by simp))
        (halign.symm ▸ hpeek 2 (by simp)) (halign.symm ▸ hpeek 3 (by simp))]
    exact hi
  case h_3 => cases hi

/-- Settles O4: the last branch of the boundary, the bytes at pc, and the marker's own fields. -/
theorem stepRunsTheFetchedInstruction : Obligations.StepRunsTheFetchedInstruction := by
  refine ⟨?run, fun _ _ => rfl, fun s bytes i => decodeFetched_of_bytes, fun s => ⟨?frame, rfl, rfl, rfl, fun ht => ?word⟩⟩
  case run =>
    rintro s _ i rfl hdma hirq hhalt hi
    exact step_of_decodeFetched hdma hirq hhalt hi
  case frame => exact statusFrame_mk (fun _ _ => rfl) rfl
  case word => exact if_neg (by simp [ht])

/-! ### The interrupt (60_exceptions R840) -/

theorem irqReady_iff {s : State} : irqReady s = true ↔
    s.irq.ime = true ∧ (s.irq.ie &&& s.irq.iff).extractLsb' 0 14 ≠ 0#14 ∧ s.cpsr.i = false := by
  simp only [irqReady, interruptPending, Bool.and_eq_true, bne_iff_ne, Bool.not_eq_true', and_assoc]

/-- An interrupt that is ready has ended the halt. -/
theorem wake_halt_of_irqReady {s : State} (h : irqReady (wake s) = true) : (wake s).halt = false := by
  rw [wake_eq] at h ⊢
  obtain ⟨-, hsource, -⟩ := irqReady_iff.mp h
  have hpending : interruptPending s = true := bne_iff_ne.mpr hsource
  simp [hpending]

theorem romN_pos (waitcnt : Half) (g : Fin 3) : 0 < romN waitcnt g := by
  fin_cases g <;> simp [romN]

theorem romS_pos (waitcnt : Half) (g : Fin 3) : 0 < romS waitcnt g := by
  fin_cases g <;> simp only [romS] <;> split <;> decide

/-- Every access takes a cycle. -/
theorem accessCost_pos (s : State) (w : Width) (a : Word) (seq : Bool) : 0 < accessCost s w a seq := by
  have hfirst : ∀ g, 0 < if seq then romS s.waitcnt g else romN s.waitcnt g := fun g => by
    split
    · exact romS_pos ..
    · exact romN_pos ..
  cases hr : regionOf a with
  | bios | iwram | io | oam | unmapped => simp only [accessCost, hr, Nat.one_pos]
  | palette | vram | ewram =>
    simp only [accessCost, hr]
    split <;> decide
  | rom g =>
    simp only [accessCost, hr]
    split
    · exact Nat.add_pos_left (hfirst g) _
    · exact hfirst g
  | save => simp only [accessCost, hr, Nat.add_pos_left Nat.one_pos]

theorem irqCost_cycles_pos (s t : State) : 0 < (irqCost s t).cycles :=
  Nat.add_pos_left (accessCost_pos ..) _

/-- Settles O49: the boundary with no channel pending, by whether the interrupt is ready. -/
theorem interruptIsTaken : Obligations.InterruptIsTaken := by
  rintro s _ rfl hdma
  have hdma := pendingChannel_eq_none_iff.mpr hdma
  refine ⟨fun h => ?taken, fun h => ?_, fun h hhalt i => ?_⟩
  case taken =>
    have hready := irqReady_iff.mpr h
    exact ⟨wake_halt_of_irqReady hready, _, _, irqCost_cycles_pos .., rfl, entered_enterException rfl ..,
      step_of_irqReady hdma hready⟩
  all_goals have hirq := Bool.eq_false_iff.mpr fun hready => h (irqReady_iff.mp hready)
  · exact step_of_halt hdma hirq
  · exact step_of_decodeFetched hdma hirq hhalt

/-! ### The return (60_exceptions R812, R814, R815) -/

/-- The instruction behind an aligned one is aligned. -/
theorem State.PcInv.next {s : State} (hs : s.PcInv) : alignedFor s.cpsr.t (s.pc + s.isize) := by
  refine alignedFor_add (pcInv_iff.mp hs) ?_
  unfold State.isize
  cases s.cpsr.t <;> exact alignedFor_iff.mpr rfl

/-- A return to an address aligned for the saved state restores that state and goes there. -/
theorem runs_return {s h : State} {op : DpOp} {rn : RegNum} {op2 : Operand2} (hop2 : ShiftUsable op2) {i : Instr}
    (hi : exec i h = conditional .al h (dataProcessing op true rn 15#4 op2))
    (hsaved : h.spsrOf h.cpsr.mode = some s.cpsr.saved) {p : Word} (hp : alignedFor s.cpsr.t p)
    (hv : (dpResult op rn op2 h).value = p) :
    Runs i h fun t => t.cpsr = s.cpsr ∧ t.pc = p ∧ StatusFrame [] h t := by
  rw [conditional_passed rfl, dataProcessing_r15 hop2, if_pos rfl, hv] at hi
  exact ⟨_, hi.trans (exceptionReturn_eq hsaved (Cpsr.restored_saved _) p), rfl, align_of_alignedFor hp,
    (statusFrame_setCpsr h _).trans (registerFrame_setPc ..).toStatus⟩

/-- An entry leaves what the handler of its mode returns by. -/
theorem enterException_forReturn {m : Mode} (hm : m.hasSpsr = true) (vector link : Word) (s : State) :
    let t := enterException m vector link false s
    t.cpsr.mode = m ∧ t.spsrOf m = some s.cpsr.saved ∧ t.x 14#4 = link := by
  have hent := entered_enterException hm vector link s
  have hmode : (enterException m vector link false s).cpsr.mode = m := congrArg Cpsr.mode hent.cpsr
  exact ⟨hmode, spsrOf_enterException hm .., (State.x_of_view (r := m.lr) (by rw [hmode]; rfl)).trans hent.link⟩

/-- Settles O50: the value of each return is the address the entry's link stands for, and the three entries are
`enterException`. -/
theorem returnUndoesEntry : Obligations.ReturnUndoesEntry := by
  intro s h rn hs
  refine ⟨fun m hm hmode hsaved hlr => ?_, fun hmode hsaved hlr => ?_, ?_⟩
  · have hop2 : ShiftUsable (.shiftImm .lsl 0#5 14#4) := fun _ _ => nofun
    exact runs_return (op := .mov) (rn := rn) hop2 rfl (hmode ▸ hsaved) hs.next hlr
  · have hop2 : ShiftUsable (.imm 0#4 4#8) := fun _ _ => nofun
    exact runs_return (op := .sub) (rn := 14#4) hop2 rfl (hmode ▸ hsaved) (pcInv_iff.mp hs)
      ((addWithCarry_not_true_value (h.x 14#4) 4#32).trans (by rw [hlr, BitVec.add_sub_cancel]))
  · simp only [List.forall_mem_cons]
    exact ⟨enterException_forReturn rfl .., enterException_forReturn rfl .., enterException_forReturn rfl ..,
      List.forall_mem_nil _⟩

/-! ### USR mode (60_exceptions R855, R856) -/

/-- What USR mode may not change stays: the mode, I, F, the privileged banks and every SPSR. -/
structure Confined (s t : State) : Prop where
  mode : t.cpsr.mode = s.cpsr.mode
  irqDisable : t.cpsr.i = s.cpsr.i
  fiqDisable : t.cpsr.f = s.cpsr.f
  banks : ∀ r ∈ privilegedBanks, t.reg r = s.reg r
  spsrs : ∀ m, t.spsrOf m = s.spsrOf m

theorem Confined.trans {s t u : State} (h : Confined s t) (g : Confined t u) : Confined s u where
  mode := g.mode.trans h.mode
  irqDisable := g.irqDisable.trans h.irqDisable
  fiqDisable := g.fiqDisable.trans h.fiqDisable
  banks r hr := (g.banks r hr).trans (h.banks r hr)
  spsrs m := (g.spsrs m).trans (h.spsrs m)

/-- What an exception into mode `m` does to the status registers and the privileged banks. -/
structure TrapsInto (m : Mode) (s t : State) : Prop where
  cpsr : t.cpsr = { s.cpsr with t := false, i := true, mode := m }
  saved : t.spsrOf m = some s.cpsr.saved
  spsrs : ∀ n, n ≠ m → t.spsrOf n = s.spsrOf n
  banks : ∀ r ∈ privilegedBanks, r ≠ m.lr → t.reg r = s.reg r

theorem trapsInto_enterException {m : Mode} (h : m.hasSpsr = true) (vector link : Word) (s : State) :
    TrapsInto m s (enterException m vector link false s) := by
  have hent := entered_enterException h vector link s
  exact ⟨hent.cpsr, spsrOf_enterException h .., hent.spsrs, fun r _ hr => hent.regs r (by simpa using hr)⟩

/-! What stands around an instruction or an entry: nothing that either statement speaks of changes there. -/

theorem CpuKept.ticked {s t : State} (h : CpuKept s t) : CpuTicked s t := ⟨h.regs, h.cpsr, h.pc, h.core.spsrOf⟩

theorem cpuTicked_wake (s : State) : CpuTicked s (wake s) := by
  rw [wake_eq]
  exact ⟨rfl, rfl, rfl, fun m => by cases m <;> rfl⟩

theorem cpuTicked_fetched (s : State) : CpuTicked s (fetched s) := ⟨rfl, rfl, rfl, fun m => by cases m <;> rfl⟩

theorem CpuTicked.confined {s t : State} (h : CpuTicked s t) : Confined s t :=
  ⟨by rw [h.cpsr], by rw [h.cpsr], by rw [h.cpsr], fun r _ => h.reg r, h.spsrs⟩

theorem TrapsInto.ticked {m : Mode} {s u v t : State} (h : TrapsInto m u v) (hsu : CpuTicked s u) (hvt : CpuTicked v t) :
    TrapsInto m s t where
  cpsr := by rw [hvt.cpsr, h.cpsr, hsu.cpsr]
  saved := by rw [hvt.spsrs, h.saved, hsu.cpsr]
  spsrs n hn := ((hvt.spsrs n).trans (h.spsrs n hn)).trans (hsu.spsrs n)
  banks r hr hne := ((hvt.reg r).trans (h.banks r hr hne)).trans (hsu.reg r)

/-- In USR mode an instruction is confined, traps, or is the SoftReset call: a control-field MSR and an SPSR write need a
privileged mode, and a return needs an SPSR. -/
theorem Ended.confined {i : Instr} {s t : State} (hm : s.cpsr.mode = .usr) (h : Ended i s t) :
    Confined s t ∨ (∃ m, (m = .und ∨ m = .svc) ∧ TrapsInto m s t) ∨
      IsSoftReset i s ∧ t.cpsr = ⟨false, false, false, false, false, false, false, .sys⟩ := by
  cases h with
  | plain h _ =>
    exact .inl ⟨congrArg Cpsr.mode h.cpsr, congrArg Cpsr.i h.cpsr, congrArg Cpsr.f h.cpsr, fun _ => h.privileged hm,
      h.core.spsrOf⟩
  | flags h => exact .inl ⟨rfl, rfl, rfl, fun _ => h.privileged hm, h.core.spsrOf⟩
  | exchange => exact .inl ⟨rfl, rfl, rfl, fun _ _ => rfl, fun m => by cases m <;> rfl⟩
  | control _ hpriv => exact absurd hm hpriv
  | spsr hspsr => rw [hm] at hspsr; cases hspsr
  | @enters m hmode vector _ link =>
    exact .inr (.inl ⟨m, hmode, trapsInto_enterException (by rcases hmode with rfl | rfl <;> rfl) vector link s⟩)
  | restores _ _ hspsr => rw [hm] at hspsr; cases hspsr
  | softReset hi => exact .inr (.inr ⟨hi, hleSoftReset_cpsr s⟩)

/-- The end of a halt changes nothing that a fetch reads. -/
theorem decodeFetched_wake (s : State) :
    decodeFetched (wake s) (fetchValue (wake s)) = decodeFetched s (fetchValue s) := by
  rw [wake_eq]
  rfl

/-- A step in USR mode is confined, traps, or is the SoftReset call: by the kinds of step. -/
theorem step_confined {s t : State} (hm : s.cpsr.mode = .usr) (h : step s = .next t) :
    Confined s t ∨ (∃ m, (m = .und ∨ m = .svc ∨ m = .irq) ∧ TrapsInto m s t) ∨
      ∃ i, decodeFetched s (fetchValue s) = .ok i ∧ IsSoftReset i s ∧
        t.cpsr = ⟨false, false, false, false, false, false, false, .sys⟩ := by
  have hwake := cpuTicked_wake s
  obtain ⟨k, u, c, -, hu, rfl⟩ | ⟨c, -, rfl⟩ | ⟨-, rfl⟩ | ⟨i, u, c, hi, hu, rfl⟩ := step_cases h
  · exact .inl ((hwake.trans (cpuKept_dmaTransfer hu).ticked).trans (cpuTicked_deviceTick c u)).confined
  · exact .inr (.inl ⟨.irq, .inr (.inr rfl), (trapsInto_enterException rfl ..).ticked hwake (cpuTicked_endStep c _)⟩)
  · exact .inl (hwake.trans (cpuTicked_deviceTick 1 _)).confined
  · have hbefore := hwake.trans (cpuTicked_fetched (wake s))
    have hafter := cpuTicked_endStep c u
    have hmode : (fetched (wake s)).cpsr.mode = .usr := by rw [hbefore.cpsr, hm]
    obtain hconf | ⟨m, hm', htrap⟩ | ⟨hreset, hcpsr⟩ := (exec_ended i _ u hu).confined hmode
    · exact .inl ((hbefore.confined.trans hconf).trans hafter.confined)
    · exact .inr (.inl ⟨m, hm'.imp_right .inl, htrap.ticked hbefore hafter⟩)
    · refine .inr (.inr ⟨i, (decodeFetched_wake s).symm.trans hi, ?_, hafter.cpsr.trans hcpsr⟩)
      rw [wake_eq] at hreset
      exact hreset

/-- Settles O11: the three kinds of step of `step_confined`. -/
theorem userModeIsConfined : Obligations.UserModeIsConfined := by
  intro s t hm hstep
  obtain h | ⟨m, hmode, h⟩ | ⟨i, hi, ⟨hhle, hcall⟩, hcpsr⟩ := step_confined hm hstep
  · exact .inl ⟨h.mode.trans hm, h.irqDisable, h.fiqDisable, h.banks, h.spsrs⟩
  · exact .inr (.inl ⟨m, hmode, h.cpsr, h.saved, h.spsrs, h.banks⟩)
  · refine .inr (.inr ⟨hhle, ?_, hcpsr⟩)
    obtain ⟨cond, comment, rfl, hn⟩ | rfl := hcall
    · exact .inl ⟨cond, comment, hi, hn⟩
    · exact .inr hi

end Sys2Proof.Machine
end

section
/-! PROOFS. The interrupt and keypad registers, byte by byte. -/

namespace Sys2Proof.Machine

/-! ### Writes and reads of a 16-bit I/O register (20_memory R219) -/

theorem byteOf_append (v : Word) : byteOf v 1 ++ byteOf v 0 = v.setWidth 16 := by
  rw [byteOf, byteOf, BitVec.extractLsb'_append_extractLsb'_eq_extractLsb' (by decide),
    BitVec.setWidth_eq_extractLsb' (by decide)]

theorem halfByte_append (h : Half) : halfByte h 1 ++ halfByte h 0 = h := BitVec.extractLsb'_append_extractLsb'

section
variable (r mask : Half) (b b0 b1 : Byte)

theorem getLsbD_setHalfByte_zero (n : Nat) :
    (setHalfByte r 0 b).getLsbD n = if n < 8 then b.getLsbD n else r.getLsbD n := by
  rw [setHalfByte, if_pos rfl, BitVec.getLsbD_append, BitVec.getLsbD_extractLsb']
  by_cases hlow : n < 8
  · rw [if_pos hlow, if_pos hlow]
  · rw [if_neg hlow, if_neg hlow, Nat.add_sub_cancel' (Nat.le_of_not_lt hlow)]
    by_cases hn : n < 16
    · rw [decide_eq_true (by omega), Bool.true_and]
    · rw [BitVec.getLsbD_of_ge r n (by omega), Bool.and_false]

theorem getLsbD_setHalfByte_one (n : Nat) :
    (setHalfByte r 1 b).getLsbD n = if n < 8 then r.getLsbD n else b.getLsbD (n - 8) := by
  rw [setHalfByte, if_neg (by decide), BitVec.getLsbD_append, BitVec.getLsbD_extractLsb', Nat.zero_add]
  by_cases hlow : n < 8
  · rw [if_pos hlow, if_pos hlow, decide_eq_true hlow, Bool.true_and]
  · rw [if_neg hlow, if_neg hlow]

/-- Both bytes of a register written, each under its mask. -/
theorem setHalfByte_both : setHalfByte (setHalfByte r 0 b0 &&& mask) 1 b1 &&& mask = (b1 ++ b0) &&& mask := by
  refine BitVec.eq_of_getLsbD_eq fun n _ => ?_
  simp only [BitVec.getLsbD_and, getLsbD_setHalfByte_one, getLsbD_setHalfByte_zero, BitVec.getLsbD_append]
  by_cases hlow : n < 8 <;> simp [hlow]

/-- Bits cleared byte by byte. -/
theorem clear_both : r &&& ~~~(setHalfByte 0#16 0 b0) &&& ~~~(setHalfByte 0#16 1 b1) = r &&& ~~~(b1 ++ b0) := by
  refine BitVec.eq_of_getLsbD_eq fun n hn => ?_
  simp only [BitVec.getLsbD_and, BitVec.getLsbD_not, getLsbD_setHalfByte_one, getLsbD_setHalfByte_zero,
    BitVec.getLsbD_append]
  by_cases hlow : n < 8 <;> simp [hlow, hn]

/-- The low byte alone, in the bits KEYCNT keeps. -/
theorem setHalfByte_low_and : setHalfByte r 0 b0 &&& 0xC3FF#16 =
    (r &&& 0xC300#16) ||| (((b1 ++ b0) &&& 0xC3FF#16) &&& 0x00FF#16) := by
  refine BitVec.eq_of_getLsbD_eq fun n hn => ?_
  simp only [BitVec.getLsbD_or, BitVec.getLsbD_and, getLsbD_setHalfByte_zero, BitVec.getLsbD_append]
  interval_cases n <;> simp

end

theorem byteOf_zero_getLsbD_zero (v : Word) : (byteOf v 0).getLsbD 0 = v.getLsbD 0 := by
  rw [byteOf, BitVec.getLsbD_extractLsb']
  rfl

/-- A halfword read of a register gives its value. -/
theorem busRead_halfRegister {s : State} {a : Word} {v : Half} (hr : regionOf a ≠ .save)
    (h0 : peek s (alignHalf a) = some (halfByte v 0)) (h1 : peek s (alignHalf a + 1#32) = some (halfByte v 1)) :
    busRead s .half a = v.setWidth 32 := by
  rw [busRead_half hr h0 h1, halfByte_append]

theorem setWidth_ofBool (b : Bool) : (0#15 ++ BitVec.ofBool b).setWidth 32 = if b then 1#32 else 0#32 := by
  cases b <;> rfl

/-! ### Requests (60_exceptions R831) and the keypad's (61_timers R982) -/

theorem requestIrq_iff_getLsbD (s : State) {n : Nat} (hn : n < 16) (k : Nat) :
    (s.requestIrq n).irq.iff.getLsbD k = (s.irq.iff.getLsbD k || decide (k = n)) := by
  rw [State.requestIrq, BitVec.getLsbD_or, ← BitVec.twoPow_eq, BitVec.getLsbD_twoPow]
  congr 1
  rw [decide_eq_true hn, Bool.true_and, decide_eq_decide]
  exact eq_comm

/-- The keypad check sets bits of IF alone. -/
theorem keypadCheck_eq (s : State) : keypadCheck s = { s with irq := { s.irq with iff := (keypadCheck s).irq.iff } } := by
  unfold keypadCheck
  split <;> rfl

theorem keypadCheck_iff_getLsbD (s : State) (n : Nat) : (keypadCheck s).irq.iff.getLsbD n =
    (s.irq.iff.getLsbD n || decide (n = 12) && (s.params.keypadIrq && keypadCondition s.keys)) := by
  unfold keypadCheck
  split
  · next h => rw [requestIrq_iff_getLsbD s (by decide), h, Bool.and_true]
  · next h => rw [Bool.eq_false_iff.mpr h, Bool.and_false, Bool.or_false]

@[simp] theorem keypadCheck_keys (s : State) : (keypadCheck s).keys = s.keys := by rw [keypadCheck_eq]

@[simp] theorem keypadCheck_params (s : State) : (keypadCheck s).params = s.params := by rw [keypadCheck_eq]

/-- KEYCNT replaced. -/
def State.withKeycnt (s : State) (k : Half) : State := { s with keys := { s.keys with keycnt := k } }

/-- A byte write of KEYCNT is a change and a check. -/
theorem ioWriteByte_keycnt (s : State) {i : Nat} (hi : i < 2) (b : Byte) : ioWriteByte s (0x132 + i) b =
    keypadCheck (s.withKeycnt (setHalfByte s.keys.keycnt i b &&& 0xC3FF#16)) := by
  interval_cases i <;> rfl

section
variable (s : State) (v : Word)

/-- KEYCNT between the two byte writes of `v`: the old high byte, the new low one. -/
def keycntBetween : Half := (s.keys.keycnt &&& 0xC300#16) ||| ((v.setWidth 16 &&& 0xC3FF#16) &&& 0x00FF#16)

/-- A halfword write of KEYCNT: each byte in turn, with a check behind each (20_memory R219; log 31). -/
theorem busWrite_keycnt : busWrite s .half 0x04000132#32 v =
    keypadCheck ((keypadCheck (s.withKeycnt (keycntBetween s v))).withKeycnt (v.setWidth 16 &&& 0xC3FF#16)) := by
  have hlow : setHalfByte s.keys.keycnt 0 (byteOf v 0) &&& 0xC3FF#16 = keycntBetween s v := by
    rw [keycntBetween, ← byteOf_append, setHalfByte_low_and]
  have hboth : setHalfByte (keycntBetween s v) 1 (byteOf v 1) &&& 0xC3FF#16 = v.setWidth 16 &&& 0xC3FF#16 := by
    rw [← hlow, setHalfByte_both, byteOf_append]
  calc busWrite s .half 0x04000132#32 v
    _ = ioWriteByte (ioWriteByte s (0x132 + 0) (byteOf v 0)) (0x132 + 1) (byteOf v 1) := rfl
    _ = _ := by
      rw [ioWriteByte_keycnt s (by decide), hlow, ioWriteByte_keycnt _ (by decide), keypadCheck_keys]
      exact congrArg (fun k => keypadCheck (State.withKeycnt _ k)) hboth

/-- It changes KEYCNT and bits of IF alone. -/
theorem busWrite_keycnt_frame : busWrite s .half 0x04000132#32 v =
    { s with keys := { s.keys with keycnt := v.setWidth 16 &&& 0xC3FF#16 },
             irq := { s.irq with iff := (busWrite s .half 0x04000132#32 v).irq.iff } } := by
  rw [busWrite_keycnt]
  refine (keypadCheck_eq _).trans ?_
  rw [keypadCheck_eq (s.withKeycnt _)]
  rfl

/-- The keypad's request is made, with KEYCNT at `k`. -/
def keypadRequests (k : Half) : Bool := s.params.keypadIrq && keypadCondition { s.keys with keycnt := k }

/-- It requests interrupt 12 if one of the two checks holds. -/
theorem busWrite_keycnt_getLsbD (n : Nat) : (busWrite s .half 0x04000132#32 v).irq.iff.getLsbD n =
    (s.irq.iff.getLsbD n || decide (n = 12) &&
      (keypadRequests s (keycntBetween s v) || keypadRequests s (v.setWidth 16 &&& 0xC3FF#16))) := by
  rw [busWrite_keycnt, keypadCheck_iff_getLsbD, Bool.and_or_distrib_left, ← Bool.or_assoc]
  refine congrArg₂ _ (keypadCheck_iff_getLsbD (s.withKeycnt _) n) ?_
  simp only [keypadRequests, State.withKeycnt, keypadCheck_keys, keypadCheck_params]

end

/-- Settles O57: both bytes of each register, and the keypad's two checks. -/
theorem interruptRegisters : Obligations.InterruptRegisters := by
  refine ⟨?keys, ?regs⟩
  case keys =>
    rintro s _ v _ rfl rfl
    refine ⟨busRead_halfRegister (by decide) rfl rfl, rfl, busRead_halfRegister (by decide) rfl rfl,
      busWrite_keycnt_frame s v, ?_, fun n hn => ?_⟩
    · rw [busWrite_keycnt_getLsbD]
      simp only [keypadRequests, decide_true, Bool.true_and, Bool.or_eq_true, ← Bool.and_or_distrib_left, Bool.and_eq_true,
        keypadCondition_iff]
      rfl
    · rw [busWrite_keycnt_getLsbD, decide_eq_false hn, Bool.false_and, Bool.or_false]
  case regs =>
    rintro s v _ rfl
    refine ⟨?ie, ?iff, ?ime, ?postflg, rfl, busRead_halfRegister (by decide) rfl rfl,
      busRead_halfRegister (by decide) rfl rfl, ?readIme, ?readPostflg, fun n k hn _ => requestIrq_iff_getLsbD s hn k⟩
    case ie => rw [← byteOf_append, ← setHalfByte_both s.irq.ie]; rfl
    case iff => rw [← byteOf_append, ← clear_both]; rfl
    case ime => rw [BitVec.getLsbD_setWidth, ← byteOf_zero_getLsbD_zero]; rfl
    case postflg => rw [← byteOf_zero_getLsbD_zero]; rfl
    case readIme => exact (busRead_halfRegister (by decide) rfl rfl).trans (setWidth_ofBool _)
    case readPostflg =>
      rw [busRead_byte (by decide) (b := halfByte (0#15 ++ BitVec.ofBool s.irq.postflg) 0) rfl]
      cases s.irq.postflg <;> rfl

end Sys2Proof.Machine
end

section
/-! PROOFS. The device ranges, and the invariants at power-on. -/

namespace Sys2Proof.Machine

/-- Settles O9: every kind of step keeps the device ranges (`step_keeps`). -/
theorem stepKeepsDeviceRanges : Obligations.StepKeepsDeviceRanges := fun _ _ hs h => (step_keeps h).dev hs

/-! ### Power-on (70_reset R1201) -/

theorem wf_nil (unlisted : Nat → Option Byte) : Cells.wf unlisted [] := ⟨.nil, nofun⟩

theorem getElem_dma_powerOnBase (p : Config.Params) (k : Fin 4) : (State.powerOnBase p).dma[k] = DmaChannel.reset :=
  Vector.getElem_replicate k.isLt

theorem deviceInv_powerOnBase (p : Config.Params) : (State.powerOnBase p).DeviceInv where
  vcount := show 0 < 228 by decide
  hcycle := show 0 < 1232 by decide
  fifoA := Nat.zero_le _
  fifoB := Nat.zero_le _
  dispcnt := show (0x0080#16).getLsbD 3 = false by decide
  ie := BitVec.extractLsb'_zero ..
  iff := BitVec.extractLsb'_zero ..
  waitcnt := BitVec.zero_and
  keyinput := show (0x03FF#16).extractLsb' 10 6 = 0#6 by decide
  dmaControl k := by
    rw [getElem_dma_powerOnBase]
    exact ⟨BitVec.extractLsb'_zero .., fun _ => BitVec.getLsbD_zero⟩

/-- The boot modes differ in the CPU, POSTFLG and the affine scale, which no device range is about. -/
theorem deviceInv_powerOn (p : Config.Params) : (State.powerOn p).DeviceInv := by
  unfold State.powerOn
  have base := deviceInv_powerOnBase p
  cases p.bootMode with
  | skipBios => exact base
  | biosReset =>
    have devices := (base.setIrq (q := ⟨0, 0, false, false⟩) rfl rfl).setPpu (p := Ppu.reset 0) rfl base.vcount base.hcycle
    exact devices.congr rfl rfl rfl rfl rfl rfl rfl

/-- Settles O10: memory is empty, pc is the start of BIOS or ROM in ARM state, and the devices are at reset. -/
theorem invariantsAtPowerOn : Obligations.InvariantsAtPowerOn := by
  refine fun p => ⟨?memory, ?pc, deviceInv_powerOn p⟩
  case memory =>
    unfold State.powerOn
    cases p.bootMode <;> exact ⟨wf_nil _, wf_nil _⟩
  case pc =>
    unfold State.powerOn
    cases p.bootMode with
    | skipBios => exact show alignedFor false 0x08000000#32 from alignedFor_iff.mpr (by decide)
    | biosReset => exact show alignedFor false 0#32 from alignedFor_iff.mpr (by decide)

end Sys2Proof.Machine
end

section
/-! PROOFS. Every storing instruction stops where its store falls on the next two instruction slots (70_reset R1220). -/

namespace Sys2Proof.Machine

/-! ### Single stores -/

section
variable {s : State} {i : Instr} {width : Width} {v a : Word}

theorem storeTransfer_hazard {align : Word → Word} {p u w : Bool} {rn : RegNum} {o : Word}
    (hz : storeHazard s width (align (accessAddr p u (s.x rn) o)) = true) :
    storeTransfer width align v p u w rn o s = .fault .pipelineHazard := by
  rw [storeTransfer, transferAddr, cpuStore_hazard hz, andThen_fault]

theorem storeWordForm_hazard {p u w : Bool} {rn rd : RegNum} {off : Offset} (hbase : BaseUsable p w rn rd)
    (hoff : OffsetUsable off) (hz : storeHazard s .word (alignWord (accessAddr p u (s.x rn) (offsetValue s off))) = true) :
    storeWordForm p u w rn rd off s = .fault .pipelineHazard := by
  rw [storeWordForm, badSingle_word_eq_false hbase hoff, unlessUnpredictable_false]
  exact storeTransfer_hazard hz

theorem storeByteForm_hazard {p u w : Bool} {rn rd : RegNum} {off : Offset} (hbase : BaseUsable p w rn rd)
    (hoff : OffsetUsable off) (hrd : rd ≠ 15#4)
    (hz : storeHazard s .byte (accessAddr p u (s.x rn) (offsetValue s off)) = true) :
    storeByteForm p u w rn rd off s = .fault .pipelineHazard := by
  rw [storeByteForm, badSingle_byte_eq_false hbase hoff hrd, unlessUnpredictable_false]
  exact storeTransfer_hazard hz

theorem storeHalfForm_hazard {p u w : Bool} {rn rd rm : RegNum} {o : Word} (hbase : BaseUsable p w rn rd)
    (hpw : ¬(p = false ∧ w = true)) (hrd : rd ≠ 15#4) (hrm : rm ≠ 15#4)
    (hz : storeHazard s .half (alignHalf (accessAddr p u (s.x rn) o)) = true) :
    storeHalfForm p u w rn rd rm o s = .fault .pipelineHazard := by
  rw [storeHalfForm, badHalf_eq_false hbase hpw hrd hrm, unlessUnpredictable_false]
  exact storeTransfer_hazard hz

theorem swapForm_hazard {load : State → Word → Word} {align : Word → Word} {rn rd rm : RegNum}
    (hok : badSwap rn rd rm = false) (hz : storeHazard s width (align (s.x rn)) = true) :
    swapForm width load align rn rd rm s = .fault .pipelineHazard := by
  have hbump : storeHazard s.bump width (align (s.x rn)) = true := hz
  rw [swapForm, hok, unlessUnpredictable_false, cpuStore_hazard hbump, andThen_fault]

theorem thumbStore_hazard {rd : LowReg} (hz : storeHazard s width a = true) :
    thumbStore width rd a s = .fault .pipelineHazard := by
  rw [thumbStore, cpuStore_hazard hz, andThen_fault]

end

/-! ### Block stores -/

/-- Every word number of a block transfer is that of a listed register. -/
theorem exists_lowerCount_eq {list : BitVec 16} {n k : Nat} (h : k < lowerCount list n) :
    ∃ i, i < n ∧ list.getLsbD i = true ∧ lowerCount list i = k := by
  induction n with
  | zero => exact absurd h (Nat.not_lt_zero k)
  | succ n ih =>
    rw [lowerCount, List.range_succ, List.countP_append, List.countP_singleton, ← lowerCount] at h
    by_cases hk : k < lowerCount list n
    · obtain ⟨i, hi, hbit, hcount⟩ := ih hk
      exact ⟨i, hi.trans (Nat.lt_succ_self n), hbit, hcount⟩
    · have hbit : list.getLsbD n = true := by
        by_contra hn
        rw [if_neg hn] at h
        exact hk h
      rw [if_pos hbit] at h
      exact ⟨n, Nat.lt_succ_self n, hbit, by omega⟩

/-- A hazard on one word of a block store stops its loop. -/
theorem storeWords_wordsInOrder_hazard {p u : Bool} {base : Word} {list : BitVec 16} {s : State}
    (hz : ¬NoBlockHazard p u base list s) (value : RegNum → Word) :
    storeWords (wordsInOrder p u base list value) s = .fault .pipelineHazard := by
  simp only [NoBlockHazard, not_forall, Bool.not_eq_false] at hz
  obtain ⟨k, hk, hz⟩ := hz
  obtain ⟨i, hi, hbit, rfl⟩ := exists_lowerCount_eq hk
  have hnum : (BitVec.ofNat 4 i).toNat = i := by rw [BitVec.toNat_ofNat, Nat.mod_eq_of_lt hi]
  refine storeWords_hazard _ s ⟨_, mem_wordsInOrder.mpr ⟨BitVec.ofNat 4 i, ?_, rfl⟩, ?_⟩ <;> rwa [hnum]

theorem storeMultiple_hazard {p u sb w : Bool} {rn : RegNum} {list : BitVec 16} {s : State}
    (hok : badStm sb w rn list s.cpsr.mode = false) (hz : ¬NoBlockHazard p u (s.x rn) list s) :
    storeMultiple p u sb w rn list s = .fault .pipelineHazard := by
  rw [storeMultiple, hok, unlessUnpredictable_false]
  dsimp only
  rw [blockWords_eq, storeWords_wordsInOrder_hazard hz, andThen_fault]

/-- PUSH's words lie where a pre-indexed down-mode block transfer puts them (45_thumb R731). -/
theorem noBlockHazard_push {base : Word} {list : BitVec 16} {s : State} :
    NoBlockHazard false true (base - BitVec.ofNat 32 (4 * lowerCount list 16)) list s ↔ NoBlockHazard true false base list s :=
  Iff.rfl

/-! ### The emulated BIOS functions that store -/

section
variable {s : State} {i : Instr} {n : Byte} {f : Config.HleFn} {stores : List (Width × Word)}

/-- A selected function whose stores are gated stops at a hazard on any of them. -/
theorem SwiCall.stops {r : Result} {k : State → Result} (h : SwiCall i n s) (hhle : s.params.swiHandling = .hle)
    (hfn : hleFunction n = some f) (hmem : f ∈ s.params.hleSwiSet) (hrun : hleRun f s = andThen r k)
    (hr : Gated s stores r) (hz : ∃ e ∈ stores, storeHazard s e.1 e.2 = true) : exec i s = .fault .pipelineHazard := by
  rw [h.exec_hleCall hhle hfn hmem, hleCall, hrun, hr.stop hz, andThen_fault, andThen_fault]

theorem gated_hleUnits {w : Width} (hw : w ≠ .byte) (count : Nat) (fill : Bool) :
    Gated s (unitAddrs w (w.align (s.x 1#4)) count) (hleUnits w count fill s) := by
  cases fill with
  | true => exact gated_fillUnits hw _ count _ s.bump rfl rfl
  | false => exact gated_copyUnits hw count _ _ s rfl rfl

/-- A legal record is unpacked word by word from R1 on. -/
theorem hleBitUnPack_gated {len sw dw : Word} (hlen : ReadsAs s .half (s.x 2#4) len)
    (hsw : ReadsAs s .byte (s.x 2#4 + 2#32) sw) (hdw : ReadsAs s .byte (s.x 2#4 + 3#32) dw)
    (hs : sw.toNat ∈ [1, 2, 4, 8]) (hd : dw.toNat ∈ [1, 2, 4, 8, 16, 32]) :
    ∃ r, hleBitUnPack s = andThen r drawAllScratch ∧
      Gated s (unitAddrs .word (s.x 1#4) (len.toNat * (8 / sw.toNat) * dw.toNat / 32)) r := by
  have hlen0 : busRead s .half (s.x 2#4) = len := (wrote_nil s).read hlen
  have hsw1 : busRead s.bump .byte (s.x 2#4 + 2#32) = sw := (wrote_nil s).bump.read hsw
  have hdw2 : busRead s.bump.bump .byte (s.x 2#4 + 3#32) = dw := (wrote_nil s).bump.bump.read hdw
  have hlegal : ([1, 2, 4, 8].contains sw.toNat && [1, 2, 4, 8, 16, 32].contains dw.toNat) = true := by
    rw [Bool.and_eq_true, List.contains_iff_mem, List.contains_iff_mem]
    exact ⟨hs, hd⟩
  refine ⟨unpackBytes sw.toNat dw.toNat (busRead s.bump.bump.bump .word (s.x 2#4 + 4#32)) len.toNat (s.x 0#4)
    ⟨0#32, 0, s.x 1#4⟩ s.bump.bump.bump.bump, ?run, ?gated⟩
  case run =>
    rw [hleBitUnPack]
    simp only [hleReads, hlen0, hsw1, hdw2, List.getD_cons_zero, List.getD_cons_succ, hlegal, if_true]
  case gated =>
    have hstart : Unpack.Partial dw.toNat ⟨0#32, 0, s.x 1#4⟩ := ⟨Nat.succ_pos 31, Nat.zero_mod _⟩
    generalize hbias : busRead s.bump.bump.bump .word (s.x 2#4 + 4#32) = bias
    have hsame := (wrote_nil s).bump.bump.bump.bump
    have hbytes := gated_unpackBytes (sw := sw.toNat) (bias := bias) hd len.toNat (s.x 0#4) _ _ hstart hsame.cpsr hsame.pc
    rwa [unpackAddrs, Nat.zero_add] at hbytes

end

/-- Settles O56: each storing form stops at its store, each function at the first of its stores with a hazard. -/
theorem storeHazardsStop : Obligations.StoreHazardsStop := by
  refine ⟨?instructions, ?functions⟩
  case instructions =>
    rintro s cond p u sb w r rn rd rm off imm8 list8 list ro rb lo imm5 _ hpass rfl b x o stops
    have hcond : ∀ {i : Instr} {f : State → Result}, exec i s = conditional cond s f →
        f s = .fault .pipelineHazard → stops i := fun hi hf => hi.trans ((conditional_passed hpass _).trans hf)
    refine ⟨fun hbase hoff hz => ?word, fun hbase hoff hrd hz => ?byte, fun hbase hrd hpw => ?half,
      fun hrn hrd hrm hnd hnm => ?swap, fun hlist hrn hsb hz => ?stm, ?thumb, fun hlist hz => ?push,
      fun hlist hz => ?stmia⟩
    case word =>
      have hform := storeWordForm_hazard hbase hoff hz
      refine ⟨hcond rfl hform, ?_⟩
      rintro rfl rfl
      exact hcond rfl hform
    case byte =>
      have hform := storeByteForm_hazard hbase hoff hrd hz
      refine ⟨hcond rfl hform, ?_⟩
      rintro rfl rfl
      exact hcond rfl hform
    case half =>
      have hform : ∀ (i : Instr) (r : RegNum) (o : State → Word), r ≠ 15#4 →
          exec i s = conditional cond s (fun s1 => storeHalfForm p u w rn rd r (o s1) s1) →
          storeHazard s .half (alignHalf (accessAddr p u (s.x rn) (o s))) = true → stops i :=
        fun i r o hr hi hz => hcond hi (storeHalfForm_hazard hbase hpw hrd hr hz)
      exact ⟨hform _ 0#4 (fun _ => imm8.setWidth 32) (by decide) rfl, fun hrm => hform _ rm (·.x rm) hrm rfl⟩
    case swap =>
      have hok : badSwap rn rd rm = false := by
        rw [← Bool.not_eq_true, badSwap_iff]
        tauto
      exact ⟨fun hz => hcond rfl (swapForm_hazard hok hz), fun hz => hcond rfl (swapForm_hazard hok hz)⟩
    case stm => exact hcond rfl (storeMultiple_hazard (badStm_eq_false hlist hrn hsb) hz)
    case thumb =>
      have ho : ∀ k, o k = immOffsetAddr imm5 k rb s := fun k => (immOffsetAddr_eq imm5 k rb s).symm
      simp only [ho, ← word8Offset_eq, List.forall_mem_cons]
      exact ⟨thumbStore_hazard, thumbStore_hazard, thumbStore_hazard, thumbStore_hazard, thumbStore_hazard,
        thumbStore_hazard, thumbStore_hazard, List.forall_mem_nil _⟩
    case push =>
      refine (exec_thumbPush rfl hlist rfl).trans ?_
      rw [storeWords_wordsInOrder_hazard (noBlockHazard_push.not.mpr hz), andThen_fault]
    case stmia =>
      refine (exec_thumbStmia rfl hlist rfl rfl).trans ?_
      rw [storeWords_wordsInOrder_hazard hz, andThen_fault]
  case functions =>
    intro s i n stores hcall hhle hz stops at'
    refine ⟨?copy, ?bg, ?obj, ?unpack⟩
    case copy =>
      rintro w count hfn rfl
      rcases hfn with ⟨rfl, hmem, rfl, rfl⟩ | ⟨rfl, hmem, rfl, rfl⟩
      · exact hcall.stops hhle rfl hmem (hleRun_cpuSet s) (gated_hleUnits (by split <;> decide) _ _) hz
      · exact hcall.stops hhle rfl hmem (hleRun_cpuFastSet s) (gated_hleUnits (by decide) _ _) hz
    case bg =>
      rintro rfl hmem hlist
      refine hcall.stops hhle rfl hmem rfl (.of_eq ?_ (gated_bgAffineEntries _ _ _ s rfl rfl)) hz
      simp only [hlist, bgAffineAddrs, List.map_cons, List.map_nil, at', BitVec.ofNat_add, BitVec.add_zero, ← BitVec.add_assoc]
    case obj =>
      rintro rfl hmem hlist
      refine hcall.stops hhle rfl hmem rfl (.of_eq ?_ (gated_objAffineEntries _ _ _ _ s rfl rfl)) hz
      have hrange : List.range 4 = [0, 1, 2, 3] := rfl
      have hthree : ∀ n : Nat, 3 * n = n + n + n := fun n => by omega
      simp only [hlist, objAffineAddrs, at', hrange, List.map_cons, List.map_nil, Nat.add_mul, Nat.zero_mul, Nat.one_mul,
        Nat.two_mul, hthree, BitVec.ofNat_add, BitVec.ofNat_toNat, BitVec.setWidth_eq, BitVec.add_zero, ← BitVec.add_assoc]
    case unpack =>
      rintro rfl hmem len sw dw hlen hsw hdw hs hd rfl
      obtain ⟨r, hrun, hgated⟩ := hleBitUnPack_gated hlen hsw hdw hs hd
      exact hcall.stops hhle rfl hmem hrun hgated hz

end Sys2Proof.Machine
end

section
/-! PROOFS. The video: what a line is rendered from, the events of a line, the position after n cycles, and the lines
without layers (62_ppu R1003-R1005, R1025, R1026, R1105, R1106, R1140; 61_timers R936, R980, R982). -/

namespace Sys2Proof.Machine

/-! ### A line is rendered from the registers and memory -/

section
variable (s : State) (h : Nat)

/-- The state with the video position at another cycle of its line. -/
def State.atCycle : State := s.setPpu { s.ppu with hcycle := h }

theorem bgPixel_atCycle (k : Fin 4) (x y : Nat) : bgPixel (s.atCycle h) k x y = bgPixel s k x y := rfl

theorem objPixel_atCycle (o : ObjEntry) (x y : Nat) : objPixel (s.atCycle h) o x y = objPixel s o x y := rfl

theorem controlSet_atCycle (objs : List ObjEntry) (x y : Nat) :
    controlSet (s.atCycle h) objs x y = controlSet s objs x y := by
  simp only [controlSet, objWindowMask, objPixel_atCycle]
  rfl

theorem candidates_atCycle (objs : List ObjEntry) (ctl : BitVec 6) (x y : Nat) :
    candidates (s.atCycle h) objs ctl x y = candidates s objs ctl x y := by
  simp only [candidates, objSubLayer, bgPixel_atCycle, objPixel_atCycle]
  rfl

theorem colourEffect_atCycle (top second : Candidate) (en : Bool) :
    colourEffect (s.atCycle h) top second en = colourEffect s top second en := rfl

/-- The cycle counter is no part of what a line is rendered from. -/
theorem renderLine_atCycle (y : Nat) : renderLine (s.atCycle h) y = renderLine s y := by
  simp only [renderLine, pixelColour, controlSet_atCycle, candidates_atCycle, colourEffect_atCycle]
  rfl

end

/-! ### Requests and triggers -/

/-- The bit of IF that a request under a condition sets (60_exceptions R831). -/
def requestMask (b : Bool) (n : Nat) : Half := if b then 1#16 <<< n else 0#16

@[simp] theorem requestMask_false (n : Nat) : requestMask false n = 0#16 := rfl

theorem getLsbD_requestMask (b : Bool) {n : Nat} (hn : n < 16) (k : Nat) :
    (requestMask b n).getLsbD k = (b && decide (k = n)) := by
  cases b with
  | false => rw [requestMask_false, BitVec.getLsbD_zero, Bool.false_and]
  | true =>
    rw [Bool.true_and, requestMask, if_pos rfl, ← BitVec.twoPow_eq, BitVec.getLsbD_twoPow, decide_eq_true hn,
      Bool.true_and, decide_eq_decide, eq_comm]

theorem requestIf_eq (s : State) (b : Bool) (n : Nat) :
    s.requestIf b n = { s with irq := { s.irq with iff := s.irq.iff ||| requestMask b n } } := by
  cases b with
  | false => rw [requestMask_false, BitVec.or_zero]; rfl
  | true => rfl

/-- The channels after a trigger that reaches them under a condition. -/
def triggeredIf (now : Prop) [Decidable now] (timing : Nat) (d : Vector DmaChannel 4) : Vector DmaChannel 4 :=
  if now then d.map (·.trigger timing) else d

theorem getElem_triggeredIf (now : Prop) [Decidable now] (timing : Nat) (d : Vector DmaChannel 4) (k : Fin 4) :
    (triggeredIf now timing d)[k] =
      { d[k] with pending := d[k].pending || (decide now && d[k].enabled && decide (d[k].timing = timing)) } := by
  unfold triggeredIf
  split
  · next h =>
    rw [decide_eq_true h, Bool.true_and, ← DmaChannel.trigger_eq, Fin.getElem_fin, Vector.getElem_map]
    rfl
  · next h => rw [decide_eq_false h, Bool.false_and, Bool.false_and, Bool.or_false]

/-- KEYINPUT from the host's buttons, active low (61_timers R980). -/
def Keys.sampled (k : Keys) : Keys := { k with keyinput := (~~~k.hostKeys).setWidth 16 }

theorem getLsbD_sampled_keyinput (k : Keys) {i : Nat} (hi : i < 10) :
    k.sampled.keyinput.getLsbD i = !k.hostKeys.getLsbD i := by
  rw [Keys.sampled, BitVec.getLsbD_setWidth, BitVec.getLsbD_not, decide_eq_true (by omega), decide_eq_true hi,
    Bool.true_and, Bool.true_and]

/-- KEYINPUT takes the host's buttons, and interrupt 12 is requested if the keypad's condition then holds. -/
theorem sampleKeys_eq (s : State) : sampleKeys s =
    { s with
      keys := s.keys.sampled
      irq := { s.irq with
        iff := s.irq.iff ||| requestMask (s.params.keypadIrq && keypadCondition s.keys.sampled) 12 } } :=
  requestIf_eq { s with keys := s.keys.sampled } (s.params.keypadIrq && keypadCondition s.keys.sampled) 12

/-! ### The events (62_ppu R1005) -/

/-- The start of HBlank on line `v`: on a visible line the row, the affine advance and the trigger. -/
theorem hblankStart_eq (v : Nat) (s : State) : hblankStart v s =
    { s with
      ppu := { s.ppu with
        hblank := true
        aff2 := if v < 160 then s.ppu.aff2.advance else s.ppu.aff2
        aff3 := if v < 160 then s.ppu.aff3.advance else s.ppu.aff3 }
      irq := { s.irq with iff := s.irq.iff ||| requestMask s.ppu.hblankIrq 1 }
      dma := triggeredIf (v < 160) 2 s.dma
      frame := if v < 160 then s.frame.setRow v (renderLine s v) else s.frame } := by
  unfold hblankStart triggeredIf
  by_cases hv : v < 160
  · simp [State.setPpu, affineAdvance, renderRow, triggerDma, requestIf_eq, hv]
  · simp [State.setPpu, requestIf_eq, hv]

theorem vblankStart_eq (s : State) : vblankStart s =
    { s with
      ppu := { s.ppu with vblank := true }
      irq := { s.irq with iff := s.irq.iff ||| requestMask s.ppu.vblankIrq 0 }
      dma := s.dma.map (·.trigger 1)
      hostFrame := some s.frame } := by
  simp only [vblankStart, State.setPpu, triggerDma, requestIf_eq]

/-- IF after the requests of the start of line `v`: VBlank's, the keypad's and the match's. -/
def lineRequests (v : Nat) (s : State) : Half :=
  s.irq.iff ||| requestMask (decide (v = 160) && s.ppu.vblankIrq) 0
    ||| requestMask (decide (v = 0) && (s.params.keypadIrq && keypadCondition s.keys.sampled)) 12
    ||| requestMask (v == s.ppu.vcountSetting.toNat && s.ppu.vcountIrq) 2

/-- The start of line `v`: VBlank at 160 and 227, the affine reload and the keys at 0, and the match flag. -/
theorem lineStart_eq (v : Nat) (s : State) : lineStart v s =
    { s with
      ppu := { s.ppu with
        vcount := v
        hblank := false
        vblank := if v = 160 then true else if v = 227 then false else s.ppu.vblank
        vmatch := v == s.ppu.vcountSetting.toNat
        aff2 := if v = 0 then s.ppu.aff2.reload else s.ppu.aff2
        aff3 := if v = 0 then s.ppu.aff3.reload else s.ppu.aff3 }
      irq := { s.irq with iff := lineRequests v s }
      dma := triggeredIf (v = 160) 1 s.dma
      keys := if v = 0 then s.keys.sampled else s.keys
      hostFrame := if v = 160 then some s.frame else s.hostFrame } := by
  unfold lineStart triggeredIf lineRequests
  by_cases h160 : v = 160
  · have h227 : v ≠ 227 := by omega
    have h0 : v ≠ 0 := by omega
    simp [State.setPpu, requestIf_eq, vblankStart_eq, h160]
  by_cases h0 : v = 0
  · simp [State.setPpu, affineReload, requestIf_eq, sampleKeys_eq, h0]
  by_cases h227 : v = 227
  · simp [State.setPpu, requestIf_eq, h227]
  · simp [State.setPpu, requestIf_eq, h160, h227, h0]

/-! ### One cycle (62_ppu R1004) -/

section
variable {s : State}

theorem videoCycle_of_no_event (h : s.ppu.hcycle ≠ 959) (h' : s.ppu.hcycle ≠ 1231) :
    videoCycle s = s.atCycle (s.ppu.hcycle + 1) := by
  unfold videoCycle
  dsimp only
  rw [if_neg (by omega), if_neg (by omega)]
  rfl

theorem videoCycle_hblank (h : s.ppu.hcycle = 959) : videoCycle s = hblankStart s.ppu.vcount (s.atCycle 960) := by
  unfold videoCycle
  dsimp only
  rw [if_pos (by omega), h]
  rfl

theorem videoCycle_line (h : s.ppu.hcycle = 1231) :
    videoCycle s = lineStart ((s.ppu.vcount + 1) % 228) (s.atCycle 0) := by
  unfold videoCycle
  dsimp only
  rw [if_neg (by omega), if_pos (by omega)]
  rfl

end

/-- The number of cycles since the start of the frame. -/
def videoPosition (s : State) : Nat := s.ppu.vcount * 1232 + s.ppu.hcycle

theorem videoPosition_lt {s : State} (h : s.DeviceInv) : videoPosition s < 280896 := by
  have := h.vcount
  have := h.hcycle
  unfold videoPosition
  omega

theorem videoPosition_videoCycle {s : State} (h : s.DeviceInv) :
    videoPosition (videoCycle s) = (videoPosition s + 1) % 280896 := by
  have hv := h.vcount
  have hh := h.hcycle
  unfold videoPosition
  by_cases h959 : s.ppu.hcycle = 959
  · rw [videoCycle_hblank h959, hblankStart_eq]
    simp only [State.atCycle, State.setPpu_ppu]
    omega
  by_cases h1231 : s.ppu.hcycle = 1231
  · rw [videoCycle_line h1231, lineStart_eq]
    simp only [State.atCycle, State.setPpu_ppu]
    omega
  · rw [videoCycle_of_no_event h959 h1231]
    simp only [State.atCycle, State.setPpu_ppu]
    omega

/-- The position advances by one in each cycle, modulo a frame. -/
theorem videoPosition_videoTick (n : Nat) :
    ∀ s : State, s.DeviceInv → videoPosition (videoTick n s) = (videoPosition s + n) % 280896 := by
  induction n with
  | zero =>
    intro s h
    rw [videoTick, Nat.add_zero, Nat.mod_eq_of_lt (videoPosition_lt h)]
  | succ n ih =>
    intro s h
    rw [videoTick, ih _ ((ticked_videoCycle s).inv h), videoPosition_videoCycle h, Nat.mod_add_mod, Nat.add_assoc,
      Nat.add_comm 1]

/-! ### Lines without layers (62_ppu R1105, R1106) -/

theorem bgPixel_disabled {s : State} {k : Fin 4} (h : s.ppu.dispcnt.getLsbD (8 + k.val) = false) (x y : Nat) :
    bgPixel s k x y = none := by
  rw [bgPixel, h]
  rfl

/-- With no layer enabled no pixel has an opaque candidate, whatever its control set. -/
theorem candidates_eq_nil {s : State} (h : s.ppu.dispcnt.extractLsb' 8 5 = 0#5) (objs : List ObjEntry) (ctl : BitVec 6)
    (x y : Nat) : candidates s objs ctl x y = [] := by
  have hlayer : ∀ i, i < 5 → s.ppu.dispcnt.getLsbD (8 + i) = false := fun i hi => by
    have := congrArg (·.getLsbD i) h
    simpa [BitVec.getLsbD_extractLsb', hi] using this
  have hobj : s.ppu.dispcnt.getLsbD 12 = false := hlayer 4 (by decide)
  have hbg : ∀ k : Fin 4, bgPixel s k x y = none := fun k => bgPixel_disabled (hlayer k (by omega)) x y
  simp only [candidates, hbg, hobj, Option.map_none, ite_self, Bool.false_and]
  rfl

/-- The backdrop under no effect keeps its colour. -/
theorem colourEffect_backdrop {s : State} (h : s.ppu.bldcnt.extractLsb' 6 2 = 0#2) (en : Bool) :
    colourEffect s (backdrop s) (backdrop s) en = paletteEntry s 0 0 := by
  have he : fieldNat s.ppu.bldcnt 6 2 = 0 := by rw [fieldNat, h]; rfl
  unfold colourEffect
  rw [he]
  cases en <;> rfl

theorem renderLine_empty {s : State} (hblank : s.ppu.dispcnt.getLsbD 7 = false)
    (hlayers : s.ppu.dispcnt.extractLsb' 8 5 = 0#5) (heffect : s.ppu.bldcnt.extractLsb' 6 2 = 0#2) (y : Nat) :
    renderLine s y = List.replicate 240 (colorExpand s (paletteEntry s 0 0)) := by
  have hpixel : ∀ objs x, pixelColour s objs x y = paletteEntry s 0 0 := fun objs x => by
    rw [pixelColour, candidates_eq_nil hlayers]
    exact colourEffect_backdrop heffect _
  rw [renderLine, hblank]
  simp only [hpixel]
  exact (List.map_const' ..).trans (by rw [List.length_range])

theorem renderLine_blank {s : State} (hblank : s.ppu.dispcnt.getLsbD 7 = true) (hexpand : s.params.colorExpand = .standard)
    (y : Nat) : renderLine s y = List.replicate 240 ⟨0xFF#8, 0xFF#8, 0xFF#8, 0xFF#8⟩ := by
  rw [renderLine, if_pos hblank, colorExpand, hexpand]
  rfl

/-! ### The statement -/

theorem exists_trigger {d : Vector DmaChannel 4} {now : Prop} [Decidable now] {timing : Nat} (k : Fin 4) (c : DmaChannel)
    (hc : c = d[k]) : ∃ b : Bool, (b = true ↔ now ∧ c.enabled = true ∧ c.timing = timing) ∧
      (triggeredIf now timing d)[k] = { c with pending := c.pending || b } := by
  subst hc
  refine ⟨decide now && d[k].enabled && decide (d[k].timing = timing), ?_, getElem_triggeredIf now timing d k⟩
  simp only [Bool.and_eq_true, decide_eq_true_eq, and_assoc]

/-- The keypad's condition on sampled buttons is that on the host's. -/
theorem keypadCondition_sampled_iff (k : Keys) : keypadCondition k.sampled = true ↔ k.keycnt.getLsbD 14 = true ∧
    (∃ i, i < 10 ∧ k.keycnt.getLsbD i = true) ∧
    if k.keycnt.getLsbD 15 then ∀ i, i < 10 → k.keycnt.getLsbD i = true → k.hostKeys.getLsbD i = true
    else ∃ i, i < 10 ∧ k.keycnt.getLsbD i = true ∧ k.hostKeys.getLsbD i = true := by
  have hpressed : ∀ i, i < 10 → (k.sampled.keyinput.getLsbD i = false ↔ k.hostKeys.getLsbD i = true) := fun i hi => by
    rw [getLsbD_sampled_keyinput k hi, Bool.not_eq_false']
  rw [keypadCondition_iff]
  refine and_congr_right fun _ => and_congr_right fun _ => ?_
  show (if k.keycnt.getLsbD 15 = true then _ else _) ↔ _
  split
  · exact forall_congr' fun i => forall_congr' fun hi => imp_congr_right fun _ => hpressed i hi
  · exact exists_congr fun i => and_congr_right fun hi => and_congr_right fun _ => hpressed i hi

theorem getLsbD_lineRequests (v : Nat) (s : State) (n : Nat) : (lineRequests v s).getLsbD n = true ↔
    s.irq.iff.getLsbD n = true ∨ (n = 0 ∧ v = 160 ∧ s.ppu.vblankIrq = true) ∨
      (n = 2 ∧ v = s.ppu.vcountSetting.toNat ∧ s.ppu.vcountIrq = true) ∨
      (n = 12 ∧ v = 0 ∧ s.params.keypadIrq = true ∧ keypadCondition s.keys.sampled = true) := by
  have hmask := fun (b : Bool) {m : Nat} (hm : m < 16) => getLsbD_requestMask b hm n
  simp only [lineRequests, BitVec.getLsbD_or, hmask _ (show 0 < 16 by decide), hmask _ (show 12 < 16 by decide),
    hmask _ (show 2 < 16 by decide), Bool.or_eq_true, Bool.and_eq_true, decide_eq_true_eq, beq_iff_eq]
  tauto

/-- Settles O60: the position by induction, and each event from its closed form. -/
theorem videoTiming : Obligations.VideoTiming := by
  intro s n hinv position t v visible advanced reloaded triggered requests pressed c keypad
  refine ⟨videoPosition_videoTick n s hinv, videoCycle_of_no_event, fun h => ?hblank, fun h => ?line,
    fun hblank hexpand => renderLine_blank hblank hexpand n, fun hblank hlayers heffect => renderLine_empty hblank hlayers heffect n⟩
  case hblank =>
    have ht : t = _ := (videoCycle_hblank h).trans (hblankStart_eq ..)
    clear_value t
    subst ht
    refine ⟨rfl, fun k c hc => exists_trigger k c hc, ?requests, ?row, ?rows, rfl⟩
    case requests =>
      intro n
      show (s.irq.iff ||| requestMask s.ppu.hblankIrq 1).getLsbD n = true ↔ _
      rw [BitVec.getLsbD_or, getLsbD_requestMask _ (by decide), Bool.or_eq_true, Bool.and_eq_true, decide_eq_true_eq,
        and_comm (b := n = 1)]
    case row =>
      intro hv
      show (if s.ppu.vcount < 160 then s.frame.setRow _ (renderLine (s.atCycle 960) _) else s.frame).row _ = _
      rw [if_pos hv, Frame.row_setRow_same, renderLine_atCycle]
    case rows =>
      intro y hy
      show (if s.ppu.vcount < 160 then s.frame.setRow _ _ else s.frame).row y = _
      split
      · exact Frame.row_setRow_ne _ hy _
      · rfl
  case line =>
    have ht : t = _ := (videoCycle_line h).trans (lineStart_eq ..)
    clear_value t
    subst ht
    refine ⟨rfl, fun k c hc => exists_trigger k c hc, fun n => ?requests, rfl, rfl, rfl⟩
    case requests =>
      have hkeypad : (s.params.keypadIrq = true ∧ keypadCondition s.keys.sampled = true) ↔ keypad :=
        and_congr_right fun _ => keypadCondition_sampled_iff s.keys
      rw [← hkeypad]
      exact getLsbD_lineRequests v (s.atCycle 0) n

end Sys2Proof.Machine
end

section
/-! PROOFS. The registers of the timers, the sound FIFOs and the DMA channels, as writes and reads see them
(61_timers R900-R902, R930-R933, R960; 20_memory R219). -/

namespace Sys2Proof.Machine

/-! ### A place of the state replaced -/

section
variable {α : Type} (v : Vector α 4) (k : Fin 4) (a b : α)

theorem getElem_set_fin_same : (v.set k a)[k] = a := by simp

theorem getElem_set_fin_ne {j : Fin 4} (h : j ≠ k) : (v.set k a)[j] = v[j] := by
  simp only [Fin.getElem_fin]
  exact Vector.getElem_set_ne _ _ fun e => h (Fin.ext e.symm)

theorem set_fin_set : (v.set k a).set k b = v.set k b := by simp

end

theorem setTimer_get (s : State) (k : Fin 4) (t : Timer) : (s.setTimer k t).timers[k] = t := getElem_set_fin_same ..

theorem setTimer_setTimer (s : State) (k : Fin 4) (t u : Timer) : (s.setTimer k t).setTimer k u = s.setTimer k u := by
  simp only [State.setTimer, set_fin_set]

theorem setDma_get (s : State) (k : Fin 4) (c : DmaChannel) : (s.setDma k c).dma[k] = c := getElem_set_fin_same ..

theorem setDma_setDma (s : State) (k : Fin 4) (c d : DmaChannel) : (s.setDma k c).setDma k d = s.setDma k d := by
  simp only [State.setDma, set_fin_set]

/-! ### Accesses to the I/O block -/

/-- The address of an I/O offset. -/
def ioAddr (o : Nat) : Word := 0x04000000#32 + BitVec.ofNat 32 o

section
variable (s : State) (v : Word) {o : Nat}

theorem ioAddr_toNat (h : o < 0x400) : (ioAddr o).toNat = 0x04000000 + o := by
  rw [ioAddr, BitVec.toNat_add, BitVec.toNat_ofNat, BitVec.toNat_ofNat]
  omega

theorem regionOf_ioAddr (h : o < 0x400) : regionOf (ioAddr o) = .io := by
  have h24 : (ioAddr o >>> 24).toNat = 4 := by rw [shiftRight24_toNat, ioAddr_toNat h]; omega
  simp only [regionOf, h24, ioAddr_toNat h]
  rw [if_pos (by omega)]

theorem ioOffset_ioAddr (h : o < 0x400) : ioOffset (ioAddr o) = o := by
  refine (toNat_and_mask (ioAddr o) (n := 10) (by decide)).trans ?_
  rw [ioAddr_toNat h]
  omega

theorem align_ioAddr {w : Width} (h : o < 0x400) (ho : o % w.bytes = 0) : w.align (ioAddr o) = ioAddr o := by
  have hw : (0x04000000 + o) % w.bytes = 0 := by cases w <;> simp only [Width.bytes] at ho ⊢ <;> omega
  apply BitVec.eq_of_toNat_eq
  rw [align_toNat, ioAddr_toNat h]
  exact Nat.div_mul_cancel (Nat.dvd_of_mod_eq_zero hw)

theorem busWrite_ioAddr {w : Width} (h : o < 0x400) (ho : o % w.bytes = 0) :
    busWrite s w (ioAddr o) v = ioWrite s w o v := by
  simp only [busWrite, regionOf_ioAddr h, align_ioAddr h ho, ioOffset_ioAddr h]

/-- A halfword read of a readable register is its value. -/
theorem busRead_ioAddr_half {r : IoReg} {value : Half} (h : o + 1 < 0x400) (ho : o % 2 = 0) (h0 : ioRegAt o = (r, 0))
    (h1 : ioRegAt (o + 1) = (r, 1)) (hv : ioValue s r = some value) :
    busRead s .half (ioAddr o) = value.setWidth 32 := by
  have hal : alignHalf (ioAddr o) = ioAddr o := align_ioAddr (w := .half) (by omega) ho
  have hnext : ioAddr o + 1#32 = ioAddr (o + 1) := by rw [ioAddr, ioAddr, BitVec.ofNat_add, BitVec.add_assoc]
  refine busRead_halfRegister (by rw [regionOf_ioAddr (by omega)]; decide) ?_ ?_
  · rw [hal]
    exact (peek_ioBlock s (by omega)).trans (by rw [ioReadByte, h0, hv]; rfl)
  · rw [hal, hnext]
    exact (peek_ioBlock s h).trans (by rw [ioReadByte, h1, hv]; rfl)

end

/-- Both bytes of a register written. -/
theorem setHalfByte_setHalfByte (r : Half) (b0 b1 : Byte) : setHalfByte (setHalfByte r 0 b0) 1 b1 = b1 ++ b0 := by
  have h := setHalfByte_both r (BitVec.allOnes 16) b0 b1
  rwa [BitVec.and_allOnes, BitVec.and_allOnes, BitVec.and_allOnes] at h

/-! ### Timer registers (61_timers R900-R902) -/

theorem ioRegAt_timer (x : Fin 4) : ∀ i, i < 2 → ioRegAt (0x100 + 4 * x.val + i) = (.timerCount x, i) ∧
    ioRegAt (0x100 + 4 * x.val + 2 + i) = (.timerControl x, i) := by decide +revert

section
variable (s : State) (x : Fin 4) (b0 b1 : Byte)

/-- Both bytes of TMxCNT_L: the reload value. -/
theorem ioWriteByte_timerCount :
    ioWriteByte (ioWriteByte s (0x100 + 4 * x.val) b0) (0x100 + 4 * x.val + 1) b1 =
      s.setTimer x { s.timers[x] with reload := b1 ++ b0 } := by
  have h0 := (ioRegAt_timer x 0 (by decide)).1
  have h1 := (ioRegAt_timer x 1 (by decide)).1
  rw [Nat.add_zero] at h0
  simp only [ioWriteByte, h0, h1, setTimer_get, setTimer_setTimer, setHalfByte_setHalfByte]

/-- Both bytes of TMxCNT_H: the low one is the control, the high one is ignored. -/
theorem ioWriteByte_timerControl :
    ioWriteByte (ioWriteByte s (0x100 + 4 * x.val + 2) b0) (0x100 + 4 * x.val + 3) b1 =
      s.setTimer x (s.timers[x].writeControl 0 b0) := by
  have h0 := (ioRegAt_timer x 0 (by decide)).2
  have h1 := (ioRegAt_timer x 1 (by decide)).2
  rw [Nat.add_zero] at h0
  simp only [ioWriteByte, h0, h1, setTimer_get, setTimer_setTimer]
  rfl

end

/-- The address of a timer's register at offset `o` of its block. -/
theorem timer_ioAddr (x : Fin 4) (o : Nat) :
    0x04000100#32 + BitVec.ofNat 32 (4 * x.val + o) = ioAddr (0x100 + 4 * x.val + o) := by
  rw [ioAddr, Nat.add_assoc, BitVec.ofNat_add 0x100, ← BitVec.add_assoc]
  rfl

/-- TMxCNT_H as a word read of its halfword shows it. -/
theorem control_setWidth (t : Timer) : t.control.setWidth 32 =
    0#24 ++ BitVec.ofBool t.enable ++ BitVec.ofBool t.irq ++ 0#3 ++ BitVec.ofBool t.cascade ++ t.prescale := by
  have h : ∀ (e i c : Bool) (p : BitVec 2),
      (0#8 ++ BitVec.ofBool e ++ BitVec.ofBool i ++ 0#3 ++ BitVec.ofBool c ++ p : Half).setWidth 32 =
        0#24 ++ BitVec.ofBool e ++ BitVec.ofBool i ++ 0#3 ++ BitVec.ofBool c ++ p := by decide
  exact h ..

theorem byteOf_zero (v : Word) : byteOf v 0 = v.setWidth 8 := by
  rw [byteOf, BitVec.setWidth_eq_extractLsb' (by decide)]

/-! ### DMA registers (61_timers R930-R933) -/

/-- The four bytes of a word register written, each under its mask. -/
theorem setWordByte_all (r v mask : Word) :
    setWordByte (setWordByte (setWordByte (setWordByte r 0 (byteOf v 0) &&& mask) 1 (byteOf v 1) &&& mask) 2 (byteOf v 2)
      &&& mask) 3 (byteOf v 3) &&& mask = v &&& mask := by
  refine BitVec.eq_of_getLsbD_eq fun n hn => ?_
  simp only [setWordByte, byteOf, BitVec.getLsbD_and, BitVec.getLsbD_append, BitVec.getLsbD_extractLsb']
  interval_cases n <;> simp

theorem ioRegAt_dma (k : Fin 4) :
    (∀ i, i < 4 → ioRegAt (0xB0 + 12 * k.val + i) = (.dmaSad k, i) ∧ ioRegAt (0xB0 + 12 * k.val + 4 + i) = (.dmaDad k, i)) ∧
    ∀ i, i < 2 → ioRegAt (0xB0 + 12 * k.val + 8 + i) = (.dmaCntL k, i) ∧
      ioRegAt (0xB0 + 12 * k.val + 10 + i) = (.dmaCntH k, i) := by decide +revert

/-- The address of a channel's register at offset `o` of its block. -/
theorem dma_ioAddr (k : Fin 4) (o : Nat) :
    0x040000B0#32 + BitVec.ofNat 32 (12 * k.val + o) = ioAddr (0xB0 + 12 * k.val + o) := by
  rw [ioAddr, Nat.add_assoc, BitVec.ofNat_add 0xB0, ← BitVec.add_assoc]
  rfl

section
variable (s : State) (k : Fin 4) (v : Word)

theorem ioWrite_dmaSad : ioWrite s .word (0xB0 + 12 * k.val) v =
    s.setDma k { s.dma[k] with sad := v &&& if k = 0 then 0x07FFFFFF#32 else 0x0FFFFFFF#32 } := by
  have hreg := fun i hi => ((ioRegAt_dma k).1 i hi).1
  have h0 := hreg 0 (by decide)
  rw [Nat.add_zero] at h0
  simp only [ioWrite, ioWriteByte, h0, hreg 1 (by decide), hreg 2 (by decide), hreg 3 (by decide), setDma_get, setDma_setDma,
    setWordByte_all]

theorem ioWrite_dmaDad : ioWrite s .word (0xB0 + 12 * k.val + 4) v =
    s.setDma k { s.dma[k] with dad := v &&& if k = 3 then 0x0FFFFFFF#32 else 0x07FFFFFF#32 } := by
  have hreg := fun i hi => ((ioRegAt_dma k).1 i hi).2
  have h0 := hreg 0 (by decide)
  rw [Nat.add_zero] at h0
  simp only [ioWrite, ioWriteByte, h0, hreg 1 (by decide), hreg 2 (by decide), hreg 3 (by decide), setDma_get, setDma_setDma,
    setWordByte_all]

theorem ioWrite_dmaCntL : ioWrite s .half (0xB0 + 12 * k.val + 8) v =
    s.setDma k { s.dma[k] with cntL := v.setWidth 16 &&& if k = 3 then 0xFFFF#16 else 0x3FFF#16 } := by
  have hreg := fun i hi => ((ioRegAt_dma k).2 i hi).1
  have h0 := hreg 0 (by decide)
  rw [Nat.add_zero] at h0
  simp only [ioWrite, ioWriteByte, h0, hreg 1 (by decide), setDma_get, setDma_setDma, setHalfByte_both, byteOf_append]

theorem ioWrite_dmaCntH : ioWrite s .half (0xB0 + 12 * k.val + 10) v =
    s.setDma k ((s.dma[k].writeControl k 0 (byteOf v 0)).writeControl k 1 (byteOf v 1)) := by
  have hreg := fun i hi => ((ioRegAt_dma k).2 i hi).2
  have h0 := hreg 0 (by decide)
  rw [Nat.add_zero] at h0
  simp only [ioWrite, ioWriteByte, h0, hreg 1 (by decide), setDma_get, setDma_setDma]

end

/-- DMAxCNT_H written (R931, R932): a rising enable bit arms the channel, a clear one cancels what is pending. -/
def DmaChannel.withControl (c : DmaChannel) (k : Fin 4) (h : Half) : DmaChannel :=
  if c.enabled = false ∧ h.getLsbD 15 = true then
    { c with cntH := h, isrc := c.sad, idst := c.dad, icount := c.resolvedCount k, pending := h.extractLsb' 12 2 == 0#2 }
  else { c with cntH := h, pending := c.pending && h.getLsbD 15 }

/-- The bits of DMAxCNT_H that channel `k` keeps (61_timers R931). -/
def dmaControlMask (k : Fin 4) : Half := if k = 3 then 0xFFE0#16 else 0xF7E0#16

theorem writeControl_eq (c : DmaChannel) (k : Fin 4) (i : Nat) (b : Byte) :
    c.writeControl k i b = c.withControl k (setHalfByte c.cntH i b &&& dmaControlMask k) := by
  unfold DmaChannel.writeControl DmaChannel.withControl dmaControlMask
  dsimp only
  generalize (setHalfByte c.cntH i b &&& if k = 3 then 0xFFE0#16 else 0xF7E0#16) = h
  have henabled : (DmaChannel.enabled { c with cntH := h }) = h.getLsbD 15 := rfl
  have htiming : ((DmaChannel.timing { c with cntH := h }) == 0) = (h.extractLsb' 12 2 == 0#2) := by
    rw [Bool.eq_iff_iff, beq_iff_eq, beq_iff_eq, ← BitVec.toNat_inj]
    rfl
  rw [henabled, htiming]
  cases c.enabled <;> cases h.getLsbD 15 <;> simp [DmaChannel.resolvedCount]

/-- A write that leaves the enable bit, then another: the second decides. -/
theorem withControl_withControl (c : DmaChannel) (k : Fin 4) {h0 : Half} (h : h0.getLsbD 15 = c.enabled) (h1 : Half) :
    (c.withControl k h0).withControl k h1 = c.withControl k h1 := by
  have hfirst : c.withControl k h0 = { c with cntH := h0, pending := c.pending && c.enabled } := by
    rw [DmaChannel.withControl, h, if_neg (by simp)]
  have henabled : (DmaChannel.enabled { c with cntH := h0, pending := c.pending && c.enabled }) = c.enabled := h
  rw [hfirst]
  unfold DmaChannel.withControl
  rw [henabled]
  cases c.enabled <;> cases h1.getLsbD 15 <;> simp [DmaChannel.resolvedCount]

/-- Both bytes of DMAxCNT_H, the low one first: it leaves the enable bit, and the high one decides. -/
theorem writeControl_both (c : DmaChannel) (k : Fin 4) (b0 b1 : Byte) :
    (c.writeControl k 0 b0).writeControl k 1 b1 = c.withControl k ((b1 ++ b0) &&& dmaControlMask k) := by
  have hlow : (setHalfByte c.cntH 0 b0 &&& dmaControlMask k).getLsbD 15 = c.enabled := by
    rw [BitVec.getLsbD_and, getLsbD_setHalfByte_zero, if_neg (by decide), dmaControlMask]
    split <;> exact Bool.and_true _
  have hcntH : (c.writeControl k 0 b0).cntH = setHalfByte c.cntH 0 b0 &&& dmaControlMask k := writeControl_cntH ..
  rw [writeControl_eq (c.writeControl k 0 b0), hcntH, setHalfByte_both, writeControl_eq c, withControl_withControl c k hlow]

end Sys2Proof.Machine
end

section
/-! PROOFS. A tick of n cycles in closed form: each timer's increments and overflows, the FIFO bytes they take, and the
requests (61_timers R901-R906, R960). -/

namespace Sys2Proof.Machine

/-! ### The requests of the sound FIFOs -/

/-- A channel after requests of FIFO A and FIFO B: pending, if it is channel 1 or 2, enabled, in special timing and aimed
at one that requests (61_timers R960). -/
def DmaChannel.requested (c : DmaChannel) (k : Fin 4) (a b : Bool) : DmaChannel :=
  { c with pending := c.pending || (decide (k = 1 ∨ k = 2) && c.enabled && decide (c.timing = 3) &&
      ((a && decide (c.dad = 0x040000A0#32)) || (b && decide (c.dad = 0x040000A4#32)))) }

theorem DmaChannel.requested_none (c : DmaChannel) (k : Fin 4) : c.requested k false false = c := by
  simp [DmaChannel.requested]

theorem DmaChannel.requested_requested (c : DmaChannel) (k : Fin 4) (a b a' b' : Bool) :
    (c.requested k a b).requested k a' b' = c.requested k (a || a') (b || b') := by
  have h : ∀ p x u v a b a' b' : Bool, ((p || (x && (a && u || b && v))) || (x && (a' && u || b' && v))) =
      (p || (x && ((a || a') && u || (b || b') && v))) := by decide
  exact congrArg (fun p => { c with pending := p }) (h ..)

/-- The request of one FIFO. -/
theorem fifoTrigger_eq (c : DmaChannel) (k : Fin 4) (fifo : Word) : c.fifoTrigger k fifo =
    { c with pending := c.pending ||
      (decide (k = 1 ∨ k = 2) && c.enabled && decide (c.timing = 3) && decide (c.dad = fifo)) } := by
  have hcond : (c.enabled && c.fifoMode k && c.dad == fifo) =
      (decide (k = 1 ∨ k = 2) && c.enabled && decide (c.timing = 3) && decide (c.dad = fifo)) := by
    rw [Bool.eq_iff_iff]
    simp only [DmaChannel.fifoMode, Bool.and_eq_true, Bool.or_eq_true, beq_iff_eq, decide_eq_true_eq]
    tauto
  have hset : ∀ b : Bool, (if b then { c with pending := true } else c) = { c with pending := c.pending || b } := by
    intro b
    cases b
    · rw [Bool.or_false]; rfl
    · rw [Bool.or_true]; rfl
  rw [DmaChannel.fifoTrigger, hcond, hset]

/-- The channels after requests of the FIFOs. -/
def fifoRequests (d : Vector DmaChannel 4) (a b : Bool) : Vector DmaChannel 4 := Vector.ofFn fun k => d[k].requested k a b

theorem getElem_fifoRequests (d : Vector DmaChannel 4) (a b : Bool) (k : Fin 4) :
    (fifoRequests d a b)[k] = d[k].requested k a b := by
  simp [fifoRequests]

/-- Vectors of four are equal where their entries are. -/
theorem vector_ext {α : Type} {v w : Vector α 4} (h : ∀ k : Fin 4, v[k] = w[k]) : v = w :=
  Vector.ext fun i hi => h ⟨i, hi⟩

theorem fifoRequests_none (d : Vector DmaChannel 4) : fifoRequests d false false = d :=
  vector_ext fun k => by rw [getElem_fifoRequests, DmaChannel.requested_none]

theorem fifoRequests_fifoRequests (d : Vector DmaChannel 4) (a b a' b' : Bool) :
    fifoRequests (fifoRequests d a b) a' b' = fifoRequests d (a || a') (b || b') :=
  vector_ext fun k => by simp only [getElem_fifoRequests, DmaChannel.requested_requested]

theorem getElem_triggerFifo (fifo : Word) (s : State) (k : Fin 4) :
    (triggerFifo fifo s).dma[k] = s.dma[k].fifoTrigger k fifo := by
  have hother : ∀ (c : DmaChannel) (j : Fin 4), j ≠ 1 → j ≠ 2 → c.fifoTrigger j fifo = c := by
    intro c j h1 h2
    rw [fifoTrigger_eq, decide_eq_false (by tauto)]
    simp
  fin_cases k
  · exact (by simp [triggerFifo] : _ = s.dma[(0 : Fin 4)]).trans (hother _ 0 (by decide) (by decide)).symm
  · simp [triggerFifo]
  · simp [triggerFifo]
  · exact (by simp [triggerFifo] : _ = s.dma[(3 : Fin 4)]).trans (hother _ 3 (by decide) (by decide)).symm

theorem triggerFifo_eq (s : State) : triggerFifo 0x040000A0#32 s = { s with dma := fifoRequests s.dma true false } ∧
    triggerFifo 0x040000A4#32 s = { s with dma := fifoRequests s.dma false true } := by
  have hA : ∀ (c : DmaChannel) (k : Fin 4), c.fifoTrigger k 0x040000A0#32 = c.requested k true false := fun c k => by
    rw [fifoTrigger_eq, DmaChannel.requested, Bool.true_and, Bool.false_and, Bool.or_false]
  have hB : ∀ (c : DmaChannel) (k : Fin 4), c.fifoTrigger k 0x040000A4#32 = c.requested k false true := fun c k => by
    rw [fifoTrigger_eq, DmaChannel.requested, Bool.true_and, Bool.false_and, Bool.false_or]
  have hdma : ∀ fifo a b, (∀ (c : DmaChannel) (k : Fin 4), c.fifoTrigger k fifo = c.requested k a b) →
      (triggerFifo fifo s).dma = fifoRequests s.dma a b := fun fifo a b h =>
    vector_ext fun k => by rw [getElem_triggerFifo, getElem_fifoRequests, h]
  exact ⟨congrArg (fun d => { s with dma := d }) (hdma _ _ _ hA), congrArg (fun d => { s with dma := d }) (hdma _ _ _ hB)⟩

/-! ### What a tick changes -/

/-- A state with new timers, IF with the requests `q` added, `a` and `b` bytes taken from the FIFOs, and the requests of a
FIFO from which some were and 16 or fewer are left. -/
def State.tickEffect (s : State) (timers : Vector Timer 4) (q : Half) (a b : Nat) : State :=
  { s with
    timers := timers
    irq := { s.irq with iff := s.irq.iff ||| q }
    fifoA := s.fifoA - a
    fifoB := s.fifoB - b
    dma := fifoRequests s.dma (decide (0 < a ∧ s.fifoA - a ≤ 16)) (decide (0 < b ∧ s.fifoB - b ≤ 16)) }

section
variable (s : State)

theorem tickEffect_quiet (timers : Vector Timer 4) (q : Half) : s.tickEffect timers q 0 0 =
    { s with timers := timers, irq := { s.irq with iff := s.irq.iff ||| q } } := by
  have hnone : ∀ f : Nat, decide (0 < 0 ∧ f ≤ 16) = false := fun f => decide_eq_false fun h => absurd h.1 (Nat.lt_irrefl 0)
  rw [State.tickEffect, hnone, hnone, fifoRequests_none]
  rfl

theorem tickEffect_timers (timers : Vector Timer 4) : s.tickEffect timers 0#16 0 0 = { s with timers := timers } := by
  rw [tickEffect_quiet, BitVec.or_zero]

/-- Taking bytes twice requests where taking them at once does. -/
theorem requests_low (f a a' : Nat) : (decide (0 < a ∧ f - a ≤ 16) || decide (0 < a' ∧ f - (a + a') ≤ 16)) =
    decide (0 < a + a' ∧ f - (a + a') ≤ 16) := by
  rw [Bool.eq_iff_iff, Bool.or_eq_true, decide_eq_true_eq, decide_eq_true_eq, decide_eq_true_eq]
  omega

theorem tickEffect_tickEffect (T T' : Vector Timer 4) (q q' : Half) (a b a' b' : Nat) :
    (s.tickEffect T q a b).tickEffect T' q' a' b' = s.tickEffect T' (q ||| q') (a + a') (b + b') := by
  simp only [State.tickEffect, fifoRequests_fifoRequests, BitVec.or_assoc, Nat.sub_sub, requests_low]

theorem clockFifoA_eq : clockFifoA s = s.tickEffect s.timers 0#16 1 0 := by
  unfold clockFifoA State.tickEffect
  dsimp only
  by_cases h : s.fifoA - 1 ≤ 16
  · rw [if_pos h, (triggerFifo_eq _).1]
    simp [h]
  · rw [if_neg h]
    simp [h, fifoRequests_none]

theorem clockFifoB_eq : clockFifoB s = s.tickEffect s.timers 0#16 0 1 := by
  unfold clockFifoB State.tickEffect
  dsimp only
  by_cases h : s.fifoB - 1 ≤ 16
  · rw [if_pos h, (triggerFifo_eq _).2]
    simp [h]
  · rw [if_neg h]
    simp [h, fifoRequests_none]

/-- How many bytes an overflow of timer `x` takes from the FIFO that bit `b` of SOUNDCNT_H's high byte assigns to timer 0
or 1 (61_timers R906, R960). -/
def clockedBy (b : Nat) (x : Fin 4) : Nat := if x.val = ((soundControlHigh s).getLsbD b).toNat then 1 else 0

/-- Only timers 0 and 1 clock a FIFO. -/
theorem clockedBy_eq_zero (b : Nat) {x : Fin 4} (hx : ¬x.val < 2) : clockedBy s b x = 0 :=
  if_neg fun e => hx (by rw [e]; exact Bool.toNat_lt _)

theorem clockFifos_eq (x : Fin 4) :
    clockFifos x s = s.tickEffect s.timers 0#16 (clockedBy s 2 x) (clockedBy s 6 x) := by
  have hA : (if x.val = ((soundControlHigh s).getLsbD 2).toNat then clockFifoA s else s) =
      s.tickEffect s.timers 0#16 (clockedBy s 2 x) 0 := by
    unfold clockedBy
    split
    · exact clockFifoA_eq s
    · exact (tickEffect_timers s s.timers).symm
  unfold clockFifos
  dsimp only
  rw [hA]
  unfold clockedBy
  by_cases hx : x.val = ((soundControlHigh s).getLsbD 6).toNat
  · rw [if_pos hx, if_pos hx, clockFifoB_eq]
    exact tickEffect_tickEffect ..
  · rw [if_neg hx, if_neg hx]

theorem timerOverflow_eq (x : Fin 4) : timerOverflow x s =
    s.tickEffect s.timers (requestMask s.timers[x].irq (3 + x.val)) (clockedBy s 2 x) (clockedBy s 6 x) := by
  have hirq : (if s.timers[x].irq then s.requestIrq (3 + x.val) else s) =
      s.tickEffect s.timers (requestMask s.timers[x].irq (3 + x.val)) 0 0 :=
    (requestIf_eq s _ _).trans (tickEffect_quiet ..).symm
  unfold timerOverflow
  dsimp only
  rw [hirq]
  by_cases hx : x.val < 2
  · rw [if_pos hx, clockFifos_eq]
    refine (tickEffect_tickEffect ..).trans ?_
    rw [BitVec.or_zero, Nat.zero_add, Nat.zero_add]
    rfl
  · rw [if_neg hx, clockedBy_eq_zero s 2 hx, clockedBy_eq_zero s 6 hx]

end

/-! ### Increments of one timer (61_timers R905) -/

/-- Counting `m` from the reload value `r`: an overflow at every period. -/
theorem count_from_reload {r m : Nat} (hr : r < 0x10000) :
    (if r + m < 0x10000 then 0 else 1 + (r + m - 0x10000) / (0x10000 - r)) = m / (0x10000 - r) ∧
    (if r + m < 0x10000 then r + m else r + (r + m - 0x10000) % (0x10000 - r)) = r + m % (0x10000 - r) := by
  generalize hp : 0x10000 - r = period
  have hpos : 0 < period := by omega
  by_cases hm : m < period
  · have hlow : r + m < 0x10000 := by omega
    rw [if_pos hlow, if_pos hlow, Nat.div_eq_of_lt hm, Nat.mod_eq_of_lt hm]
    exact ⟨rfl, rfl⟩
  · obtain ⟨j, rfl⟩ := Nat.exists_eq_add_of_le (Nat.le_of_not_lt hm)
    have hover : ¬r + (period + j) < 0x10000 := by omega
    have hrest : r + (period + j) - 0x10000 = j := by omega
    rw [if_neg hover, if_neg hover, hrest, Nat.add_div_left _ hpos, Nat.add_mod_left, Nat.add_comm 1]
    exact ⟨rfl, rfl⟩

namespace Timer

variable (t : Timer) (m : Nat)

/-- The timer after one increment, reloaded where it overflows. -/
def increment : Timer := if t.count = 0xFFFF#16 then { t with count := t.reload } else { t with count := t.count + 1#16 }

/-- How often `m` increments overflow. -/
def overflows : Nat :=
  if t.count.toNat + m < 0x10000 then 0 else 1 + (t.count.toNat + m - 0x10000) / (0x10000 - t.reload.toNat)

/-- The count after `m` increments. -/
def countAfter : Nat :=
  if t.count.toNat + m < 0x10000 then t.count.toNat + m
  else t.reload.toNat + (t.count.toNat + m - 0x10000) % (0x10000 - t.reload.toNat)

theorem countAfter_lt : t.countAfter m < 0x10000 := by
  have hr := t.reload.isLt
  unfold countAfter
  split
  · assumption
  · have := Nat.mod_lt (t.count.toNat + m - 0x10000) (show 0 < 0x10000 - t.reload.toNat by omega)
    omega

/-- The timer after `m` increments. -/
def after : Timer := { t with count := BitVec.ofNat 16 (t.countAfter m) }

theorem after_zero : t.after 0 = t := by
  have hcount : t.countAfter 0 = t.count.toNat := if_pos t.count.isLt
  rw [after, hcount, BitVec.ofNat_toNat, BitVec.setWidth_eq]

theorem overflows_zero : t.overflows 0 = 0 := if_pos t.count.isLt

/-- From 0xFFFF on, the increments start again at the reload value. -/
theorem increment_spec : t.overflows (m + 1) = (if t.count = 0xFFFF#16 then 1 else 0) + t.increment.overflows m ∧
    t.countAfter (m + 1) = t.increment.countAfter m := by
  have hr := t.reload.isLt
  unfold increment overflows countAfter
  by_cases h : t.count = 0xFFFF#16
  · have hmax : t.count.toNat = 0xFFFF := by rw [h]; rfl
    have hover : ¬t.count.toNat + (m + 1) < 0x10000 := by omega
    have htotal : t.count.toNat + (m + 1) - 0x10000 = m := by omega
    obtain ⟨hdiv, hmod⟩ := count_from_reload (m := m) hr
    rw [if_pos h, if_pos h, if_neg hover, if_neg hover, htotal, ← hdiv, ← hmod]
    exact ⟨rfl, rfl⟩
  · have hne : t.count.toNat ≠ 0xFFFF := fun e => h (BitVec.eq_of_toNat_eq e)
    have hnext : (t.count + 1#16).toNat + m = t.count.toNat + (m + 1) := by
      rw [BitVec.toNat_add, BitVec.toNat_ofNat]
      omega
    rw [if_neg h, if_neg h, Nat.zero_add]
    dsimp only
    rw [hnext]
    exact ⟨rfl, rfl⟩

end Timer

theorem requestMask_or (a b : Bool) (n : Nat) : requestMask a n ||| requestMask b n = requestMask (a || b) n := by
  cases a <;> cases b <;> simp [requestMask]

section
variable (s : State) (x : Fin 4)

/-- The effect of a timer that ends as `t` and has overflowed `k` times. -/
def State.timerEffect (t : Timer) (k : Nat) : State :=
  s.tickEffect (s.timers.set x t) (requestMask (t.irq && decide (0 < k)) (3 + x.val)) (k * clockedBy s 2 x)
    (k * clockedBy s 6 x)

theorem timerEffect_zero (t : Timer) : s.timerEffect x t 0 = s.setTimer x t := by
  rw [State.timerEffect, Nat.zero_mul, Nat.zero_mul, decide_eq_false (Nat.lt_irrefl 0), Bool.and_false, requestMask_false,
    tickEffect_timers]
  rfl

/-- The effects of one timer add up, as long as its interrupt setting stays. -/
theorem timerEffect_timerEffect {t u : Timer} (h : t.irq = u.irq) (k l : Nat) :
    (s.timerEffect x t k).timerEffect x u l = s.timerEffect x u (k + l) := by
  have hpos : (decide (0 < k) || decide (0 < l)) = decide (0 < k + l) := by
    rw [Bool.eq_iff_iff, Bool.or_eq_true, decide_eq_true_eq, decide_eq_true_eq, decide_eq_true_eq]
    omega
  calc (s.timerEffect x t k).timerEffect x u l
    _ = (s.timerEffect x t k).tickEffect (s.timers.set x u) (requestMask (u.irq && decide (0 < l)) (3 + x.val))
        (l * clockedBy s 2 x) (l * clockedBy s 6 x) :=
      congrArg (fun T => (s.timerEffect x t k).tickEffect T _ _ _) (set_fin_set ..)
    _ = s.timerEffect x u (k + l) := by
      refine (tickEffect_tickEffect ..).trans ?_
      rw [State.timerEffect, h, requestMask_or, ← Bool.and_or_distrib_left, hpos, Nat.add_mul, Nat.add_mul]

theorem timerEffect_get (t : Timer) (k : Nat) : (s.timerEffect x t k).timers[x] = t := getElem_set_fin_same ..

theorem setTimer_self : s.setTimer x s.timers[x] = s := by
  simp [State.setTimer]

theorem timerOverflow_setTimer (t : Timer) : timerOverflow x (s.setTimer x t) = s.timerEffect x t 1 := by
  rw [timerOverflow_eq, setTimer_get, State.timerEffect, Nat.one_mul, Nat.one_mul, decide_eq_true Nat.one_pos, Bool.and_true]
  rfl

theorem timerIncrement_eq (p : Nat) : timerIncrement x (s, p) =
    (s.timerEffect x s.timers[x].increment (if s.timers[x].count = 0xFFFF#16 then 1 else 0),
      p + if s.timers[x].count = 0xFFFF#16 then 1 else 0) := by
  unfold timerIncrement Timer.increment
  dsimp only
  split
  · rw [timerOverflow_setTimer]
  · rw [timerEffect_zero, Nat.add_zero]

theorem after_succ (t : Timer) (m : Nat) : t.after (m + 1) = t.increment.after m := by
  rw [Timer.after, (t.increment_spec m).2, Timer.after]
  unfold Timer.increment
  split <;> rfl

/-- The effect of `m` increments of a timer. -/
theorem timerIncrements_eq (m : Nat) : ∀ (s : State) (p : Nat), timerIncrements x m (s, p) =
    (s.timerEffect x (s.timers[x].after m) (s.timers[x].overflows m), p + s.timers[x].overflows m) := by
  induction m with
  | zero =>
    intro s p
    rw [timerIncrements, Timer.after_zero, Timer.overflows_zero, timerEffect_zero, Nat.add_zero, setTimer_self]
  | succ m ih =>
    intro s p
    have hirq : s.timers[x].increment.irq = (s.timers[x].increment.after m).irq := rfl
    rw [timerIncrements, timerIncrement_eq, ih, timerEffect_get, timerEffect_timerEffect s x hirq, after_succ,
      (Timer.increment_spec ..).1, Nat.add_assoc]

theorem timerEffect_setTimer (t u : Timer) (k : Nat) : (s.setTimer x t).timerEffect x u k = s.timerEffect x u k := by
  rw [State.timerEffect, State.setTimer_timers, set_fin_set]
  rfl

end

/-! ### One timer's part of the tick (61_timers R904, R905) -/

namespace Timer

variable (t : Timer) (x : Fin 4) (n p : Nat)

/-- The increments of timer `x` in a tick of `n` cycles in which the timer below overflows `p` times. -/
def increments : Nat :=
  if t.enable = false then 0 else if x ≠ 0 ∧ t.cascade = true then p else (t.acc + n) / 2 ^ t.shift

/-- What the tick leaves in the prescaler. -/
def accAfter : Nat :=
  if t.enable = true ∧ ¬(x ≠ 0 ∧ t.cascade = true) then (t.acc + n) % 2 ^ t.shift else t.acc

/-- The timer after the tick. -/
def ticked : Timer := { t.after (t.increments x n p) with acc := t.accAfter x n }

/-- The overflows of timer `x` in the tick. -/
def tickOverflows : Nat := t.overflows (t.increments x n p)

end Timer

/-- A tick's part is the effect of the timer's increments: none, the overflows below, or the prescaler's. -/
theorem timerStep_eq (n : Nat) (x : Fin 4) (s : State) (p : Nat) : timerStep n x (s, p) =
    (s.timerEffect x (s.timers[x].ticked x n p) (s.timers[x].tickOverflows x n p), s.timers[x].tickOverflows x n p) := by
  have hincrements := fun (m : Nat) (s : State) => timerIncrements_eq x m s 0
  have hself : s.setTimer x s.timers[x] = s := setTimer_self s x
  unfold timerStep Timer.ticked Timer.tickOverflows Timer.increments Timer.accAfter
  dsimp only
  generalize ht : s.timers[x] = t at hself ⊢
  have hcascade : (decide (x ≠ 0) && t.cascade) = true ↔ x ≠ 0 ∧ t.cascade = true := by simp
  by_cases henable : t.enable = true
  · have hoff : ¬t.enable = false := by simp [henable]
    rw [if_pos henable, if_neg hoff]
    by_cases hc : x ≠ 0 ∧ t.cascade = true
    · have hacc : ¬(t.enable = true ∧ ¬(x ≠ 0 ∧ t.cascade = true)) := fun h => h.2 hc
      rw [if_pos (hcascade.2 hc), if_pos hc, if_neg hacc, hincrements, ht, Nat.zero_add]
      rfl
    · have hacc : t.enable = true ∧ ¬(x ≠ 0 ∧ t.cascade = true) := ⟨henable, hc⟩
      rw [if_neg (mt hcascade.1 hc), if_neg hc, if_pos hacc, hincrements, setTimer_get, timerEffect_setTimer,
        Nat.zero_add]
      rfl
  · have hacc : ¬(t.enable = true ∧ ¬(x ≠ 0 ∧ t.cascade = true)) := fun h => henable h.1
    rw [if_neg henable, if_pos (Bool.eq_false_of_not_eq_true henable), if_neg hacc, Timer.after_zero, Timer.overflows_zero,
      timerEffect_zero]
    exact Prod.ext hself.symm rfl

/-! ### The whole tick (61_timers R905, R906) -/

/-- The overflows of each timer in a tick of `n` cycles, from the lowest timer up. -/
def timerOverflows (n : Nat) (s : State) : Nat → Nat
  | 0 => s.timers[0].tickOverflows 0 n 0
  | x + 1 => s.timers[Fin.ofNat 4 (x + 1)].tickOverflows (Fin.ofNat 4 (x + 1)) n (timerOverflows n s x)

/-- Timer 0 does not cascade. -/
theorem increments_zero (t : Timer) (n p q : Nat) : t.increments 0 n p = t.increments 0 n q := by
  have h : ¬((0 : Fin 4) ≠ 0 ∧ t.cascade = true) := fun h => h.1 rfl
  rw [Timer.increments, Timer.increments, if_neg h, if_neg h]

section
variable (n : Nat) (s : State)

/-- The increments of timer `x` in the tick. -/
def timerIncrementsOf (x : Fin 4) : Nat := s.timers[x].increments x n (timerOverflows n s (x - 1).val)

theorem timerOverflows_eq (x : Fin 4) : timerOverflows n s x.val = s.timers[x].overflows (timerIncrementsOf n s x) := by
  fin_cases x
  · exact congrArg _ (increments_zero ..)
  · rfl
  · rfl
  · rfl

/-- Timer `x` after the tick. -/
def timerAfter (x : Fin 4) : Timer :=
  { s.timers[x].after (timerIncrementsOf n s x) with acc := s.timers[x].accAfter x n }

/-- The interrupt request of timer `x` in the tick. -/
def timerRequest (x : Fin 4) : Half :=
  requestMask (s.timers[x].irq && decide (0 < timerOverflows n s x.val)) (3 + x.val)

/-- The bytes a tick takes from the FIFO that bit `b` of SOUNDCNT_H's high byte assigns to timer 0 or 1. -/
def fifoClocks (b : Nat) : Nat := timerOverflows n s (if (soundControlHigh s).getLsbD b then (1 : Fin 4) else 0).val

/-- Of the overflows, only those of the timer the FIFO selects take bytes. -/
theorem sum_clockedBy (b : Nat) (ovf : Nat → Nat) : ovf 0 * clockedBy s b 0 + ovf 1 * clockedBy s b 1 +
    ovf 2 * clockedBy s b 2 + ovf 3 * clockedBy s b 3 =
      ovf (if (soundControlHigh s).getLsbD b then (1 : Fin 4) else 0).val := by
  rw [clockedBy_eq_zero s b (x := 2) (by decide), clockedBy_eq_zero s b (x := 3) (by decide), clockedBy, clockedBy]
  cases (soundControlHigh s).getLsbD b <;> simp

/-- Four timers one after another: their effects on `s` itself. -/
theorem timerEffects_eq (t : Fin 4 → Timer) (ovf : Nat → Nat) :
    (((s.timerEffect 0 (t 0) (ovf 0)).timerEffect 1 (t 1) (ovf 1)).timerEffect 2 (t 2) (ovf 2)).timerEffect 3 (t 3) (ovf 3) =
      s.tickEffect (Vector.ofFn t)
        (requestMask ((t 0).irq && decide (0 < ovf 0)) 3 ||| requestMask ((t 1).irq && decide (0 < ovf 1)) 4 |||
          requestMask ((t 2).irq && decide (0 < ovf 2)) 5 ||| requestMask ((t 3).irq && decide (0 < ovf 3)) 6)
        (ovf (if (soundControlHigh s).getLsbD 2 then (1 : Fin 4) else 0).val)
        (ovf (if (soundControlHigh s).getLsbD 6 then (1 : Fin 4) else 0).val) := by
  have hset : (((s.timers.set 0 (t 0)).set 1 (t 1)).set 2 (t 2)).set 3 (t 3) = Vector.ofFn t :=
    vector_ext fun k => by fin_cases k <;> simp
  have hmerge := fun (T T' : Vector Timer 4) (q q' : Half) (a b a' b' : Nat) => tickEffect_tickEffect s T T' q q' a b a' b'
  rw [← sum_clockedBy s 2 ovf, ← sum_clockedBy s 6 ovf, ← hset]
  unfold State.timerEffect
  refine (congrArg (fun u : State => State.tickEffect u _ _ _ _) (congrArg (fun u : State => State.tickEffect u _ _ _ _)
    (hmerge ..))).trans ?_
  exact (congrArg (fun u : State => State.tickEffect u _ _ _ _) (hmerge ..)).trans (hmerge ..)

theorem timerEffect_get_ne {x y : Fin 4} (h : y ≠ x) (t : Timer) (k : Nat) :
    (s.timerEffect x t k).timers[y] = s.timers[y] := getElem_set_fin_ne _ _ _ h

/-- A timer's part of the tick in a state that has not changed it yet. -/
theorem timerStep_unchanged (x : Fin 4) {u : State} (p : Nat) (hu : u.timers[x] = s.timers[x])
    (hp : s.timers[x].increments x n p = timerIncrementsOf n s x) :
    timerStep n x (u, p) = (u.timerEffect x (timerAfter n s x) (timerOverflows n s x.val), timerOverflows n s x.val) := by
  rw [timerStep_eq, hu, Timer.ticked, Timer.tickOverflows, hp, ← timerOverflows_eq]
  rfl

theorem timerTick_eq : timerTick n s = s.tickEffect (Vector.ofFn (timerAfter n s))
    (timerRequest n s 0 ||| timerRequest n s 1 ||| timerRequest n s 2 ||| timerRequest n s 3)
    (fifoClocks n s 2) (fifoClocks n s 6) := by
  have h1 := timerEffect_get_ne s (x := 0) (y := 1) (by decide)
  have h2 := fun (u : State) => timerEffect_get_ne u (x := 1) (y := 2) (by decide)
  have h3 := fun (u : State) => timerEffect_get_ne u (x := 2) (y := 3) (by decide)
  have hstep := fun (x y : Fin 4) {u : State} => timerStep_unchanged n s x (u := u) (timerOverflows n s y.val)
  unfold timerTick
  rw [timerStep_unchanged n s 0 0 rfl (increments_zero ..), hstep 1 0 (h1 ..) rfl,
    hstep 2 1 ((h2 ..).trans (timerEffect_get_ne s (by decide) _ _)) rfl,
    hstep 3 2 ((h3 ..).trans ((timerEffect_get_ne _ (by decide) _ _).trans (timerEffect_get_ne s (by decide) _ _))) rfl]
  exact timerEffects_eq ..

end

/-! ### The registers (61_timers R900-R902, R960) -/

theorem shift_eq (t : Timer) : t.shift = ([0, 6, 8, 10] : List Nat).getD t.prescale.toNat 0 := by
  have h : ∀ p : BitVec 2, (match p.toNat with | 0 => 0 | 1 => 6 | 2 => 8 | _ => 10) =
      ([0, 6, 8, 10] : List Nat).getD p.toNat 0 := by decide
  exact (show _ = _ by unfold Timer.shift; split <;> simp [*]).trans (h t.prescale)

/-- The control byte's fields, and where they set `enable` the count and the accumulator. -/
theorem Timer.writeControl_zero (t : Timer) (b : Byte) : t.writeControl 0 b =
    let t1 : Timer :=
      { t with prescale := b.extractLsb' 0 2, cascade := b.getLsbD 2, irq := b.getLsbD 6, enable := b.getLsbD 7 }
    if t.enable = false ∧ b.getLsbD 7 = true then { t1 with count := t.reload, acc := 0 } else t1 := by
  have hcond : (!t.enable && b.getLsbD 7) = true ↔ t.enable = false ∧ b.getLsbD 7 = true := by
    rw [Bool.and_eq_true, Bool.not_eq_true']
  unfold Timer.writeControl
  rw [if_pos rfl]
  exact if_congr hcond rfl rfl

section
variable (s : State) (x : Fin 4) (v : Word)

/-- An aligned write into a timer's block of registers. -/
theorem busWrite_timerBlock {w : Width} {o : Nat} (h : o < 4) (ho : o % w.bytes = 0) :
    busWrite s w (0x04000100#32 + BitVec.ofNat 32 (4 * x.val + o)) v = ioWrite s w (0x100 + 4 * x.val + o) v := by
  have hx := x.isLt
  rw [timer_ioAddr]
  exact busWrite_ioAddr s v (by omega) (by cases w <;> simp only [Width.bytes] at ho ⊢ <;> omega)

theorem busWrite_timerCount : busWrite s .half (0x04000100#32 + BitVec.ofNat 32 (4 * x.val + 0)) v =
    s.setTimer x { s.timers[x] with reload := v.setWidth 16 } := by
  rw [busWrite_timerBlock s x v (by decide) rfl]
  exact (ioWriteByte_timerCount ..).trans (by rw [byteOf_append])

theorem busWrite_timerControl : busWrite s .half (0x04000100#32 + BitVec.ofNat 32 (4 * x.val + 2)) v =
    s.setTimer x (s.timers[x].writeControl 0 (v.setWidth 8)) := by
  rw [busWrite_timerBlock s x v (by decide) rfl, ← byteOf_zero]
  exact ioWriteByte_timerControl ..

/-- A word written to both registers of a timer: the reload value first. -/
theorem busWrite_timer : busWrite s .word (0x04000100#32 + BitVec.ofNat 32 (4 * x.val + 0)) v =
    s.setTimer x (Timer.writeControl { s.timers[x] with reload := v.setWidth 16 } 0 (v.extractLsb' 16 8)) := by
  rw [busWrite_timerBlock s x v (by decide) rfl]
  refine (congrArg (fun u => ioWriteByte (ioWriteByte u _ _) _ _) (ioWriteByte_timerCount ..)).trans ?_
  refine (ioWriteByte_timerControl ..).trans ?_
  rw [setTimer_get, setTimer_setTimer, byteOf_append]
  rfl

theorem busRead_timer :
    busRead s .half (0x04000100#32 + BitVec.ofNat 32 (4 * x.val + 0)) = s.timers[x].count.setWidth 32 ∧
    busRead s .half (0x04000100#32 + BitVec.ofNat 32 (4 * x.val + 2)) = s.timers[x].control.setWidth 32 := by
  have hx := x.isLt
  have h0 := ioRegAt_timer x 0 (by decide)
  have h1 := ioRegAt_timer x 1 (by decide)
  rw [timer_ioAddr, timer_ioAddr]
  exact ⟨busRead_ioAddr_half s (by omega) (by omega) h0.1 h1.1 rfl, busRead_ioAddr_half s (by omega) (by omega) h0.2 h1.2 rfl⟩

/-- SOUNDCNT_H's high byte: stored, and its reset bits empty the FIFOs. -/
theorem busWrite_soundControl : busWrite s .byte 0x04000083#32 v =
    { s with
      ioStore := Cells.put (fun _ => some 0#8) s.ioStore 0x83 (v.setWidth 8)
      fifoA := if v.getLsbD 3 then 0 else s.fifoA
      fifoB := if v.getLsbD 7 then 0 else s.fifoB } := by
  have hbit : ∀ i, i < 8 → (v.setWidth 8).getLsbD i = v.getLsbD i := fun i hi => by
    rw [BitVec.getLsbD_setWidth, decide_eq_true hi, Bool.true_and]
  rw [← hbit 3 (by decide), ← hbit 7 (by decide)]
  exact busWrite_ioAddr s v (w := .byte) (o := 0x83) (by decide) rfl

theorem soundControlHigh_busWrite (h : s.MemoryInv) :
    soundControlHigh (busWrite s .byte 0x04000083#32 v) = v.setWidth 8 := by
  rw [busWrite_soundControl, soundControlHigh]
  dsimp only
  rw [Cells.lookup_put h.io, if_pos rfl]
  split
  · next e => exact Option.some.inj e
  · rfl

end

/-! ### The closed form, as the specification states it -/

section
variable (n : Nat) (s : State)

/-- The bits of IF that a tick can set. -/
theorem getLsbD_timerRequest (x : Fin 4) (b : Nat) : (timerRequest n s x).getLsbD b =
    ((s.timers[x].irq && decide (0 < timerOverflows n s x.val)) && decide (b = 3 + x.val)) := by
  have hx := x.isLt
  exact getLsbD_requestMask _ (by omega) b

theorem getLsbD_timerTick_iff (b : Nat) : (timerTick n s).irq.iff.getLsbD b = (s.irq.iff.getLsbD b ||
    ((timerRequest n s 0).getLsbD b || (timerRequest n s 1).getLsbD b || (timerRequest n s 2).getLsbD b ||
      (timerRequest n s 3).getLsbD b)) := by
  rw [timerTick_eq]
  simp only [State.tickEffect, BitVec.getLsbD_or]

/-- Timer `x` sets bit `3 + x`. -/
theorem timerTick_iff_timer (x : Fin 4) : (timerTick n s).irq.iff.getLsbD (3 + x.val) =
    (s.irq.iff.getLsbD (3 + x.val) || (s.timers[x].irq && decide (0 < timerOverflows n s x.val))) := by
  rw [getLsbD_timerTick_iff]
  simp only [getLsbD_timerRequest]
  fin_cases x <;> simp

/-- Only bits 6:3 can change. -/
theorem timerTick_iff_other {b : Nat} (h : b < 3 ∨ 6 < b) :
    (timerTick n s).irq.iff.getLsbD b = s.irq.iff.getLsbD b := by
  have hnot : ∀ x : Fin 4, (timerRequest n s x).getLsbD b = false := fun x => by
    have hx := x.isLt
    have hb : ¬b = 3 + x.val := by omega
    rw [getLsbD_timerRequest, decide_eq_false hb, Bool.and_false]
  rw [getLsbD_timerTick_iff, hnot, hnot, hnot, hnot]
  exact Bool.or_false _

theorem timerTick_timers (x : Fin 4) : (timerTick n s).timers[x] = timerAfter n s x := by
  rw [timerTick_eq]
  exact Vector.getElem_ofFn _

theorem timerTick_dma (k : Fin 4) : (timerTick n s).dma[k] = s.dma[k].requested k
    (decide (0 < fifoClocks n s 2 ∧ s.fifoA - fifoClocks n s 2 ≤ 16))
    (decide (0 < fifoClocks n s 6 ∧ s.fifoB - fifoClocks n s 6 ≤ 16)) := by
  rw [timerTick_eq]
  exact getElem_fifoRequests ..

end

/-- Settles O58: the register writes by the two bytes of each register, the tick by `timerTick_eq`, each timer's part in
closed form by induction on its increments. -/
theorem timerTick_spec : Obligations.TimerTick := by
  refine ⟨?_, ?_, ?_⟩
  · rintro s x _ v rfl
    obtain ⟨hcount, hcontrol⟩ := busRead_timer s x
    exact ⟨busWrite_timerCount s x v, (busWrite_timerControl s x v).trans (congrArg _ (Timer.writeControl_zero ..)),
      (busWrite_timer s x v).trans (congrArg _ (Timer.writeControl_zero ..)), hcount, hcontrol.trans (control_setWidth _)⟩
  · intro s v
    refine ⟨busWrite_ioAddr s v (w := .byte) (o := 0xA0) (by decide) rfl,
      busWrite_ioAddr s v (w := .byte) (o := 0xA4) (by decide) rfl, ?_⟩
    rintro _ rfl
    refine ⟨soundControlHigh_busWrite s v, ?_⟩
    rw [busWrite_soundControl]
  · intro s n
    refine ⟨timerIncrementsOf n s, fun x => timerOverflows n s x.val, ⟨?_, fun b => timerTick_iff_other n s, ?_, ?_, ?_⟩, ?_⟩
    · rw [timerTick_eq]
      rfl
    · rw [timerTick_eq]
      rfl
    · rw [timerTick_eq]
      rfl
    · rintro k _ rfl
      have hswap : ∀ (p q : Prop) [Decidable p] [Decidable q], (decide p && decide q) = decide (q ∧ p) := fun p q _ _ => by
        rw [Bool.and_comm, Bool.decide_and]
      rw [timerTick_dma, timerTick_eq]
      refine congrArg (fun p => ({ s.dma[k] with pending := s.dma[k].pending || p } : DmaChannel)) ?_
      rw [hswap, hswap]
      rfl
    · rintro x _ _ rfl rfl
      rw [timerTick_timers, timerTick_iff_timer, ← shift_eq]
      have hcount : (timerAfter n s x).count.toNat = s.timers[x].countAfter (timerIncrementsOf n s x) :=
        (BitVec.toNat_ofNat ..).trans (Nat.mod_eq_of_lt (Timer.countAfter_lt ..))
      exact ⟨rfl, timerOverflows_eq n s x, hcount, rfl, rfl, rfl⟩

end Sys2Proof.Machine
end

section
/-! PROOFS. The DMA registers, the triggers, and a one-shot transfer from EWRAM to IWRAM (61_timers R930-R945). -/

namespace Sys2Proof.Machine

/-! ### Registers -/

section
variable (s : State) (k : Fin 4) (v : Word)

/-- An aligned write into a channel's block of registers. -/
theorem busWrite_dma {w : Width} {o : Nat} (h : o < 12) (ho : o % w.bytes = 0) :
    busWrite s w (0x040000B0#32 + BitVec.ofNat 32 (12 * k.val + o)) v = ioWrite s w (0xB0 + 12 * k.val + o) v := by
  have hk := k.isLt
  rw [dma_ioAddr]
  exact busWrite_ioAddr s v (by omega) (by cases w <;> simp only [Width.bytes] at ho ⊢ <;> omega)

theorem busWrite_dmaSad : busWrite s .word (0x040000B0#32 + BitVec.ofNat 32 (12 * k.val + 0)) v =
    s.setDma k { s.dma[k] with sad := v &&& if decide (k ≠ 0) = true then 0x0FFFFFFF#32 else 0x07FFFFFF#32 } := by
  refine ((busWrite_dma s k v (by decide) rfl).trans (ioWrite_dmaSad ..)).trans ?_
  simp only [decide_eq_true_eq, ne_eq, ite_not]

theorem busWrite_dmaDad : busWrite s .word (0x040000B0#32 + BitVec.ofNat 32 (12 * k.val + 4)) v =
    s.setDma k { s.dma[k] with dad := v &&& if decide (k = 3) = true then 0x0FFFFFFF#32 else 0x07FFFFFF#32 } := by
  refine ((busWrite_dma s k v (by decide) rfl).trans (ioWrite_dmaDad ..)).trans ?_
  simp only [decide_eq_true_eq]

theorem busWrite_dmaCntL : busWrite s .half (0x040000B0#32 + BitVec.ofNat 32 (12 * k.val + 8)) v =
    s.setDma k { s.dma[k] with cntL := v.setWidth 16 &&& if k = 3 then 0xFFFF#16 else 0x3FFF#16 } :=
  (busWrite_dma s k v (by decide) rfl).trans (ioWrite_dmaCntL ..)

theorem busWrite_dmaCntH : busWrite s .half (0x040000B0#32 + BitVec.ofNat 32 (12 * k.val + 10)) v =
    s.setDma k (s.dma[k].withControl k (v.setWidth 16 &&& dmaControlMask k)) := by
  refine ((busWrite_dma s k v (by decide) rfl).trans (ioWrite_dmaCntH ..)).trans ?_
  rw [writeControl_both, byteOf_append]

theorem busRead_dmaCntH : busRead s .half (0x040000B0#32 + BitVec.ofNat 32 (12 * k.val + 10)) =
    s.dma[k].cntH.setWidth 32 := by
  have hk := k.isLt
  have h0 := ((ioRegAt_dma k).2 0 (by decide)).2
  have h1 := ((ioRegAt_dma k).2 1 (by decide)).2
  rw [dma_ioAddr]
  exact busRead_ioAddr_half s (by omega) (by omega) h0 h1 rfl

end

/-! ### The bytes of the two work RAMs -/

theorem regionOf_iwram {a : Word} : regionOf a = .iwram ↔ a.toNat / 2 ^ 24 = 3 := by
  rw [← shiftRight24_toNat]
  constructor
  · intro h
    unfold regionOf at h
    split at h
    case h_3 hv => exact hv
    case h_1 | h_4 => split at h <;> cases h
    all_goals cases h
  · intro h
    simp only [regionOf, h]

/-- The bytes of a read of plain memory. -/
theorem byteOf_busRead_memory {s : State} {w : Width} {a : Word} (h : (regionOf a).isMemory = true) {i : Nat}
    (hi : i < w.bytes) : byteOf (busRead s w a) i =
      Memory.get s.mem (memoryLocation (regionOf a) (a.toNat / w.bytes * w.bytes) + i) := by
  have hlane : ∀ i, i < w.bytes → laneOf s (w.align a) i =
      Memory.get s.mem (memoryLocation (regionOf a) (a.toNat / w.bytes * w.bytes) + i) := fun i hi => by
    have hpeek := peek_of_location s (by rw [regionOf_lane w a hi]; exact h) (locationOf_lane s w h hi)
    rw [laneOf, hpeek]
  have hsave : regionOf a ≠ .save := isMemory_ne_save h
  rw [← hlane i hi]
  unfold busRead
  split
  · contradiction
  · cases w <;> dsimp only [Width.bytes] at hi <;> interval_cases i <;> simp [byteOf, wordOfBytes]

/-! ### One unit -/

/-- A channel that increments both addresses, `n` bytes on. -/
def DmaChannel.advanced (c : DmaChannel) (n : Nat) : DmaChannel :=
  { c with pending := false, isrc := c.isrc + BitVec.ofNat 32 n, idst := c.idst + BitVec.ofNat 32 n }

theorem DmaChannel.advanced_add (c : DmaChannel) (n m : Nat) : (c.advanced n).advanced m = c.advanced (n + m) := by
  simp only [DmaChannel.advanced, BitVec.ofNat_add, BitVec.add_assoc]

/-- A unit written to IWRAM by a channel that increments both addresses. -/
theorem dmaUnit_iwram {u : State} {k : Fin 4} {c : DmaChannel} (w : Width) (hc : u.dma[k] = c) (hpending : c.pending = false)
    (hfifo : c.fifoMode k = false) (hsrc : c.srcControl = 0) (hdst : c.dstControl = 0) (hrs : regionOf c.isrc = .ewram)
    (hr : regionOf c.idst = .iwram) :
    dmaUnit k w u = (u.bump.store w (memoryLocation .iwram (c.idst.toNat / w.bytes * w.bytes))
      (busRead u w c.isrc)).setDma k (c.advanced w.bytes) := by
  have hmem : (regionOf (w.align c.idst)).isMemory = true := by rw [regionOf_align, hr]; rfl
  have hwrite := busWrite_plain u.bump w hmem (fun _ => .inr (.inr ((regionOf_align ..).trans hr))) (busRead u w c.isrc)
  rw [regionOf_align, hr, ← align_toNat, align_align, align_toNat] at hwrite
  have hread : busRead u w (w.align c.isrc) = busRead u w c.isrc := busRead_align (by rw [hrs]; decide) w
  have hkept : ∀ j v, (u.bump.store w j v).dma[k] = c := fun j v => hc
  have hadvanced : c.advanced w.bytes =
      { c with isrc := c.isrc + BitVec.ofNat 32 w.bytes, idst := c.idst + BitVec.ofNat 32 w.bytes } := by
    rw [DmaChannel.advanced, ← hpending]
  unfold dmaUnit
  dsimp only
  rw [hc, hread, hwrite, hkept, hfifo, hsrc, hdst, hadvanced]
  rfl

/-! ### All units -/

/-- A unit more is a unit at the end. -/
theorem dmaUnits_succ (k : Fin 4) (w : Width) (n : Nat) :
    ∀ s, dmaUnits k w (n + 1) s = dmaUnit k w (dmaUnits k w n s) := by
  induction n with
  | zero => exact fun s => rfl
  | succ n ih => exact fun s => ih (dmaUnit k w s)

/-- The state after `n` bytes copied from location `src` to location `dst` by a channel that was `c`: memory, the channel
and the free values have changed. -/
structure Copied (s : State) (k : Fin 4) (c : DmaChannel) (src dst n : Nat) (t : State) : Prop where
  frame : t = { s with mem := t.mem, dma := s.dma.set k (c.advanced n), draws := t.draws }
  wf : Memory.wf t.mem
  get : ∀ j, Memory.get t.mem j =
    if dst ≤ j ∧ j < dst + n then Memory.get s.mem (src + (j - dst)) else Memory.get s.mem j

section
variable {s : State} {k : Fin 4} {c : DmaChannel} {w : Width}

/-- An address of the low 64 MiB so many whole units on, aligned. -/
theorem units_toNat {a : Word} {m : Nat} (hm : w.bytes ∣ m) (ha : a.toNat < 2 ^ 26) (hfit : m < 2 ^ 26) :
    (a + BitVec.ofNat 32 m).toNat / w.bytes * w.bytes = (w.align a).toNat + m := by
  have hsum : (a + BitVec.ofNat 32 m).toNat = a.toNat + m := by
    rw [BitVec.toNat_add, BitVec.toNat_ofNat]
    omega
  rw [align_toNat, hsum]
  obtain ⟨q, rfl⟩ := hm
  cases w <;> simp only [Width.bytes] <;> omega

/-- The source of a unit lies in EWRAM behind those before it. -/
theorem ewram_unit {a : Word} {m n : Nat} (hm : w.bytes ∣ m) (hr : regionOf (w.align a) = .ewram)
    (hfit : (w.align a).toNat % 0x40000 + n ≤ 0x40000) (hn : m < n) : regionOf (a + BitVec.ofNat 32 m) = .ewram ∧
    memoryLocation .ewram ((a + BitVec.ofNat 32 m).toNat / w.bytes * w.bytes) =
      ewramBase + (w.align a).toNat % 0x40000 + m := by
  have hpage := regionOf_ewram.mp hr
  have hpage' := regionOf_ewram.mp ((regionOf_align w a).symm.trans hr)
  have hnum := units_toNat hm (a := a) (by omega) (by omega)
  constructor
  · rw [← regionOf_align w, regionOf_ewram, align_toNat, hnum]
    omega
  · rw [hnum]
    simp only [memoryLocation]
    omega

/-- The destination of a unit lies in IWRAM behind those before it. -/
theorem iwram_unit {a : Word} {m n : Nat} (hm : w.bytes ∣ m) (hr : regionOf (w.align a) = .iwram)
    (hfit : (w.align a).toNat % 0x8000 + n ≤ 0x8000) (hn : m < n) : regionOf (a + BitVec.ofNat 32 m) = .iwram ∧
    memoryLocation .iwram ((a + BitVec.ofNat 32 m).toNat / w.bytes * w.bytes) =
      iwramBase + (w.align a).toNat % 0x8000 + m := by
  have hpage := regionOf_iwram.mp hr
  have hpage' := regionOf_iwram.mp ((regionOf_align w a).symm.trans hr)
  have hnum := units_toNat hm (a := a) (by omega) (by omega)
  constructor
  · rw [← regionOf_align w, regionOf_iwram, align_toNat, hnum]
    omega
  · rw [hnum]
    simp only [memoryLocation]
    omega

/-- A unit written behind what has been copied. -/
theorem copied_unit {src dst m : Nat} {t : State} {v : Word} (h : Copied s k c src dst m t)
    (hapart : src + m + w.bytes ≤ dst) (hv : ∀ i, i < w.bytes → byteOf v i = Memory.get t.mem (src + m + i)) :
    Copied s k c src dst (m + w.bytes)
      ((t.bump.store w (dst + m) v).setDma k ((c.advanced m).advanced w.bytes)) := by
  obtain ⟨hframe, hwf, hget⟩ := h
  have hlane := fun i => get_store_lane (s := t.bump) hwf w (dst + m) v (i := i)
  have hother := fun j => get_store_of_lt (s := t.bump) hwf w (dst + m) v (j := j)
  refine ⟨?frame, Memory.wf_putAll hwf _, fun j => ?get⟩
  case frame =>
    have hdma : (t.dma.set k ((c.advanced m).advanced w.bytes)) = s.dma.set k (c.advanced (m + w.bytes)) := by
      rw [hframe, DmaChannel.advanced_add, set_fin_set]
    rw [← hdma]
    generalize t.mem = mem, t.draws = draws at hframe
    rw [hframe]
    rfl
  case get =>
    refine Eq.trans (b := Memory.get (t.bump.store w (dst + m) v).mem j) rfl ?_
    by_cases hj : dst + m ≤ j ∧ j < dst + m + w.bytes
    · obtain ⟨i, rfl⟩ := Nat.exists_eq_add_of_le hj.1
      have hi : i < w.bytes := by omega
      have hin : dst ≤ dst + m + i ∧ dst + m + i < dst + (m + w.bytes) := by omega
      have hsrc : src + (dst + m + i - dst) = src + m + i := by omega
      have hout : ¬(dst ≤ src + m + i ∧ src + m + i < dst + m) := by omega
      rw [hlane i hi, hv i hi, hget, if_neg hout, if_pos hin, hsrc]
    · have hsame : (dst ≤ j ∧ j < dst + m) ↔ dst ≤ j ∧ j < dst + (m + w.bytes) := by omega
      rw [hother j (by omega)]
      exact (hget j).trans (if_congr hsame rfl rfl)

end

/-- A channel that increments both addresses over `n` bytes of EWRAM and of IWRAM, within one mirror of each. -/
structure DmaChannel.CopiesRam (c : DmaChannel) (k : Fin 4) (w : Width) (n : Nat) : Prop where
  plain : c.fifoMode k = false
  srcControl : c.srcControl = 0
  dstControl : c.dstControl = 0
  srcRegion : regionOf (w.align c.isrc) = .ewram
  srcFits : (w.align c.isrc).toNat % 0x40000 + n ≤ 0x40000
  dstRegion : regionOf (w.align c.idst) = .iwram
  dstFits : (w.align c.idst).toNat % 0x8000 + n ≤ 0x8000

section
variable {s : State} {k : Fin 4} {c : DmaChannel} {w : Width} {n : Nat}

/-- One unit more of a copy from EWRAM to IWRAM. -/
theorem copied_dmaUnit (h : c.CopiesRam k w n) {m : Nat} {t : State} (hm : w.bytes ∣ m) (hn : m + w.bytes ≤ n)
    (ht : Copied s k c (ewramBase + (w.align c.isrc).toNat % 0x40000) (iwramBase + (w.align c.idst).toNat % 0x8000) m t) :
    Copied s k c (ewramBase + (w.align c.isrc).toNat % 0x40000) (iwramBase + (w.align c.idst).toNat % 0x8000)
      (m + w.bytes) (dmaUnit k w t) := by
  have hpos : 0 < w.bytes := by cases w <;> decide
  have hlt : m < n := by omega
  obtain ⟨hsu, hsl⟩ := ewram_unit hm h.srcRegion h.srcFits hlt
  obtain ⟨hdu, hdl⟩ := iwram_unit hm h.dstRegion h.dstFits hlt
  have hmem : (regionOf (c.isrc + BitVec.ofNat 32 m)).isMemory = true := by rw [hsu]; rfl
  have hchannel : t.dma[k] = c.advanced m := by
    rw [ht.frame]
    exact getElem_set_fin_same ..
  have hunit := dmaUnit_iwram w hchannel rfl h.plain h.srcControl h.dstControl hsu hdu
  dsimp only [DmaChannel.advanced] at hunit
  rw [hdl] at hunit
  rw [hunit]
  refine copied_unit ht ?apart fun i hi => ?value
  case apart =>
    have hfit := h.srcFits
    simp only [ewramBase, iwramBase]
    omega
  case value => rw [byteOf_busRead_memory hmem hi, hsu, hsl]

/-- The units of a copy from EWRAM to IWRAM. -/
theorem copied_dmaUnits (hm : s.MemoryInv) (h : c.CopiesRam k w n) {units : Nat} (hunits : units * w.bytes ≤ n) :
    Copied s k c (ewramBase + (w.align c.isrc).toNat % 0x40000) (iwramBase + (w.align c.idst).toNat % 0x8000)
      (units * w.bytes) (dmaUnits k w units (s.setDma k { c with pending := false })) := by
  induction units with
  | zero =>
    have hzero : c.advanced 0 = { c with pending := false } := by simp [DmaChannel.advanced]
    rw [Nat.zero_mul]
    refine ⟨by rw [hzero]; rfl, hm.mem, fun j => ?_⟩
    rw [if_neg (by omega)]
    rfl
  | succ units ih =>
    rw [Nat.succ_mul] at hunits ⊢
    rw [dmaUnits_succ]
    exact copied_dmaUnit h (Dvd.intro_left _ rfl) hunits (ih (by omega))

end

/-! ### What the copied bytes read -/

section
variable {s t : State} {k : Fin 4} {c : DmaChannel} {src dst : Word} {n : Nat}
  (h : Copied s k c (ewramBase + src.toNat % 0x40000) (iwramBase + dst.toNat % 0x8000) n t)
  (hdfit : dst.toNat % 0x8000 + n ≤ 0x8000)

include h hdfit in
theorem peek_copied_dst (hsr : regionOf src = .ewram) (hsfit : src.toNat % 0x40000 + n ≤ 0x40000)
    (hdr : regionOf dst = .iwram) {j : Nat} (hj : j < n) :
    peek t (dst + BitVec.ofNat 32 j) = peek s (src + BitVec.ofNat 32 j) := by
  have hone : ∀ a : Word, Width.byte.align a = a := fun a => rfl
  obtain ⟨hsu, hsl⟩ := ewram_unit (w := .byte) (a := src) (m := j) (one_dvd j) hsr hsfit hj
  obtain ⟨hdu, hdl⟩ := iwram_unit (w := .byte) (a := dst) (m := j) (one_dvd j) hdr hdfit hj
  rw [Width.bytes, Nat.div_one, Nat.mul_one] at hsl hdl
  have hsmem : (regionOf (src + BitVec.ofNat 32 j)).isMemory = true := by rw [hsu]; rfl
  have hdmem : (regionOf (dst + BitVec.ofNat 32 j)).isMemory = true := by rw [hdu]; rfl
  have hsource := peek_of_location s hsmem (locationOf_memory s hsmem)
  have hcopy := peek_of_location t hdmem (locationOf_memory t hdmem)
  rw [hsu, hsl, hone] at hsource
  rw [hdu, hdl, hone, h.get, if_pos (by omega), Nat.add_sub_cancel_left] at hcopy
  exact hcopy.trans hsource.symm

include h hdfit in
theorem peek_copied_frame {a : Word} (hio : regionOf a ≠ .io) (ha : regionOf a = .iwram →
    a.toNat % 0x8000 < dst.toNat % 0x8000 ∨ dst.toNat % 0x8000 + n ≤ a.toNat % 0x8000) : peek t a = peek s a := by
  have hsame : SameCore (s.setMem t.mem) t ∧ t.save = s.save := by
    rw [h.frame]
    exact ⟨⟨rfl, rfl, rfl, rfl, rfl, rfl, rfl, rfl, rfl, rfl, rfl⟩, rfl⟩
  refine (peek_congr_memory (s := s.setMem t.mem) hsame.1 hsame.2 rfl hio).trans (peek_setMem fun j hj => ?_)
  rw [h.get, if_neg]
  rintro ⟨hlow, hhigh⟩
  obtain ⟨hra, rfl⟩ := regionOf_of_locationOf hj (.inr ⟨rfl, by simp only [iwramBase] at hlow hhigh; omega⟩)
  have h := ha hra
  simp only [memoryLocation] at hlow hhigh
  omega

end

/-! ### Completion (61_timers R945) -/

/-- The end of a transfer that is not repeated. -/
theorem dmaComplete_once {k : Fin 4} {t : State} {c : DmaChannel} (hc : t.dma[k] = c) (h : c.repeats = false) :
    dmaComplete k t = { t with
      irq := { t.irq with iff := if c.irqEnabled then t.irq.iff ||| (1#16 <<< (8 + k.val)) else t.irq.iff }
      dma := t.dma.set k { c with cntH := c.cntH &&& 0x7FFF#16 } } := by
  unfold dmaComplete
  dsimp only
  rw [hc, h]
  cases c.irqEnabled <;> rfl

/-- A one-shot transfer copies its bytes and completes. -/
theorem dmaTransfer_once {s : State} {k : Fin 4} {w : Width} {n : Nat} (hm : s.MemoryInv) (h : s.dma[k].CopiesRam k w n)
    (hw : w = if s.dma[k].wide then .word else .half) (hn : n = s.dma[k].icount * w.bytes)
    (honce : s.dma[k].repeats = false) :
    ∃ u, Copied s k s.dma[k] (ewramBase + (w.align s.dma[k].isrc).toNat % 0x40000)
        (iwramBase + (w.align s.dma[k].idst).toNat % 0x8000) n u ∧
      dmaTransfer k s = .next { u with
        irq := { s.irq with iff := if s.dma[k].irqEnabled then s.irq.iff ||| (1#16 <<< (8 + k.val)) else s.irq.iff }
        dma := s.dma.set k { s.dma[k].advanced n with cntH := s.dma[k].cntH &&& 0x7FFF#16 } } := by
  have hcopied := copied_dmaUnits hm h (units := s.dma[k].icount) hn.ge
  rw [← hn] at hcopied
  refine ⟨_, hcopied, ?_⟩
  have hstop : ¬s.dma[k].srcControl = 3 := by rw [h.srcControl]; decide
  have hwidth : dmaWidth s.dma[k] k = w := by rw [dmaWidth, h.plain, Bool.false_or, hw]
  have hcount : dmaCount s.dma[k] k = s.dma[k].icount := by rw [dmaCount, h.plain]; rfl
  unfold dmaTransfer
  dsimp only
  rw [if_neg hstop, hwidth, hcount]
  generalize dmaUnits k w s.dma[k].icount (s.setDma k { s.dma[k] with pending := false }) = u at hcopied
  have hdma : u.dma = s.dma.set k (s.dma[k].advanced n) := by rw [hcopied.frame]
  have hirq : u.irq = s.irq := by rw [hcopied.frame]
  have hchannel : u.dma[k] = s.dma[k].advanced n := by rw [hdma, getElem_set_fin_same]
  rw [dmaComplete_once hchannel honce, hdma, set_fin_set, hirq]
  rfl

/-- Settles O59: the register writes byte by byte; the transfer by induction on its units, each copied behind those before
it (`copied_dmaUnits`), so that memory outside the destination stays. -/
theorem dmaTransfer_spec : Obligations.DmaTransfer := by
  refine ⟨?registers, ?triggers, ?transfer⟩
  case registers =>
    rintro s k _ v rfl
    exact ⟨busWrite_dmaSad s k v, busWrite_dmaDad s k v, busWrite_dmaCntL s k v, busRead_dmaCntH s k,
      busWrite_dmaCntH s k v⟩
  case triggers =>
    rintro s timing k _ rfl
    exact ⟨(triggerDma_get ..).trans (DmaChannel.trigger_eq ..), rfl⟩
  case transfer =>
    rintro s k _ w src dst n rfl
    refine ⟨fun h => if_pos h, ?_⟩
    rintro hm htiming hw hn hsrc hdst honce rfl rfl hsr hsfit hdr hdfit
    have hplain : s.dma[k].fifoMode k = false := by
      rw [DmaChannel.fifoMode, beq_eq_false_iff_ne.2 htiming, Bool.false_and]
    obtain ⟨u, hcopied, ht⟩ := dmaTransfer_once hm ⟨hplain, hsrc, hdst, hsr, hsfit, hdr, hdfit⟩ hw hn honce
    obtain ⟨hregs, hcpsr, hpc, hcore⟩ := cpuKept_dmaTransfer ht
    have hpeek := fun (i : Irq) (d : Vector DmaChannel 4) {a : Word} => peek_congr_memory (s := u)
      (t := { u with irq := i, dma := d }) ⟨rfl, rfl, rfl, rfl, rfl, rfl, rfl, rfl, rfl, rfl, rfl⟩ rfl rfl (a := a)
    refine ⟨_, ht, fun j hj => ?_, fun a hio ha => ?_, getElem_set_fin_same .., fun j hj => getElem_set_fin_ne _ _ _ hj,
      rfl, hcpsr, hpc, regsSameBut_of_regs hregs, hcore, ?_⟩
    · have hregion : regionOf (w.align s.dma[k].idst + BitVec.ofNat 32 j) = .iwram :=
        (iwram_unit (w := .byte) (one_dvd j) hdr hdfit hj).1
      exact (hpeek _ _ (by rw [hregion]; decide)).trans (peek_copied_dst hcopied hdfit hsr hsfit hdr hj)
    · exact (hpeek _ _ hio).trans (peek_copied_frame hcopied hdfit hio ha)
    · dsimp only
      rw [hcopied.frame]
      exact ⟨rfl, rfl, rfl, rfl, rfl, rfl, rfl, rfl, rfl⟩

end Sys2Proof.Machine
end
